-- ==== Sys2Proof/Word.lean ====
section
/-! DEFINITION. The words of the machine and the names of its register fields (R14, R18). -/

namespace Sys2Proof

/-- A 64-bit scalar register value (R41). -/
abbrev DWord := BitVec 64
/-- A 32-bit lane, scratchpad word or instruction slot (R14, R85, R114). -/
abbrev Word := BitVec 32
/-- One byte of memory. -/
abbrev Byte := BitVec 8

/-- A six-bit register field: S, V and K registers (R18). -/
abbrev Reg := BitVec 6
/-- A capability register C0 to C15 (R18). -/
abbrev CReg := BitVec 4
/-- A mask register M0 to M15 (R18). -/
abbrev MReg := BitVec 4
/-- A governing mask M0 to M7 (R86). -/
abbrev Gov := BitVec 3
/-- A probability register P0 to P15 (R18). -/
abbrev PReg := BitVec 4
/-- A scale table Q0 to Q7 (R18). -/
abbrev QReg := BitVec 3
/-- An accumulator tile Z0 to Z7 (R18). -/
abbrev ZReg := BitVec 3
/-- A latch L0 to L7 (R18). -/
abbrev LReg := BitVec 3
/-- A ring object B0 to B7 (R18). -/
abbrev Ring := BitVec 3
/-- A token T0 to T31 (R18). -/
abbrev Tok := BitVec 5
/-- An FP4 negative-zero register NZ0 to NZ3 (R18). -/
abbrev NzReg := BitVec 2
/-- A scope code (R125): 0 lane, 1 core, 2 quad, 3 die, 4 pkg, 5 pod. -/
abbrev Scope := BitVec 3

end Sys2Proof
end

