-- ==== Sys2Proof/Syntax.lean ====
section
/-! DEFINITION. The instructions and steps of the machine: one constructor for each row of the opcode table.
A slot form carries its operands after decoding (register numbers narrowed to their file, immediates in their
extended width under R21, operand words split into their fields). A row that has no encoding is a step of the
order machine or an event of the device; its constructor carries the agent it happens at and the choices the
spec leaves to the environment. Cores are numbered 0 to 319, partitions 0 to 11. -/

namespace Sys2Proof

/-- The operand word of the copy class (R136). -/
structure XWord where
  n   : Reg
  cap : CReg
  off : BitVec 16
  deriving DecidableEq, Repr

/-- The order, size and operand word of an atomic (R235). -/
structure AtWord where
  ord   : BitVec 2
  wide  : Bool
  off   : BitVec 16
  scope : Scope
  cap   : CReg
  deriving DecidableEq, Repr

/-- The operand word of MMA and MMAT (R170), with the place codes of A and B of R167. -/
structure MmaWord where
  avec   : Bool
  bkind  : BitVec 2
  zt     : ZReg
  arr    : Bool
  nza    : NzReg
  nzb    : NzReg
  fresh  : Bool
  strict : Bool
  deriving DecidableEq, Repr

/-- The operand word of MST (R173). -/
structure MstWord where
  out  : BitVec 4
  resc : Bool
  qs   : QReg
  zpe  : Bool
  qoff : BitVec 2
  bse  : Bool
  bsr  : Reg
  deriving DecidableEq, Repr

/-- One record of an order log, 32 bytes (R279), as its four 64-bit words, lowest first. -/
structure LogRec where
  w0 : DWord
  w1 : DWord
  w2 : DWord
  w3 : DWord
  deriving DecidableEq, Repr, Inhabited

/-- A live-state list (R216): a bitmap over each file, and the scratchpad ranges it keeps. -/
structure Live where
  s  : BitVec 64
  v  : BitVec 64
  k  : BitVec 64
  c  : BitVec 16
  m  : BitVec 16
  p  : BitVec 16
  q  : BitVec 8
  z  : BitVec 8
  l  : BitVec 8
  nz : BitVec 4
  ranges : List (Nat × Nat)
  deriving DecidableEq, Repr, Inhabited

/-- The resources a grant gives a partition (R341, R344 to R346, R354): quads by package number, frames as
class × 2^24 + frame, ways by die, SHARE by memory unit (stacks 0 to 11, CXL ports 12 to 19), hoist streams by hoist,
queues and die barriers as die × 64 + number, the number of records, the multicast group of each die, and the object,
the frame and the capacity of the trace buffer. -/
structure Grant where
  quads    : List Nat
  frames   : List Nat
  ways     : List (BitVec 16)
  shares   : List (Nat × Nat)
  streams  : List Nat
  queues   : List Nat
  recs     : Nat
  dieBars  : List Nat
  pkgBars  : List Nat
  podBars  : List Nat
  mcast    : List (Nat × List Nat)
  killOn   : Word
  traceObj : Nat
  traceFrame : Nat
  traceCap : Nat
  deriving DecidableEq, Repr, Inhabited

/-- An object of a launch (R393, R303, R309): its number, TYPE, size, layout, class and frames, the bytes emitted, and
PKG and RMTOBJ, or HOSTVA and HOSTLEN. -/
structure ObjDecl where
  num    : Nat
  typ    : Nat
  size   : Nat
  layout : Nat
  cls    : Nat
  frames : List Nat
  bytes  : List Byte
  arg0   : Nat
  arg1   : Nat
  stack  : Option Nat := none
  deriving DecidableEq, Repr, Inhabited

/-- A capability of a task's list (R398): to an object with rights, or to a queue of a logical die with rights. -/
inductive CapDecl where
  | obj (r : CReg) (num rights : Nat)
  | queue (r : CReg) (die q rights : Nat)
  deriving DecidableEq, Repr, Inhabited

/-- A task of a launch (R398, R400), with its record number and capability list; `bars` are its barrier memberships, by
scope code and logical number, and one not `armed` waits in IDLE for an ENQ; `arenaReg` takes the handle of its own arena
where `caps` gives that arena no register (log entry 135). -/
structure TaskDecl where
  num      : Nat
  entry    : BitVec 48
  lid      : Option Nat
  die      : Nat
  queue    : Nat
  prio     : Nat
  job      : BitVec 32
  lidx     : BitVec 56
  args     : List DWord
  caps     : List CapDecl
  capl     : Nat
  lease    : Nat
  pending  : Nat
  succ     : List Nat
  parent   : Option Nat
  arena    : Nat
  digest   : Nat
  frame    : Option (Nat × Nat)
  bars     : List (Nat × Nat)
  contract : Bool
  armed    : Bool
  priv     : Bool
  arenaReg : CReg := 0
  deriving DecidableEq, Repr, Inhabited

/-- A relocation record (R403). -/
structure Reloc where
  place  : Nat
  target : Nat
  kind   : Nat
  arg0   : Nat
  arg1   : Nat
  lsb    : Nat
  width  : Nat
  data   : Bool
  deriving DecidableEq, Repr, Inhabited

/-- An entry of a lease set of a launch (R399): its object, range, W and X. -/
structure LeaseDecl where
  obj   : Nat
  start : Nat
  len   : Nat
  w     : Bool
  x     : Bool
  deriving DecidableEq, Repr, Inhabited

/-- A launch as the virtual function requests it (R349, R401, R404): the image; what the request overrides or names; and
what the loader chooses: the object numbers and frames in it, the code object and its frames, the ring, the dies and
quads that logical dies and quads take, the stacks that logical stacks take, and the grants of its logical barriers by scope
code. -/
structure LaunchReq where
  word    : DWord
  det     : Option (BitVec 2)
  strict  : Option Bool
  ctx     : Nat
  code    : List Word
  codeObj : ObjDecl
  entries : List (Nat × Bool)
  lives   : List (Nat × Live)
  bounds  : List (Nat × Nat)
  objs    : List ObjDecl
  tasks   : List TaskDecl
  jobs    : List (BitVec 32 × Nat)
  sets    : List (Nat × List LeaseDecl)
  arenas  : List (Nat × Nat)
  relocs  : List Reloc
  ringObj : Nat
  dies    : List Nat
  quads   : List (Nat × Nat)
  bars    : List (Nat × Nat × Nat)
  steals  : List (Nat × List (Nat × Nat))
  source  : Option (List (Nat × DWord) × DWord × List LogRec)
  stackMap : List Nat := []
  deriving DecidableEq, Repr, Inhabited

/-- A unit of the device that self-test exercises (R363): instance `u` of a core as ENGMAP numbers them, 6 for its
sequencer, scalar unit, coder or scratchpad; a stack with its hoist; a CXL port; a link; a home slice; a die's weight
store. Quads and cores are physical here: 21 quads on each die. -/
inductive DevUnit where
  | core (die quad idx u : Nat)
  | stack (s : Nat)
  | port (p : Nat)
  | link (l : Nat)
  | slice (die n : Nat)
  | wstore (die : Nat)
  deriving DecidableEq, Repr, Inhabited

/-- A reduce group (R382): its format (0 FP32, 1 INT32, 2 BF16), its size, the packages of its members in order, the
target object of the member on this package, the plane whose switches hold it, and the partition and the package of the
remote entries that name it. -/
structure GroupDecl where
  id      : Nat
  fmt     : Nat
  size    : Nat
  members : List Nat
  target  : Nat
  plane   : Nat := 0
  part    : Nat := 0
  pkg     : Nat := 0
  deriving DecidableEq, Repr, Inhabited

/-- The instructions and steps of the opcode table. -/
inductive Instr where
  /-- R49. -/
  | add (d a b : Reg)
  /-- R49. -/
  | addi (d a : Reg) (imm : BitVec 35)
  /-- R49. -/
  | sub (d a b : Reg)
  /-- R49. -/
  | mul (d a b : Reg)
  /-- R49. -/
  | mulh (d a b : Reg)
  /-- R49. -/
  | mulhu (d a b : Reg)
  /-- R50. -/
  | div (d a b : Reg)
  /-- R50. -/
  | divu (d a b : Reg)
  /-- R50. -/
  | rem (d a b : Reg)
  /-- R50. -/
  | remu (d a b : Reg)
  /-- R49. -/
  | and (d a b : Reg)
  /-- R49. -/
  | andi (d a : Reg) (imm : BitVec 35)
  /-- R49. -/
  | or (d a b : Reg)
  /-- R49. -/
  | ori (d a : Reg) (imm : BitVec 35)
  /-- R49. -/
  | xor (d a b : Reg)
  /-- R49. -/
  | xori (d a : Reg) (imm : BitVec 35)
  /-- R49. -/
  | shl (d a b : Reg)
  /-- R49. -/
  | shli (d a : Reg) (sh : BitVec 6)
  /-- R49. -/
  | shr (d a b : Reg)
  /-- R49. -/
  | shri (d a : Reg) (sh : BitVec 6)
  /-- R49. -/
  | sra (d a b : Reg)
  /-- R49. -/
  | srai (d a : Reg) (sh : BitVec 6)
  /-- R49. -/
  | slt (d a b : Reg)
  /-- R49. -/
  | sltu (d a b : Reg)
  /-- R49. -/
  | slti (d a : Reg) (imm : BitVec 35)
  /-- R49. -/
  | seq (d a b : Reg)
  /-- R49. -/
  | min (d a b : Reg)
  /-- R49. -/
  | max (d a b : Reg)
  /-- R49. -/
  | minu (d a b : Reg)
  /-- R49. -/
  | maxu (d a b : Reg)
  /-- R49. -/
  | sel (d a b : Reg)
  /-- R49. -/
  | clz (d a : Reg)
  /-- R49. -/
  | ctz (d a : Reg)
  /-- R49. -/
  | popc (d a : Reg)
  /-- R49. -/
  | li (d : Reg) (imm : BitVec 35)
  /-- R49. -/
  | mov (d a : Reg)
  /-- R52. -/
  | lds (d a : Reg) (imm : BitVec 32) (sz : BitVec 3)
  /-- R52. -/
  | sts (d a : Reg) (imm : BitVec 32) (sz : BitVec 3)
  /-- R53. -/
  | ldg (d a : Reg) (cap : CReg) (imm : BitVec 26) (sz : BitVec 3)
  /-- R53. -/
  | stg (d a : Reg) (cap : CReg) (imm : BitVec 26) (sz : BitVec 3)
  /-- R237. -/
  | atadd (d a b : Reg) (w : AtWord)
  /-- R237. -/
  | atmin (d a b : Reg) (w : AtWord)
  /-- R237. -/
  | atmax (d a b : Reg) (w : AtWord)
  /-- R237. -/
  | atand (d a b : Reg) (w : AtWord)
  /-- R237. -/
  | ator (d a b : Reg) (w : AtWord)
  /-- R237. -/
  | atxor (d a b : Reg) (w : AtWord)
  /-- R237. -/
  | atxchg (d a b : Reg) (w : AtWord)
  /-- R237. -/
  | atcas (d a b : Reg) (w : AtWord)
  /-- R237. -/
  | atfadd (d a b : Reg) (w : AtWord)
  /-- R54. -/
  | cnarrow (d a : CReg) (b : Reg)
  /-- R54. -/
  | crights (d a : CReg) (mask : BitVec 8)
  /-- R54. -/
  | cget (d : Reg) (a : CReg) (sel : BitVec 3)
  /-- R54. -/
  | cmovc (d a : CReg)
  /-- R55. -/
  | sget (d : Reg) (n : BitVec 12)
  /-- R55. -/
  | sset (n : BitVec 12) (a : Reg)
  /-- R55. -/
  | seed (d : Reg)
  /-- R55. -/
  | dget (d : Reg)
  /-- R91. -/
  | vadd (t : BitVec 2) (d a b : Reg) (m : Gov)
  /-- R91. -/
  | vsub (t : BitVec 2) (d a b : Reg) (m : Gov)
  /-- R91. -/
  | vmul (t : BitVec 2) (d a b : Reg) (m : Gov)
  /-- R91. -/
  | vfma (t : BitVec 2) (d a b : Reg) (m : Gov)
  /-- R91. -/
  | vfms (t : BitVec 2) (d a b : Reg) (m : Gov)
  /-- R91. -/
  | vmin (t : BitVec 2) (d a b : Reg) (m : Gov)
  /-- R91. -/
  | vmax (t : BitVec 2) (d a b : Reg) (m : Gov)
  /-- R91. -/
  | vabs (t : BitVec 2) (d a : Reg) (m : Gov)
  /-- R91. -/
  | vneg (t : BitVec 2) (d a : Reg) (m : Gov)
  /-- R92. -/
  | vcmpEq (t : BitVec 2) (d : MReg) (a b : Reg) (m : Gov)
  /-- R92. -/
  | vcmpNe (t : BitVec 2) (d : MReg) (a b : Reg) (m : Gov)
  /-- R92. -/
  | vcmpLt (t : BitVec 2) (d : MReg) (a b : Reg) (m : Gov)
  /-- R92. -/
  | vcmpLe (t : BitVec 2) (d : MReg) (a b : Reg) (m : Gov)
  /-- R93. -/
  | vand (d a b : Reg) (m : Gov)
  /-- R93. -/
  | vor (d a b : Reg) (m : Gov)
  /-- R93. -/
  | vxor (d a b : Reg) (m : Gov)
  /-- R93. -/
  | vshl (d a b : Reg) (m : Gov)
  /-- R93. -/
  | vshr (d a b : Reg) (m : Gov)
  /-- R93. -/
  | vsra (d a b : Reg) (m : Gov)
  /-- R93. -/
  | vsel (d a b : Reg) (m : Gov)
  /-- R93. -/
  | vmov (d a : Reg) (m : Gov)
  /-- R93. -/
  | vbcast (d a : Reg) (w : BitVec 2) (m : Gov)
  /-- R93. -/
  | vidx (d a b : Reg) (m : Gov)
  /-- R94. -/
  | vcvt (d a : Reg) (src dst : BitVec 3) (m : Gov)
  /-- R95. -/
  | vpack (d a : Reg) (pos : BitVec 3) (w : BitVec 2) (m : Gov)
  /-- R95. -/
  | vunpk (d a : Reg) (sx : Bool) (pos : BitVec 3) (w : BitVec 2) (m : Gov)
  /-- R96. -/
  | vpermb (d a b : Reg) (m : Gov)
  /-- R96. -/
  | vshuf (d a b : Reg) (m : Gov)
  /-- R96. -/
  | vrot (d a b : Reg) (m : Gov)
  /-- R97. -/
  | vred (d a : Reg) (op : BitVec 2) (t : BitVec 2) (m : Gov)
  /-- R97. -/
  | vscan (d a : Reg) (op : BitVec 2) (t : BitVec 2) (m : Gov)
  /-- R98. -/
  | vdot4 (d a b : Reg) (m : Gov)
  /-- R99. -/
  | vresc (d a : Reg) (out : BitVec 2) (zpe : Bool) (qs : QReg) (m : Gov)
  /-- R100. -/
  | vqnt (d a b : Reg) (f : BitVec 3)
  /-- R100. -/
  | vdq (d a b : Reg) (f : BitVec 3)
  /-- R101. -/
  | vexp2 (d a : Reg) (m : Gov)
  /-- R101. -/
  | vlog2 (d a : Reg) (m : Gov)
  /-- R101. -/
  | vrcp (d a : Reg) (m : Gov)
  /-- R101. -/
  | vrsq (d a : Reg) (m : Gov)
  /-- R101. -/
  | vtanh (d a : Reg) (m : Gov)
  /-- R104. -/
  | vrand (d a : Reg) (m : Gov)
  /-- R105. -/
  | vld (d a : Reg) (imm : BitVec 32) (m : Gov)
  /-- R105. -/
  | vst (d a : Reg) (imm : BitVec 32) (m : Gov)
  /-- R105. -/
  | vlds (d a b : Reg) (m : Gov)
  /-- R105. -/
  | vsts (d a b : Reg) (m : Gov)
  /-- R105. -/
  | vgth (d a b : Reg) (m : Gov)
  /-- R106. -/
  | vsct (d a b : Reg) (m : Gov)
  /-- R108. -/
  | vldg (d a : Reg) (cap : CReg) (imm : BitVec 26) (m : Gov)
  /-- R108. -/
  | vstg (d a : Reg) (cap : CReg) (imm : BitVec 26) (m : Gov)
  /-- R109. -/
  | vldq (d : QReg) (a : Reg) (imm : BitVec 32) (m : Gov)
  /-- R110. -/
  | vmand (d a b : MReg)
  /-- R110. -/
  | vmor (d a b : MReg)
  /-- R110. -/
  | vmnot (d a : MReg)
  /-- R110. -/
  | vmpop (d : Reg) (a : MReg)
  /-- R110. -/
  | vmfst (d : Reg) (a : MReg)
  /-- R110. -/
  | vmset (d : MReg) (a b : Reg)
  /-- R168. -/
  | mcfg (t : Tok) (n : Bool) (a : Reg) (toks : List Tok)
  /-- R168. -/
  | mdrain (t : Tok) (n : Bool) (toks : List Tok)
  /-- R169. -/
  | mlatch (t : Tok) (l : LReg) (b : Reg) (sc vec : Bool) (toks : List Tok)
  /-- R171. -/
  | mma (t : Tok) (a b : Reg) (w : MmaWord) (toks : List Tok)
  /-- R171. -/
  | mmat (t : Tok) (a b : Reg) (w : MmaWord) (toks : List Tok)
  /-- R172. -/
  | mzero (t : Tok) (z : ZReg) (int : Bool) (toks : List Tok)
  /-- R172. -/
  | mldz (t : Tok) (z : ZReg) (b : Reg) (int : Bool) (toks : List Tok)
  /-- R174. -/
  | mst (t : Tok) (z : ZReg) (b : Reg) (w : MstWord) (toks : List Tok)
  /-- R175. -/
  | mtrn (t : Tok) (a b : ZReg) (toks : List Tok)
  /-- R175. -/
  | mstat (t : Tok) (a : ZReg) (b : Reg) (clr : Bool) (toks : List Tok)
  /-- R175. -/
  | mnz (t : Tok) (a : Reg) (n : NzReg) (toks : List Tok)
  /-- R140. -/
  | xld (t : Tok) (a b : Reg) (ring shape flag : Bool) (w : XWord) (toks : List Tok)
  /-- R140. -/
  | xst (t : Tok) (a b : Reg) (shape flag : Bool) (w : XWord) (toks : List Tok)
  /-- R232. -/
  | xmc (t : Tok) (a b : Reg) (ring shape flag : Bool) (w : XWord) (toks : List Tok)
  /-- R140. -/
  | xred (t : Tok) (a b : Reg) (int shape flag : Bool) (w : XWord) (toks : List Tok)
  /-- R153. -/
  | xhost (t : Tok) (a b : Reg) (out shape flag : Bool) (w : XWord) (toks : List Tok)
  /-- R150. -/
  | xchain (t : Tok) (a : Reg) (ch : Bool) (toks : List Tok)
  /-- R154. -/
  | xpf (t : Tok) (b : Reg) (lvl : Bool) (w : XWord) (toks : List Tok)
  /-- R154. -/
  | xres (t : Tok) (b : Reg) (lvl : Bool) (w : XWord) (toks : List Tok)
  /-- R329. -/
  | xsub (t : Tok) (r : Ring) (b : Reg) (out : Bool) (w : XWord) (toks : List Tok)
  /-- R331. -/
  | xunsub (t : Tok) (r : Ring) (toks : List Tok)
  /-- R334. -/
  | xbmv (t : Tok) (a b : Reg) (flag : Bool) (fmt : BitVec 2) (w : XWord) (toks : List Tok)
  /-- R337. -/
  | xbfen (t : Tok) (b : Reg) (w : XWord) (toks : List Tok)
  /-- R315. -/
  | xinv (t : Tok) (mode : BitVec 2) (flag : Bool) (n : Reg) (toks : List Tok)
  /-- R183. -/
  | kbind (d a b : Reg)
  /-- R184. -/
  | kinitEnc (d : Reg)
  /-- R184. -/
  | kinitDec (d : Reg)
  /-- R185. -/
  | kenc (d a : Reg) (p : PReg) (w : Bool) (m : BitVec 2)
  /-- R188. -/
  | kdec (d a : Reg) (p : PReg) (w : Bool) (m : BitVec 2)
  /-- R190. -/
  | kbypE (d a : Reg) (n : BitVec 4) (w : Bool) (m : BitVec 2)
  /-- R190. -/
  | kbypD (d a : Reg) (n : BitVec 4) (w : Bool) (m : BitVec 2)
  /-- R189. -/
  | ktgt (d a : Reg) (w : Bool) (m : BitVec 2)
  /-- R186. -/
  | kflush (d : Reg)
  /-- R194. -/
  | ksave (d a : Reg) (imm : BitVec 32)
  /-- R194. -/
  | krest (d a : Reg) (imm : BitVec 32)
  /-- R193. -/
  | kstat (d a : Reg) (sel : BitVec 3)
  /-- R196. -/
  | pld (d : PReg) (a : Reg) (alpha : Reg) (rows : BitVec 3)
  /-- R197. -/
  | pqnt (d : PReg) (a : Reg) (alpha : Reg) (rows : BitVec 3)
  /-- R197. -/
  | pnrm (d : PReg) (a : Reg) (alpha : Reg) (rows : BitVec 3)
  /-- R7. -/
  | nop
  /-- R56. -/
  | br (imm : BitVec 47)
  /-- R56. -/
  | bc (imm : BitVec 32) (a b : Reg) (c : BitVec 3)
  /-- R56. -/
  | bz (imm : BitVec 41) (a : Reg)
  /-- R56. -/
  | bnz (imm : BitVec 41) (a : Reg)
  /-- R56. -/
  | jr (a : Reg)
  /-- R56. -/
  | call (imm : BitVec 47)
  /-- R56. -/
  | ret
  /-- R56. -/
  | loop (imm : BitVec 41) (a : Reg)
  /-- R220. -/
  | spawn (d a b : Reg) (n : BitVec 3)
  /-- R225. -/
  | arrive (d a b : Reg) (s : Scope)
  /-- R226. -/
  | waitb (d a b : Reg) (s : Scope)
  /-- R142. -/
  | waitw (a b : Reg) (c : BitVec 3)
  /-- R146. -/
  | awaitf (d : Reg) (r : Ring)
  /-- R147. -/
  | relslot (r : Ring)
  /-- R124. -/
  | twait (t : Tok)
  /-- R259. -/
  | yield (tick : Bool)
  /-- R215. -/
  | safept (n : BitVec 35)
  /-- R126. -/
  | drain (s : Scope)
  /-- R127. -/
  | fence (s : Scope)
  /-- R208. -/
  | trap (n : BitVec 9)
  /-- R208. -/
  | svc (n : BitVec 9)
  /-- R208. -/
  | eret
  /-- R58. -/
  | retire
  /-- R256. -/
  | enq (d a b : Reg) (n : BitVec 3) (cap : CReg)
  /-- R257. -/
  | tdec (d a : Reg)
  /-- R258. -/
  | cancel (d a : Reg)
  /-- R287. -/
  | logmark (a : Reg) (tag : BitVec 3)
  /-- R117. -/
  | issue (c : Nat)
  /-- R9. -/
  | resultWrite (c : Nat)
  /-- R48. -/
  | divideResult (c : Nat)
  /-- R48. -/
  | valueArrives (c k : Nat)
  /-- R117. -/
  | queuePerform (c q k : Nat)
  /-- R115. -/
  | fill (c k : Nat)
  /-- R117. -/
  | evict (c k : Nat)
  /-- R117. -/
  | engineRead (c k w : Nat)
  /-- R117. -/
  | engineWrite (c k w : Nat)
  /-- R117. -/
  | resolve (c k : Nat)
  /-- R145. -/
  | claim (c k : Nat)
  /-- R145. -/
  | ringFill (c k : Nat)
  /-- R152. -/
  | chainRecordRead (c k : Nat)
  /-- R153. -/
  | hostCompletion (c k w : Nat) (err : BitVec 4) (v : Word)
  /-- R243. -/
  | pkgBarrierComplete (level ix : Nat)
  /-- R221. -/
  | childEntry (c : Nat)
  /-- R241. -/
  | accept (c : Nat)
  /-- R237. -/
  | atomicPerform (c q : Nat)
  /-- R239. -/
  | acquireDone (c : Nat)
  /-- R246. -/
  | refreshWindowEnd (g : Nat)
  /-- R271. -/
  | request (c k : Nat)
  /-- R261. -/
  | bind (p q c rec : Nat)
  /-- R262. -/
  | dispatch (c : Nat)
  /-- R265. -/
  | stealAttempt (c : Nat)
  /-- R266. -/
  | timetableRelease (p rec : Nat)
  /-- R267. -/
  | deadlineMiss (p rec : Nat)
  /-- R269. -/
  | hangFault (c : Nat)
  /-- R217. -/
  | preEmption (c why : Nat)
  /-- R211. -/
  | quickStop (c why : Nat)
  /-- R209. -/
  | terminalCause (c : Nat) (code : Byte) (info : DWord)
  /-- R208. -/
  | svcAnswer (c : Nat) (v : DWord)
  /-- R321. -/
  | unmapPreparation (c : Nat)
  /-- R321. -/
  | unmapFree (c : Nat)
  /-- R308. -/
  | walk (c k : Nat)
  /-- R320. -/
  | tableChange (p kind i : Nat) (v : List DWord)
  /-- R315. -/
  | invalidate (h k : Nat)
  /-- R315. -/
  | ack (h k : Nat)
  /-- R312. -/
  | leaseRevoke (p set i : Nat)
  /-- R316. -/
  | unmap (p obj : Nat) (start len : Nat)
  /-- R309. -/
  | hostHandleUnbind (p obj : Nat)
  /-- R317. -/
  | arenaBirth (p rec : Nat)
  /-- R318. -/
  | arenaDeath (p rec : Nat)
  /-- R318. -/
  | free (p rec : Nat)
  /-- R329. -/
  | push (c k : Nat)
  /-- R330. -/
  | pull (c k : Nat)
  /-- R336. -/
  | bankRead (c k w : Nat)
  /-- R336. -/
  | writeBack (line : Nat)
  /-- R337. -/
  | bankFence (c k : Nat)
  /-- R380. -/
  | remotePerform (k : Nat) (vals : List (Nat × Nat × Word))
  /-- R380. -/
  | remoteComplete (k : Nat)
  /-- R284. -/
  | replayDivergenceFault (c : Nat)
  /-- R294. -/
  | serialisedReExecution (p : Nat)
  /-- R344. -/
  | frcTick
  /-- R373. -/
  | powerSample (watts : Nat) (dies hbms : List Nat) (hold : Nat)
  /-- R347. -/
  | wayMaskChange (p q die : Nat) (mask : BitVec 16) (lines : List Nat)
  /-- R341. -/
  | partitionBind (p : Nat) (g : Grant)
  /-- R355. -/
  | queueKill (p q code : Nat)
  /-- R356. -/
  | killClear (p q : Nat)
  /-- R349. -/
  | launch (p : Nat) (r : LaunchReq)
  /-- R360. -/
  | powerGood
  /-- R361. -/
  | imageFetch (kind : Nat) (hdr body : List Byte)
  /-- R363. -/
  | selfTest (bad : List DevUnit)
  /-- R28. -/
  | engmapWrite (c : Nat) (v : DWord)
  /-- R365. -/
  | reducedService
  /-- R366. -/
  | fullService (trained : List Nat)
  /-- R362. -/
  | antiRollbackRaise (kind v : Nat) (sig : List Byte)
  /-- R368. -/
  | attestationReport (who : Option Nat) (nonce : List Byte)
  /-- R369. -/
  | uncorrectableError (kind c a : Nat) (p : Option Nat)
  /-- R369. -/
  | correctedError (kind c a : Nat)
  /-- R371. -/
  | engineFailure (c u : Nat)
  /-- R376. -/
  | flitReplay (l : Nat) (good : Bool)
  /-- R376. -/
  | linkOutOfService (l : Nat)
  /-- R377. -/
  | requestAbandoned (k : Nat)
  /-- R382. -/
  | reduceGroupRegister (g : GroupDecl)
  /-- R282. -/
  | logFullRelease (p r n : Nat)
  /-- R283. -/
  | replaySupply (p r n : Nat)
  /-- R283. -/
  | logExhausted (p r : Nat)
  /-- R44. -/
  | flagsWrite (v : DWord)
  /-- R43. -/
  | hintdropWrite (v : DWord)
  /-- R69. -/
  | roundctlWrite (v : DWord)
  /-- R166. -/
  | fmtWrite (n : Bool) (v : DWord)
  /-- R247. -/
  | wswinAccess (set : Option DWord)
  /-- R276. -/
  | logctlWrite (v : DWord)
  /-- R351. -/
  | evselWrite (n : BitVec 3) (v : DWord)
  /-- R203. -/
  | trapRegisterWrite (n : BitVec 2) (v : DWord)
  /-- R369. -/
  | lostLineRepair (line : Nat) (v : List Byte)
  /-- R375. -/
  | podBind (n : Nat) (bars : List (Nat × Nat))
  /-- R341. -/
  | partitionUnbind (p : Nat)
  /-- R213. -/
  | debugStopResume (c : Nat)
  /-- R376. -/
  | linkRetrained (l : Nat)
  /-- R318. -/
  | jobAbandon (p rec : Nat)
  deriving DecidableEq, Repr, Inhabited

end Sys2Proof
end

