-- ==== Sys2Proof/Config.lean ====
section
/-! DEFINITION. What an implementation fixes and the spec leaves open: the free values of the model. Each is an
opaque constant, so that nothing can be proved of its value; the assumption log names every one. -/

namespace Sys2Proof.Config

/-- The physical entropy source behind SEED and the job seeds (R55, R286): a fresh draw for each counter value. -/
opaque entropy : Nat → BitVec 64

/-- The nearest FP32 value of a transcendental form (0 VEXP2, 1 VLOG2, 4 VTANH) at an input so close to a midpoint
that 192 bits do not settle it (log entry 7). -/
opaque transcendental : Nat → BitVec 32 → BitVec 32

/-- The 64-byte lines that a CXL port (12 to 19) moves in 1,024 cycles: R3 gives about 1 TB/s each way (log entry 8). -/
opaque portLines : Nat → Nat

/-- The 64-byte lines that a memory unit moves in 1,024 cycles, which the budget of R344 is a share of. The twelve stacks (units 0
to 11) move 38.4 TB/s at 1 GHz (R3): 3,200 bytes a cycle each. -/
def unitLines (u : Nat) : Nat := if u < 12 then 3200 * 1024 / 64 else portLines u

/-- SHAKE256 with 64 bytes of output (R361, R367; log entry 9). -/
opaque shake256 : List Byte → BitVec 512

/-- A signature verifies under Ed448 root key 0 or 1: key, message, signature (R361; log entry 9). -/
opaque rootVerify : Nat → List Byte → List Byte → Bool

/-- The Ed448 signature of the device identity key, 114 bytes (R367, R368; log entry 9). -/
opaque identitySign : List Byte → BitVec 912

/-- The host administrator's signature on a request to raise an anti-rollback counter: KIND, value, signature (R362; log
entry 9). -/
opaque adminSigned : Nat → Nat → List Byte → Bool

/-- The device serial number, 16 bytes (R368; log entry 9). -/
opaque serial : BitVec 128

/-- PLIM in watts and the units removed, as a board configuration's body states them (R363, R373; log entry 9). -/
opaque boardPlim : List Byte → Nat
opaque boardRemoves : List Byte → List DevUnit

/-- The defect map and a grant as the bytes that are measured and attested (R367, R368; log entry 9). -/
opaque defectBytes : List DevUnit → List Byte
opaque grantBytes : Grant → List Byte

/-- What TRAPINFO holds, the error kind excepted, of an engine failure that no token reports (R205, R369, R371; log
entry 10). -/
opaque failInfo : Nat → BitVec 64

/-- The number behind the home die of a record (R248; log entry 130): which of a partition's dies holds it. -/
opaque recordDie : Grant → Nat → Nat

/-- How many XRES requests Bamosh's residency queue holds (R155; log entry 136). -/
opaque residencyDepth : Nat

/-- The home slice, within its die, of a line: a fixed function of its physical address, which no program can name (R233; log
entry 137). -/
opaque lineSlice : Nat → Nat

/-- The choice behind the way that a line takes as it enters its slice at a cycle, and behind the line that leaves for it
(R346; log entry 137). -/
opaque lineWay : Nat → Nat → Nat
opaque lineVictim : Nat → Nat → Nat

end Sys2Proof.Config
end

