-- ==== Sys2Proof/WellFormed.lean ====
section
/-! DEFINITION. Which instructions an encoding can name: the checks of R18 to R22 and of each form's own
description that remain once a register number is narrowed to its file. -/

namespace Sys2Proof

/-- What the decode of a slot reads of the context: the privilege (R40), and whether the format pair of each
logical array in force is FP4 (R160, R170). -/
structure Env where
  priv : Bool
  fp4a : Bool
  fp4b : Bool
  deriving DecidableEq, Repr, Inhabited

/-- Whether the pair of logical array `arr` is FP4. -/
def Env.fp4 (env : Env) (arr : Bool) : Bool := if arr then env.fp4b else env.fp4a

namespace Wf

/-- The assigned system register numbers of R43. -/
def assigned (n : BitVec 12) : Bool :=
  [0x000, 0x001, 0x002, 0x003, 0x008, 0x009, 0x00A, 0x00B, 0x010, 0x011, 0x012,
   0x018, 0x019, 0x01A, 0x01B, 0x01C, 0x01D].contains n.toNat
  || (0x020 ≤ n.toNat && n.toNat < 0x030)

/-- The RO registers of R43. -/
def readOnly (n : BitVec 12) : Bool :=
  [0x010, 0x011, 0x018, 0x019, 0x01B, 0x01C].contains n.toNat

/-- The P registers of R43. -/
def protectedReg (n : BitVec 12) : Bool :=
  [0x008, 0x009, 0x00A, 0x00B, 0x01A].contains n.toNat

/-- The operand group of `len` registers from Sn stays within S63 (R138, R230, R326). -/
def group (n : Reg) (len : Nat) : Bool := n.toNat + len ≤ 64

/-- The group of XLD, XST, XRED and XHOST: N = 0 besides names a single register only (R138). -/
def group138 (n : Reg) (len : Nat) : Bool := group n len && (n != 0 || len ≤ 1)

/-- The length of the operand group of a copy (R138). -/
def copyLen (shape flag : Bool) : Nat := (if shape then 2 else 1) + (if flag then 2 else 0)

/-- The length of an XBMV operand group (R332). -/
def bmvLen (flag : Bool) : Nat := if flag then 7 else 5

/-- The length of an XINV operand group (R314). -/
def invLen (flag : Bool) : Nat := if flag then 5 else 3

/-- A token list names up to three tokens, each once (R22). -/
def toks (l : List Tok) : Bool := l.length ≤ 3 && decide l.Nodup

/-- A scalar register pair does not begin at S63 (R160). -/
def pair (n : Reg) : Bool := n != 63

/-- A matrix operand in vector registers, with (ten registers) or without (eight) its scale tile (R160, R169). -/
def vecs (n : Reg) (scales : Bool) : Bool := n.toNat ≤ (if scales then 54 else 56)

/-- The logical array of an MMA or MMAT: its latch's, or ARR (R12, R170). -/
def mmaArr (b : Reg) (w : MmaWord) : Bool := if w.bkind = 2 then b.getLsbD 2 else w.arr

/-- The operand places of MMA and MMAT (R160, R167, R170). -/
def mma (env : Env) (a b : Reg) (w : MmaWord) : Bool :=
  (if w.avec then vecs a (env.fp4 (mmaArr b w)) else pair a)
  && (if w.bkind = 0 then pair b
      else if w.bkind = 1 then vecs b (env.fp4 (mmaArr b w))
      else w.bkind == 2 && b.toNat < 8 && !w.arr)
  && (env.fp4 (mmaArr b w) || (w.nza == 0 && w.nzb == 0))

/-- The operand word of MST (R173). -/
def mst (w : MstWord) : Bool :=
  [0, 1, 2, 3, 4, 6, 7, 8].contains w.out.toNat
  && (!w.resc || (6 ≤ w.out.toNat && !w.bse))
  && !(w.zpe && w.qs == 7)
  && (w.resc || (w.qs == 0 && !w.zpe && w.qoff == 0))
  && (w.bse || w.bsr == 0)

/-- The element width code and position of VPACK and VUNPK (R95). -/
def packPos (pos : BitVec 3) (w : BitVec 2) : Bool :=
  w != 3 && pos.toNat < (if w = 0 then 2 else if w = 1 then 4 else 8)

/-- The alphabet size and source registers of PLD, PQNT and PNRM (R195). -/
def prob (a alpha : Reg) (rows : BitVec 3) : Bool :=
  2 ≤ alpha.toNat && alpha.toNat ≤ 16 && rows.toNat ≤ 4 && (rows != 0 || a.toNat ≤ 60)

end Wf

/-- The forms of the table that have an encoding and obey its rules in a context `env`; a row without an encoding
is a step and has none. -/
def Instr.wf (env : Env) : Instr → Bool
  | .add _ _ _ | .sub _ _ _ | .mul _ _ _ | .mulh _ _ _ | .mulhu _ _ _ | .div _ _ _ | .divu _ _ _ | .rem _ _ _
  | .remu _ _ _ | .and _ _ _ | .or _ _ _ | .xor _ _ _ | .shl _ _ _ | .shr _ _ _ | .sra _ _ _ | .slt _ _ _
  | .sltu _ _ _ | .seq _ _ _ | .min _ _ _ | .max _ _ _ | .minu _ _ _ | .maxu _ _ _ | .sel _ _ _ => true
  | .addi _ _ _ | .andi _ _ _ | .ori _ _ _ | .xori _ _ _ | .slti _ _ _ | .li _ _ => true
  | .shli _ _ _ | .shri _ _ _ | .srai _ _ _ => true
  | .clz _ _ | .ctz _ _ | .popc _ _ | .mov _ _ => true
  | .lds _ _ _ sz => sz != 7
  | .sts _ _ _ sz => sz.toNat < 4
  | .ldg _ _ _ _ sz => sz != 7
  | .stg _ _ _ _ sz => sz.toNat < 4
  | .atadd _ _ _ w | .atmin _ _ _ w | .atmax _ _ _ w | .atand _ _ _ w | .ator _ _ _ w | .atxor _ _ _ w
  | .atxchg _ _ _ w => w.scope.toNat < 6
  | .atcas _ _ b w => w.scope.toNat < 6 && b != 63
  | .atfadd _ _ _ w => w.scope.toNat < 6 && !w.wide
  | .cnarrow _ _ b => b != 63
  | .crights _ _ _ | .cmovc _ _ => true
  | .cget _ _ k => k.toNat < 6
  | .sget _ n => Wf.assigned n
  | .sset n _ => Wf.assigned n && !Wf.readOnly n && (env.priv || !Wf.protectedReg n)
  | .seed _ | .dget _ => true
  | .vadd _ _ _ _ _ | .vsub _ _ _ _ _ | .vmul _ _ _ _ _ | .vfma _ _ _ _ _ | .vfms _ _ _ _ _ | .vmin _ _ _ _ _
  | .vmax _ _ _ _ _ => true
  | .vabs t _ _ _ | .vneg t _ _ _ => t != 3
  | .vcmpEq _ d _ _ _ | .vcmpNe _ d _ _ _ | .vcmpLt _ d _ _ _ | .vcmpLe _ d _ _ _ => d != 0
  | .vand _ _ _ _ | .vor _ _ _ _ | .vxor _ _ _ _ | .vshl _ _ _ _ | .vshr _ _ _ _ | .vsra _ _ _ _ | .vsel _ _ _ _
  | .vmov _ _ _ | .vidx _ _ _ _ => true
  | .vbcast _ _ w _ => w != 3
  | .vcvt _ _ src dst _ => src != dst
  | .vpack _ _ pos w _ => Wf.packPos pos w
  | .vunpk _ _ _ pos w _ => Wf.packPos pos w
  | .vpermb _ _ _ _ | .vshuf _ _ _ _ | .vrot _ _ _ _ | .vdot4 _ _ _ _ => true
  | .vred _ _ op t _ | .vscan _ _ op t _ => op != 3 && t != 1
  | .vresc _ _ _ zpe qs _ => !(zpe && qs == 7)
  | .vqnt _ _ _ f => f.toNat < 6
  | .vdq _ _ _ f => f.toNat < 5
  | .vexp2 _ _ _ | .vlog2 _ _ _ | .vrcp _ _ _ | .vrsq _ _ _ | .vtanh _ _ _ | .vrand _ _ _ => true
  | .vld _ _ _ _ | .vst _ _ _ _ | .vlds _ _ _ _ | .vsts _ _ _ _ | .vgth _ _ _ _ | .vsct _ _ _ _ | .vldg _ _ _ _ _
  | .vstg _ _ _ _ _ | .vldq _ _ _ _ => true
  | .vmand d _ _ | .vmor d _ _ | .vmnot d _ | .vmset d _ _ => d != 0
  | .vmpop _ _ | .vmfst _ _ => true
  | .mcfg _ _ _ l | .mdrain _ _ l => Wf.toks l
  | .mlatch _ _ b sc vec l => (if vec then Wf.vecs b sc else Wf.pair b) && Wf.toks l
  | .mma _ a b w l => Wf.mma env a b w && !w.strict && Wf.toks l
  | .mmat _ a b w l => Wf.mma env a b w && Wf.toks l
  | .mzero _ _ _ l | .mtrn _ _ _ l | .mstat _ _ _ _ l | .mnz _ _ _ l => Wf.toks l
  | .mldz _ _ b _ l => Wf.pair b && Wf.toks l
  | .mst _ _ b w l => Wf.pair b && Wf.mst w && Wf.toks l
  | .xld _ a _ ring shape flag w l =>
      (!ring || a.toNat < 8) && Wf.group138 w.n (Wf.copyLen shape flag) && Wf.toks l
  | .xst _ _ _ shape flag w l => Wf.group138 w.n (Wf.copyLen shape flag) && Wf.toks l
  | .xmc _ a _ ring shape flag w l =>
      (!ring || a.toNat < 8) && Wf.group w.n (Wf.copyLen shape flag + 2) && Wf.toks l
  | .xred _ _ _ _ shape flag w l | .xhost _ _ _ _ shape flag w l =>
      Wf.group138 w.n (Wf.copyLen shape flag) && Wf.toks l
  | .xchain _ _ _ l => Wf.toks l
  | .xpf _ _ _ w l | .xres _ _ _ w l | .xbfen _ _ w l => Wf.group w.n 1 && Wf.toks l
  | .xsub _ _ _ _ w l => Wf.group w.n 5 && Wf.toks l
  | .xunsub _ _ l => Wf.toks l
  | .xbmv _ _ _ flag fmt w l => fmt != 3 && Wf.group w.n (Wf.bmvLen flag) && Wf.toks l
  | .xinv _ mode flag n l => env.priv && mode != 3 && n != 0 && Wf.group n (Wf.invLen flag) && Wf.toks l
  | .kbind _ _ _ | .kinitEnc _ | .kinitDec _ | .kenc _ _ _ _ _ | .kdec _ _ _ _ _ | .kbypE _ _ _ _ _ | .kbypD _ _ _ _ _
  | .ktgt _ _ _ _ | .kflush _ | .ksave _ _ _ | .krest _ _ _ => true
  | .kstat _ _ k => k != 7
  | .pld _ a alpha rows | .pqnt _ a alpha rows | .pnrm _ a alpha rows => Wf.prob a alpha rows
  | .nop | .br _ | .bz _ _ | .bnz _ _ | .jr _ | .call _ | .ret | .retire => true
  | .bc _ _ _ c => c.toNat < 6
  | .loop _ a => a != 0
  | .spawn _ _ b n => b.toNat + n.toNat ≤ 63
  | .arrive _ _ _ s | .waitb _ _ _ s | .drain s | .fence s => s.toNat < 6
  | .waitw _ _ c => c.toNat < 3
  | .awaitf _ _ | .relslot _ | .twait _ | .yield _ | .trap _ | .svc _ => true
  | .safept n => !n.msb
  | .eret => env.priv
  | .enq _ _ b n _ => b.toNat + n.toNat ≤ 63
  | .tdec _ _ | .cancel _ _ | .logmark _ _ => true
  | _ => false

end Sys2Proof
end

