-- ==== Sys2Proof/Decode.lean ====
section
/-! DEFINITION. Decoding (R14 to R40): words to instructions, with the reason of the first refusal; the bundle
passes of R25; the read and write sets of R23; and the encoder, written from the same tables. -/

namespace Sys2Proof

/-! ## The slot word -/

/-- The fields of a slot word (R14). -/
structure Slot where
  e   : Bool
  cls : BitVec 3
  op  : BitVec 7
  d   : Reg
  a   : Reg
  b   : Reg
  q   : BitVec 3
  deriving DecidableEq, Repr

/-- R14: the fields of a word. -/
def Slot.ofWord (w : Word) : Slot :=
  { e := w.msb, cls := w.extractLsb' 28 3, op := w.extractLsb' 21 7, d := w.extractLsb' 15 6,
    a := w.extractLsb' 9 6, b := w.extractLsb' 3 6, q := w.extractLsb' 0 3 }

/-- R14: the word of the fields. -/
def Slot.toWord (s : Slot) : Word :=
  (BitVec.ofBool s.e ++ (s.cls ++ (s.op ++ (s.d ++ (s.a ++ (s.b ++ s.q))))) : BitVec (1 + (3 + (7 + (6 + (6 + (6 + 3)))))))

/-- A slot's extensions: the payload of its immediate extension and its token list, if it has them (R20). -/
structure Ext where
  imm  : Option (BitVec 26)
  toks : List Tok
  deriving DecidableEq, Repr, Inhabited

/-! ## Refusals and immediates -/

/-- The instruction unless a check fails; the checks stand in ascending reason code, so that the first that fails
is the lowest (R25). -/
def chk : List (Nat × Bool) → Instr → Except Nat Instr
  | [], i => .ok i
  | (r, bad) :: l, i => if bad then .error r else chk l i

/-- R18: the bits of a register field above the low `k` are nonzero. -/
def hi (x : Reg) (k : Nat) : Bool := x.toNat ≥ 2 ^ k

/-- R21 for a b:q immediate: 9 bits, or 35 with an extension. -/
def immBQ (x : Option (BitVec 26)) (b : Reg) (q : BitVec 3) : BitVec 35 :=
  match x with
  | none => (b ++ q : BitVec 9).signExtend 35
  | some h => (h ++ (b ++ q : BitVec 9) : BitVec 35)

/-- R21 for a 6-bit immediate: 6 bits, or 32 with an extension. -/
def imm6 (x : Option (BitVec 26)) (f : Reg) : BitVec 32 :=
  match x with
  | none => f.signExtend 32
  | some h => (h ++ f : BitVec 32)

/-- R21 for a 15-bit immediate d:b:q: 15 bits, or 41 with an extension. -/
def imm15 (x : Option (BitVec 26)) (d b : Reg) (q : BitVec 3) : BitVec 41 :=
  match x with
  | none => (d ++ (b ++ q) : BitVec 15).signExtend 41
  | some h => (h ++ (d ++ (b ++ q) : BitVec 15) : BitVec 41)

/-- R21 for a 21-bit immediate d:a:b:q: 21 bits, or 47 with an extension. -/
def imm21 (x : Option (BitVec 26)) (d a b : Reg) (q : BitVec 3) : BitVec 47 :=
  match x with
  | none => (d ++ (a ++ (b ++ q)) : BitVec 21).signExtend 47
  | some h => (h ++ (d ++ (a ++ (b ++ q)) : BitVec 21) : BitVec 47)

/-- R53: an immediate of width 0, so 0 without an extension. -/
def imm0 (x : Option (BitVec 26)) : BitVec 26 := x.getD 0

/-! ## Scalar class (R33, R49 to R55, R235) -/

/-- The operand word of an atomic (R235). -/
def AtWord.of (x : BitVec 26) (q : BitVec 3) : AtWord :=
  { ord := q.extractLsb' 0 2, wide := q.getLsbD 2, off := x.extractLsb' 0 16, scope := x.extractLsb' 19 3,
    cap := x.extractLsb' 22 4 }

/-- The atomic forms: their operand word is required (R235); ATCAS and ATFADD add a check of their own. For the scope codes 6
and 7 of an atomic R125 gives reason 2 and R235 reason 4: the model takes R235, the rule of the form (log entry 146). -/
def decAtomic (op : Nat) (d a b : Reg) (q : BitVec 3) (x : Option (BitVec 26)) : Except Nat Instr :=
  match x with
  | none => chk [(2, op == 0x30 && q.getLsbD 2), (4, true)] .nop
  | some x =>
    let w := AtWord.of x q
    let l := [(2, op == 0x30 && q.getLsbD 2),
              (4, x.extractLsb' 16 3 != 0 || w.scope.toNat ≥ 6 || (op == 0x2F && b == 63))]
    match op with
    | 0x28 => chk l (.atadd d a b w)
    | 0x29 => chk l (.atmin d a b w)
    | 0x2A => chk l (.atmax d a b w)
    | 0x2B => chk l (.atand d a b w)
    | 0x2C => chk l (.ator d a b w)
    | 0x2D => chk l (.atxor d a b w)
    | 0x2E => chk l (.atxchg d a b w)
    | 0x2F => chk l (.atcas d a b w)
    | _ => chk l (.atfadd d a b w)

/-- A three-register form: q must be zero. -/
def rrr (q : BitVec 3) (i : Instr) : Except Nat Instr := chk [(4, q != 0)] i

/-- A two-register form: b and q must be zero. -/
def rr (b : Reg) (q : BitVec 3) (i : Instr) : Except Nat Instr := chk [(4, b != 0 || q != 0)] i

/-- Class 000. -/
def decScalar (env : Env) (op : Nat) (d a b : Reg) (q : BitVec 3) (x : Option (BitVec 26)) : Except Nat Instr :=
  match op with
  | 0x00 => rrr q (.add d a b)
  | 0x01 => .ok (.addi d a (immBQ x b q))
  | 0x02 => rrr q (.sub d a b)
  | 0x03 => rrr q (.mul d a b)
  | 0x04 => rrr q (.mulh d a b)
  | 0x05 => rrr q (.mulhu d a b)
  | 0x06 => rrr q (.div d a b)
  | 0x07 => rrr q (.divu d a b)
  | 0x08 => rrr q (.rem d a b)
  | 0x09 => rrr q (.remu d a b)
  | 0x0A => rrr q (.and d a b)
  | 0x0B => .ok (.andi d a (immBQ x b q))
  | 0x0C => rrr q (.or d a b)
  | 0x0D => .ok (.ori d a (immBQ x b q))
  | 0x0E => rrr q (.xor d a b)
  | 0x0F => .ok (.xori d a (immBQ x b q))
  | 0x10 => rrr q (.shl d a b)
  | 0x11 => chk [(4, b.toNat ≥ 8)] (.shli d a (b.extractLsb' 0 3 ++ q))
  | 0x12 => rrr q (.shr d a b)
  | 0x13 => chk [(4, b.toNat ≥ 8)] (.shri d a (b.extractLsb' 0 3 ++ q))
  | 0x14 => rrr q (.sra d a b)
  | 0x15 => chk [(4, b.toNat ≥ 8)] (.srai d a (b.extractLsb' 0 3 ++ q))
  | 0x16 => rrr q (.slt d a b)
  | 0x17 => rrr q (.sltu d a b)
  | 0x18 => .ok (.slti d a (immBQ x b q))
  | 0x19 => rrr q (.seq d a b)
  | 0x1A => rrr q (.min d a b)
  | 0x1B => rrr q (.max d a b)
  | 0x1C => rrr q (.minu d a b)
  | 0x1D => rrr q (.maxu d a b)
  | 0x1E => rrr q (.sel d a b)
  | 0x1F => rr b q (.clz d a)
  | 0x20 => rr b q (.ctz d a)
  | 0x21 => rr b q (.popc d a)
  | 0x22 => chk [(4, a != 0)] (.li d (immBQ x b q))
  | 0x23 => rr b q (.mov d a)
  | 0x24 => chk [(2, q == 7)] (.lds d a (imm6 x b) q)
  | 0x25 => chk [(2, q.toNat ≥ 4)] (.sts d a (imm6 x b) q)
  | 0x26 => chk [(2, q == 7), (3, hi b 4)] (.ldg d a (b.setWidth 4) (imm0 x) q)
  | 0x27 => chk [(2, q.toNat ≥ 4), (3, hi b 4)] (.stg d a (b.setWidth 4) (imm0 x) q)
  | 0x28 | 0x29 | 0x2A | 0x2B | 0x2C | 0x2D | 0x2E | 0x2F | 0x30 => decAtomic op d a b q x
  | 0x31 => chk [(3, hi d 4 || hi a 4), (4, q != 0 || b == 63)] (.cnarrow (d.setWidth 4) (a.setWidth 4) b)
  | 0x32 => chk [(3, hi d 4 || hi a 4), (4, b.getLsbD 5)]
      (.crights (d.setWidth 4) (a.setWidth 4) (b.extractLsb' 0 5 ++ q))
  | 0x33 => chk [(2, q.toNat ≥ 6), (3, hi a 4), (4, b != 0)] (.cget d (a.setWidth 4) q)
  | 0x34 => chk [(3, hi d 4 || hi a 4), (4, b != 0 || q != 0)] (.cmovc (d.setWidth 4) (a.setWidth 4))
  | 0x35 => chk [(4, q != 0 || !Wf.assigned (a ++ b))] (.sget d (a ++ b))
  | 0x36 => chk [(4, q != 0 || !Wf.assigned (d ++ b)),
                 (7, Wf.readOnly (d ++ b) || (!env.priv && Wf.protectedReg (d ++ b)))] (.sset (d ++ b) a)
  | 0x37 => chk [(4, a != 0 || b != 0 || q != 0)] (.seed d)
  | 0x38 => chk [(4, a != 0 || b != 0 || q != 0)] (.dget d)
  | _ => .error 1

/-! ## Vector class (R34, R89 to R110) -/

/-- A typed form of class 001 at base op b4 = op[6:2], type t = op[1:0]. -/
def decTyped (base : Nat) (t : BitVec 2) (d a b : Reg) (q : BitVec 3) : Except Nat Instr :=
  match base with
  | 0x00 => .ok (.vadd t d a b q)
  | 0x01 => .ok (.vsub t d a b q)
  | 0x02 => .ok (.vmul t d a b q)
  | 0x03 => .ok (.vfma t d a b q)
  | 0x04 => .ok (.vfms t d a b q)
  | 0x05 => .ok (.vmin t d a b q)
  | 0x06 => .ok (.vmax t d a b q)
  | 0x07 => chk [(1, t == 3), (4, b != 0)] (.vabs t d a q)
  | 0x08 => chk [(1, t == 3), (4, b != 0)] (.vneg t d a q)
  | 0x09 => chk [(3, hi d 4), (4, d == 0)] (.vcmpEq t (d.setWidth 4) a b q)
  | 0x0A => chk [(3, hi d 4), (4, d == 0)] (.vcmpNe t (d.setWidth 4) a b q)
  | 0x0B => chk [(3, hi d 4), (4, d == 0)] (.vcmpLt t (d.setWidth 4) a b q)
  | _ => chk [(3, hi d 4), (4, d == 0)] (.vcmpLe t (d.setWidth 4) a b q)

/-- The width and position fields of VPACK and VUNPK are refused (R95). -/
def badPack (b : Reg) : Bool := !Wf.packPos (b.extractLsb' 2 3) (b.extractLsb' 0 2)

/-- The operation and type fields of VRED and VSCAN are refused (R97). -/
def badRed (b : Reg) : Bool := b.extractLsb' 4 2 != 0 || b.extractLsb' 2 2 == 3 || b.extractLsb' 0 2 == 1

/-- Class 001 from op 0x34 on. -/
def decVector (op : Nat) (d a b : Reg) (q : BitVec 3) (x : Option (BitVec 26)) : Except Nat Instr :=
  match op with
  | 0x34 => .ok (.vand d a b q)
  | 0x35 => .ok (.vor d a b q)
  | 0x36 => .ok (.vxor d a b q)
  | 0x37 => .ok (.vshl d a b q)
  | 0x38 => .ok (.vshr d a b q)
  | 0x39 => .ok (.vsra d a b q)
  | 0x3A => .ok (.vsel d a b q)
  | 0x3B => chk [(4, b != 0)] (.vmov d a q)
  | 0x3C => chk [(4, b.toNat ≥ 3)] (.vbcast d a (b.setWidth 2) q)
  | 0x3D => .ok (.vidx d a b q)
  | 0x3E => chk [(4, b.extractLsb' 3 3 == b.extractLsb' 0 3)] (.vcvt d a (b.extractLsb' 3 3) (b.extractLsb' 0 3) q)
  | 0x3F => chk [(4, b.getLsbD 5 || badPack b)] (.vpack d a (b.extractLsb' 2 3) (b.extractLsb' 0 2) q)
  | 0x40 => chk [(4, badPack b)] (.vunpk d a (b.getLsbD 5) (b.extractLsb' 2 3) (b.extractLsb' 0 2) q)
  | 0x41 => .ok (.vpermb d a b q)
  | 0x42 => .ok (.vshuf d a b q)
  | 0x43 => .ok (.vrot d a b q)
  | 0x44 => chk [(4, badRed b)] (.vred d a (b.extractLsb' 2 2) (b.extractLsb' 0 2) q)
  | 0x45 => chk [(4, badRed b)] (.vscan d a (b.extractLsb' 2 2) (b.extractLsb' 0 2) q)
  | 0x46 => .ok (.vdot4 d a b q)
  | 0x47 => chk [(4, b.getLsbD 3 && b.extractLsb' 0 3 == 7)]
      (.vresc d a (b.extractLsb' 4 2) (b.getLsbD 3) (b.extractLsb' 0 3) q)
  | 0x48 => chk [(2, q.toNat ≥ 6)] (.vqnt d a b q)
  | 0x49 => chk [(2, q.toNat ≥ 5)] (.vdq d a b q)
  | 0x4A => chk [(4, b != 0)] (.vexp2 d a q)
  | 0x4B => chk [(4, b != 0)] (.vlog2 d a q)
  | 0x4C => chk [(4, b != 0)] (.vrcp d a q)
  | 0x4D => chk [(4, b != 0)] (.vrsq d a q)
  | 0x4E => chk [(4, b != 0)] (.vtanh d a q)
  | 0x4F => chk [(4, b != 0)] (.vrand d a q)
  | 0x50 => .ok (.vld d a (imm6 x b) q)
  | 0x51 => .ok (.vst d a (imm6 x b) q)
  | 0x52 => .ok (.vlds d a b q)
  | 0x53 => .ok (.vsts d a b q)
  | 0x54 => .ok (.vgth d a b q)
  | 0x55 => .ok (.vsct d a b q)
  | 0x56 => chk [(3, hi b 4)] (.vldg d a (b.setWidth 4) (imm0 x) q)
  | 0x57 => chk [(3, hi b 4)] (.vstg d a (b.setWidth 4) (imm0 x) q)
  | 0x58 => chk [(3, hi d 3)] (.vldq (d.setWidth 3) a (imm6 x b) q)
  | 0x59 => chk [(3, hi d 4 || hi a 4 || hi b 4), (4, q != 0 || d == 0)]
      (.vmand (d.setWidth 4) (a.setWidth 4) (b.setWidth 4))
  | 0x5A => chk [(3, hi d 4 || hi a 4 || hi b 4), (4, q != 0 || d == 0)]
      (.vmor (d.setWidth 4) (a.setWidth 4) (b.setWidth 4))
  | 0x5B => chk [(3, hi d 4 || hi a 4), (4, b != 0 || q != 0 || d == 0)] (.vmnot (d.setWidth 4) (a.setWidth 4))
  | 0x5C => chk [(3, hi a 4), (4, b != 0 || q != 0)] (.vmpop d (a.setWidth 4))
  | 0x5D => chk [(3, hi a 4), (4, b != 0 || q != 0)] (.vmfst d (a.setWidth 4))
  | 0x5E => chk [(3, hi d 4), (4, q != 0 || d == 0)] (.vmset (d.setWidth 4) a b)
  | _ => .error 1

/-! ## Matrix class (R35, R167 to R175) -/

/-- The operand word of MMA and MMAT (R170), with q's place codes (R167). -/
def MmaWord.of (x : BitVec 26) (q : BitVec 3) : MmaWord :=
  { avec := q.getLsbD 0, bkind := q.extractLsb' 1 2, zt := x.extractLsb' 0 3, arr := x.getLsbD 3,
    nza := x.extractLsb' 4 2, nzb := x.extractLsb' 6 2, fresh := x.getLsbD 8, strict := x.getLsbD 9 }

/-- The operand word of MST (R173). -/
def MstWord.of (x : BitVec 26) : MstWord :=
  { out := x.extractLsb' 0 4, resc := x.getLsbD 4, qs := x.extractLsb' 5 3, zpe := x.getLsbD 8,
    qoff := x.extractLsb' 9 2, bse := x.getLsbD 11, bsr := x.extractLsb' 12 6 }

/-- The checks of MMA and MMAT; a latch operand is a register field of three bits (R18, R160, R167, R170). -/
def mmaChecks (env : Env) (d a b : Reg) (q : BitVec 3) (x : BitVec 26) (strictOk : Bool) : List (Nat × Bool) :=
  [(2, q.extractLsb' 1 2 == 3),
   (3, hi d 5 || (q.extractLsb' 1 2 == 2 && hi b 3)),
   (4, x.extractLsb' 10 16 != 0 || (!strictOk && x.getLsbD 9) || !Wf.mma env a b (MmaWord.of x q))]

/-- Class 010. -/
def decMatrix (env : Env) (op : Nat) (d a b : Reg) (q : BitVec 3) (x : Option (BitVec 26)) (l : List Tok) :
    Except Nat Instr :=
  let t := d.setWidth 5
  match op with
  | 0x00 => chk [(3, hi d 5), (4, q != 0 || b.toNat ≥ 2)] (.mcfg t (b.getLsbD 0) a l)
  | 0x01 => chk [(3, hi d 5), (4, a != 0 || q != 0 || b.toNat ≥ 2)] (.mdrain t (b.getLsbD 0) l)
  | 0x02 => chk [(3, hi d 5 || hi a 3),
                 (4, q.getLsbD 2 || !(if q.getLsbD 0 then Wf.vecs b (q.getLsbD 1) else Wf.pair b))]
      (.mlatch t (a.setWidth 3) b (q.getLsbD 1) (q.getLsbD 0) l)
  | 0x03 => match x with
    | none => chk [(2, q.extractLsb' 1 2 == 3), (3, hi d 5 || (q.extractLsb' 1 2 == 2 && hi b 3)), (4, true)] .nop
    | some x => chk (mmaChecks env d a b q x false) (.mma t a b (MmaWord.of x q) l)
  | 0x04 => match x with
    | none => chk [(2, q.extractLsb' 1 2 == 3), (3, hi d 5 || (q.extractLsb' 1 2 == 2 && hi b 3)), (4, true)] .nop
    | some x => chk (mmaChecks env d a b q x true) (.mmat t a b (MmaWord.of x q) l)
  | 0x05 => chk [(2, q.toNat ≥ 2), (3, hi d 5 || hi a 3), (4, b != 0)] (.mzero t (a.setWidth 3) (q.getLsbD 0) l)
  | 0x06 => chk [(2, q.toNat ≥ 2), (3, hi d 5 || hi a 3), (4, !Wf.pair b)]
      (.mldz t (a.setWidth 3) b (q.getLsbD 0) l)
  | 0x07 => match x with
    | none => chk [(3, hi d 5 || hi a 3), (4, true)] .nop
    | some x => chk [(3, hi d 5 || hi a 3),
                     (4, q != 0 || x.extractLsb' 18 8 != 0 || !Wf.pair b || !Wf.mst (MstWord.of x))]
        (.mst t (a.setWidth 3) b (MstWord.of x) l)
  | 0x08 => chk [(3, hi d 5 || hi a 3 || hi b 3), (4, q != 0)] (.mtrn t (a.setWidth 3) (b.setWidth 3) l)
  | 0x09 => chk [(3, hi d 5 || hi a 3), (4, q.extractLsb' 1 2 != 0)] (.mstat t (a.setWidth 3) b (q.getLsbD 0) l)
  | 0x0A => chk [(3, hi d 5 || hi b 2), (4, q != 0)] (.mnz t a (b.setWidth 2) l)
  | _ => .error 1

/-! ## Copy class (R36, R135 to R155, R230, R314, R326) -/

/-- The operand word of the copy class (R136). -/
def XWord.of (x : BitVec 26) : XWord :=
  { n := x.extractLsb' 20 6, cap := x.extractLsb' 16 4, off := x.extractLsb' 0 16 }

/-- Class 011. Every form but XCHAIN requires its operand word (R135). -/
def decCopy (env : Env) (op : Nat) (d a b : Reg) (q : BitVec 3) (x : Option (BitVec 26)) (l : List Tok) :
    Except Nat Instr :=
  let t := d.setWidth 5
  let w := XWord.of (x.getD 0)
  let no := x.isNone
  let cl := Wf.copyLen (q.getLsbD 1) (q.getLsbD 0)
  match op with
  | 0x00 => chk [(3, hi d 5 || (q.getLsbD 2 && hi a 3)), (4, no || !Wf.group138 w.n cl)]
      (.xld t a b (q.getLsbD 2) (q.getLsbD 1) (q.getLsbD 0) w l)
  | 0x01 => chk [(2, q.getLsbD 2), (3, hi d 5), (4, no || !Wf.group138 w.n cl)]
      (.xst t a b (q.getLsbD 1) (q.getLsbD 0) w l)
  | 0x02 => chk [(3, hi d 5 || (q.getLsbD 2 && hi a 3)), (4, no || !Wf.group w.n (cl + 2))]
      (.xmc t a b (q.getLsbD 2) (q.getLsbD 1) (q.getLsbD 0) w l)
  | 0x03 => chk [(3, hi d 5), (4, no || !Wf.group138 w.n cl)]
      (.xred t a b (q.getLsbD 2) (q.getLsbD 1) (q.getLsbD 0) w l)
  | 0x04 => chk [(3, hi d 5), (4, no || !Wf.group138 w.n cl)]
      (.xhost t a b (q.getLsbD 2) (q.getLsbD 1) (q.getLsbD 0) w l)
  | 0x05 => chk [(2, q.toNat ≥ 2), (3, hi d 5), (4, b != 0)] (.xchain t a (q.getLsbD 0) l)
  | 0x06 => chk [(2, q.toNat ≥ 2), (3, hi d 5), (4, a != 0 || no || !Wf.group w.n 1)] (.xpf t b (q.getLsbD 0) w l)
  | 0x07 => chk [(2, q.toNat ≥ 2), (3, hi d 5), (4, a != 0 || no || !Wf.group w.n 1)] (.xres t b (q.getLsbD 0) w l)
  | 0x08 => chk [(3, hi d 5 || hi a 3), (4, q.toNat ≥ 2 || no || !Wf.group w.n 5)]
      (.xsub t (a.setWidth 3) b (q.getLsbD 0) w l)
  | 0x09 => chk [(3, hi d 5 || hi a 3), (4, b != 0 || q != 0 || x != some 0)] (.xunsub t (a.setWidth 3) l)
  | 0x0A => chk [(2, q.extractLsb' 0 2 == 3), (3, hi d 5), (4, no || !Wf.group w.n (Wf.bmvLen (q.getLsbD 2)))]
      (.xbmv t a b (q.getLsbD 2) (q.extractLsb' 0 2) w l)
  | 0x0B => chk [(3, hi d 5), (4, a != 0 || q != 0 || no || !Wf.group w.n 1)] (.xbfen t b w l)
  | 0x0C => chk [(2, q.extractLsb' 1 2 == 3), (3, hi d 5),
                 (4, a != 0 || b != 0 || no || w.cap != 0 || w.off != 0 || w.n == 0
                      || !Wf.group w.n (Wf.invLen (q.getLsbD 0))),
                 (7, !env.priv)]
      (.xinv t (q.extractLsb' 1 2) (q.getLsbD 0) w.n l)
  | _ => .error 1

/-! ## Coder class (R37, R179 to R195) -/

/-- Class 100. -/
def decCoder (op : Nat) (d a b : Reg) (q : BitVec 3) (x : Option (BitVec 26)) : Except Nat Instr :=
  match op with
  | 0x00 => chk [(4, q != 0)] (.kbind d a b)
  | 0x01 => chk [(2, q.toNat ≥ 2), (4, a != 0 || b != 0)] (if q = 0 then .kinitEnc d else .kinitDec d)
  | 0x02 => chk [(3, hi b 4)] (.kenc d a (b.setWidth 4) (q.getLsbD 2) (q.extractLsb' 0 2))
  | 0x03 => chk [(3, hi b 4)] (.kdec d a (b.setWidth 4) (q.getLsbD 2) (q.extractLsb' 0 2))
  | 0x04 => chk [(4, b.getLsbD 4)]
      (if b.getLsbD 5 then .kbypD d a (b.setWidth 4) (q.getLsbD 2) (q.extractLsb' 0 2)
       else .kbypE d a (b.setWidth 4) (q.getLsbD 2) (q.extractLsb' 0 2))
  | 0x05 => chk [(4, b != 0)] (.ktgt d a (q.getLsbD 2) (q.extractLsb' 0 2))
  | 0x06 => chk [(4, a != 0 || b != 0 || q != 0)] (.kflush d)
  | 0x07 => chk [(4, q != 0)] (.ksave d a (imm6 x b))
  | 0x08 => chk [(4, q != 0)] (.krest d a (imm6 x b))
  | 0x09 => chk [(2, q == 7), (4, b != 0)] (.kstat d a q)
  | 0x0A => chk [(2, q.toNat ≥ 5), (3, hi d 4), (4, !Wf.prob a b q)] (.pld (d.setWidth 4) a b q)
  | 0x0B => chk [(2, q.toNat ≥ 5), (3, hi d 4), (4, !Wf.prob a b q)] (.pqnt (d.setWidth 4) a b q)
  | 0x0C => chk [(2, q.toNat ≥ 5), (3, hi d 4), (4, !Wf.prob a b q)] (.pnrm (d.setWidth 4) a b q)
  | _ => .error 1

/-! ## Control class (R38) -/

/-- Class 101. -/
def decControl (env : Env) (op : Nat) (d a b : Reg) (q : BitVec 3) (x : Option (BitVec 26)) : Except Nat Instr :=
  match op with
  | 0x00 => chk [(4, d != 0 || a != 0 || b != 0 || q != 0)] .nop
  | 0x01 => .ok (.br (imm21 x d a b q))
  | 0x02 => chk [(2, q.toNat ≥ 6)] (.bc (imm6 x d) a b q)
  | 0x03 => .ok (.bz (imm15 x d b q) a)
  | 0x04 => .ok (.bnz (imm15 x d b q) a)
  | 0x05 => chk [(4, d != 0 || b != 0 || q != 0)] (.jr a)
  | 0x06 => .ok (.call (imm21 x d a b q))
  | 0x07 => chk [(4, d != 0 || a != 0 || b != 0 || q != 0)] .ret
  | 0x08 => chk [(4, a == 0)] (.loop (imm15 x d b q) a)
  | 0x09 => chk [(4, b.toNat + q.toNat > 63)] (.spawn d a b q)
  | 0x0A => chk [(2, q.toNat ≥ 6)] (.arrive d a b q)
  | 0x0B => chk [(2, q.toNat ≥ 6)] (.waitb d a b q)
  | 0x0C => chk [(2, q.toNat ≥ 3), (4, d != 0)] (.waitw a b q)
  | 0x0D => chk [(3, hi a 3), (4, b != 0 || q != 0)] (.awaitf d (a.setWidth 3))
  | 0x0E => chk [(3, hi a 3), (4, d != 0 || b != 0 || q != 0)] (.relslot (a.setWidth 3))
  | 0x0F => chk [(3, hi a 5), (4, d != 0 || b != 0 || q != 0)] (.twait (a.setWidth 5))
  | 0x10 => chk [(2, q.toNat ≥ 2), (4, d != 0 || a != 0 || b != 0)] (.yield (q.getLsbD 0))
  | 0x11 => match x with
    | none => chk [(4, d != 0 || a != 0)] (.safept ((b ++ q : BitVec 9).setWidth 35))
    | some h => chk [(4, d != 0 || a != 0 || h.msb)] (.safept (h ++ (b ++ q : BitVec 9)))
  | 0x12 => chk [(2, q.toNat ≥ 6), (4, d != 0 || a != 0 || b != 0)] (.drain q)
  | 0x13 => chk [(2, q.toNat ≥ 6), (4, d != 0 || a != 0 || b != 0)] (.fence q)
  | 0x14 => chk [(4, d != 0 || a != 0)] (.trap (b ++ q))
  | 0x15 => chk [(4, d != 0 || a != 0)] (.svc (b ++ q))
  | 0x16 => chk [(4, d != 0 || a != 0 || b != 0 || q != 0), (7, !env.priv)] .eret
  | 0x17 => chk [(4, d != 0 || a != 0 || b != 0 || q != 0)] .retire
  | 0x18 => match x with
    | none => .error 4
    | some x => chk [(4, x.extractLsb' 4 22 != 0 || b.toNat + q.toNat > 63)] (.enq d a b q (x.extractLsb' 0 4))
  | 0x19 => chk [(4, b != 0 || q != 0)] (.tdec d a)
  | 0x1A => chk [(4, b != 0 || q != 0)] (.cancel d a)
  | 0x1B => chk [(4, d != 0 || b != 0)] (.logmark a q)
  | _ => .error 1

/-! ## One slot -/

/-- A slot and its extensions to an instruction, or the lowest reason of R27 that refuses the slot itself. -/
def decodeSlot (env : Env) (s : Slot) (x : Ext) : Except Nat Instr :=
  match s.cls.toNat with
  | 0 => decScalar env s.op.toNat s.d s.a s.b s.q x.imm
  | 1 => if s.op.toNat < 0x34 then decTyped (s.op.toNat / 4) (s.op.setWidth 2) s.d s.a s.b s.q
         else decVector s.op.toNat s.d s.a s.b s.q x.imm
  | 2 => decMatrix env s.op.toNat s.d s.a s.b s.q x.imm x.toks
  | 3 => decCopy env s.op.toNat s.d s.a s.b s.q x.imm x.toks
  | 4 => decCoder s.op.toNat s.d s.a s.b s.q x.imm
  | 5 => decControl env s.op.toNat s.d s.a s.b s.q x.imm
  | _ => .error 0

/-- Whether the form at class and op takes an immediate or operand extension (R20 and each form's description). -/
def immAllowed (cls : Nat) (op : Nat) : Bool :=
  match cls with
  | 0 => [0x01, 0x0B, 0x0D, 0x0F, 0x18, 0x22, 0x24, 0x25, 0x26, 0x27].contains op || (0x28 ≤ op && op ≤ 0x30)
  | 1 => [0x50, 0x51, 0x56, 0x57, 0x58].contains op
  | 2 => [0x03, 0x04, 0x07].contains op
  | 3 => op != 0x05
  | 4 => [0x07, 0x08].contains op
  | 5 => [0x01, 0x02, 0x03, 0x04, 0x06, 0x08, 0x11, 0x18].contains op
  | _ => false

/-- Whether a class takes a token list (R20). -/
def toksAllowed (cls : Nat) : Bool := cls == 2 || cls == 3

/-- The tokens of a token-list payload, each once (R22). -/
def tokList (x : BitVec 26) : List Tok :=
  ((([x.extractLsb' 19 5, x.extractLsb' 14 5, x.extractLsb' 9 5] : List Tok).take (x.extractLsb' 24 2).toNat).eraseDups)

/-- A token-list payload has a nonzero bit outside its count (R22). -/
def badTokList (x : BitVec 26) : Bool :=
  x.extractLsb' 0 9 != 0
  || (([x.extractLsb' 19 5, x.extractLsb' 14 5, x.extractLsb' 9 5] : List Tok).drop (x.extractLsb' 24 2).toNat).any (· != 0)

/-- The extension words that directly follow a slot: class 110 (R20). -/
def isExt (w : Word) : Bool := w.extractLsb' 28 3 == 6

/-- The kind of an extension word (R20). -/
def extKind (w : Word) : Nat := (w.extractLsb' 26 2).toNat

/-- What the extension words of one slot carry: the first of each kind. -/
def Ext.ofWords (l : List Word) : Ext :=
  { imm := (l.find? (fun w => extKind w == 0)).map (·.setWidth 26),
    toks := ((l.find? (fun w => extKind w == 1)).map (fun w => tokList (w.setWidth 26))).getD [] }

/-- The reason, if any, that refuses an extension word itself, with the earlier extension words of its slot (R25). -/
def extFault (cls op : Nat) (earlier : List Word) (w : Word) : Option Nat :=
  let dup := earlier.any (fun v => extKind v == extKind w)
  match extKind w with
  | 0 => if dup || !immAllowed cls op then some 6 else none
  | 1 => if badTokList (w.setWidth 26) then some 4 else if dup || !toksAllowed cls then some 6 else none
  | _ => some 5

/-- The first refused extension word after a slot at index `i`, with its own index. -/
def extFaults (cls op : Nat) (i : Nat) (earlier : List Word) : List Word → Option (Nat × Nat)
  | [] => none
  | w :: l => match extFault cls op earlier w with
    | some r => some (i, r)
    | none => extFaults cls op (i + 1) (earlier ++ [w]) l

/-- A slot's own words: the slot and the extensions that follow it, read as one instruction. This is the decoder of
one instruction alone; a fault of an extension word refuses the whole. -/
def decodeWords (env : Env) : List Word → Except Nat Instr
  | [] => .error 1
  | w :: l =>
    let s := Slot.ofWord w
    if s.cls = 6 then .error 13 else
    match decodeSlot env s (Ext.ofWords (l.takeWhile isExt)) with
    | .error r => .error r
    | .ok i => match extFaults s.cls.toNat s.op.toNat 1 [] (l.takeWhile isExt) with
      | some (_, r) => .error r
      | none => .ok i

/-! ## Read and write sets (R23) -/

/-- The files of R26: S 0, C 1, V 2, M 3, P 4, K 5, Q 6, Z 7, L 8, T 9, B 10, NZ 11, system registers 12. -/
abbrev RegId := Nat × Nat

/-- `n` registers of a file from `r` on. -/
def regs (file r n : Nat) : List RegId := (List.range n).map (fun i => (file, r + i))

/-- One register of a file. -/
def rg {k : Nat} (file : Nat) (r : BitVec k) : RegId := (file, r.toNat)

/-- The registers of a matrix operand: a pair, or eight or ten vector registers (R160). -/
def matSrc (vec scales : Bool) (r : Reg) : List RegId :=
  if vec then regs 2 r.toNat (if scales then 10 else 8) else regs 0 r.toNat 2

/-- The registers MMA and MMAT read (R160, R167). -/
def mmaReads (env : Env) (a b : Reg) (w : MmaWord) : List RegId :=
  let f := env.fp4 (Wf.mmaArr b w)
  matSrc w.avec f a ++ (if w.bkind = 2 then [(8, b.toNat)] else matSrc (w.bkind == 1) f b)
    ++ (if w.fresh then [] else [rg 7 w.zt])

/-- The streams of a group form (R180). -/
def group8 (f : Reg) (w : Bool) : List RegId := regs 5 f.toNat (Nat.min (if w then 16 else 8) (64 - f.toNat))

/-- The operand group and capability of a copy slot (R137). -/
def xReads (w : XWord) (len : Nat) : List RegId := regs 0 w.n.toNat len ++ [rg 1 w.cap]

/-- The tokens a slot consumes. -/
def tokReads (l : List Tok) : List RegId := l.map (rg 9 ·)

/-- The registers that a slot reads (R23), before S0 and M0 are left out. XCHAIN copies C0 to C15 at issue (R150), and
neither rule says whether these are in its read set: the model leaves them out, so its read set is Sa and its tokens, and a
CMOVC of the same bundle conflicts with none of it (log entry 143). -/
def Instr.reads0 (env : Env) : Instr → List RegId
  | .add _ a b | .sub _ a b | .mul _ a b | .mulh _ a b | .mulhu _ a b | .div _ a b | .divu _ a b | .rem _ a b
  | .remu _ a b | .and _ a b | .or _ a b | .xor _ a b | .shl _ a b | .shr _ a b | .sra _ a b | .slt _ a b
  | .sltu _ a b | .seq _ a b | .min _ a b | .max _ a b | .minu _ a b | .maxu _ a b => [rg 0 a, rg 0 b]
  | .sel d a b => [rg 0 d, rg 0 a, rg 0 b]
  | .addi _ a _ | .andi _ a _ | .ori _ a _ | .xori _ a _ | .slti _ a _ => [rg 0 a]
  | .li _ _ => []
  | .shli _ a _ | .shri _ a _ | .srai _ a _ => [rg 0 a]
  | .clz _ a | .ctz _ a | .popc _ a | .mov _ a => [rg 0 a]
  | .lds _ a _ _ => [rg 0 a]
  | .sts d a _ _ => [rg 0 d, rg 0 a]
  | .ldg _ a c _ _ => [rg 0 a, rg 1 c]
  | .stg d a c _ _ => [rg 0 d, rg 0 a, rg 1 c]
  | .atadd _ a b w | .atmin _ a b w | .atmax _ a b w | .atand _ a b w | .ator _ a b w | .atxor _ a b w
  | .atxchg _ a b w | .atfadd _ a b w => [rg 0 a, rg 0 b, rg 1 w.cap]
  | .atcas _ a b w => [rg 0 a, rg 0 b, (0, b.toNat + 1), rg 1 w.cap]
  | .cnarrow _ a b => [rg 1 a, rg 0 b, (0, b.toNat + 1)]
  | .crights _ a _ | .cmovc _ a | .cget _ a _ => [rg 1 a]
  | .sget _ n => [rg 12 n]
  | .sset _ a => [rg 0 a]
  | .seed _ | .dget _ => []
  | .vadd _ _ a b m | .vsub _ _ a b m | .vmul _ _ a b m | .vmin _ _ a b m | .vmax _ _ a b m => [rg 2 a, rg 2 b, rg 3 m]
  | .vfma _ d a b m | .vfms _ d a b m => [rg 2 d, rg 2 a, rg 2 b, rg 3 m]
  | .vabs _ _ a m | .vneg _ _ a m => [rg 2 a, rg 3 m]
  | .vcmpEq _ _ a b m | .vcmpNe _ _ a b m | .vcmpLt _ _ a b m | .vcmpLe _ _ a b m => [rg 2 a, rg 2 b, rg 3 m]
  | .vand _ a b m | .vor _ a b m | .vxor _ a b m | .vshl _ a b m | .vshr _ a b m | .vsra _ a b m | .vsel _ a b m
  | .vpermb _ a b m | .vshuf _ a b m => [rg 2 a, rg 2 b, rg 3 m]
  | .vmov _ a m => [rg 2 a, rg 3 m]
  | .vbcast _ a _ m => [rg 0 a, rg 3 m]
  | .vidx _ a b m => [rg 0 a, rg 0 b, rg 3 m]
  | .vcvt _ a _ _ m | .vpack _ a _ _ m | .vunpk _ a _ _ _ m => [rg 2 a, rg 3 m]
  | .vrot _ a b m => [rg 2 a, rg 0 b, rg 3 m]
  | .vred _ a _ _ m | .vscan _ a _ _ m => [rg 2 a, rg 3 m]
  | .vdot4 d a b m => [rg 2 d, rg 2 a, rg 2 b, rg 3 m]
  | .vresc _ a _ zpe qs m => [rg 2 a, rg 3 m] ++ regs 6 qs.toNat (if zpe then 2 else 1)
  | .vqnt _ a b _ | .vdq _ a b _ => [rg 2 a, rg 2 b]
  | .vexp2 _ a m | .vlog2 _ a m | .vrcp _ a m | .vrsq _ a m | .vtanh _ a m => [rg 2 a, rg 3 m]
  | .vrand _ a m => [rg 0 a, rg 3 m]
  | .vld _ a _ m | .vldq _ a _ m => [rg 0 a, rg 3 m]
  | .vst d a _ m => [rg 2 d, rg 0 a, rg 3 m]
  | .vlds _ a b m => [rg 0 a, rg 0 b, rg 3 m]
  | .vsts d a b m => [rg 2 d, rg 0 a, rg 0 b, rg 3 m]
  | .vgth _ a b m => [rg 0 a, rg 2 b, rg 3 m]
  | .vsct d a b m => [rg 2 d, rg 0 a, rg 2 b, rg 3 m]
  | .vldg _ a c _ m => [rg 0 a, rg 1 c, rg 3 m]
  | .vstg d a c _ m => [rg 2 d, rg 0 a, rg 1 c, rg 3 m]
  | .vmand _ a b | .vmor _ a b => [rg 3 a, rg 3 b]
  | .vmnot _ a => [rg 3 a]
  | .vmpop _ a | .vmfst _ a => [rg 3 a]
  | .vmset _ a b => [rg 0 a, rg 0 b]
  | .mcfg _ _ a l => rg 0 a :: tokReads l
  | .mdrain _ _ l => tokReads l
  | .mlatch _ _ b sc vec l => matSrc vec sc b ++ tokReads l
  | .mma _ a b w l | .mmat _ a b w l => mmaReads env a b w ++ tokReads l
  | .mzero _ _ _ l => tokReads l
  | .mldz _ _ b _ l => regs 0 b.toNat 2 ++ tokReads l
  | .mst _ z b w l => rg 7 z :: regs 0 b.toNat 2
      ++ (if w.resc then regs 6 w.qs.toNat (if w.zpe then 2 else 1) else [])
      ++ (if w.bse then [rg 0 w.bsr] else []) ++ tokReads l
  | .mtrn _ a _ l | .mstat _ a _ _ l => rg 7 a :: tokReads l
  | .mnz _ a _ l => rg 0 a :: tokReads l
  | .xld _ a b ring shape flag w l =>
      (if ring then rg 10 a else rg 0 a) :: rg 0 b :: xReads w (Wf.copyLen shape flag) ++ tokReads l
  | .xmc _ a b ring shape flag w l =>
      (if ring then rg 10 a else rg 0 a) :: rg 0 b :: xReads w (Wf.copyLen shape flag + 2) ++ tokReads l
  | .xst _ a b shape flag w l | .xred _ a b _ shape flag w l | .xhost _ a b _ shape flag w l =>
      rg 0 a :: rg 0 b :: xReads w (Wf.copyLen shape flag) ++ tokReads l
  | .xchain _ a _ l => rg 0 a :: tokReads l
  | .xpf _ b _ w l | .xres _ b _ w l | .xbfen _ b w l => rg 0 b :: xReads w 1 ++ tokReads l
  | .xsub _ r b _ w l => rg 10 r :: rg 0 b :: xReads w 5 ++ tokReads l
  | .xunsub _ r l => rg 10 r :: tokReads l
  | .xbmv _ a b flag _ w l => rg 0 a :: rg 0 b :: xReads w (Wf.bmvLen flag) ++ tokReads l
  | .xinv _ _ flag n l => regs 0 n.toNat (Wf.invLen flag) ++ tokReads l
  | .kbind _ a b => [rg 0 a, rg 0 b]
  | .kinitEnc _ | .kinitDec _ => []
  | .kenc d a p w m => rg 2 a :: rg 4 p :: rg 3 m :: group8 d w
  | .kdec _ a p w m => rg 4 p :: rg 3 m :: group8 a w
  | .kbypE d a _ w m => rg 2 a :: rg 3 m :: group8 d w
  | .kbypD _ a _ w m => rg 3 m :: group8 a w
  | .ktgt _ a w m => rg 3 m :: group8 a w
  | .kflush d => [rg 5 d]
  | .ksave d a _ => [rg 5 d, rg 0 a]
  | .krest _ a _ => [rg 0 a]
  | .kstat _ a _ => [rg 5 a]
  | .pld _ a _ r | .pqnt _ a _ r | .pnrm _ a _ r => regs 2 a.toNat (if r = 0 then 4 else 1)
  | .nop | .br _ | .call _ => []
  | .bc _ a b _ => [rg 0 a, rg 0 b]
  | .bz _ a | .bnz _ a | .loop _ a | .jr a => [rg 0 a]
  | .ret => [(0, 63)]
  | .spawn _ a b n => rg 0 a :: regs 0 b.toNat (n.toNat + 1)
  | .arrive _ a b _ | .waitb _ a b _ | .waitw a b _ => [rg 0 a, rg 0 b]
  | .awaitf _ r | .relslot r => [rg 10 r]
  | .twait t => [rg 9 t]
  | .yield _ | .safept _ | .drain _ | .fence _ | .trap _ => []
  | .svc _ => regs 0 1 8
  | .eret | .retire => []
  | .enq _ a b n c => rg 0 a :: rg 1 c :: regs 0 b.toNat (n.toNat + 1)
  | .tdec _ a | .cancel _ a | .logmark a _ => [rg 0 a]
  | _ => []

/-- The registers that a slot writes (R23), before S0 and M0 are left out. R23 does not say whether FMTn is in the write set
of MCFG, which writes it (R168): the model leaves it out, so MCFG and an SSET of FMTn may share a bundle, and the write of the
higher slot stands (log entry 148). -/
def Instr.writes0 : Instr → List RegId
  | .add d _ _ | .sub d _ _ | .mul d _ _ | .mulh d _ _ | .mulhu d _ _ | .div d _ _ | .divu d _ _ | .rem d _ _
  | .remu d _ _ | .and d _ _ | .or d _ _ | .xor d _ _ | .shl d _ _ | .shr d _ _ | .sra d _ _ | .slt d _ _
  | .sltu d _ _ | .seq d _ _ | .min d _ _ | .max d _ _ | .minu d _ _ | .maxu d _ _ | .sel d _ _ => [rg 0 d]
  | .addi d _ _ | .andi d _ _ | .ori d _ _ | .xori d _ _ | .slti d _ _ => [rg 0 d]
  | .li d _ => [rg 0 d]
  | .shli d _ _ | .shri d _ _ | .srai d _ _ => [rg 0 d]
  | .clz d _ | .ctz d _ | .popc d _ | .mov d _ => [rg 0 d]
  | .lds d _ _ _ | .ldg d _ _ _ _ => [rg 0 d]
  | .atadd d _ _ _ | .atmin d _ _ _ | .atmax d _ _ _ | .atand d _ _ _ | .ator d _ _ _ | .atxor d _ _ _
  | .atxchg d _ _ _ | .atfadd d _ _ _ | .atcas d _ _ _ => [rg 0 d]
  | .cnarrow d _ _ | .crights d _ _ | .cmovc d _ => [rg 1 d]
  | .cget d _ _ | .sget d _ | .seed d | .dget d => [rg 0 d]
  | .sset n _ => [rg 12 n]
  | .vadd _ d _ _ _ | .vsub _ d _ _ _ | .vmul _ d _ _ _ | .vmin _ d _ _ _ | .vmax _ d _ _ _ | .vfma _ d _ _ _
  | .vfms _ d _ _ _ => [rg 2 d]
  | .vabs _ d _ _ | .vneg _ d _ _ => [rg 2 d]
  | .vcmpEq _ d _ _ _ | .vcmpNe _ d _ _ _ | .vcmpLt _ d _ _ _ | .vcmpLe _ d _ _ _ => [rg 3 d]
  | .vand d _ _ _ | .vor d _ _ _ | .vxor d _ _ _ | .vshl d _ _ _ | .vshr d _ _ _ | .vsra d _ _ _ | .vsel d _ _ _
  | .vpermb d _ _ _ | .vshuf d _ _ _ | .vrot d _ _ _ | .vdot4 d _ _ _ | .vidx d _ _ _ => [rg 2 d]
  | .vmov d _ _ | .vbcast d _ _ _ | .vcvt d _ _ _ _ | .vpack d _ _ _ _ | .vunpk d _ _ _ _ _ | .vred d _ _ _ _
  | .vscan d _ _ _ _ | .vresc d _ _ _ _ _ | .vqnt d _ _ _ | .vdq d _ _ _ | .vexp2 d _ _ | .vlog2 d _ _ | .vrcp d _ _
  | .vrsq d _ _ | .vtanh d _ _ | .vrand d _ _ => [rg 2 d]
  | .vld d _ _ _ | .vlds d _ _ _ | .vgth d _ _ _ | .vldg d _ _ _ _ => [rg 2 d]
  | .vldq d _ _ _ => [rg 6 d]
  | .vmand d _ _ | .vmor d _ _ | .vmnot d _ | .vmset d _ _ => [rg 3 d]
  | .vmpop d _ | .vmfst d _ => [rg 0 d]
  | .mcfg t _ _ _ | .mdrain t _ _ => [rg 9 t]
  | .mlatch t l _ _ _ _ => [rg 9 t, rg 8 l]
  | .mma t _ _ w _ | .mmat t _ _ w _ => [rg 9 t, rg 7 w.zt]
  | .mzero t z _ _ | .mldz t z _ _ _ => [rg 9 t, rg 7 z]
  | .mst t _ _ _ _ => [rg 9 t]
  | .mtrn t _ b _ => [rg 9 t, rg 7 b]
  | .mstat t _ b _ _ => [rg 9 t, rg 0 b]
  | .mnz t _ n _ => [rg 9 t, rg 11 n]
  | .xld t _ _ _ _ _ _ _ | .xmc t _ _ _ _ _ _ _ | .xst t _ _ _ _ _ _ | .xred t _ _ _ _ _ _ _
  | .xhost t _ _ _ _ _ _ _ | .xchain t _ _ _ | .xpf t _ _ _ _ | .xres t _ _ _ _ | .xsub t _ _ _ _ _ | .xunsub t _ _
  | .xbmv t _ _ _ _ _ _ | .xbfen t _ _ _ | .xinv t _ _ _ _ => [rg 9 t]
  | .kbind d _ _ | .kinitEnc d | .kinitDec d | .kflush d | .krest d _ _ => [rg 5 d]
  | .kenc d _ _ w _ | .kbypE d _ _ w _ => group8 d w
  | .kdec d a _ w _ | .kbypD d a _ w _ => rg 2 d :: group8 a w
  | .ktgt d a w _ => rg 2 d :: group8 a w
  | .kstat d _ _ => [rg 0 d]
  | .pld d _ _ _ | .pqnt d _ _ _ | .pnrm d _ _ _ => [rg 4 d]
  | .call _ => [(0, 63)]
  | .loop _ a => [rg 0 a]
  | .spawn d _ _ _ | .arrive d _ _ _ | .waitb d _ _ _ | .awaitf d _ | .enq d _ _ _ _ | .tdec d _ | .cancel d _ => [rg 0 d]
  | .svc _ => [(0, 1)]
  | _ => []

/-- R23: the sets never include S0 and M0. -/
def dropFixed (l : List RegId) : List RegId := l.filter (fun r => r != (0, 0) && r != (3, 0))

/-- The read set of a slot (R23). -/
def Instr.reads (env : Env) (i : Instr) : List RegId := dropFixed (i.reads0 env)

/-- The write set of a slot (R23). -/
def Instr.writes (i : Instr) : List RegId := dropFixed i.writes0

/-! ## The bundle passes of R25 -/

/-- A refused bundle: whether it is the illegal-bundle trap, and TRAPINFO under R26. -/
structure Refused where
  bundle : Bool
  info   : DWord
  deriving DecidableEq, Repr

/-- TRAPINFO of a decode trap (R26). -/
def trapInfo26 (slot reason : Nat) (slot2 : Option Nat) (file reg : Nat) : DWord :=
  BitVec.ofNat 64 (slot + (match slot2 with | some k => 16 * k + 128 | none => 0)
    + 256 * reason + 4096 * file + 65536 * reg)

/-- Pass 2: every slot in ascending order with its extensions; slot indices of the instructions found (R25). A slot 0 that is
an extension and has a fault of its own too (kind 10 or 11, a bad token list) is reported with reason 13, where 'the lowest
reason code' could be read for it as well (log entry 144). -/
def pass2 (env : Env) (i : Nat) : List Word → Except Refused (List (Nat × Instr))
  | [] => .ok []
  | w :: l =>
    let s := Slot.ofWord w
    if s.cls = 6 then
      if i = 0 then .error ⟨true, trapInfo26 0 13 none 0 0⟩ else pass2 env (i + 1) l
    else match decodeSlot env s (Ext.ofWords (l.takeWhile isExt)) with
      | .error r => .error ⟨false, trapInfo26 i r none 0 0⟩
      | .ok ins => match extFaults s.cls.toNat s.op.toNat (i + 1) [] (l.takeWhile isExt) with
        | some (k, r) => .error ⟨false, trapInfo26 k r none 0 0⟩
        | none => match pass2 env (i + 1) l with
          | .error e => .error e
          | .ok rest => .ok ((i, ins) :: rest)

/-- The quota of a class; NOP and extensions are not counted (R17). -/
def quota (cls : Nat) : Nat := if cls = 1 || cls = 3 then 2 else 1

/-- Pass 3: the first slot that exceeds its class's quota (R17, R25). -/
def pass3 (i : Nat) (seen : List Nat) : List Word → Option Nat
  | [] => none
  | w :: l =>
    let s := Slot.ofWord w
    if s.cls = 6 || (s.cls = 5 && s.op = 0) then pass3 (i + 1) seen l
    else if seen.count s.cls.toNat ≥ quota s.cls.toNat then some i
    else pass3 (i + 1) (s.cls.toNat :: seen) l

/-- The members two sets share. -/
def shared (l m : List RegId) : List RegId := l.filter (m.contains ·)

/-- The least register of a list, by file and then number. -/
def leastReg : List RegId → Option RegId
  | [] => none
  | r :: l => match leastReg l with
    | none => some r
    | some r' => some (if r.1 < r'.1 || (r.1 = r'.1 && r.2 ≤ r'.2) then r else r')

/-- R24 for slots x before y: read-after-write (unless an exchange) before write-after-write. -/
def conflict (env : Env) (x y : Instr) : Option (Nat × RegId) :=
  let raw := shared x.writes (y.reads env)
  let exch := shared y.writes (x.reads env) != []
  match (if exch then none else leastReg raw), leastReg (shared x.writes y.writes) with
  | some r, _ => some (11, r)
  | none, some r => some (12, r)
  | none, none => none

/-- The first slot before y that conflicts with it. -/
def conflictBelow (env : Env) (y : Instr) : List (Nat × Instr) → Option (Nat × Nat × RegId)
  | [] => none
  | (k, x) :: l => match conflict env x y with
    | some (r, g) => some (k, r, g)
    | none => conflictBelow env y l

/-- Pass 4: the conflict with the lowest higher slot, then the lowest lower slot (R25). -/
def pass4 (env : Env) (below : List (Nat × Instr)) : List (Nat × Instr) → Option DWord
  | [] => none
  | (k, y) :: l => match conflictBelow env y below with
    | some (k2, r, g) => some (trapInfo26 k r (some k2) g.1 g.2)
    | none => pass4 env (below ++ [(k, y)]) l

/-- The words of one bundle, fetched up to the first with E = 1 (R16), to its instructions with their slot
indices, or the trap of R25. Alignment and the fetch checks are the sequencer's. -/
def decodeBundle (env : Env) (ws : List Word) : Except Refused (List (Nat × Instr)) :=
  if !(ws.any (·.msb)) then .error ⟨true, trapInfo26 7 8 none 0 0⟩
  else if ws.length < 4 then .error ⟨true, trapInfo26 (ws.length - 1) 9 none 0 0⟩
  else match pass2 env 0 ws with
    | .error e => .error e
    | .ok l => match pass3 0 [] ws with
      | some k => .error ⟨true, trapInfo26 k 10 none 0 0⟩
      | none => match pass4 env [] l with
        | some v => .error ⟨true, v⟩
        | none => .ok l

/-! ## The encoder -/

/-- What an instruction encodes to: its slot and its extensions. -/
structure Enc where
  slot : Slot
  imm  : Option (BitVec 26)
  toks : List Tok
  deriving DecidableEq, Repr

/-- A slot with its fields, not ending its bundle. -/
def mk (cls : BitVec 3) (op : BitVec 7) (d a b : Reg) (q : BitVec 3) (imm : Option (BitVec 26) := none)
    (toks : List Tok := []) : Enc :=
  { slot := { e := false, cls, op, d, a, b, q }, imm, toks }

/-- R21: the extension a value needs beyond a field of `w` bits, if any. -/
def extFor {k : Nat} (w : Nat) (v : BitVec k) : Option (BitVec 26) :=
  if (v.extractLsb' 0 w).signExtend k = v then none else some (v.extractLsb' w 26)

/-- A b:q immediate form (R21). -/
def mkBQ (cls : BitVec 3) (op : BitVec 7) (d a : Reg) (v : BitVec 35) : Enc :=
  mk cls op d a (v.extractLsb' 3 6) (v.extractLsb' 0 3) (extFor 9 v)

/-- A form whose 6-bit immediate is its b field (R21). -/
def mkB6 (cls : BitVec 3) (op : BitVec 7) (d a : Reg) (v : BitVec 32) (q : BitVec 3) : Enc :=
  mk cls op d a (v.extractLsb' 0 6) q (extFor 6 v)

/-- A branch with the 15-bit immediate d:b:q (R56). -/
def mkDBQ (op : BitVec 7) (v : BitVec 41) (a : Reg) : Enc :=
  mk 5 op (v.extractLsb' 9 6) a (v.extractLsb' 3 6) (v.extractLsb' 0 3) (extFor 15 v)

/-- A branch with the 21-bit immediate d:a:b:q (R56). -/
def mkDABQ (op : BitVec 7) (v : BitVec 47) : Enc :=
  mk 5 op (v.extractLsb' 15 6) (v.extractLsb' 9 6) (v.extractLsb' 3 6) (v.extractLsb' 0 3) (extFor 21 v)

/-- An immediate of width 0 (R53). -/
def ext0 (v : BitVec 26) : Option (BitVec 26) := if v = 0 then none else some v

/-- One bit as a qualifier bit. -/
def bit (b : Bool) : BitVec 1 := BitVec.ofBool b

/-- An atomic (R235). -/
def mkAt (op : BitVec 7) (d a b : Reg) (w : AtWord) : Enc :=
  mk 0 op d a b (bit w.wide ++ w.ord : BitVec 3) (some (w.cap ++ (w.scope ++ ((0 : BitVec 3) ++ w.off)) : BitVec 26))

/-- The operand word of MMA and MMAT (R170). -/
def MmaWord.toBits (w : MmaWord) : BitVec 26 :=
  ((0 : BitVec 16) ++ (bit w.strict ++ (bit w.fresh ++ (w.nzb ++ (w.nza ++ (bit w.arr ++ w.zt))))) : BitVec 26)

/-- An MMA or MMAT (R167). -/
def mkMma (op : BitVec 7) (t : Tok) (a b : Reg) (w : MmaWord) (l : List Tok) : Enc :=
  mk 2 op (t.setWidth 6) a b (w.bkind ++ bit w.avec : BitVec 3) (some w.toBits) l

/-- The operand word of MST (R173). -/
def MstWord.toBits (w : MstWord) : BitVec 26 :=
  ((0 : BitVec 8) ++ (w.bsr ++ (bit w.bse ++ (w.qoff ++ (bit w.zpe ++ (w.qs ++ (bit w.resc ++ w.out)))))) : BitVec 26)

/-- The operand word of the copy class (R136). -/
def XWord.toBits (w : XWord) : BitVec 26 := (w.n ++ (w.cap ++ w.off) : BitVec 26)

/-- A copy slot (R135). -/
def mkX (op : BitVec 7) (t : Tok) (a b : Reg) (q2 q1 q0 : Bool) (w : XWord) (l : List Tok) : Enc :=
  mk 3 op (t.setWidth 6) a b (bit q2 ++ (bit q1 ++ bit q0) : BitVec 3) (some w.toBits) l

/-- The group field of a coder form (R179). -/
def grp (w : Bool) (m : BitVec 2) : BitVec 3 := (bit w ++ m : BitVec 3)

/-- The encoding of an instruction; a step has none. -/
def encodeSlot : Instr → Option Enc
  | .add d a b => some (mk 0 0x00 d a b 0)
  | .addi d a v => some (mkBQ 0 0x01 d a v)
  | .sub d a b => some (mk 0 0x02 d a b 0)
  | .mul d a b => some (mk 0 0x03 d a b 0)
  | .mulh d a b => some (mk 0 0x04 d a b 0)
  | .mulhu d a b => some (mk 0 0x05 d a b 0)
  | .div d a b => some (mk 0 0x06 d a b 0)
  | .divu d a b => some (mk 0 0x07 d a b 0)
  | .rem d a b => some (mk 0 0x08 d a b 0)
  | .remu d a b => some (mk 0 0x09 d a b 0)
  | .and d a b => some (mk 0 0x0A d a b 0)
  | .andi d a v => some (mkBQ 0 0x0B d a v)
  | .or d a b => some (mk 0 0x0C d a b 0)
  | .ori d a v => some (mkBQ 0 0x0D d a v)
  | .xor d a b => some (mk 0 0x0E d a b 0)
  | .xori d a v => some (mkBQ 0 0x0F d a v)
  | .shl d a b => some (mk 0 0x10 d a b 0)
  | .shli d a v => some (mk 0 0x11 d a ((v.extractLsb' 3 3).setWidth 6) (v.extractLsb' 0 3))
  | .shr d a b => some (mk 0 0x12 d a b 0)
  | .shri d a v => some (mk 0 0x13 d a ((v.extractLsb' 3 3).setWidth 6) (v.extractLsb' 0 3))
  | .sra d a b => some (mk 0 0x14 d a b 0)
  | .srai d a v => some (mk 0 0x15 d a ((v.extractLsb' 3 3).setWidth 6) (v.extractLsb' 0 3))
  | .slt d a b => some (mk 0 0x16 d a b 0)
  | .sltu d a b => some (mk 0 0x17 d a b 0)
  | .slti d a v => some (mkBQ 0 0x18 d a v)
  | .seq d a b => some (mk 0 0x19 d a b 0)
  | .min d a b => some (mk 0 0x1A d a b 0)
  | .max d a b => some (mk 0 0x1B d a b 0)
  | .minu d a b => some (mk 0 0x1C d a b 0)
  | .maxu d a b => some (mk 0 0x1D d a b 0)
  | .sel d a b => some (mk 0 0x1E d a b 0)
  | .clz d a => some (mk 0 0x1F d a 0 0)
  | .ctz d a => some (mk 0 0x20 d a 0 0)
  | .popc d a => some (mk 0 0x21 d a 0 0)
  | .li d v => some (mkBQ 0 0x22 d 0 v)
  | .mov d a => some (mk 0 0x23 d a 0 0)
  | .lds d a v sz => some (mkB6 0 0x24 d a v sz)
  | .sts d a v sz => some (mkB6 0 0x25 d a v sz)
  | .ldg d a c v sz => some (mk 0 0x26 d a (c.setWidth 6) sz (ext0 v))
  | .stg d a c v sz => some (mk 0 0x27 d a (c.setWidth 6) sz (ext0 v))
  | .atadd d a b w => some (mkAt 0x28 d a b w)
  | .atmin d a b w => some (mkAt 0x29 d a b w)
  | .atmax d a b w => some (mkAt 0x2A d a b w)
  | .atand d a b w => some (mkAt 0x2B d a b w)
  | .ator d a b w => some (mkAt 0x2C d a b w)
  | .atxor d a b w => some (mkAt 0x2D d a b w)
  | .atxchg d a b w => some (mkAt 0x2E d a b w)
  | .atcas d a b w => some (mkAt 0x2F d a b w)
  | .atfadd d a b w => some (mkAt 0x30 d a b w)
  | .cnarrow d a b => some (mk 0 0x31 (d.setWidth 6) (a.setWidth 6) b 0)
  | .crights d a v => some (mk 0 0x32 (d.setWidth 6) (a.setWidth 6) ((v.extractLsb' 3 5).setWidth 6) (v.extractLsb' 0 3))
  | .cget d a k => some (mk 0 0x33 d (a.setWidth 6) 0 k)
  | .cmovc d a => some (mk 0 0x34 (d.setWidth 6) (a.setWidth 6) 0 0)
  | .sget d n => some (mk 0 0x35 d (n.extractLsb' 6 6) (n.extractLsb' 0 6) 0)
  | .sset n a => some (mk 0 0x36 (n.extractLsb' 6 6) a (n.extractLsb' 0 6) 0)
  | .seed d => some (mk 0 0x37 d 0 0 0)
  | .dget d => some (mk 0 0x38 d 0 0 0)
  | .vadd t d a b m => some (mk 1 ((0x00 : BitVec 5) ++ t) d a b m)
  | .vsub t d a b m => some (mk 1 ((0x01 : BitVec 5) ++ t) d a b m)
  | .vmul t d a b m => some (mk 1 ((0x02 : BitVec 5) ++ t) d a b m)
  | .vfma t d a b m => some (mk 1 ((0x03 : BitVec 5) ++ t) d a b m)
  | .vfms t d a b m => some (mk 1 ((0x04 : BitVec 5) ++ t) d a b m)
  | .vmin t d a b m => some (mk 1 ((0x05 : BitVec 5) ++ t) d a b m)
  | .vmax t d a b m => some (mk 1 ((0x06 : BitVec 5) ++ t) d a b m)
  | .vabs t d a m => some (mk 1 ((0x07 : BitVec 5) ++ t) d a 0 m)
  | .vneg t d a m => some (mk 1 ((0x08 : BitVec 5) ++ t) d a 0 m)
  | .vcmpEq t d a b m => some (mk 1 ((0x09 : BitVec 5) ++ t) (d.setWidth 6) a b m)
  | .vcmpNe t d a b m => some (mk 1 ((0x0A : BitVec 5) ++ t) (d.setWidth 6) a b m)
  | .vcmpLt t d a b m => some (mk 1 ((0x0B : BitVec 5) ++ t) (d.setWidth 6) a b m)
  | .vcmpLe t d a b m => some (mk 1 ((0x0C : BitVec 5) ++ t) (d.setWidth 6) a b m)
  | .vand d a b m => some (mk 1 0x34 d a b m)
  | .vor d a b m => some (mk 1 0x35 d a b m)
  | .vxor d a b m => some (mk 1 0x36 d a b m)
  | .vshl d a b m => some (mk 1 0x37 d a b m)
  | .vshr d a b m => some (mk 1 0x38 d a b m)
  | .vsra d a b m => some (mk 1 0x39 d a b m)
  | .vsel d a b m => some (mk 1 0x3A d a b m)
  | .vmov d a m => some (mk 1 0x3B d a 0 m)
  | .vbcast d a w m => some (mk 1 0x3C d a (w.setWidth 6) m)
  | .vidx d a b m => some (mk 1 0x3D d a b m)
  | .vcvt d a x y m => some (mk 1 0x3E d a (x ++ y) m)
  | .vpack d a p w m => some (mk 1 0x3F d a ((0 : BitVec 1) ++ (p ++ w)) m)
  | .vunpk d a x p w m => some (mk 1 0x40 d a (bit x ++ (p ++ w)) m)
  | .vpermb d a b m => some (mk 1 0x41 d a b m)
  | .vshuf d a b m => some (mk 1 0x42 d a b m)
  | .vrot d a b m => some (mk 1 0x43 d a b m)
  | .vred d a o t m => some (mk 1 0x44 d a ((0 : BitVec 2) ++ (o ++ t)) m)
  | .vscan d a o t m => some (mk 1 0x45 d a ((0 : BitVec 2) ++ (o ++ t)) m)
  | .vdot4 d a b m => some (mk 1 0x46 d a b m)
  | .vresc d a o z s m => some (mk 1 0x47 d a (o ++ (bit z ++ s)) m)
  | .vqnt d a b f => some (mk 1 0x48 d a b f)
  | .vdq d a b f => some (mk 1 0x49 d a b f)
  | .vexp2 d a m => some (mk 1 0x4A d a 0 m)
  | .vlog2 d a m => some (mk 1 0x4B d a 0 m)
  | .vrcp d a m => some (mk 1 0x4C d a 0 m)
  | .vrsq d a m => some (mk 1 0x4D d a 0 m)
  | .vtanh d a m => some (mk 1 0x4E d a 0 m)
  | .vrand d a m => some (mk 1 0x4F d a 0 m)
  | .vld d a v m => some (mkB6 1 0x50 d a v m)
  | .vst d a v m => some (mkB6 1 0x51 d a v m)
  | .vlds d a b m => some (mk 1 0x52 d a b m)
  | .vsts d a b m => some (mk 1 0x53 d a b m)
  | .vgth d a b m => some (mk 1 0x54 d a b m)
  | .vsct d a b m => some (mk 1 0x55 d a b m)
  | .vldg d a c v m => some (mk 1 0x56 d a (c.setWidth 6) m (ext0 v))
  | .vstg d a c v m => some (mk 1 0x57 d a (c.setWidth 6) m (ext0 v))
  | .vldq d a v m => some (mkB6 1 0x58 (d.setWidth 6) a v m)
  | .vmand d a b => some (mk 1 0x59 (d.setWidth 6) (a.setWidth 6) (b.setWidth 6) 0)
  | .vmor d a b => some (mk 1 0x5A (d.setWidth 6) (a.setWidth 6) (b.setWidth 6) 0)
  | .vmnot d a => some (mk 1 0x5B (d.setWidth 6) (a.setWidth 6) 0 0)
  | .vmpop d a => some (mk 1 0x5C d (a.setWidth 6) 0 0)
  | .vmfst d a => some (mk 1 0x5D d (a.setWidth 6) 0 0)
  | .vmset d a b => some (mk 1 0x5E (d.setWidth 6) a b 0)
  | .mcfg t n a l => some (mk 2 0x00 (t.setWidth 6) a ((bit n).setWidth 6) 0 none l)
  | .mdrain t n l => some (mk 2 0x01 (t.setWidth 6) 0 ((bit n).setWidth 6) 0 none l)
  | .mlatch t l b s v k => some (mk 2 0x02 (t.setWidth 6) (l.setWidth 6) b ((0 : BitVec 1) ++ (bit s ++ bit v)) none k)
  | .mma t a b w l => some (mkMma 0x03 t a b w l)
  | .mmat t a b w l => some (mkMma 0x04 t a b w l)
  | .mzero t z i l => some (mk 2 0x05 (t.setWidth 6) (z.setWidth 6) 0 ((bit i).setWidth 3) none l)
  | .mldz t z b i l => some (mk 2 0x06 (t.setWidth 6) (z.setWidth 6) b ((bit i).setWidth 3) none l)
  | .mst t z b w l => some (mk 2 0x07 (t.setWidth 6) (z.setWidth 6) b 0 (some w.toBits) l)
  | .mtrn t a b l => some (mk 2 0x08 (t.setWidth 6) (a.setWidth 6) (b.setWidth 6) 0 none l)
  | .mstat t a b c l => some (mk 2 0x09 (t.setWidth 6) (a.setWidth 6) b ((bit c).setWidth 3) none l)
  | .mnz t a n l => some (mk 2 0x0A (t.setWidth 6) a (n.setWidth 6) 0 none l)
  | .xld t a b r s f w l => some (mkX 0x00 t a b r s f w l)
  | .xst t a b s f w l => some (mkX 0x01 t a b false s f w l)
  | .xmc t a b r s f w l => some (mkX 0x02 t a b r s f w l)
  | .xred t a b i s f w l => some (mkX 0x03 t a b i s f w l)
  | .xhost t a b o s f w l => some (mkX 0x04 t a b o s f w l)
  | .xchain t a c l => some (mk 3 0x05 (t.setWidth 6) a 0 ((bit c).setWidth 3) none l)
  | .xpf t b v w l => some (mkX 0x06 t 0 b false false v w l)
  | .xres t b v w l => some (mkX 0x07 t 0 b false false v w l)
  | .xsub t r b o w l => some (mkX 0x08 t (r.setWidth 6) b false false o w l)
  | .xunsub t r l => some (mk 3 0x09 (t.setWidth 6) (r.setWidth 6) 0 0 (some 0) l)
  | .xbmv t a b f k w l => some (mk 3 0x0A (t.setWidth 6) a b (bit f ++ k) (some w.toBits) l)
  | .xbfen t b w l => some (mkX 0x0B t 0 b false false false w l)
  | .xinv t m f n l => some (mk 3 0x0C (t.setWidth 6) 0 0 (m ++ bit f) (some (XWord.toBits ⟨n, 0, 0⟩)) l)
  | .kbind d a b => some (mk 4 0x00 d a b 0)
  | .kinitEnc d => some (mk 4 0x01 d 0 0 0)
  | .kinitDec d => some (mk 4 0x01 d 0 0 1)
  | .kenc d a p w m => some (mk 4 0x02 d a (p.setWidth 6) (grp w m))
  | .kdec d a p w m => some (mk 4 0x03 d a (p.setWidth 6) (grp w m))
  | .kbypE d a n w m => some (mk 4 0x04 d a ((0 : BitVec 2) ++ n) (grp w m))
  | .kbypD d a n w m => some (mk 4 0x04 d a ((2 : BitVec 2) ++ n) (grp w m))
  | .ktgt d a w m => some (mk 4 0x05 d a 0 (grp w m))
  | .kflush d => some (mk 4 0x06 d 0 0 0)
  | .ksave d a v => some (mkB6 4 0x07 d a v 0)
  | .krest d a v => some (mkB6 4 0x08 d a v 0)
  | .kstat d a k => some (mk 4 0x09 d a 0 k)
  | .pld d a b r => some (mk 4 0x0A (d.setWidth 6) a b r)
  | .pqnt d a b r => some (mk 4 0x0B (d.setWidth 6) a b r)
  | .pnrm d a b r => some (mk 4 0x0C (d.setWidth 6) a b r)
  | .nop => some (mk 5 0x00 0 0 0 0)
  | .br v => some (mkDABQ 0x01 v)
  | .bc v a b c => some (mk 5 0x02 (v.extractLsb' 0 6) a b c (extFor 6 v))
  | .bz v a => some (mkDBQ 0x03 v a)
  | .bnz v a => some (mkDBQ 0x04 v a)
  | .jr a => some (mk 5 0x05 0 a 0 0)
  | .call v => some (mkDABQ 0x06 v)
  | .ret => some (mk 5 0x07 0 0 0 0)
  | .loop v a => some (mkDBQ 0x08 v a)
  | .spawn d a b n => some (mk 5 0x09 d a b n)
  | .arrive d a b s => some (mk 5 0x0A d a b s)
  | .waitb d a b s => some (mk 5 0x0B d a b s)
  | .waitw a b c => some (mk 5 0x0C 0 a b c)
  | .awaitf d r => some (mk 5 0x0D d (r.setWidth 6) 0 0)
  | .relslot r => some (mk 5 0x0E 0 (r.setWidth 6) 0 0)
  | .twait t => some (mk 5 0x0F 0 (t.setWidth 6) 0 0)
  | .yield k => some (mk 5 0x10 0 0 0 ((bit k).setWidth 3))
  | .safept n => some (mk 5 0x11 0 0 (n.extractLsb' 3 6) (n.extractLsb' 0 3)
      (if (n.extractLsb' 0 9).setWidth 35 = n then none else some (n.extractLsb' 9 26)))
  | .drain s => some (mk 5 0x12 0 0 0 s)
  | .fence s => some (mk 5 0x13 0 0 0 s)
  | .trap n => some (mk 5 0x14 0 0 (n.extractLsb' 3 6) (n.extractLsb' 0 3))
  | .svc n => some (mk 5 0x15 0 0 (n.extractLsb' 3 6) (n.extractLsb' 0 3))
  | .eret => some (mk 5 0x16 0 0 0 0)
  | .retire => some (mk 5 0x17 0 0 0 0)
  | .enq d a b n c => some (mk 5 0x18 d a b n (some (c.setWidth 26)))
  | .tdec d a => some (mk 5 0x19 d a 0 0)
  | .cancel d a => some (mk 5 0x1A d a 0 0)
  | .logmark a t => some (mk 5 0x1B 0 a 0 t)
  | _ => none

/-- An immediate extension word (R21). -/
def immWord (x : BitVec 26) : Word := ((0x18 : BitVec 6) ++ x : BitVec 32)

/-- A token-list extension word (R22). -/
def tokWord (l : List Tok) : Word :=
  ((0x19 : BitVec 6) ++ (BitVec.ofNat 2 l.length ++ (l.getD 0 0 ++ (l.getD 1 0 ++ (l.getD 2 0 ++ (0 : BitVec 9))))) : BitVec 32)

/-- The words of an encoding in order: the slot, its immediate or operand extension, its token list (R390). -/
def Enc.words (e : Enc) : List Word :=
  e.slot.toWord :: (match e.imm with | none => [] | some x => [immWord x])
    ++ (if e.toks.isEmpty then [] else [tokWord e.toks])

/-- The words of an instruction, none of them ending its bundle; empty for a step. -/
def encode (i : Instr) : List Word :=
  match encodeSlot i with
  | none => []
  | some e => e.words

/-! ## The opcode table's words -/

/-- Whether a form requires an operand word (R135, R167, R235, R256). -/
def needsOperand (w : Word) : Bool :=
  let s := Slot.ofWord w
  match s.cls.toNat with
  | 0 => 0x28 ≤ s.op.toNat && s.op.toNat ≤ 0x30
  | 2 => [3, 4, 7].contains s.op.toNat
  | 3 => s.op.toNat ≤ 0x0C && s.op.toNat != 5
  | 5 => s.op.toNat == 0x18
  | _ => false

/-- The words of a table row: the slot with its stop bit clear, and the operand word of zeros where it requires one. -/
def tableWords (w : Nat) : List Word :=
  let s := BitVec.ofNat 32 w &&& 0x7FFFFFFF#32
  s :: (if needsOperand s then [immWord 0] else [])

/-- The context in which a row of the table is read: privileged, with the format pairs of task entry. -/
def tableEnv : Env := { priv := true, fp4a := false, fp4b := false }

/-- The instruction the decoder reads from a table row's bits. -/
def decodeTableWord (nbits w : Nat) : Option Instr :=
  if nbits = 32 then
    match decodeWords tableEnv (tableWords w) with
    | .ok i => some i
    | .error _ => none
  else none

end Sys2Proof
end

