-- ==== Sys2Proof/Machine/State.lean ====
section
/-! DEFINITION. The state of the machine: every piece of state the spec gives it, as plain data, and its value after
reset. INVENTORY.md lists each field with its rule and its reset value. -/

namespace Sys2Proof.Machine

open Sys2Proof

/-! ## Files and memories -/

/-- A register file with `2 ^ k` registers of type `α`. -/
abbrev File (k : Nat) (α : Type) := Vector α (2 ^ k)

/-- The register numbered `i`. -/
def File.get {k : Nat} {α : Type} (f : File k α) (i : BitVec k) : α := f[i.toNat]'i.isLt

/-- The file with register `i` set to `x`. -/
def File.put {k : Nat} {α : Type} (f : File k α) (i : BitVec k) (x : α) : File k α := f.set i.toNat x i.isLt

/-- A file whose registers all hold `x`. -/
def File.all (k : Nat) {α : Type} (x : α) : File k α := Vector.replicate (2 ^ k) x

/-- A file made register by register. -/
def File.gen (k : Nat) {α : Type} (f : Nat → α) : File k α := Vector.ofFn (fun i => f i.val)

/-- A vector register: 256 lanes of 32 bits (R85). -/
abbrev VReg := File 8 Word

/-- A mask register: one bit for each lane (R85). -/
abbrev Mask := BitVec 256

/-- A capability in the layout of R300. -/
abbrev Cap := BitVec 128

/-- Bytes by address in canonical form: addresses strictly rising and no zero byte listed, since an unlisted byte
reads zero (log entry 2). -/
abbrev Memory := List Host.Cell

/-- Addresses above `lo` rise strictly and no listed byte is zero. -/
def Memory.wfFrom (lo : Nat) : Memory → Bool
  | [] => true
  | (a, b) :: m => lo ≤ a && b != 0 && wfFrom (a + 1) m

/-- The canonical form of a memory. -/
def Memory.wf (m : Memory) : Bool := Memory.wfFrom 0 m

/-! ## Registers of the engines -/

/-- A coder stream register (R176). -/
structure Stream where
  low    : BitVec 33
  mode   : BitVec 2
  exh    : Bool
  range  : Word
  cache  : Byte
  pend   : Word
  cursor : Word
  limit  : Word
  deriving DecidableEq, Repr, Inhabited

/-- A row of a probability register: 16 frequencies of 12 bits (R177). -/
abbrev PRow := File 4 (BitVec 12)

/-- A probability register (R177). -/
structure Prob where
  rows  : File 6 PRow
  alpha : BitVec 4
  deriving DecidableEq, Repr

/-- An accumulator tile, row by row, with its status word (R156, R157). -/
structure Tile where
  elem   : File 12 (BitVec 40)
  status : DWord
  deriving DecidableEq, Repr

/-- A latch: 8 KiB of lines and a 2 KiB scale tile (R156). -/
structure Latch where
  lines  : File 13 Byte
  scales : File 11 Byte
  deriving DecidableEq, Repr

/-- An entry of the token table (R121), with the DETAIL that R123 reports with its error. -/
structure Token where
  pending : Bool
  err     : BitVec 4
  inst    : BitVec 3
  detail  : Word
  deriving DecidableEq, Repr, Inhabited

/-! ## Results and values under way -/

/-- Where a result lands and what it writes: the register files of the shadow result buffer's DEST (R211). Vector,
mask and scale results carry the mask they merge under (R86); `vp` is VPACK's, which merges elements (R95). -/
inductive Landing where
  | s  (r : Reg) (v : DWord)
  | c  (r : CReg) (v : Cap)
  | v  (r : Reg) (x : VReg) (m : Mask)
  | vp (r : Reg) (w pos : Nat) (x : VReg) (m : Mask)
  | m  (r : MReg) (x m : Mask)
  | q  (r : QReg) (x : VReg) (m : Mask)
  | nz (r : NzReg) (v : Byte)
  deriving DecidableEq, Repr

/-- A result in flight: due at a core cycle, with the FLAGS bits it sets (R9, R44, R84). A divide's result also
clears its pending mark (R48). -/
structure Result where
  land  : Landing
  flags : BitVec 6
  due   : Nat
  mark  : Bool
  deriving DecidableEq, Repr

/-- The destination of an interlocked value (R48, R108). -/
inductive WaitDest where
  | s (r : Reg)
  | v (r : Reg) (m : Mask)
  deriving DecidableEq, Repr

/-- What an outstanding interlocked value comes from. -/
inductive WaitKind where
  | load (sz : BitVec 3)
  | vload
  | atomic (acq : Bool) (scope : Scope)
  | seed
  | digest
  | request
  deriving DecidableEq, Repr

/-- An interlocked value outstanding (R48): how many accesses it still waits for, and the words that came. -/
structure Wait where
  id    : Nat
  dest  : WaitDest
  kind  : WaitKind
  need  : Nat
  got   : List (Nat × DWord)
  sigma : Nat
  deriving DecidableEq, Repr

/-! ## Accesses -/

/-- A translation: one leaf of one object, formed by a walk under a lease set (R305, R313). -/
structure Xlat where
  part   : Nat
  obj    : Nat
  gen    : Nat
  lease  : Nat
  oframe : Nat
  n0     : Nat
  n1     : Nat
  n2     : Nat
  cls    : Nat
  pframe : Nat
  str1   : Nat
  str2   : Nat
  arena  : Bool
  layout : Nat
  write  : Bool
  deriving DecidableEq, Repr, Inhabited

/-- What an access reaches through: the capability's object, kind and generation and the partition (R302). -/
structure Via where
  part  : Nat
  obj   : Nat
  kind  : Nat
  gen   : Nat
  lease : Nat
  deriving DecidableEq, Repr, Inhabited

/-- One word of an access: its lane, its object offset, its width in bytes and its data. A word that crosses a line is one item on each
line, and `sh` is how many bytes of it stand on the line before (R107, R300). -/
structure Item where
  lane  : Nat
  off   : Nat
  width : Nat
  data  : DWord
  sh    : Nat := 0
  deriving DecidableEq, Repr, Inhabited

/-- The nine atomic operations (R237). -/
inductive AtOp where
  | add | min | max | and | or | xor | xchg | cas | fadd
  deriving DecidableEq, Repr, Inhabited

/-- What an access does at its home. -/
inductive AccKind where
  | load
  | store
  | atomic (op : AtOp) (new : DWord) (scope : Scope)
  deriving DecidableEq, Repr, Inhabited

/-- A global access of a core (R111). `wait` names the interlocked value it serves; `held` the XINVs whose
acknowledgement waits for it (R315); `uid` names its context, `fenced` says that it waits behind a FENCE (R127),
`dead` that its line was invalidated after it issued (R115), `late` that it reached its bank inside a refresh window
(R246), and `start` the cycle in which it entered its queue (R30, R324). -/
structure Acc where
  id    : Nat
  kind  : AccKind
  via   : Via
  items : List Item
  wait  : Option Nat
  sigma : Nat
  item0 : Nat
  slot  : Nat
  cap   : Nat
  addr  : Nat
  xl    : Option Xlat
  held  : List Nat
  uid   : Nat
  fenced : Bool
  dead  : Bool
  late  : Bool := false
  start : Nat := 0
  deriving DecidableEq, Repr, Inhabited

/-- An entry of an off-core queue: an access, or a fence marker (R116, R127). -/
inductive QEntry where
  | acc (a : Acc)
  | fence (id : Nat) (scope : Scope)
  deriving DecidableEq, Repr

/-- A valid line of the L1G: its partition, object, generation and line number within the object, and its 64 bytes
(R115). -/
structure L1Line where
  part  : Nat
  obj   : Nat
  gen   : Nat
  line  : Nat
  wstore : Bool
  bytes : List Byte
  deriving DecidableEq, Repr, Inhabited

/-- A line read at the home by a load and not yet installed; an invalidation after the load's issue kills it (R115). -/
structure Fill where
  line : L1Line
  live : Bool
  deriving DecidableEq, Repr, Inhabited

/-! ## Engine operations -/

/-- The shape of a payload (R138): rows, bytes in a row, and the two pitches. -/
structure Shape where
  rows   : Nat
  rowb   : Nat
  spitch : Nat
  gpitch : Nat
  deriving DecidableEq, Repr, Inhabited

/-- The copy forms that move one payload (R137, R151). -/
inductive CopyForm where
  | ld | st | red (int : Bool) | hostIn | hostOut
  deriving DecidableEq, Repr, Inhabited

/-- A destination of a multicast (R232): its member index and core, the ring slot it claimed, and its progress. -/
structure McDest where
  member  : Nat
  core    : Nat
  sp      : Nat
  slot    : Option Nat
  claimed : Bool
  ovr     : Bool
  left    : List Nat
  filled  : Bool
  flagged : Bool
  deriving DecidableEq, Repr, Inhabited

/-- A matrix operand (R160): vector registers as read at issue, a latch, or a scratchpad layout (R161). -/
inductive MatSrc where
  | vec (v : List VReg)
  | latch (l : LReg)
  | spad (base pitch tpitch rot : Nat)
  deriving DecidableEq, Repr

/-- The record a chain channel is moving (R152). -/
structure ChainCur where
  form : CopyForm
  sp   : Nat
  sh   : Shape
  via  : Via
  g    : Nat
  stop : Bool
  next : Nat
  deriving DecidableEq, Repr, Inhabited

/-- A subscription (R327 to R331): its ring, direction, target and tiles, the next tile and the scratchpad address of
the slot it uses, and, once an XUNSUB has ended it, the number of tiles it stops at. -/
structure Sub where
  ring : Nat
  out  : Bool
  via  : Via
  sh   : Shape
  g    : Int
  nt0  : Nat
  nt1  : Nat
  ts0  : Int
  ts1  : Int
  tile : Nat
  sp   : Nat
  stop : Option Nat
  deriving DecidableEq, Repr, Inhabited

/-- A bank product (R332): the address of x, the format, W, the scales and the band scales by capability and offset,
the shape, the address of y, its ring, the NZ register and the flag word, and whether the layout has been checked. -/
structure Bmv where
  x    : Nat
  fmt  : BitVec 2
  via  : Via
  g    : Nat
  n    : Nat
  m    : Nat
  svia : Via
  sg   : Nat
  bvia : Via
  bg   : Nat
  y    : Nat
  ring : Option Nat
  nz   : Byte
  flag : Option (Nat × DWord)
  checked : Bool
  deriving DecidableEq, Repr, Inhabited

/-- What an issued engine operation does (R116): each constructor carries what the form reads at issue. -/
inductive OpKind where
  | copy (form : CopyForm) (sp : Nat) (sh : Shape) (via : Via) (g : Nat) (flag : Option (Nat × DWord))
      (ring : Option Nat)
  | multi (sh : Shape) (via : Via) (g : Nat) (flag : Option (Nat × DWord)) (ring : Option Nat)
      (dests : List McDest) (bar : Option Nat)
  | chain (ch : Nat) (rec : Nat) (caps : List Cap) (cur : Option ChainCur)
  | prefetch (l1 : Bool) (via : Via) (g len : Nat)
  | residency (far : Bool) (via : Via) (g len : Nat)
  | drain (arr : Bool)
  | latch (l : LReg) (src : MatSrc) (sc : Bool)
  | mma (tri strict : Bool) (arr : Bool) (zt : ZReg) (a b : MatSrc) (fmt : DWord) (nza nzb : Byte) (fresh : Bool)
  | zero (z : ZReg) (int : Bool)
  | ldz (z : ZReg) (src : MatSrc) (int : Bool)
  | stz (z : ZReg) (dst : MatSrc) (w : MstWord) (bs : BitVec 16) (qs zps : VReg) (rm : DWord)
  | trn (a b : ZReg)
  | inv (part id : Nat) (flag : Option (Nat × DWord))
  | sub (x : Sub)
  | unsub (sub : Nat)
  | bmv (x : Bmv)
  | bfen (via : Via) (g len : Nat)
  deriving DecidableEq, Repr

/-- An engine operation issued and not resolved (R116, R117): its token and the engine that holds it, the reads and
writes still to take, the words read, the words written, its partial digest and the number of its items so far (R289,
R290), its completion steps, the error it has met, the lines it has reached, each with 2 for a read and 3 for a write
(R277), the translations it holds (R322), the XINVs that wait for it (R315), the hoist of the stream it holds (R325),
the words that a refresh window delays, each with whether it is a write (R246), and the cycle up to which a matrix
operation occupies its array or the tile port (R165), the cycle from which it has started (R30), the words that have been
sent over the host link and not completed (R153), and the lowest line that its write to the weight store was refused (R245). `stale` are the translations that an XINV took from a
loader, which its current tile still uses (R322).
`id` numbers operations in issue order. -/
structure Op where
  id      : Nat
  tok     : Tok
  inst    : BitVec 3
  kind    : OpKind
  sigma   : Nat
  toRead  : List Nat
  buf     : List (Nat × Word)
  toWrite : List Nat
  wrote   : List (Nat × DWord)
  part    : DWord
  items   : Nat
  claimed : Bool
  slot    : Nat
  filled  : Bool
  flagged : Bool
  drop    : Bool
  err     : BitVec 4
  detail  : Word
  sticky  : BitVec 6
  touched : List (Nat × Nat)
  xls     : List Xlat
  held    : List Nat
  stale   : List Xlat := []
  stream  : Option Nat
  late    : List (Bool × Nat) := []
  upto    : Nat := 0
  start   : Nat := 0
  sent    : List Nat := []
  refused : Option Nat := none
  deriving DecidableEq, Repr

/-! ## Contexts and cores -/

/-- The parks a hang fault reports (R46, R270); `accept` is the wait for the answer of an atomic's home (R241), which R270
does not name. -/
inductive Park where
  | none | waitw | awaitf | waitb | twait | yield | svc | retire | arrive | order | replay | accept
  deriving DecidableEq, Repr, Inhabited

/-- A request to a queue controller (R255): 0 ENQ, 1 TDEC, 2 CANCEL; the interlocked value that takes its result code,
the record or job it names, the arguments of an ENQ and the queue of its handle, and, once a CANCEL has set its mark, the
dies whose controllers it has still to reach (R268). -/
structure Req where
  kind  : Nat
  wait  : Nat
  num   : Nat
  args  : List DWord
  queue : Nat
  dies  : Option (List Nat) := none
  deriving DecidableEq, Repr, Inhabited

/-- The system registers of a context (R43). -/
structure Sys where
  flags     : BitVec 6
  roundctl  : DWord
  fmt0      : DWord
  fmt1      : DWord
  trapcause : DWord
  trappc    : DWord
  trapinfo  : DWord
  trapvec   : DWord
  group     : BitVec 4
  partid    : BitVec 4
  ctxid     : BitVec 20
  logctl    : DWord
  mode      : BitVec 6
  hintdrop  : DWord
  evsel     : File 3 DWord
  evcnt     : File 3 DWord
  deriving DecidableEq, Repr

/-- The register files of a context. -/
structure Regs where
  s  : File 6 DWord
  c  : File 4 Cap
  v  : File 6 VReg
  m  : File 4 Mask
  q  : File 3 VReg
  k  : File 6 Stream
  p  : File 4 Prob
  z  : File 3 Tile
  l  : File 3 Latch
  nz : File 2 Byte
  deriving DecidableEq, Repr

/-- What a context keeps of the bundles it has issued: results in flight, the shadow result buffer (R211),
interlocked values and their marks (R48), outstanding requests and holds, and the counts of the task. `svc` is an
outstanding service request, n and S1 to S8 as read (R208); `retiring` says that a RETIRE bundle has issued and waits
for what its own slots started (R58); `safeDone` that the safe point at entry lies behind (R214); `yielded` that the
context has tried its first YIELD, or has resumed (R259); `heldOps` are its logged operations held for
their turn, `heldFor` the granted cycles since one of them was last taken (R284), `logHeld` says that its bundle waits
for room in the ring (R282), and `stalled` that its next bundle could not issue; `late` holds the scratchpad words that the
second half of a split bundle stores in the inserted cycle, each with the bytes that no later slot of the bundle wrote
(R30); `tried` is the cycle in which a bundle last came up for issue; `safeReq` and `stopReq` are a pending pre-emption
and a pending quick stop with their reasons. -/
structure Pipe where
  inflight : List Result
  shadow   : List Result
  waits    : List Wait
  spend    : File 6 Bool
  vpend    : File 6 Bool
  seq      : Nat
  nextId   : Nat
  async    : List (Byte × DWord)
  trapped  : Bool
  svc      : Option (List DWord)
  drain    : Option Scope
  acquire  : Bool
  accepted : Bool
  accept   : Option Acc
  refused  : Option (Byte × DWord)
  requests : List Req
  split    : Bool
  retiring : Bool
  safeReq  : Option Nat
  stopReq  : Option Nat
  safeDone : Bool
  event    : Bool
  tick     : Bool
  yielded  : Bool
  hang     : Nat
  hanglim  : Nat
  heldOps  : List LogRec
  heldFor  : Nat
  logHeld  : Bool
  stalled  : Bool
  park     : Park
  late     : List (Nat × Word × BitVec 4)
  tried    : Nat := 0
  deriving DecidableEq, Repr

/-- The task a context runs (R249, R262, R275 to R291); `uid` numbers the dispatches, the model's own name of a
context. A SPAWN child carries the record of its first ancestor. `tied` says that the task has issued an atomic, a
request or an XRED, and `errs` are the memory errors it has met: class, object, line of the object and line at the
home (R370, R281). -/
structure Task where
  uid     : Nat
  lidx    : BitVec 56
  job     : BitVec 32
  record  : Option Nat
  child   : Bool
  lease   : Nat
  slotD   : Nat
  launch  : Nat
  spawns  : Nat
  genKey  : DWord
  sigma   : Nat
  digest  : DWord
  seeds   : Nat
  marks   : Nat
  revoked : Bool
  tied    : Bool
  errs    : List (Nat × Nat × Nat × Nat)
  deriving DecidableEq, Repr, Inhabited

/-- A context: everything a save moves. -/
structure Ctx where
  pc     : BitVec 48
  npc    : BitVec 48
  code   : Cap
  regs   : Regs
  sys    : Sys
  toks   : File 5 Token
  pipe   : Pipe
  task   : Task
  ops    : List Op
  drained0 : Bool
  drained1 : Bool
  deriving DecidableEq, Repr

/-- What a core does: nothing; it issues; its context has stopped, for a reason and, at a safe point, with the list of
what it saves (R216); or a terminal cause ends its task, with the fault record (R209, R210). The reasons are: 0 a
pre-emption, 1 a cancel, 2 a kill, 3 debugging, 4 other work, 5 a failed kernel. -/
inductive Run where
  | idle | running | stopped (why : Nat) (live : Option Live) | ending (code : Byte) (r : List DWord)
  deriving DecidableEq, Repr, Inhabited

/-- A core: its context and the state that stays with the core. `entry` is its slot-table entry (R261): the record, STEAL
and BSEQ; `stealDue` says that the one attempt of R265 is due, and `freeAt` is the cycle from which it is idle after
its task's exit (R222). `hits` are the loads that hit the L1G behind a FENCE, each with its capability register: they read
the line, or enter their queue, once the FENCE is passed (R127). `orphans` are the requests that a SPAWN child left outstanding at
its exit, each with the child's context (R260). -/
structure Core where
  run      : Run
  ctx      : Ctx
  spad     : Memory
  lost     : List Nat
  l1g      : List L1Line
  fills    : List Fill
  queues   : File 2 (List QEntry)
  hits     : List (Acc × CReg)
  xcache   : List Xlat
  engmap   : DWord
  lcyc     : Nat
  issued   : Bool
  inserted : Bool
  lastCtx  : Option (BitVec 20)
  lastRet  : Bool
  lid      : BitVec 22
  steals   : List (BitVec 8)
  att      : Nat
  cancel   : Bool
  spawnAt  : Option Nat
  entry    : Option (Nat × Bool × Nat)
  stealDue : Bool
  freeAt   : Nat
  orphans  : List (Ctx × Req) := []
  deriving DecidableEq, Repr

/-! ## Barriers -/

/-- A barrier (R223, R243, R385). Members are the bits of the four masks; `src`, `part` and `lch` are the LID, the
partition and the launch of the core whose step came last, for the log (R279); `gone` says that this step was the departure of the
last live member, and `owner` is the launch whose barrier it is. -/
structure Bar where
  members : Nat
  live    : Nat
  arrived : Nat
  lastdep : Nat
  armed   : Bool
  deliv   : Bool
  act     : Bool
  phase   : Word
  pending : BitVec 40
  src     : BitVec 22
  part    : Nat
  lch     : Nat
  gone    : Bool := false
  owner   : Nat := 0
  deriving DecidableEq, Repr, Inhabited

/-! ## Memory at its homes -/

/-- Global memory (R233, R234, R319, R336, R369). Addresses are physical: class × 2^45 + frame × 2^21 + byte; a line
is an address div 64. Tags, lost lines and frame generations that are not listed are zero or absent. `ways` holds the lines
that stand in the shared caches, each with its way (R346). -/
structure Home where
  mem    : Memory
  bank   : Memory
  dirty  : List Nat
  tags   : List (Nat × Word)
  lost   : List Nat
  gens   : List (Nat × Nat)
  ways   : List (Nat × Nat) := []
  deriving DecidableEq, Repr, Inhabited

/-! ## Partitions -/

/-- An object-table entry (R303). -/
structure Obj where
  valid   : Bool
  arena   : Bool
  bound   : Bool
  typ     : Nat
  gen     : Nat
  size    : Nat
  pkg     : Nat
  rmtobj  : Nat
  hostva  : Nat
  hostlen : Nat
  deriving DecidableEq, Repr, Inhabited

/-- A leaf (R304). -/
structure Leaf where
  oframe : Nat
  tile   : Bool
  layout : Nat
  cls    : Nat
  arena  : Bool
  gen    : Nat
  pframe : Nat
  n0m1   : Nat
  n1m1   : Nat
  n2m1   : Nat
  str1   : Nat
  str2   : Nat
  deriving DecidableEq, Repr, Inhabited

/-- A lease-set entry (R310). -/
structure Lease where
  obj     : Nat
  valid   : Bool
  w       : Bool
  x       : Bool
  revoked : Bool
  start   : Nat
  len     : Nat
  deriving DecidableEq, Repr, Inhabited

/-- The states of a record (R250). -/
inductive RecState where
  | idle | waiting | queued | bound | running | done | retired | cancelled | failed | timed
  deriving DecidableEq, Repr, Inhabited

/-- A context saved with its scratchpad (R212, R216, R217, R262), the core it was on, and the barriers, by level and index, on which
it holds the LIVE bit of that core's member (R224). -/
structure Saved where
  ctx    : Ctx
  core   : Nat
  spad   : Memory
  lost   : List Nat
  live   : Option Live
  held   : List (Nat × Nat)
  deriving DecidableEq, Repr

/-- A task record (R249). `ran` and `rerun` say that it has been dispatched and that it re-executes alone (R262, R370), `abandoned` that Bamosh
has given its job up (R318),
`repair` the lost lines at the homes that it waits for to do so, `late` that it missed its deadline (R267), `priv` that it is a system task of Bamosh (R202), 
`lid` the logical core of its first dispatch (R398), `cyc` that its schedule declares a CYC contract (R32), and `memFault`
that a memory-error fault has ended an execution of it (R370). -/
structure Rec where
  entry    : BitVec 48
  state    : RecState
  prio     : Nat
  queue    : Nat
  pending  : Nat
  job      : BitVec 32
  lidx     : BitVec 56
  arena    : Nat
  lease    : Nat
  digest   : Nat
  capl     : Nat
  succ     : List Nat
  tt       : Bool
  release  : Nat
  deadline : Nat
  parent   : Option Nat
  opens    : Nat
  args     : List DWord
  launch   : Nat
  saved    : Option Saved
  abandoned : Bool
  ran      : Bool
  rerun    : Bool
  repair   : Option (List Nat)
  late     : Bool
  priv     : Bool
  lid      : Option (BitVec 22)
  cyc      : Bool
  memFault : Bool := false
  deriving DecidableEq, Repr

/-- A job-table entry (R252); `marks` are the dies whose controllers have set CANCELLED (R268). -/
structure Job where
  id        : BitVec 32
  base      : Nat
  eff       : Nat
  cancelled : Bool
  failed    : Bool
  live      : Nat
  marks     : List Nat := []
  deriving DecidableEq, Repr, Inhabited

/-- A digest-table entry (R291). `failrun` and `failed` keep what the failed run left for R295, and `assay` says that the
assay trap ended the task in the run. -/
structure Digest where
  recorded : DWord
  current  : DWord
  lidx     : BitVec 56
  rvalid   : Bool
  done     : Bool
  failrun   : Bool
  failed    : DWord
  assay     : Bool := false
  deriving DecidableEq, Repr, Inhabited

/-- A launch and its kernel (R275 to R295, R401): `arenas` names, for each arena, the capability lists and registers that
take its handle (R317); its code object and tables, its ring, the counts behind SEQ, the
records of the recorded run not yet supplied in replay, those supplied and not yet consumed, and those appended or consumed
in this run, its digests, and the copies that serialised re-execution restores, by object and object frame, those on other packages in
`far`. `stall` are the operations that the log-full stall holds, in the order they were held, each with its context (R282), and `seedDue` says
that the job seed waits for its record (R286). `lids` are the logical ids of its cores (R265), and `bars` the launch's barriers,
by level and index, while another launch has them in the network (R223). -/
structure Launch where
  ctx      : Nat
  word     : DWord
  code     : Cap
  handler  : Option (BitVec 48)
  lives    : List (Nat × Live)
  seed     : DWord
  arenas   : List (Nat × Nat × Nat)
  ringObj  : Nat
  counts   : List ((Nat × Nat × Nat) × Nat)
  unfed    : List LogRec
  supply   : List LogRec
  spent    : Bool
  log      : List LogRec
  digests  : List (Nat × Digest)
  kd       : DWord
  recKd    : DWord
  copy     : List (Nat × Nat × Memory)
  start    : List (Nat × Rec)
  jobs0    : List Job
  serial   : Bool
  failing  : Bool
  oldLog   : List LogRec
  held     : Nat
  stall    : List (Nat × LogRec) := []
  seedDue  : Bool := false
  far      : List (Nat × Nat × Nat × Memory) := []
  lids     : List (Nat × BitVec 22) := []
  bars     : List ((Nat × Nat) × Bar) := []
  deriving DecidableEq, Repr

/-- A trace buffer (R350): its object, whose memory holds the header and the entries, and the entries of eight
64-bit words that Bamosh holds until there is room, oldest first. -/
structure Trace where
  obj     : Nat
  waiting : List (List DWord)
  deriving DecidableEq, Repr, Inhabited

/-- An XINV under way (R315): its number, its range, its mode (0 translations only, 1 .wb, 2 .discard), and the holders
that have dropped their entries and that have acknowledged: core 0 to 319, its copy engines 320 + core, its hoist streams
640 + core. -/
structure Inv where
  id      : Nat
  obj     : Nat
  start   : Nat
  len     : Nat
  mode    : Nat
  dropped : List Nat
  acked   : List Nat
  deriving DecidableEq, Repr, Inhabited

/-- A range that waits for an XINV (R312, R316, R321): numbers from `stamp` on are later than it, and `wb` are such XINVs
that have completed over it with their write-back or discard. `whole` is the whole range of a lease entry of which only a part
is prepared (R245). -/
structure Prep where
  obj   : Nat
  start : Nat
  len   : Nat
  stamp : Nat
  wb    : List Nat
  whole : Option (Nat × Nat) := none
  deriving DecidableEq, Repr, Inhabited

/-- A partition (R341). `invs` are the XINVs over its objects, `prepared` the ranges unmapped and not yet freed with
their leaves in `unmapped`, `revoking` the leases whose revocation is under way, and `dying` the arenas past their Bump
with the number of their XINV (R318), and `power` the granted cycles for which Bamosh's power limit still holds issue
(R345, R373). `residency` is the queue of XRES requests that Bamosh has accepted: object, start, length, and whether toward
the second tier (R154); `stored` holds the frames of objects that stand in storage, by object and object frame (R311); `shift`
is a way change under way: the die, the ways, the partition that gains them, and the lines still to take (R347). `killDue` are
the kills that a terminal cause asks for: queue, cause, and how many records it moved to FAILED; `kills` are the kills not yet
reported: queue, cause, records and contexts (R355, R357). `kids` are the saved contexts of SPAWN children, which no record holds
(R217). Queues are numbered die × 64 + queue. -/
structure Part where
  bound    : Bool
  grant    : Grant
  objs     : List (Nat × Obj)
  leaves   : List (Nat × Leaf)
  sets     : List (Nat × List Lease)
  recs     : List (Nat × Rec)
  jobs     : List Job
  queues   : List (Nat × List Nat)
  killed   : List Nat
  capls    : List (Nat × List Cap)
  launches : List Launch
  mcast    : List (Nat × List Nat)
  frameBase : Nat
  stalled  : Bool
  slips    : Nat
  bseq     : Nat
  killOn   : Word
  trace    : Trace
  charges  : List (Nat × Nat)
  power    : Nat
  invs     : List Inv
  prepared : List Prep
  revoking : List Prep
  unmapped : List (Nat × Leaf)
  dying    : List (Nat × Nat)
  killDue  : List (Nat × Nat × Nat)
  kills    : List (Nat × Nat × Nat × Nat)
  residency : List (Nat × Nat × Nat × Bool) := []
  stored   : List (Nat × Nat × Memory) := []
  shift    : Option (Nat × BitVec 16 × Nat × List Nat) := none
  kids     : List Saved := []
  deriving DecidableEq, Repr

/-! ## The fabric -/

/-- A remote request in the fabric (R377, R380): its 48-bit number and its source package, the issuing core, the access or the
operation's word, the values it returns by lane, and the link that carries it; for a contribution to a reduce group, the words
whose rounds are not complete (R383). -/
structure Remote where
  id      : Nat
  core    : Nat
  op      : Option (Nat × Nat)
  acc     : Acc
  pkg     : Nat
  robj    : Nat
  done    : Bool
  value   : List (Nat × DWord)
  err     : BitVec 4
  link    : Nat
  src     : Nat := 0
  rest    : Option (List (Nat × Word)) := none
  deriving DecidableEq, Repr

/-- An export to this package of object `obj` on package `pkg` (R378): the local object `lobj` that names it, the
recorded and the current GEN, the mapped size and the granted range, and the bytes, tags and lost lines at its homes
there. -/
structure Export where
  pkg    : Nat
  obj    : Nat
  lobj   : Nat
  part   : Nat
  valid  : Bool
  gen    : Nat
  ogen   : Nat
  typ    : Nat
  size   : Nat
  start  : Nat
  len    : Nat
  ok     : Bool
  mem    : Memory
  tags   : List (Nat × Word)
  lost   : List Nat
  deriving DecidableEq, Repr

/-- A Taryar link (R376). -/
structure Link where
  up      : Bool
  training : Bool
  fails   : Nat
  deriving DecidableEq, Repr, Inhabited

/-- The fabric and this package's place in it (R375 to R385). -/
structure Fabric where
  pod     : Nat
  links   : List Link
  reqs    : List Remote
  exports : List Export
  groups  : List GroupDecl
  nextReq : Nat
  deriving DecidableEq, Repr, Inhabited

/-! ## The device -/

/-- What the device service keeps (R360 to R373): the status word (R364); the anti-rollback counters and the versions
running, by KIND (R362); the measurements (R367); how each copy tried for an image missed, by KIND (R360); the defect map
with what the board configuration removes and what has failed since (R363, R371), and the quads each die enables; the power
limit, and the dies and stacks over their limits (R373); the records sent: errors (R369), faults (R209), attestation
reports (R368) and the statuses of launches by partition (R349); the kill records posted to the virtual functions and the
waiting records that Bamosh is notified of, by partition (R343, R355); and the count of corrected errors. -/
structure Device where
  status  : DWord
  rollback : List (Nat × Nat)
  running : List (Nat × Nat)
  meas    : List (BitVec 512)
  missed  : List (Nat × Nat)
  tested  : Bool
  defects : List DevUnit
  enabled : List (List Nat)
  halted  : Bool
  plim    : Nat
  hot     : List Nat
  hotStk  : List Nat
  errors  : List (List DWord)
  reports : List (List DWord)
  attests : List (List Byte)
  answers : List (Nat × Nat)
  corrected : Nat
  posts   : List (Nat × List DWord) := []
  notices : List (Nat × Nat) := []
  deriving DecidableEq, Repr, Inhabited

/-! ## The machine -/

/-- The whole machine. `script` holds the steps the environment schedules, each with the cycle from which it may be
taken; `eager` lets enabled internal steps be taken unasked; `cur` is the core whose slots are being executed,
`pre` its state as its bundle read it (R116), `slot` the slot, `ord` the slot's ordinal in its class (R29) and `adv`
the roundings of the bundle so far (R72); `fresh` numbers the free values drawn (log entry 1), and `ticked` is the FRC
tick last taken (R344). -/
structure State where
  cyc     : Nat
  script  : List (Nat × Instr)
  eager   : Bool
  cur     : Fin 320
  pre     : Option Core
  slot    : Nat
  ord     : Nat
  adv     : Nat
  fresh   : Nat
  ticked  : Nat
  cores   : Vector Core 320
  quadBars : Vector Bar 1280
  dieBars : Vector Bar 256
  pkgBars : Vector Bar 16
  podBars : Vector Bar 16
  home    : Home
  parts   : Vector Part 12
  fab     : Fabric
  dev     : Device
  deriving DecidableEq, Repr

/-! ## Reset -/

/-- A stream at task entry (R176). -/
def Stream.reset : Stream := default

/-- A probability register at task entry: every frequency zero, A = 2 (R177). -/
def Prob.reset : Prob := { rows := File.all 6 (File.all 4 0), alpha := 1 }

/-- A tile at task entry (R156). -/
def Tile.reset : Tile := { elem := File.all 12 0, status := 0 }

/-- A latch at task entry (R156). -/
def Latch.reset : Latch := { lines := File.all 13 0, scales := File.all 11 0 }

/-- The system registers at task entry: the values of R43, R69, R156, R203 and R276, in strict and reduced mode
(R45). -/
def Sys.entry : Sys :=
  { flags := 0, roundctl := 0, fmt0 := 0x22, fmt1 := 0x22, trapcause := 0, trappc := 0, trapinfo := 0, trapvec := 0,
    group := 0, partid := 0, ctxid := 0, logctl := 10 <<< 24 ||| 24 <<< 32, mode := 0x22, hintdrop := 0,
    evsel := File.all 3 0, evcnt := File.all 3 0 }

/-- The register files at task entry (R41, R85, R156, R176, R177). -/
def Regs.entry : Regs :=
  { s := File.all 6 0, c := File.all 4 0, v := File.all 6 (File.all 8 0), m := (File.all 4 0).put 0 (BitVec.allOnes 256),
    q := File.all 3 (File.all 8 0), k := File.all 6 Stream.reset, p := File.all 4 Prob.reset,
    z := File.all 3 Tile.reset, l := File.all 3 Latch.reset, nz := File.all 2 0 }

/-- A context with nothing under way; HANGLIM is its default (R269). -/
def Pipe.entry : Pipe :=
  { inflight := [], shadow := [], waits := [], spend := File.all 6 false, vpend := File.all 6 false, seq := 0,
    nextId := 0, async := [], trapped := false, svc := none, drain := none, acquire := false, accepted := false,
    accept := none, refused := none, requests := [], split := false, retiring := false, safeReq := none,
    stopReq := none, safeDone := false, event := false, tick := false, yielded := false, hang := 0, hanglim := 2 ^ 32,
    heldOps := [], heldFor := 0, logHeld := false, stalled := false, park := .none, late := [] }

/-- A context at task entry, before dispatch gives it its task (R262). -/
def Ctx.entry : Ctx :=
  { pc := 0, npc := 0, code := 0, regs := Regs.entry, sys := Sys.entry, toks := File.all 5 default, pipe := Pipe.entry,
    task := default, ops := [], drained0 := true, drained1 := true }

/-- A core after reset: idle, its scratchpad zero, its ENGMAP at the reset value of R28. -/
def Core.reset : Core :=
  { run := .idle, ctx := Ctx.entry, spad := [], lost := [], l1g := [], fills := [], queues := File.all 2 [], hits := [],
    xcache := [], engmap := 0x2A, lcyc := 0, issued := false, inserted := false, lastCtx := none, lastRet := false,
    lid := 0, steals := [], att := 0, cancel := false, spawnAt := none, entry := none, stealDue := false,
    freeAt := 0 }

/-- A partition that nothing has bound. -/
def Part.reset : Part :=
  { bound := false, grant := default, objs := [], leaves := [], sets := [], recs := [], jobs := [],
    queues := [], killed := [], capls := [], launches := [], mcast := [], frameBase := 0, stalled := false, slips := 0,
    bseq := 0, killOn := 0, trace := default, charges := [], power := 0, invs := [],
    prepared := [], revoking := [], unmapped := [], dying := [], killDue := [], kills := [] }

/-- The device after reset: status word zero (R364), measurements zero (R367), the default power limit (R373). -/
def Device.reset : Device :=
  { (default : Device) with meas := List.replicate 8 0, plim := 2800 }

/-- The fabric after reset: no link is in service before the boot finds it so (R364). -/
def Fabric.reset : Fabric := { (default : Fabric) with links := List.replicate 18 default }

/-- The machine right after reset. -/
def State.reset : State :=
  { cyc := 0, script := [], eager := true, cur := 0, pre := none, slot := 0, ord := 0, adv := 0, fresh := 1, ticked := 0,
    cores := Vector.replicate 320 Core.reset, quadBars := Vector.replicate 1280 default,
    dieBars := Vector.replicate 256 default, pkgBars := Vector.replicate 16 default,
    podBars := Vector.replicate 16 default, home := default, parts := Vector.replicate 12 Part.reset,
    fab := Fabric.reset, dev := Device.reset }

/-! ## Stops -/

/-- Why the machine stops. -/
inductive Fault where
  /-- Raised by `step` alone, when the device has halted (R360, R373) and nothing more is scheduled. Safe: the spec
  gives a halted device no further step. -/
  | halted
  deriving DecidableEq, Repr

/-- Why an instruction has no meaning. -/
inductive Refusal where
  /-- Raised by the dispatch for an instruction not modelled yet, named by its mnemonic. Safe: nothing is claimed. -/
  | notModelled (mnemonic : String)
  deriving DecidableEq, Repr

end Sys2Proof.Machine
end

