-- ==== Sys2Proof/Machine/Ops.lean ====
section
/-! DEFINITION. The operations the meanings share: memory, registers and results in flight, capabilities and
translations, the trace buffer, taking a trap and returning from one. -/

namespace Sys2Proof.Machine

open Sys2Proof

/-- The outcome of a meaning. -/
abbrev Out := Host.Outcome State Fault Refusal

/-- The numbers below `n`. -/
def upTo (n : Nat) : List Nat := List.range n

/-! ## Memory -/

/-- The byte at address `a`; an unlisted byte is zero. -/
def Memory.read : Memory → Nat → Byte
  | [], _ => 0
  | (b, x) :: m, a => if a = b then x else if a < b then 0 else Memory.read m a

/-- The memory with byte `x` at `a`, in canonical form. -/
def Memory.write : Memory → Nat → Byte → Memory
  | [], a, x => if x = 0 then [] else [(a, x)]
  | (b, y) :: m, a, x =>
    if a < b then (if x = 0 then (b, y) :: m else (a, x) :: (b, y) :: m)
    else if a = b then (if x = 0 then m else (a, x) :: m)
    else (b, y) :: Memory.write m a x

/-- The `n` bytes from `a`, little-endian (R51). -/
def Memory.readLE (m : Memory) (a : Nat) : Nat → Nat
  | 0 => 0
  | n + 1 => (m.read a).toNat + 256 * Memory.readLE m (a + 1) n

/-- The low `n` bytes of `v` stored from `a`, little-endian (R51). -/
def Memory.writeLE (m : Memory) (a : Nat) (v : Nat) : Nat → Memory
  | 0 => m
  | n + 1 => Memory.writeLE (m.write a (BitVec.ofNat 8 v)) (a + 1) (v / 256) n

/-- The aligned or unaligned 4-byte word at `a`. -/
def Memory.word (m : Memory) (a : Nat) : Word := BitVec.ofNat 32 (m.readLE a 4)

/-- The memory with the word `v` at `a`. -/
def Memory.setWord (m : Memory) (a : Nat) (v : Word) : Memory := m.writeLE a v.toNat 4

/-- The bytes from `a`. -/
def Memory.bytes (m : Memory) (a : Nat) : Nat → List Byte
  | 0 => []
  | n + 1 => m.read a :: Memory.bytes m (a + 1) n

/-- A list of bytes stored from `a`. -/
def Memory.setBytes (m : Memory) (a : Nat) : List Byte → Memory
  | [] => m
  | x :: l => Memory.setBytes (m.write a x) (a + 1) l

/-- The memory with `n` bytes from `a` zero: no listed byte of the range remains. -/
def Memory.clear (m : Memory) (a n : Nat) : Memory := m.filter fun c => c.1 < a || a + n ≤ c.1

/-! ## Lists keyed by number -/

/-- The entry with key `k`. -/
def look {α : Type} : List (Nat × α) → Nat → Option α
  | [], _ => none
  | (j, x) :: l, k => if j = k then some x else look l k

/-- The list with key `k` holding `x`. -/
def put {α : Type} : List (Nat × α) → Nat → α → List (Nat × α)
  | [], k, x => [(k, x)]
  | (j, y) :: l, k, x => if j = k then (j, x) :: l else (j, y) :: put l k x

/-- The list with the entry of key `k` changed by `f`. -/
def change {α : Type} : List (Nat × α) → Nat → (α → α) → List (Nat × α)
  | [], _, _ => []
  | (j, y) :: l, k, f => if j = k then (j, f y) :: l else (j, y) :: change l k f

/-- The list without element `k`. -/
def dropAt {α : Type} : List α → Nat → List α
  | [], _ => []
  | _ :: l, 0 => l
  | x :: l, k + 1 => x :: dropAt l k

/-- The list with element `k` changed by `f`. -/
def changeAt {α : Type} : List α → Nat → (α → α) → List α
  | [], _, _ => []
  | x :: l, 0, f => f x :: l
  | x :: l, k + 1, f => x :: changeAt l k f

/-! ## Register reads -/

/-- Scalar register `r`; S0 reads zero (R41). -/
def Core.S (c : Core) (r : Reg) : DWord := if r = 0 then 0 else c.ctx.regs.s.get r

/-- Capability register `r`. -/
def Core.C (c : Core) (r : CReg) : Cap := c.ctx.regs.c.get r

/-- Vector register `r`. -/
def Core.V (c : Core) (r : Reg) : VReg := c.ctx.regs.v.get r

/-- Mask register `r`; M0 reads ones in every lane (R85). -/
def Core.M (c : Core) (r : MReg) : Mask := if r = 0 then BitVec.allOnes 256 else c.ctx.regs.m.get r

/-- A governing mask (R86). -/
def Core.G (c : Core) (r : Gov) : Mask := c.M (r.setWidth 4)

/-- Lane `i` of a vector. -/
def VReg.lane (x : VReg) (i : Nat) : Word := x.get (BitVec.ofNat 8 i)

/-- A vector made lane by lane. -/
def VReg.gen (f : Nat → Word) : VReg := File.gen 8 f

/-- The lanes of `x` where the mask is set, and of `old` elsewhere (R86). -/
def VReg.merge (m : Mask) (x old : VReg) : VReg :=
  VReg.gen fun i => if m.getLsbD i then x.lane i else old.lane i

/-- R95: the vector `old` with the low `w` bits of each active lane `i` of `x` as its element `pos × 256 + i`. -/
def VReg.packed (w pos : Nat) (m : Mask) (x old : VReg) : VReg :=
  let n := 32 / w
  VReg.gen fun l => BitVec.ofNat 32 (((upTo n).map fun p =>
    let e := l * n + p
    let v := if pos * 256 ≤ e && e < pos * 256 + 256 && m.getLsbD (e - pos * 256) then (x.lane (e - pos * 256)).toNat
      else (old.lane l).toNat / 2 ^ (w * p)
    v % 2 ^ w * 2 ^ (w * p)).foldl (· + ·) 0)

/-- Whether the context is privileged (R202). -/
def Sys.priv (y : Sys) : Bool := y.mode.getLsbD 0
/-- MODE.STRICT (R45). -/
def Sys.strict (y : Sys) : Bool := y.mode.getLsbD 1
/-- MODE.RECORD (R45). -/
def Sys.record (y : Sys) : Bool := y.mode.getLsbD 2
/-- MODE.VERIFY (R45). -/
def Sys.verify (y : Sys) : Bool := y.mode.getLsbD 3
/-- MODE.REPLAY (R45). -/
def Sys.replay (y : Sys) : Bool := y.mode.getLsbD 4

/-! ## The state's parts -/

/-- The core whose bundle is being issued. -/
def State.core (s : State) : Core := s.cores[s.cur.val]

/-- What the slots of the bundle read: the core as the bundle found it (R116), or the core itself. -/
def State.rd (s : State) : Core := s.pre.getD s.core

/-- The state with its current core changed. -/
def State.modCore (s : State) (f : Core → Core) : State :=
  { s with cores := s.cores.set s.cur.val (f s.cores[s.cur.val]) }

/-- The state with its current context changed. -/
def State.modCtx (s : State) (f : Ctx → Ctx) : State := s.modCore fun c => { c with ctx := f c.ctx }

/-- The state with the current context's system registers changed. -/
def State.modSys (s : State) (f : Sys → Sys) : State := s.modCtx fun x => { x with sys := f x.sys }

/-- The state with the current context's bookkeeping changed. -/
def State.modPipe (s : State) (f : Pipe → Pipe) : State := s.modCtx fun x => { x with pipe := f x.pipe }

/-- The state with the current context's task changed. -/
def State.modTask (s : State) (f : Task → Task) : State := s.modCtx fun x => { x with task := f x.task }

/-- Core `c`, or a core at reset if there is none. -/
def State.coreAt (s : State) (c : Nat) : Core := if h : c < 320 then s.cores[c] else Core.reset

/-- The state with core `c` changed. -/
def State.modAt (s : State) (c : Nat) (f : Core → Core) : State :=
  if h : c < 320 then { s with cores := s.cores.set c (f s.cores[c]) } else s

/-- The state with every core changed. -/
def State.modAll (s : State) (f : Core → Core) : State := { s with cores := s.cores.map f }

/-- The state with core `c` as the current one and no bundle under way. -/
def State.focus (s : State) (c : Nat) : State :=
  if h : c < 320 then { s with cur := ⟨c, h⟩, pre := none } else s

/-- Partition `p`. -/
def State.part (s : State) (p : Nat) : Part := if h : p < 12 then s.parts[p] else Part.reset

/-- The state with partition `p` changed. -/
def State.modPart (s : State) (p : Nat) (f : Part → Part) : State :=
  if h : p < 12 then { s with parts := s.parts.set p (f s.parts[p]) } else s

/-- The state with its homes changed. -/
def State.modHome (s : State) (f : Home → Home) : State := { s with home := f s.home }

/-- The partition number of a context (R43). -/
def Core.pid (c : Core) : Nat := c.ctx.sys.partid.toNat

/-! ## Results (R9, R47) -/

/-- What a landing writes: S0 and M0 discard (R41, R85); lanes outside the mask keep what the register holds (R86). -/
def Regs.land (g : Regs) : Landing → Regs
  | .s r v => if r = 0 then g else { g with s := g.s.put r v }
  | .c r v => { g with c := g.c.put r v }
  | .v r x m => { g with v := g.v.put r (VReg.merge m x (g.v.get r)) }
  | .vp r w pos x m => { g with v := g.v.put r (VReg.packed w pos m x (g.v.get r)) }
  | .m r x m => if r = 0 then g else { g with m := g.m.put r ((x &&& m) ||| (g.m.get r &&& ~~~m)) }
  | .q r x m => { g with q := g.q.put r (VReg.merge m x (g.q.get r)) }
  | .nz r v => { g with nz := g.nz.put r v }

/-- The pending mark of a landing's register cleared. -/
def Pipe.unmark (p : Pipe) : Landing → Pipe
  | .s r _ => { p with spend := p.spend.put r false }
  | .v r _ _ => { p with vpend := p.vpend.put r false }
  | _ => p

/-- A result lands: its register, and its FLAGS bits (R44, R84). -/
def Ctx.land (x : Ctx) (r : Result) : Ctx :=
  { x with regs := x.regs.land r.land, sys := { x.sys with flags := x.sys.flags ||| r.flags },
           pipe := if r.mark then x.pipe.unmark r.land else x.pipe }

/-- A result put behind those due no later than it. -/
def insertDue (r : Result) : List Result → List Result
  | [] => [r]
  | x :: l => if x.due ≤ r.due then x :: insertDue r l else r :: x :: l

/-- Results in the order of their cycles, those of one cycle in issue order. -/
def byDue (l : List Result) : List Result := l.foldl (fun o r => insertDue r o) []

/-- Every result due at or before cycle `t` that satisfies `q` lands, by cycle and in issue order (R9). -/
def Ctx.landDue (t : Nat) (q : Result → Bool) (x : Ctx) : Ctx :=
  (byDue (x.pipe.inflight.filter fun r => r.due ≤ t && q r)).foldl Ctx.land
    { x with pipe := { x.pipe with inflight := x.pipe.inflight.filter fun r => !(r.due ≤ t && q r) } }

/-- R30, point 4: the cycle that a core's results count by. The inserted cycle of a split bundle is none of theirs. -/
def Core.now (c : Core) : Nat := if c.inserted then c.lcyc - 1 else c.lcyc

/-- Every due result of a core lands. -/
def Core.landDue (c : Core) : Core := { c with ctx := c.ctx.landDue c.now fun _ => true }

/-- A result leaves with latency `lat`. -/
def Core.send (lat : Nat) (l : Landing) (flags : BitVec 6) (c : Core) : Core :=
  { c with ctx := { c.ctx with pipe := { c.ctx.pipe with
      inflight := c.ctx.pipe.inflight ++ [{ land := l, flags, due := c.lcyc + lat, mark := false }] } } }

/-- The current core's slot gives a result of latency `lat`. -/
def State.result (s : State) (lat : Nat) (l : Landing) (flags : BitVec 6 := 0) : State :=
  s.modCore (Core.send lat l flags)

/-- A scalar result. -/
def State.resS (s : State) (lat : Nat) (d : Reg) (v : DWord) : State := s.result lat (.s d v)

/-- A register is marked pending; S0 marks nothing (R48). -/
def Pipe.markS (p : Pipe) (r : Reg) : Pipe := if r = 0 then p else { p with spend := p.spend.put r true }

/-- FLAGS bits set at once, by an engine or a coder slot. -/
def Ctx.raise (x : Ctx) (f : BitVec 6) : Ctx := { x with sys := { x.sys with flags := x.sys.flags ||| f } }

/-! ## Capabilities (R300, R301) -/

/-- LENGTH in bytes. -/
def Cap.len (c : Cap) : Nat := (c.extractLsb' 0 32).toNat * 64
/-- BASE. -/
def Cap.base (c : Cap) : Nat := (c.extractLsb' 32 48).toNat
/-- KIND. -/
def Cap.kind (c : Cap) : Nat := (c.extractLsb' 80 4).toNat
/-- RIGHTS. -/
def Cap.rights (c : Cap) : BitVec 8 := c.extractLsb' 84 8
/-- GEN. -/
def Cap.gen (c : Cap) : Nat := (c.extractLsb' 92 12).toNat
/-- OBJ. -/
def Cap.obj (c : Cap) : Nat := (c.extractLsb' 104 24).toNat
/-- Right `i` of R301. -/
def Cap.has (c : Cap) (i : Nat) : Bool := c.rights.getLsbD i

/-- The capability with the fields given (R300). -/
def Cap.mk (obj gen rights kind base len : Nat) : Cap :=
  BitVec.ofNat 24 obj ++ (BitVec.ofNat 12 gen ++ (BitVec.ofNat 8 rights ++ (BitVec.ofNat 4 kind
    ++ (BitVec.ofNat 48 base ++ BitVec.ofNat 32 len))))

/-- What an access through a capability carries (R302). -/
def Core.via (c : Core) (k : Cap) : Via :=
  { part := c.pid, obj := k.obj, kind := k.kind, gen := k.gen, lease := c.ctx.task.lease }

/-! ## Objects and translations (R303 to R313) -/

/-- The number of frames a leaf covers (R304). -/
def Leaf.frames (l : Leaf) : Nat := if l.tile then (l.n0m1 + 1) * (l.n1m1 + 1) * (l.n2m1 + 1) else 1

/-- A leaf covers an object offset. -/
def Leaf.covers (l : Leaf) (x : Nat) : Bool := l.oframe ≤ x / 2 ^ 21 && x / 2 ^ 21 < l.oframe + l.frames

/-- The translation a leaf gives. -/
def Leaf.xlat (l : Leaf) (v : Via) (w : Bool) : Xlat :=
  { part := v.part, obj := v.obj, gen := v.gen, lease := v.lease, oframe := l.oframe,
    n0 := if l.tile then l.n0m1 + 1 else 1, n1 := if l.tile then l.n1m1 + 1 else 1,
    n2 := if l.tile then l.n2m1 + 1 else 1, cls := l.cls, pframe := l.pframe, str1 := l.str1, str2 := l.str2,
    arena := l.arena, layout := l.layout, write := w }

/-- A translation covers an object offset. -/
def Xlat.covers (t : Xlat) (x : Nat) : Bool :=
  t.oframe ≤ x / 2 ^ 21 && x / 2 ^ 21 < t.oframe + t.n0 * t.n1 * t.n2

/-- R305: the physical frame of an object offset. -/
def Xlat.frame (t : Xlat) (x : Nat) : Nat :=
  let f := x / 2 ^ 21 - t.oframe
  t.pframe + f % t.n0 + (f / t.n0 % t.n1) * t.str1 + (f / (t.n0 * t.n1)) * t.str2

/-- The physical address of an object offset: class, frame and byte. -/
def Xlat.phys (t : Xlat) (x : Nat) : Nat := t.cls * 2 ^ 45 + (t.frame x % 2 ^ 24) * 2 ^ 21 + x % 2 ^ 21

/-- The key of a frame among the homes' generations. -/
def frameKey (a : Nat) : Nat := a / 2 ^ 21

/-- R306: the home die of a physical address. -/
def homeDie (a : Nat) : Nat :=
  let p := a / 2 ^ 21 % 2 ^ 24
  match a / 2 ^ 45 with
  | 0 => p / 2 ^ 15 % 16 / 3
  | 1 => p / 2 ^ 19 % 8 / 2
  | _ => p / 2 ^ 9 % 4

/-- An object of a partition, if it exists. -/
def Part.obj (p : Part) (o : Nat) : Option Obj :=
  match look p.objs o with
  | some x => if x.valid then some x else none
  | none => none

/-- The leaf of an object that covers an offset. -/
def Part.leaf (p : Part) (o x : Nat) : Option Leaf :=
  match p.leaves.find? fun l => l.1 == o && l.2.covers x with
  | some (_, l) => some l
  | none => none

/-- A lease entry grants an access to `n` bytes of an object from `x` (R310). -/
def Lease.grants (l : Lease) (o x n : Nat) (w ex : Bool) : Bool :=
  l.valid && !l.revoked && l.obj == o && l.start ≤ x && x + n ≤ l.start + l.len && (!w || l.w) && (!ex || l.x)

/-- Step 5 of R308. -/
def Part.leased (p : Part) (set o x n : Nat) (w ex : Bool) : Bool :=
  ((look p.sets set).getD []).any fun l => l.grants o x n w ex

/-- R308, steps 1 to 3, with the error kind of R123 of the first that fails. -/
def Part.check (p : Part) (v : Via) : Except (BitVec 4) Obj :=
  match p.obj v.obj with
  | none => .error 3
  | some o =>
    if o.typ ≠ v.kind then .error 3
    else if o.gen ≠ v.gen then .error 5
    else if v.kind = 4 && !o.bound then .error 3
    else .ok o

/-- R308, steps 1 to 5, for an access to `n` bytes from `x` within one frame: the translation, or the error kind. A
lease that also grants writes makes the entry serve writes (log entry 5). -/
def Part.walk (p : Part) (v : Via) (x n : Nat) (w : Bool) : Except (BitVec 4) Xlat :=
  match p.check v with
  | .error e => .error e
  | .ok _ =>
    match p.leaf v.obj x with
    | none => .error 4
    | some l =>
      if p.leased v.lease v.obj x n w false then .ok (l.xlat v (w || p.leased v.lease v.obj x n true false))
      else .error 4

/-- R313: a cached entry serves an access. -/
def Xlat.serves (t : Xlat) (v : Via) (x : Nat) (w : Bool) : Bool :=
  t.part == v.part && t.obj == v.obj && t.gen == v.gen && t.lease == v.lease && t.covers x && (!w || t.write)

/-- The cause of a token error or a port fault (R205). -/
def kindCause (e : BitVec 4) : Byte :=
  match e.toNat with
  | 1 => 0x14
  | 2 => 0x0B
  | 3 => 0x03
  | 4 => 0x11
  | 5 => 0x12
  | 6 => 0x13
  | 7 => 0x0C
  | 8 => 0x0D
  | _ => 0x00

/-- The physical address of an offset of an object, for Bamosh and the loader, which act under no lease. -/
def Part.phys (p : Part) (o x : Nat) : Option Nat :=
  match p.leaf o x with
  | some l => some ((l.xlat default true).phys x)
  | none => none

/-! ## The homes (R233, R234, R336) -/

/-- The line of a physical address. -/
def lineOf (a : Nat) : Nat := a / 64

/-- A line stands in a shared cache while it is used, and its frame holds a bank image of it: one of HBM (R336), or of the
second tier, whose frames the home slices hold lines of in the same way (R306, R347). -/
def lineCached (l : Nat) : Bool := l / 2 ^ 39 < 2

/-- The home's word at a physical address. -/
def Home.word (h : Home) (a : Nat) : Word := h.mem.word a

/-- A write of `n` bytes within one line performs at the home: its line becomes dirty (R336). -/
def Home.write (h : Home) (a n v : Nat) : Home :=
  { h with mem := h.mem.writeLE a v n,
           dirty := if !lineCached (lineOf a) || h.dirty.contains (lineOf a) then h.dirty else lineOf a :: h.dirty }

/-- A line's home value becomes its bank image, and the line is clean (R336). -/
def Home.writeBack (h : Home) (l : Nat) : Home :=
  if h.dirty.contains l then
    { h with bank := h.bank.setBytes (l * 64) (h.mem.bytes (l * 64) 64), dirty := h.dirty.erase l }
  else h

/-- A line is dropped without write-back: its home value is again its bank image (R315, R318). -/
def Home.drop (h : Home) (l : Nat) : Home :=
  if h.dirty.contains l then
    { h with mem := h.mem.setBytes (l * 64) (h.bank.bytes (l * 64) 64), dirty := h.dirty.erase l }
  else h

/-- A line leaves the ways of its slice. -/
def Home.leaveWay (h : Home) (l : Nat) : Home := { h with ways := h.ways.filter fun y => y.1 != l }

/-- Bytes placed by Bamosh or the loader: the home and the bank image alike. -/
def Home.place (h : Home) (a : Nat) (b : List Byte) : Home :=
  { h with mem := h.mem.setBytes a b, bank := h.bank.setBytes a b }

/-- The bytes of the frame at `x` in a memory, as they stand from 0 on. -/
def Memory.frame (m : Memory) (x : Nat) : Memory :=
  (m.filter fun c => x ≤ c.1 && c.1 < x + 2 ^ 21).map fun c => (c.1 - x, c.2)

/-- A memory with the frame at `x` holding the bytes `b`. -/
def Memory.setFrame (m : Memory) (x : Nat) (b : Memory) : Memory :=
  b.foldl (fun m c => if c.1 < 2 ^ 21 then m.write (x + c.1) c.2 else m) (m.clear x (2 ^ 21))

/-- R234, R317: a frame newly mapped with every byte zero: its tags are zero and nothing of it is dirty or
lost. -/
def Home.zeroFrame (h : Home) (f : Nat) : Home :=
  let a := f * 2 ^ 21
  { h with mem := h.mem.clear a (2 ^ 21), bank := h.bank.clear a (2 ^ 21),
           dirty := h.dirty.filter fun l => l / 2 ^ 15 != f, tags := h.tags.filter fun t => t.1 / 2 ^ 15 != f,
           lost := h.lost.filter fun l => l / 2 ^ 15 != f, ways := h.ways.filter fun y => y.1 / 2 ^ 15 != f }

/-- A frame newly mapped that holds the bytes `b`, at its home and in its bank image. -/
def Home.fillFrame (h : Home) (f : Nat) (b : Memory) : Home :=
  let h := h.zeroFrame f
  { h with mem := h.mem.setFrame (f * 2 ^ 21) b, bank := h.bank.setFrame (f * 2 ^ 21) b }

/-- The tag of a line (R234). -/
def Home.tag (h : Home) (l : Nat) : Word := (look h.tags l).getD 0

/-- R319: the frame of an arena line carries generation `g`. -/
def Home.genOk (h : Home) (t : Xlat) (a : Nat) : Bool :=
  !t.arena || (match look h.gens (frameKey a) with
    | some g => g == t.gen
    | none => true)

/-- R246: a weight-store address whose bank group refreshes at cycle `cyc`. -/
def refreshing (cyc a : Nat) : Bool :=
  a / 2 ^ 45 == 2 && (let x := cyc % 32768; let g := a / 2 ^ 10 % 16; 2048 * g ≤ x && x < 2048 * g + 384)

/-- The memory unit of a physical address: stacks 0 to 11, CXL ports 12 to 19; the weight store has none. -/
def unitOf (a : Nat) : Option Nat :=
  let p := a / 2 ^ 21 % 2 ^ 24
  match a / 2 ^ 45 with
  | 0 => some (p / 2 ^ 15 % 16)
  | 1 => some (12 + p / 2 ^ 19 % 8)
  | _ => none

/-- R344: one line at a physical address charged to a partition. -/
def State.chargeUnit (s : State) (p a : Nat) : State :=
  match unitOf a with
  | none => s
  | some u => s.modPart p fun q => { q with charges := put q.charges u ((look q.charges u).getD 0 + 1) }

/-! ## The shared caches (R3, R346) -/

/-- The ways that partition `q` holds in the slices of a die. -/
def Part.waysOn (q : Part) (die : Nat) : BitVec 16 := (q.grant.ways[die]?).getD 0

/-- The ways of a mask, by number. -/
def waysOf (m : BitVec 16) : List Nat := (upTo 16).filter fun w => m.getLsbD w

/-- R248, R346: the lines of the record region that are pinned in the partition's ways on a die: four for each record, spread
over the dies on which it has ways. -/
def Part.pinnedLines (q : Part) (die : Nat) : Nat :=
  let n := ((upTo 4).filter fun d => q.waysOn d != 0).length
  if q.waysOn die = 0 then 0 else (4 * q.grant.recs + n - 1) / n

/-- R248, R346: the pinned lines of a partition on a die have room in its ways there. -/
def Part.pinFits (q : Part) (die : Nat) : Bool := decide (q.pinnedLines die ≤ 2048 * 32 * (waysOf (q.waysOn die)).length)

/-- R3, R346: the lines that one way of one home slice holds: 128 KiB, 2,048 lines, less the pinned ones, which are spread evenly
over the partition's ways in the die's 32 slices (log entry 137). -/
def Part.setRoom (q : Part) (die : Nat) : Nat :=
  let n := 32 * (waysOf (q.waysOn die)).length
  if n = 0 then 0 else 2048 - (q.pinnedLines die + n - 1) / n

/-- The home slice of a line within its die (R233). -/
def sliceOf (l : Nat) : Nat := Config.lineSlice l % 32

/-- The lines that stand in the ways `m` of a die, each with its way. -/
def Home.inWays (h : Home) (die : Nat) (m : BitVec 16) : List (Nat × Nat) :=
  h.ways.filter fun y => homeDie (y.1 * 64) == die && m.getLsbD y.2

/-- The line stands in a way of its home slice. -/
def Home.stands (h : Home) (l : Nat) : Bool := h.ways.any fun y => y.1 == l

/-- The lines that stand in way `w` of the home slice of line `l`. -/
def Home.inSet (h : Home) (l w : Nat) : List Nat :=
  (h.ways.filter fun y => y.2 == w && homeDie (y.1 * 64) == homeDie (l * 64) && sliceOf y.1 == sliceOf l).map fun y => y.1

/-- R344: the partition's budget at the unit of an address is spent in the current tick, a share that was not granted being
none; or its stack is too hot (R373). -/
def State.spent (s : State) (p a : Nat) : Bool :=
  match unitOf a with
  | none => false
  | some u => s.dev.hotStk.contains u || (match look (s.part p).grant.shares u with
    | none => true
    | some sh => sh < 64 && (look (s.part p).charges u).getD 0 ≥ sh * Config.unitLines u / 64)

/-- R346: the way, of those that partition `p` holds on its home die, that the line of an address would take. -/
def State.wayFor (s : State) (p a : Nat) : Option Nat :=
  let ws := waysOf ((s.part p).waysOn (homeDie a))
  ws[Config.lineWay s.cyc (lineOf a) % ws.length]?

/-- Way `w` has no room for line `l` of partition `p`. -/
def State.setFull (s : State) (p l w : Nat) : Bool := (s.part p).setRoom (homeDie (l * 64)) ≤ (s.home.inSet l w).length

/-- R344: the lines of a way that may leave it now: a dirty one waits in its slice while the budget for its write-back is
spent. -/
def State.victims (s : State) (p l w : Nat) : List Nat :=
  (s.home.inSet l w).filter fun v => !s.home.dirty.contains v || !s.spent p (v * 64)

/-- A line is written back, charged to partition `p` (R336, R344). -/
def State.backLine (s : State) (p l : Nat) : State :=
  if s.home.dirty.contains l then (s.modHome fun h => h.writeBack l).chargeUnit p (l * 64) else s

/-- R344: the line of an address cannot enter its slice: its way is full, and the write-back of every line there waits. -/
def State.wayHeld (s : State) (p a : Nat) : Bool :=
  let l := lineOf a
  (unitOf a).isSome && !s.home.stands l && (match s.wayFor p a with
    | some w => s.setFull p l w && !(s.home.inSet l w).isEmpty && (s.victims p l w).isEmpty
    | none => false)

/-- R344: an access of partition `p` to an address is held, for its own line or for the one that it displaces. -/
def State.lineHeld (s : State) (p a : Nat) : Bool := s.spent p a || s.wayHeld p a

/-- R346: where way `w` has no room for line `l`, one of its lines leaves, written back and charged where it is dirty; none where
no line can. -/
def State.makeRoom (s : State) (p l w : Nat) : Option State :=
  if !s.setFull p l w then some s
  else
    let vs := s.victims p l w
    (vs[Config.lineVictim s.cyc l % vs.length]?).map fun v => (s.backLine p v).modHome fun h => h.leaveWay v

/-- R346: the line of a physical address enters one of the ways of partition `p` on its home die, if it stands in none. A line
that no way takes is in none, and what was written to it goes on to its memory. -/
def State.enterWay (s : State) (p a : Nat) : State :=
  let l := lineOf a
  if (unitOf a).isNone || s.home.stands l then s
  else match (s.wayFor p a).bind fun w => (s.makeRoom p l w).map fun t => t.modHome fun h => { h with ways := (l, w) :: h.ways } with
    | some t => t
    | none => s.modHome fun h => h.writeBack l

/-- R344: one line of an object that an agent writes for a partition is charged to it. -/
def State.chargeObj (s : State) (p o x : Nat) : State :=
  match (s.part p).phys o x with
  | some a => s.chargeUnit p a
  | none => s

/-- An agent of the device writes bytes of an object, one after another; an unmapped byte is not written. -/
def State.agentBytes (s : State) (p o x : Nat) : List Byte → State
  | [] => s
  | b :: l =>
    State.agentBytes
      (match (s.part p).phys o x with
        | some a => (s.modHome fun h => h.write a 1 b.toNat).enterWay p a
        | none => s) p o (x + 1) l

/-- A 64-bit word of an object, as an agent of the device reads it. -/
def State.agentRead (s : State) (p o x : Nat) : DWord :=
  match (s.part p).phys o x with
  | some a => BitVec.ofNat 64 (s.home.mem.readLE a 8)
  | none => 0

/-- The bytes of a 64-bit word. -/
def DWord.bytes (w : DWord) : List Byte := (upTo 8).map fun i => w.extractLsb' (8 * i) 8

/-- An agent of the device writes 64-bit words of an object. -/
def State.agentWrite (s : State) (p o x : Nat) (l : List DWord) : State :=
  s.agentBytes p o x (l.flatMap DWord.bytes)

/-- A new request of core `c` to another package: it takes the next 48-bit number of its source (R377) and link `link`. -/
def State.sendOff (s : State) (c : Nat) (op : Option (Nat × Nat)) (a : Acc) (pkg robj link : Nat) : State :=
  let r : Remote := { id := s.fab.nextReq % 2 ^ 48, core := c, op, acc := a, pkg, robj, done := false, value := [], err := 0, link,
                      src := s.fab.pod }
  { s with fab := { s.fab with reqs := s.fab.reqs ++ [r], nextReq := s.fab.nextReq + 1 } }

/-! ## The trace buffer (R350) -/

/-- R341: a core's number within a partition, counted in ascending package number over the granted quads. -/
def Part.coreNo (p : Part) (c : Nat) : Nat :=
  ((upTo (min c 320)).filter fun k => p.grant.quads.contains (k / 4)).length

/-- The trace buffer of partition `p` has room. -/
def State.traceRoom (s : State) (p : Nat) : Bool :=
  let o := (s.part p).trace.obj
  let cap := (s.agentRead p o 16).extractLsb' 0 32
  (s.agentRead p o 0 - s.agentRead p o 8).toNat < cap.toNat

/-- An entry written to the trace buffer of partition `p`. -/
def State.tracePut (s : State) (p : Nat) (e : List DWord) : State :=
  let o := (s.part p).trace.obj
  let cap := ((s.agentRead p o 16).extractLsb' 0 32).toNat
  let wr := s.agentRead p o 0
  let s := (s.agentWrite p o (64 + 64 * (wr.toNat % cap)) e).agentWrite p o 0 [wr + 1]
  (s.chargeObj p o (64 + 64 * (wr.toNat % cap))).chargeObj p o 0

/-- The entries that Bamosh holds go to the trace buffer while there is room. -/
def State.traceFlush (s : State) (p : Nat) : List (List DWord) → State
  | [] => s.modPart p fun q => { q with trace := { q.trace with waiting := [] } }
  | e :: l =>
    if s.traceRoom p then State.traceFlush (s.tracePut p e) p l
    else s.modPart p fun q => { q with trace := { q.trace with waiting := e :: l } }

/-- R350: an entry is formed. A counter sample (KIND 3) is dropped and counted where there is no room; every other
kind waits. -/
def State.traceAdd (s : State) (p kind core : Nat) (body : List DWord) : State :=
  let e := [BitVec.ofNat 64 (kind + core * 2 ^ 16), BitVec.ofNat 64 s.cyc, 0, 0]
    ++ (body ++ List.replicate (4 - body.length) 0)
  if kind = 3 && !s.traceRoom p then
    let o := (s.part p).trace.obj
    (s.agentWrite p o 16 [s.agentRead p o 16 + (1 <<< 32 : DWord)]).chargeObj p o 16
  else s.traceFlush p ((s.part p).trace.waiting ++ [e])

/-! ## Traps (R202 to R210) -/

/-- R204: TRAPINFO of a memory fault of a slot. -/
def memInfo (slot lane cap reason addr : Nat) : DWord :=
  BitVec.ofNat 64 (slot % 8 + (lane % 256) * 2 ^ 4 + (cap % 16) * 2 ^ 12 + (reason % 16) * 2 ^ 16
    + (addr % 2 ^ 32) * 2 ^ 32)

/-- R210: a fault record, as four 64-bit words. -/
def State.faultRecord (s : State) (code : Byte) (async : Bool) (pc : BitVec 48) (info : DWord) : List DWord :=
  let c := s.core
  let core := (s.part c.pid).coreNo s.cur.val
  [BitVec.ofNat 64 (code.toNat + async.toNat * 2 ^ 8 + c.ctx.sys.priv.toNat * 2 ^ 9 + c.ctx.sys.strict.toNat * 2 ^ 10
      + (core % 2 ^ 16) * 2 ^ 16 + (c.ctx.task.lidx.toNat % 2 ^ 32) * 2 ^ 32),
   pc.setWidth 64, info, BitVec.ofNat 64 s.cyc]

/-- R211: results not yet written go to the shadow result buffer, each with its offset from the next cycle. -/
def Core.shelve (c : Core) : Core :=
  let p := c.ctx.pipe
  let out := p.inflight.filter fun r => !r.mark
  { c with ctx := { c.ctx with pipe := { p with
      inflight := p.inflight.filter fun r => r.mark,
      shadow := p.shadow ++ out.map fun r => { r with due := r.due - c.lcyc } } } }

/-- R209, step 1: a terminal cause. The context quick-stops, and its fault record is formed. The task ends by the step
TERMINAL_CAUSE, once its operations have resolved. -/
def State.takeTerminal (s : State) (code : Byte) (async : Bool) (pc : BitVec 48) (info : DWord) : State :=
  let r := s.faultRecord code async pc info
  (s.modCore fun c => { c.shelve with run := .ending code r }).modPipe fun x =>
    { x with trapped := true, park := .none, accept := none, accepted := false, refused := none }

/-- R207: what a handled trap writes. -/
def Ctx.trapEntry (code : Byte) (info : DWord) (pc : BitVec 48) (x : Ctx) : Ctx :=
  { x with
    pc := x.sys.trapvec.extractLsb' 0 48, npc := x.sys.trapvec.extractLsb' 0 48,
    sys := { x.sys with
      trapcause := BitVec.ofNat 64 (code.toNat + x.sys.priv.toNat * 2 ^ 8), trappc := pc.setWidth 64, trapinfo := info,
      mode := x.sys.mode ||| 1 },
    pipe := { x.pipe with trapped := true, park := .none, retiring := false, accept := none, accepted := false,
                          refused := none } }

/-- R207: a handled cause is taken, `pc` being the bundle at which the context resumes. Met while privileged it is
the double trap; without a handler it is taken as terminal. -/
def State.takeTrap (s : State) (code : Byte) (info : DWord) (pc : BitVec 48) : State :=
  let y := s.core.ctx.sys
  if y.priv then s.takeTerminal 0x19 false pc (code.setWidth 64)
  else if !y.trapvec.getLsbD 48 then s.takeTerminal code false pc info
  else s.modCtx (Ctx.trapEntry code info pc)

/-- The bundle of the current core is held in a park (R46): nothing of it performs. -/
def State.park (s : State) (p : Park) : State := s.modPipe fun x => { x with park := p }

/-- A precise handled fault of the current slot at its bundle. -/
def State.fault (s : State) (code : Byte) (info : DWord) : State := s.takeTrap code info s.rd.ctx.pc

/-- R208: ERET reads TRAPPC and TRAPCAUSE as the bundle found them and leaves the privilege it saved. -/
def State.returnFromTrap (s : State) : State :=
  let y := s.rd.ctx.sys
  s.modCtx fun x => { x with
    npc := y.trappc.extractLsb' 0 48,
    sys := { x.sys with mode := (x.sys.mode &&& 0x3E) ||| (y.trapcause.extractLsb' 8 1).setWidth 6 } }

/-- A token error of R123 at a bundle: the token becomes Resolved with no error, and its cause is taken, terminal for
the kinds of R205. -/
def State.tokenError (s : State) (t : Tok) : State :=
  let e := s.core.ctx.toks.get t
  let info := BitVec.ofNat 64 (t.toNat + e.err.toNat * 2 ^ 8 + e.inst.toNat * 2 ^ 12 + e.detail.toNat * 2 ^ 16)
  let s1 := s.modCtx fun x => { x with toks := x.toks.put t { e with pending := false, err := 0 } }
  if e.err.toNat = 2 || e.err.toNat = 7 || e.err.toNat = 8 then s1.takeTrap (kindCause e.err) info s.rd.ctx.pc
  else s1.takeTerminal (kindCause e.err) false s.rd.ctx.pc info

/-- The cores of a partition. -/
def Part.cores (q : Part) : List Nat := q.grant.quads.flatMap fun k => (upTo 4).map fun i => 4 * k + i

end Sys2Proof.Machine
end

