-- ==== Sys2Proof/Machine/Operands.lean ====
section
/-! DEFINITION. Operand forms: immediates and addresses, element formats and their values (R59 to R68), and operand
groups. -/

namespace Sys2Proof.Machine

open Sys2Proof

/-! ## Integers and addresses -/

/-- A scalar value read as signed (R49). -/
def sv (x : DWord) : Int := x.toInt

/-- The integer with value `x` modulo `2 ^ 64` (R49). -/
def trunc64 (x : Int) : DWord := BitVec.ofInt 64 x

/-- R52, R105: a scratchpad address `trunc64(Sa + imm)`, read as unsigned. -/
def spadAddr (a : DWord) (imm : BitVec 32) : Nat := (a + imm.signExtend 64).toNat

/-- R53, R107: an exact global offset `s(Sa) + imm`. -/
def globOff (a : DWord) (imm : BitVec 26) : Int := sv a + imm.toInt

/-- R136, R139: the offset of a copy, `s(Sb) + s16(OFF)`. -/
def copyOff (b : DWord) (off : BitVec 16) : Int := sv b + off.toInt

/-- Register `n + i` of an operand group (R138). -/
def Core.grp (c : Core) (n : Reg) (i : Nat) : DWord := c.S (n + BitVec.ofNat 6 i)

/-- The width in bytes of a size code (R51). -/
def szBytes (sz : BitVec 3) : Nat := 2 ^ (sz.toNat % 4)

/-- R51: a loaded value of width `szBytes sz`, zero- or sign-extended. -/
def szExtend (sz : BitVec 3) (v : Nat) : DWord :=
  match sz.toNat with
  | 4 => (BitVec.ofNat 8 v).signExtend 64
  | 5 => (BitVec.ofNat 16 v).signExtend 64
  | 6 => (BitVec.ofNat 32 v).signExtend 64
  | _ => BitVec.ofNat 64 (v % 2 ^ (8 * szBytes sz))

/-- The scratchpad's size in bytes (R112). -/
def spadSize : Nat := 0x10_0000

/-! ## Element values -/

/-- What an element stands for: a number with a sign, an infinity, or a NaN that may be signalling. -/
inductive Val where
  | num (neg : Bool) (m : Nat) (e : Int)
  | inf (neg : Bool)
  | nan (sig : Bool)
  deriving DecidableEq, Repr

/-- Which special codes a format has (R59, R64, R65). -/
inductive Specials where
  | ieee | e4m3 | finite
  deriving DecidableEq, Repr

/-- A floating format (R59, R64, R65): exponent and mantissa widths, bias, whether it has a sign, and its special
codes. -/
structure Fmt where
  eb   : Nat
  mb   : Nat
  bias : Nat
  sgn  : Bool
  sp   : Specials
  deriving DecidableEq, Repr

/-- FP32. -/
def Fmt.f32 : Fmt := ⟨8, 23, 127, true, .ieee⟩
/-- FP16. -/
def Fmt.f16 : Fmt := ⟨5, 10, 15, true, .ieee⟩
/-- BF16. -/
def Fmt.bf16 : Fmt := ⟨8, 7, 127, true, .ieee⟩
/-- FP8 E4M3. -/
def Fmt.e4m3 : Fmt := ⟨4, 3, 7, true, .e4m3⟩
/-- FP8 E5M2. -/
def Fmt.e5m2 : Fmt := ⟨5, 2, 15, true, .ieee⟩
/-- FP4 E2M1. -/
def Fmt.e2m1 : Fmt := ⟨2, 1, 1, true, .finite⟩
/-- The NZ format E3M3 (R64), without its reserved bit. -/
def Fmt.e3m3 : Fmt := ⟨3, 3, 3, true, .finite⟩
/-- The block scale E3M5 (R65). -/
def Fmt.e3m5 : Fmt := ⟨3, 5, 3, false, .finite⟩

/-- The value of a code (R59, R61). -/
def Fmt.decode (f : Fmt) (x : Nat) : Val :=
  let m := x % 2 ^ f.mb
  let e := x / 2 ^ f.mb % 2 ^ f.eb
  let s := f.sgn && x / 2 ^ (f.mb + f.eb) % 2 == 1
  if f.sp = .ieee && e = 2 ^ f.eb - 1 then
    if m = 0 then .inf s else .nan (m < 2 ^ (f.mb - 1))
  else if f.sp = .e4m3 && e = 15 && m = 7 then .nan false
  else if e = 0 then .num s m (1 - (f.bias : Int) - f.mb)
  else .num s (2 ^ f.mb + m) ((e : Int) - f.bias - f.mb)

/-- R64: the value of an NZ register. -/
def nzVal (b : Byte) : Val := Fmt.e3m3.decode (b.toNat / 2)

/-- R63, R64: the value of an FP4 code under an NZ register. -/
def fp4Val (x : Nat) (nz : Byte) : Val := if x % 16 = 8 then nzVal nz else Fmt.e2m1.decode (x % 16)

/-- A signed integer of `w` bits as a value (R67). -/
def intVal (w x : Nat) : Val :=
  let v := (BitVec.ofNat w x).toInt
  .num (v < 0) v.natAbs 0

/-- The element formats of R68. -/
inductive Elem where
  | fl (f : Fmt)
  | fp4
  | int (w : Nat)
  deriving DecidableEq, Repr

/-- The format of a code of R68; a reserved code names none. -/
def elemOf : Nat → Option Elem
  | 0 => some (.fl .f32)
  | 1 => some (.fl .f16)
  | 2 => some (.fl .bf16)
  | 3 => some (.fl .e4m3)
  | 4 => some (.fl .e5m2)
  | 5 => some .fp4
  | 6 => some (.int 32)
  | 7 => some (.int 8)
  | 8 => some (.int 4)
  | _ => none

/-- The width of an element in bits. -/
def Elem.width : Elem → Nat
  | .fl f => f.eb + f.mb + f.sgn.toNat
  | .fp4 => 4
  | .int w => w

/-- The value of an element's code, with the NZ register that replaces FP4 code 0b1000. -/
def Elem.decode (t : Elem) (x : Nat) (nz : Byte) : Val :=
  match t with
  | .fl f => f.decode (x % 2 ^ (f.eb + f.mb + f.sgn.toNat))
  | .fp4 => fp4Val x nz
  | .int w => intVal w (x % 2 ^ w)

/-- An element format is floating. -/
def Elem.floating : Elem → Bool
  | .int _ => false
  | _ => true

/-- Element `i` of width `w` of a lane (R60). -/
def laneElem (x : Word) (w i : Nat) : Nat := x.toNat / 2 ^ (w * i) % 2 ^ w

/-! ## Exact values -/

/-- A dyadic number `m × 2 ^ e`, exact. -/
structure Dy where
  m : Int
  e : Int
  deriving DecidableEq, Repr

/-- The signed integer of a magnitude. -/
def signed (neg : Bool) (m : Nat) : Int := if neg then -(m : Int) else m

/-- The exact sum. -/
def Dy.add (x y : Dy) : Dy :=
  if x.m = 0 then y
  else if y.m = 0 then x
  else if x.e ≤ y.e then ⟨x.m + y.m * 2 ^ (y.e - x.e).toNat, x.e⟩
  else ⟨x.m * 2 ^ (x.e - y.e).toNat + y.m, y.e⟩

/-- The exact product. -/
def Dy.mul (x y : Dy) : Dy := ⟨x.m * y.m, x.e + y.e⟩

/-- `x ≤ y`. -/
def Dy.le (x y : Dy) : Bool := decide ((x.add ⟨-y.m, y.e⟩).m ≤ 0)

/-- The number of bits of a magnitude. -/
def bitLen (n : Nat) : Nat := if n = 0 then 0 else Nat.log2 n + 1

/-! ## The generator (R103) -/

/-- R103. -/
def mix64 (x : DWord) : DWord :=
  let x := x ^^^ (x >>> 32)
  let x := x * 0xB5D31A6FE27C4D39
  let x := x ^^^ (x >>> 29)
  let x := x * 0x8F41C3A259E60B17
  x ^^^ (x >>> 32)

/-- R103: G(key, task, seq, e) in a domain. -/
def genG (dom : Nat) (key : DWord) (task : BitVec 56) (sq e : DWord) : DWord :=
  let x := mix64 (key ^^^ (BitVec.ofNat 64 dom <<< 56) ^^^ task.setWidth 64)
  let x := mix64 (x ^^^ sq)
  mix64 (x ^^^ e)

end Sys2Proof.Machine
end

