-- ==== Sys2Proof/Machine/Flags.lean ====
section
/-! DEFINITION. Rounding, overflow and the FLAGS bits every form sets (R44, R69 to R74, R80 to R84). -/

namespace Sys2Proof.Machine

open Sys2Proof

/-! ## FLAGS bits (R44) -/

/-- Invalid operation. -/
def fNV : BitVec 6 := 1
/-- Division by zero. -/
def fDZ : BitVec 6 := 2
/-- Overflow. -/
def fOF : BitVec 6 := 4
/-- Underflow. -/
def fUF : BitVec 6 := 8
/-- Inexact. -/
def fNX : BitVec 6 := 16
/-- Saturated. -/
def fSAT : BitVec 6 := 32

/-- A bit when a condition holds. -/
def flagIf (b : Bool) (f : BitVec 6) : BitVec 6 := if b then f else 0

/-! ## Rounding (R69 to R71) -/

/-- How a form rounds: the mode RM of R69, SATF8, and what the draw of R71 is taken from. -/
structure Rnd where
  rm    : Nat
  satf8 : Bool
  key   : DWord
  task  : BitVec 56
  srseq : DWord
  deriving DecidableEq, Repr

/-- Round to nearest, ties to even, as the fixed roundings do (R69). -/
def Rnd.rne : Rnd := { rm := 0, satf8 := false, key := 0, task := 0, srseq := 0 }

/-- The rounding of ROUNDCTL in force for a bundle (R69, R72). -/
def Core.rnd (c : Core) : Rnd :=
  let r := c.ctx.sys.roundctl
  { rm := (r.extractLsb' 0 3).toNat, satf8 := r.getLsbD 3, key := c.ctx.task.genKey, task := c.ctx.task.lidx,
    srseq := (r.extractLsb' 32 32).setWidth 64 }

/-- R71: the 24-bit draw of an element. -/
def Rnd.draw (r : Rnd) (e : Nat) : Nat := (genG 2 r.key r.task r.srseq (BitVec.ofNat 64 e)).toNat % 2 ^ 24

/-- A magnitude `m × 2 ^ e`, with something below its last bit when `sticky`, cut at the quantum `2 ^ q`: the whole
quanta below it, the rest, and the rest's denominator. The rest is exact but for `sticky`, which only ever stands
below a rest that is no tie. -/
def cut (m : Nat) (e q : Int) : Nat × Nat × Nat :=
  if q ≤ e then (m * 2 ^ (e - q).toNat, 0, 1)
  else (m / 2 ^ (q - e).toNat, m % 2 ^ (q - e).toNat, 2 ^ (q - e).toNat)

/-- R70: whether a magnitude with `n` whole quanta and a rest `r / d` moves up; `neg` is its sign, `u` the draw and
`mag` whether SR draws on magnitudes (R73). -/
def moveUp (rm : Nat) (neg mag : Bool) (u n r d : Nat) (sticky : Bool) : Bool :=
  if r = 0 && !sticky then false
  else match rm with
    | 0 => 2 * r > d || (2 * r = d && (sticky || n % 2 = 1))
    | 1 => false
    | 2 => neg
    | 3 => !neg
    | 4 => 2 * r ≥ d
    | _ =>
      if neg && !mag then
        -- lo is the larger magnitude: hi, the smaller, when u < floor((1 - r/d) × 2^24)
        !(u < (d - r) * 2 ^ 24 / d)
      else u < r * 2 ^ 24 / d

/-- The rounded magnitude in quanta, and whether it is inexact. -/
def quantise (rm : Nat) (neg mag : Bool) (u m : Nat) (e q : Int) (sticky : Bool) : Nat × Bool :=
  let (n, r, d) := cut m e q
  (if moveUp rm neg mag u n r d sticky then n + 1 else n, r ≠ 0 || sticky)

/-- The largest finite magnitude in its own quanta, and the quantum's exponent (R59, R64, R65). -/
def Fmt.maxM (f : Fmt) : Nat := if f.sp = .e4m3 then 2 ^ (f.mb + 1) - 2 else 2 ^ (f.mb + 1) - 1
/-- The exponent of the quantum at the largest finite magnitude. -/
def Fmt.maxQ (f : Fmt) : Int :=
  ((if f.sp = .ieee then 2 ^ f.eb - 2 else 2 ^ f.eb - 1 : Nat) : Int) - f.bias - f.mb
/-- The exponent of the smallest quantum. -/
def Fmt.minQ (f : Fmt) : Int := 1 - (f.bias : Int) - f.mb

/-- The sign bit of a format, set when `neg`. -/
def Fmt.sign (f : Fmt) (neg : Bool) : Nat := if f.sgn && neg then 2 ^ (f.eb + f.mb) else 0

/-- A zero: E2M1 never encodes a negative one (R73). -/
def Fmt.zero (f : Fmt) (neg : Bool) : Nat := if f = .e2m1 then 0 else f.sign neg

/-- The largest finite code. -/
def Fmt.maxCode (f : Fmt) (neg : Bool) : Nat :=
  f.sign neg + (match f.sp with
    | .ieee => (2 ^ f.eb - 1) * 2 ^ f.mb - 1
    | .e4m3 => 0x7E
    | .finite => 2 ^ (f.eb + f.mb) - 1)

/-- The canonical NaN (R61); a format without NaN gives code 0 (R73). -/
def Fmt.nanCode (f : Fmt) : Nat :=
  match f.sp with
  | .ieee => (2 ^ f.eb - 1) * 2 ^ f.mb + 2 ^ (f.mb - 1)
  | .e4m3 => 0x7F
  | .finite => 0

/-- An infinity. -/
def Fmt.infCode (f : Fmt) (neg : Bool) : Nat := f.sign neg + (2 ^ f.eb - 1) * 2 ^ f.mb

/-- The code of `n` quanta `2 ^ q`, `n` below `2 ^ (mb + 1)`. -/
def Fmt.pack (f : Fmt) (neg : Bool) (n : Nat) (q : Int) : Nat :=
  if n = 0 then f.zero neg
  else if n < 2 ^ f.mb then f.sign neg + n
  else f.sign neg + ((q + f.bias + f.mb).toNat * 2 ^ f.mb + (n - 2 ^ f.mb))

/-- R73: the result of an overflow. -/
def Fmt.overflow (f : Fmt) (rm : Nat) (satf8 neg : Bool) : Nat :=
  let away := rm = 0 || rm = 4 || rm = 5 || (rm = 2 && neg) || (rm = 3 && !neg)
  match f.sp with
  | .ieee => if away then f.infCode neg else f.maxCode neg
  | .e4m3 => if away && !satf8 then 0x7F else f.maxCode neg
  | .finite => f.maxCode neg

/-- R70 to R73, R84: a nonzero exact value of magnitude `m × 2 ^ e` (with `sticky`, somewhat more, by less than the
last place) rounded once to a format, with its FLAGS bits; `u` is the draw of SR. -/
def Fmt.roundMag (f : Fmt) (r : Rnd) (u : Nat) (neg : Bool) (m : Nat) (e : Int) (sticky : Bool) : Nat × BitVec 6 :=
  if !f.sgn && neg then (0, fNV)
  else
    let top := e + bitLen m - 1
    let qu := top - f.mb
    let q := if qu < f.minQ then f.minQ else qu
    let mag := q > f.maxQ || (q = f.maxQ && (cut m e q).1 ≥ f.maxM)
    let (n, inex) := quantise r.rm neg mag u m e q sticky
    let (n, q) := if n ≥ 2 ^ (f.mb + 1) then (n / 2, q + 1) else (n, q)
    if q > f.maxQ || (q = f.maxQ && n > f.maxM) then (f.overflow r.rm r.satf8 neg, fOF ||| fNX)
    else
      let n' := (quantise r.rm neg mag u m e qu sticky).1
      let tiny := qu < f.minQ && n' < 2 ^ (f.mb + (f.minQ - qu).toNat)
      (f.pack neg n q, flagIf inex fNX ||| flagIf (inex && tiny) fUF)

/-- A value converted to a format under a rounding, for element `i` of its form (R61, R70, R73). -/
def Fmt.convert (f : Fmt) (r : Rnd) (i : Nat) : Val → Nat × BitVec 6
  | .nan sig => (f.nanCode, flagIf (sig || f.sp = .finite) fNV)
  | .inf neg =>
    match f.sp with
    | .ieee => (f.infCode neg, 0)
    | .e4m3 => (if r.satf8 then f.maxCode neg else 0x7F, fNV)
    | .finite => (if !f.sgn && neg then 0 else f.maxCode neg, fNV)
  | .num neg m e =>
    if m = 0 then (f.zero neg, 0)
    else f.roundMag r (if r.rm = 5 then r.draw i else 0) neg m e false

/-- An exact dyadic value rounded to a format; a zero takes the sign given. -/
def Fmt.ofDy (f : Fmt) (r : Rnd) (i : Nat) (x : Dy) (zneg : Bool) : Nat × BitVec 6 :=
  f.convert r i (.num (if x.m = 0 then zneg else x.m < 0) x.m.natAbs x.e)

/-- R74: a value converted to a signed integer of `w` bits. -/
def toInt (w : Nat) (r : Rnd) (i : Nat) : Val → Int × BitVec 6
  | .nan _ => (0, fNV)
  | .inf neg => (if neg then -(2 ^ (w - 1) : Nat) else (2 ^ (w - 1) - 1 : Nat), fSAT)
  | .num neg m e =>
    let (n, inex) := if m = 0 then (0, false) else quantise r.rm neg false (if r.rm = 5 then r.draw i else 0) m e 0 false
    let v := signed neg n
    let lo : Int := -(2 ^ (w - 1) : Nat)
    let hi : Int := (2 ^ (w - 1) - 1 : Nat)
    if v < lo then (lo, fSAT) else if v > hi then (hi, fSAT) else (v, flagIf inex fNX)

/-! ## Elementary operations (R61, R62) -/

/-- A value is a signalling NaN. -/
def Val.sig : Val → Bool
  | .nan s => s
  | _ => false

/-- A value is a NaN. -/
def Val.isNan : Val → Bool
  | .nan _ => true
  | _ => false

/-- The dyadic of a number; zero for the others. -/
def Val.dy : Val → Dy
  | .num s m e => ⟨signed s m, e⟩
  | _ => ⟨0, 0⟩

/-- The sign of a value. -/
def Val.neg : Val → Bool
  | .num s _ _ => s
  | .inf s => s
  | .nan _ => false

/-- The value with its sign inverted. -/
def Val.flip : Val → Val
  | .num s m e => .num (!s) m e
  | .inf s => .inf (!s)
  | .nan s => .nan s

/-- A value is zero. -/
def Val.isZero : Val → Bool
  | .num _ m _ => m == 0
  | _ => false

/-- A value is the infinity of a sign. -/
def Val.isInf (neg : Bool) : Val → Bool
  | .inf s => s == neg
  | _ => false

/-- The sum of two values in a format: exact, then rounded once (R62). -/
def Fmt.add (f : Fmt) (r : Rnd) (i : Nat) (x y : Val) : Nat × BitVec 6 :=
  let nv := flagIf (x.sig || y.sig) fNV
  match x, y with
  | .nan _, _ => (f.nanCode, nv)
  | _, .nan _ => (f.nanCode, nv)
  | .inf a, .inf b => if a = b then (f.infCode a, 0) else (f.nanCode, fNV)
  | .inf a, _ => (f.infCode a, 0)
  | _, .inf b => (f.infCode b, 0)
  | .num a _ _, .num b _ _ =>
    -- a zero sum of opposite signs is -0 only when rounding down
    f.ofDy r i (x.dy.add y.dy) (if a = b then a else r.rm = 2)

/-- The exact product of two values: a NaN for 0 × ∞. -/
def Val.mul (x y : Val) : Val :=
  match x, y with
  | .nan a, .nan b => .nan (a || b)
  | .nan a, _ => .nan a
  | _, .nan b => .nan b
  | .inf a, y => if y.isZero then .nan true else .inf (a != y.neg)
  | x, .inf b => if x.isZero then .nan true else .inf (x.neg != b)
  | .num a m e, .num b n g => .num (a != b) (m * n) (e + g)

/-- The product of two values in a format. -/
def Fmt.mul (f : Fmt) (r : Rnd) (i : Nat) (x y : Val) : Nat × BitVec 6 :=
  match x.mul y with
  | .nan s => (f.nanCode, flagIf s fNV)
  | v => f.convert r i v

/-- `x × y + z` with one rounding; 0 × ∞ sets NV whatever `z` holds (R91). -/
def Fmt.fma (f : Fmt) (r : Rnd) (i : Nat) (x y z : Val) : Nat × BitVec 6 :=
  f.add r i (x.mul y) z

/-- The order of two numbers or infinities, -0 below +0 when `zeros`. -/
def Val.lt (zeros : Bool) : Val → Val → Bool
  | .inf a, .inf b => a && !b
  | .inf a, .num _ _ _ => a
  | .num _ _ _, .inf b => !b
  | .num a m e, .num b n g =>
    if m = 0 && n = 0 then zeros && a && !b else !((Val.num b n g).dy.le (Val.num a m e).dy)
  | _, _ => false

/-- minimumNumber or maximumNumber of IEEE 754-2019 (R91). -/
def Fmt.minMax (f : Fmt) (max : Bool) (a b : Nat) : Nat × BitVec 6 :=
  let x := f.decode a
  let y := f.decode b
  let nv := flagIf (x.sig || y.sig) fNV
  if x.isNan && y.isNan then (f.nanCode, nv)
  else if x.isNan then (b, nv)
  else if y.isNan then (a, nv)
  else if max then (if x.lt true y then b else a, nv)
  else (if y.lt true x then b else a, nv)

/-! ## Rescale (R82, R83) and saturation (R80) -/

/-- Division by a power of two, rounded to the nearest integer with ties to even. -/
def halfEven (p : Int) (sh : Nat) : Int :=
  let d : Int := (2 ^ sh : Nat)
  let n := p / d
  let r := p % d
  if 2 * r > d || (2 * r = d && n % 2 = 1) then n + 1 else n

/-- R83: the rescale of an accumulator by an entry of a Q register into `w` bits. -/
def rescale (acc : Int) (q : Word) (zp : Int) (w : Nat) : Int × BitVec 6 :=
  let p := acc * (q.extractLsb' 8 24).toNat
  let y := halfEven p (q.extractLsb' 2 6).toNat + zp
  let lo : Int := -(2 ^ (w - 1) : Nat)
  let hi : Int := (2 ^ (w - 1) - 1 : Nat)
  if q.getLsbD 1 then
    (if y < lo then (lo, fSAT) else if y > hi then (hi, fSAT) else (y, 0))
  else ((BitVec.ofInt w y).toInt, 0)

/-- R80. -/
def clamp40 (y : Int) : Int × Bool :=
  if y > 2 ^ 39 - 1 then (2 ^ 39 - 1, true) else if y < -(2 ^ 39) then (-(2 ^ 39), true) else (y, false)

/-- R72: SRSEQ after an instruction that rounds under ROUNDCTL, when the mode is SR. -/
def Sys.advance (y : Sys) : Sys :=
  if y.roundctl.extractLsb' 0 3 = 5 then
    { y with roundctl := (y.roundctl.extractLsb' 32 32 + 1 : BitVec 32) ++ (y.roundctl.extractLsb' 0 32) }
  else y

/-- A slot that rounds under ROUNDCTL advances SRSEQ, and the next such slot of its bundle takes the next value
(R72). -/
def State.advance (s : State) : State :=
  { s.modSys Sys.advance with adv := if s.pre.isSome then s.adv + 1 else s.adv }

/-- The rounding of the current slot (R72). -/
def State.rnd (s : State) : Rnd :=
  let r := s.rd.rnd
  if s.pre.isSome then { r with srseq := ((r.srseq + BitVec.ofNat 64 s.adv).setWidth 32).setWidth 64 } else r

end Sys2Proof.Machine
end

