-- ==== Sys2Proof/Machine/Log.lean ====
section
/-! DEFINITION. Event counters (R351 to R353), the order log and its turns (R277 to R283), and the assay fold (R288
to R290). -/

namespace Sys2Proof.Machine

open Sys2Proof

/-! ## Contexts -/

/-- The saved contexts of a partition: those in its records, and those of SPAWN children. -/
def Part.saves (q : Part) : List Saved := (q.recs.filterMap fun r => r.2.saved) ++ q.kids

/-- The saved contexts of a partition changed. -/
def Part.mapSaves (q : Part) (f : Saved → Saved) : Part :=
  { q with recs := q.recs.map fun r => (r.1, { r.2 with saved := r.2.saved.map f }), kids := q.kids.map f }

/-- The context with dispatch number `uid`: on core `c`, on another core, or saved. -/
def State.ctxOf (s : State) (c uid : Nat) : Ctx :=
  let x := (s.coreAt c).ctx
  if x.task.uid = uid then x
  else match s.cores.toList.find? fun k => k.ctx.task.uid == uid with
    | some k => k.ctx
    | none =>
      match (s.parts.toList.flatMap Part.saves).find? fun v => v.ctx.task.uid == uid with
      | some v => v.ctx
      | none => x

/-- A saved context changed by `f` where it has dispatch number `uid`. -/
def Saved.onUid (uid : Nat) (f : Ctx → Ctx) (v : Saved) : Saved :=
  if v.ctx.task.uid = uid then { v with ctx := f v.ctx } else v

/-- The context with dispatch number `uid` changed by `f`: on core `c`, on another core, or saved. -/
def State.onCtx (s : State) (c uid : Nat) (f : Ctx → Ctx) : State :=
  if (s.coreAt c).ctx.task.uid = uid then s.modAt c fun k => { k with ctx := f k.ctx }
  else if s.cores.toList.any fun k => k.ctx.task.uid == uid then
    s.modAll fun k => if k.ctx.task.uid = uid then { k with ctx := f k.ctx } else k
  else
    { s with parts := s.parts.map fun p => p.mapSaves (Saved.onUid uid f) }

/-! ## Event counters -/

/-- Counter `i` counts event `code`. -/
def Sys.counts (y : Sys) (code i : Nat) : Bool :=
  let e := y.evsel.get (BitVec.ofNat 3 i)
  e.getLsbD 8 && (e.extractLsb' 0 8).toNat == code

/-- Counter `i` after `n` more events: it wraps and sets OVF (R353). -/
def Sys.bump (n : Nat) (y : Sys) (i : Nat) : Sys :=
  let k := BitVec.ofNat 3 i
  let v := (y.evcnt.get k).toNat + n
  { y with evcnt := y.evcnt.put k (BitVec.ofNat 64 v),
           evsel := if v < 2 ^ 64 then y.evsel else y.evsel.put k (y.evsel.get k ||| 0x400) }

/-- The counters whose sample is due when `n` events of kind `code` occur (R353). -/
def Sys.samples (y : Sys) (code n : Nat) : List Nat :=
  (upTo 8).filter fun i => y.counts code i && (y.evsel.get (BitVec.ofNat 3 i)).getLsbD 9
    && (y.evcnt.get (BitVec.ofNat 3 i)).toNat + n ≥ 2 ^ 64

/-- A counter sample of context `x` on core `c` goes to the trace buffer (R353). -/
def State.sample (s : State) (c : Nat) (x : Ctx) (code : Nat) : List Nat → State
  | [] => s
  | i :: l =>
    let p := x.sys.partid.toNat
    State.sample (s.traceAdd p 3 ((s.part p).coreNo c)
      [BitVec.ofNat 64 (i + code * 2 ^ 8), x.task.lidx.setWidth 64, x.pc.setWidth 64, 0]) c x code l

/-- R352: `n` events of kind `code` of the context on core `c`. -/
def State.countAt (s : State) (c code n : Nat) : State :=
  let x := (s.coreAt c).ctx
  if n = 0 || !(upTo 8).any (fun i => x.sys.counts code i) then s
  else
    (s.modAt c fun k => { k with ctx := { k.ctx with
        sys := ((upTo 8).filter fun i => k.ctx.sys.counts code i).foldl (Sys.bump n) k.ctx.sys } }).sample c x code
      (x.sys.samples code n)

/-- R352: `n` events of kind `code` of the context with dispatch number `uid`, on core `c` or elsewhere. -/
def State.countFor (s : State) (c uid code n : Nat) : State :=
  let x := s.ctxOf c uid
  if x.task.uid ≠ uid || n = 0 || !(upTo 8).any (fun i => x.sys.counts code i) then s
  else
    (s.onCtx c uid fun y => { y with
        sys := ((upTo 8).filter fun i => y.sys.counts code i).foldl (Sys.bump n) y.sys }).sample c x code
      (x.sys.samples code n)

/-- An event of the current context. -/
def State.count (s : State) (code : Nat) (n : Nat := 1) : State := s.countAt s.cur.val code n

end Sys2Proof.Machine

/-! ## Log records (R278, R279) -/

namespace Sys2Proof

/-- R278. -/
def LogRec.of (typ sub src : Nat) (task : BitVec 56) (sq obj off : Nat) (value : DWord) : LogRec :=
  { w0 := BitVec.ofNat 64 (typ + sub * 2 ^ 6 + src * 2 ^ 10 + (task.toNat % 2 ^ 32) * 2 ^ 32),
    w1 := BitVec.ofNat 64 (task.toNat / 2 ^ 32 + (sq % 2 ^ 24) * 2 ^ 24 + (obj % 2 ^ 16) * 2 ^ 48),
    w2 := BitVec.ofNat 64 (obj / 2 ^ 16 % 2 ^ 8 + (off % 2 ^ 46) * 2 ^ 8),
    w3 := value }

/-- TYPE. -/
def LogRec.typ (r : LogRec) : Nat := (r.w0.extractLsb' 0 6).toNat
/-- SUB. -/
def LogRec.sub (r : LogRec) : Nat := (r.w0.extractLsb' 6 4).toNat
/-- SRC. -/
def LogRec.src (r : LogRec) : Nat := (r.w0.extractLsb' 10 22).toNat
/-- TASK. -/
def LogRec.task (r : LogRec) : BitVec 56 := r.w1.extractLsb' 0 24 ++ r.w0.extractLsb' 32 32
/-- SEQ. -/
def LogRec.sq (r : LogRec) : Nat := (r.w1.extractLsb' 24 24).toNat
/-- OBJ. -/
def LogRec.obj (r : LogRec) : Nat := (r.w2.extractLsb' 0 8 ++ r.w1.extractLsb' 48 16).toNat
/-- OFF, in 4-byte words. -/
def LogRec.off (r : LogRec) : Nat := (r.w2.extractLsb' 8 46).toNat

/-- The object whose SEQ a record counts (R279); of a memory error, the task. Neither OBJ nor OFF tells the quads of a die apart: a
quad barrier is told by the quad of SRC too (log entry 83). -/
def LogRec.key (r : LogRec) : Nat × Nat × Nat :=
  match r.typ with
  | 1 => (0, r.obj, r.off / 16)
  | 2 => (0, r.obj, r.off / 16)
  | 3 => (1, r.obj + r.sub * 2 ^ 24, r.off + (if r.sub = 2 then r.src / 4 * 2 ^ 46 else 0))
  | 4 => (2, r.obj + (if r.sub = 2 then 2 ^ 24 else 0), 0)
  | 5 => (3, 0, 0)
  | 6 => (4, r.src, 0)
  | 7 => (5, r.task.toNat, r.sub)
  | 8 => (6, 0, 0)
  | 9 => (7, r.task.toNat, 0)
  | _ => (8, r.task.toNat, 0)

/-- Two records agree in the fields that R283 compares. -/
def LogRec.matches (a b : LogRec) : Bool :=
  a.typ == b.typ && a.sub == b.sub && a.src == b.src && a.task == b.task && a.obj == b.obj && a.off == b.off

end Sys2Proof

namespace Sys2Proof.Machine

open Sys2Proof

/-- The determinism level DET of a launch word (R401). -/
def Launch.det (l : Launch) : Nat := (l.word.extractLsb' 0 2).toNat
/-- MODE.RECORD of the launch (R275). -/
def Launch.record (l : Launch) : Bool := l.det = 1 || l.det = 2
/-- MODE.REPLAY of the launch (R275). -/
def Launch.replay (l : Launch) : Bool := l.det = 3
/-- MODE.VERIFY of the launch (R275). -/
def Launch.verify (l : Launch) : Bool := l.det = 2 || l.det = 3

/-- The object whose SEQ a record counts: that of a memory error is the line where the line is a synchronisation line, and else
the task (R279). -/
def State.keyOf (s : State) (p : Nat) (e : LogRec) : Nat × Nat × Nat :=
  if e.typ ≠ 10 then e.key
  else match (s.part p).phys e.obj (4 * e.off) with
    | some a => if (s.home.tag (lineOf a)).getLsbD 0 then (0, e.obj, e.off / 16) else e.key
    | none => if s.fab.exports.any fun x => x.part == p && x.lobj == e.obj && ((look x.tags (e.off / 16)).getD 0).getLsbD 0 then
        (0, e.obj, e.off / 16)
      else e.key

/-- The count behind the next SEQ of an object. -/
def countOf : List ((Nat × Nat × Nat) × Nat) → Nat × Nat × Nat → Nat
  | [], _ => 0
  | (j, n) :: l, k => if j = k then n else countOf l k

/-- One more event of an object. -/
def countUp : List ((Nat × Nat × Nat) × Nat) → Nat × Nat × Nat → List ((Nat × Nat × Nat) × Nat)
  | [], k => [(k, 1)]
  | (j, n) :: l, k => if j = k then (j, n + 1) :: l else (j, n) :: countUp l k

/-! ## The ring (R280 to R282) -/

/-- The ring of a logged event: its partition and launch, its object and the log2 of its capacity. -/
structure RingAt where
  part : Nat
  lch  : Nat
  obj  : Nat
  lg   : Nat
  deriving DecidableEq, Repr

/-- The launch of partition `p` with index `l`. -/
def State.launchAt (s : State) (p l : Nat) : Option Launch := (s.part p).launches[l]?

/-- The launch changed. -/
def State.modLaunch (s : State) (p l : Nat) (f : Launch → Launch) : State :=
  s.modPart p fun q => { q with launches := changeAt q.launches l f }

/-- The ring a context names in LOGCTL (R276). -/
def Ctx.ring (x : Ctx) : RingAt :=
  { part := x.sys.partid.toNat, lch := x.task.launch, obj := (x.sys.logctl.extractLsb' 0 24).toNat,
    lg := (x.sys.logctl.extractLsb' 24 5).toNat }

/-- The ring of a launch's agents. -/
def Launch.ring (l : Launch) (p i : Nat) : RingAt :=
  { part := p, lch := i, obj := l.ringObj, lg := (l.word.extractLsb' 4 5).toNat }

/-- The records in a ring: WR - RD (R280). -/
def State.ringCount (s : State) (r : RingAt) : Nat := (s.agentRead r.part r.obj 0 - s.agentRead r.part r.obj 8).toNat

/-- R280: the ring is full. -/
def State.ringFull (s : State) (r : RingAt) : Bool := s.ringCount r ≥ 2 ^ r.lg

/-- R282: the records that the context of a core has reserved in a ring: an atomic in a queue or in the fabric, and a request,
that has not performed. -/
def State.reservedBy (s : State) (r : RingAt) (c : Nat) : Nat :=
  let k := s.coreAt c
  let own := fun (a : Acc) => (a.uid == k.ctx.task.uid) && (match a.kind with
    | .atomic _ _ _ => true
    | _ => false)
  if !k.ctx.sys.record || k.ctx.ring != r then 0
  else (k.queues.toList.map fun l => l.countP fun e => match e with
      | .acc a => own a
      | .fence _ _ => false).foldl (· + ·) 0
    + s.fab.reqs.countP (fun q => q.core == c && q.op.isNone && !q.done && own q.acc)
    + k.ctx.pipe.requests.countP fun q => q.dies.isNone

/-- R282: the records reserved in a ring. -/
def State.reserved (s : State) (r : RingAt) : Nat := ((upTo 320).map (s.reservedBy r)).foldl (· + ·) 0

/-- WR advances. -/
def State.ringStep (s : State) (r : RingAt) : State :=
  s.agentWrite r.part r.obj 0 [s.agentRead r.part r.obj 0 + 1]

/-- A record written to the ring, and WR advanced (R280, R281). -/
def State.ringPut (s : State) (r : RingAt) (e : LogRec) : State :=
  let i := (s.agentRead r.part r.obj 0).toNat % 2 ^ r.lg
  (s.agentWrite r.part r.obj (64 + 32 * i) [e.w0, e.w1, e.w2, e.w3]).ringStep r

/-- What comes of a logged operation's turn: it is held, or it takes its step, with the record that replay consumed. -/
inductive Turn where
  | held (s : State)
  | go (s : State) (r : Option LogRec)

/-- A record for which room was reserved at issue (R282): an atomic's, a request's, and those of SEED and LOGMARK, whose room
the bundle found. -/
def logReserves (e : LogRec) : Bool := e.typ == 1 || (e.typ == 4 && e.sub ≤ 2) || (e.typ == 7 && e.sub == 0) || e.typ == 9

/-- A bundle that the log-full stall holds at issue, as it stands among the operations held. -/
def heldBundle : LogRec := ⟨0, 0, 0, 0⟩

/-- R227: the precondition of Complete. The departure of the last live member completes no phase, as in the end states of R232
and R324 (log entry 72). -/
def Bar.ready (b : Bar) : Bool :=
  b.act && !b.gone && b.live &&& b.arrived == b.live && b.pending == 0 && (b.armed || !b.deliv)

/-- The barriers of a level: 2 quad, 3 die, 4 package, 5 pod. -/
def State.barsAt (s : State) (lv : Nat) : List Bar :=
  match lv with
  | 2 => s.quadBars.toList
  | 3 => s.dieBars.toList
  | 4 => s.pkgBars.toList
  | _ => s.podBars.toList

/-- R282: an agent's operation that the log-full stall holds is still to come: the barrier that is ready, the record that an idle core
takes, the steal attempt that is due. -/
def State.agentHolds (s : State) (p i : Nat) (l : Launch) (e : LogRec) : Bool :=
  let core := fun (f : Core → Bool) => (s.part p).cores.any fun c =>
    match s.cores[c]? with
    | some k => ((look l.lids c).getD k.lid).toNat == e.src && f k
    | none => false
  match e.typ with
  | 3 => (s.barsAt e.sub).any fun b => b.ready && b.part == p && b.lch == i && b.src.toNat == e.src
  | 5 => core (fun k => k.run == .idle && k.spawnAt.isNone && k.entry.isNone)
    && (s.part p).recs.any fun r => r.1 == e.obj && r.2.state == .queued
  | 6 => core fun k => k.stealDue
  | _ => false

/-- R282: an operation that the log-full stall holds is still to come: its agent or its context holds it, or the bundle of its
context waits to issue. -/
def State.stillHeld (s : State) (p i : Nat) (l : Launch) (y : Nat × LogRec) : Bool :=
  if y.1 = 0 then s.agentHolds p i l y.2
  else s.cores.toList.any fun k => k.ctx.task.uid == y.1 && (if y.2 = heldBundle then k.run == .running && k.ctx.pipe.logHeld
    else k.ctx.pipe.heldOps.any fun o => o.matches y.2)

/-- Two entries of the log-full stall are one operation: a core's bind, or its steal attempt, whatever record it takes. -/
def sameHeld (a b : Nat × LogRec) : Bool :=
  a.1 == b.1 && (if a.1 = 0 && (a.2.typ = 5 || a.2.typ = 6) then a.2.typ == b.2.typ && a.2.src == b.2.src else a.2.matches b.2)

/-- R282: the operations of a launch that the log-full stall holds, in the order they were held. -/
def State.stalled (s : State) (p i : Nat) (l : Launch) : List (Nat × LogRec) := l.stall.filter (s.stillHeld p i l)

/-- R282: no room is left for a record of context `uid`, or another operation was held before it. -/
def State.logFull (s : State) (r : RingAt) (l : Launch) (uid : Nat) (e : LogRec) : Bool :=
  if logReserves e then s.ringFull r
  else s.ringCount r + s.reserved r ≥ 2 ^ r.lg || (match s.stalled r.part r.lch l with
    | [] => false
    | y :: _ => !sameHeld y (uid, e))

/-- R282: an operation joins those that the log-full stall holds, behind those held before it. -/
def State.joinStall (s : State) (p i : Nat) (y : Nat × LogRec) : State :=
  s.modLaunch p i fun l =>
    let held := s.stalled p i l
    { l with stall := if held.any (sameHeld y) then held else held ++ [y] }

/-- An operation leaves the log-full stall. -/
def Launch.unstalls (uid : Nat) (e : LogRec) (l : Launch) : Launch :=
  { l with stall := l.stall.filter fun y => !sameHeld y (uid, e) }

/-- R277, R281 to R283: the turn of one logged operation of context `uid`, 0 being an agent's. `e` is its record, SEQ excepted;
`sq` gives SEQ where the record does not count it; `exact` compares VALUE too. In a replay that has diverged nothing waits for
the log any more (R284). -/
def State.turn (s : State) (record replay : Bool) (r : RingAt) (uid : Nat) (e : LogRec) (sq : Option Nat) (exact : Bool) : Turn :=
  match s.launchAt r.part r.lch with
  | none => .go s none
  | some l =>
    let key := s.keyOf r.part e
    if record then
      if s.logFull r l uid e then .held (s.joinStall r.part r.lch (uid, e))
      else
        let n := sq.getD (countOf l.counts key)
        let e := { e with w1 := (e.w1 &&& 0xFFFF000000FFFFFF) ||| BitVec.ofNat 64 ((n % 2 ^ 24) * 2 ^ 24) }
        .go ((s.ringPut r e).modLaunch r.part r.lch fun l =>
          { l.unstalls uid e with counts := countUp l.counts key, log := l.log ++ [e] }) none
    else if replay && !l.failing then
      match l.supply.find? fun x => s.keyOf r.part x == key with
      | none => .held s
      | some x =>
        if x.matches e && (!exact || x.w3 == e.w3) then
          .go ((s.ringStep r).modLaunch r.part r.lch fun l =>
            { l with supply := l.supply.erase x, log := l.log ++ [x] }) (some x)
        else .held s
    else .go s none

/-- A logged operation of a context is held for its turn. -/
def State.noteHeld (s : State) (x : Ctx) (e : LogRec) : State :=
  s.onCtx s.cur.val x.task.uid fun y => { y with pipe := { y.pipe with
    heldOps := if y.pipe.heldOps.any fun o => o.matches e then y.pipe.heldOps else y.pipe.heldOps ++ [e] } }

/-- A logged operation of a context has had its turn. -/
def State.noteDone (s : State) (x : Ctx) (e : LogRec) : State :=
  s.onCtx s.cur.val x.task.uid fun y => { y with pipe := { y.pipe with
    heldOps := y.pipe.heldOps.filter fun o => !o.matches e, heldFor := 0 } }

/-- The turn of a logged operation of a context. -/
def State.turnOf (s : State) (x : Ctx) (e : LogRec) (sq : Option Nat) (exact : Bool) : Turn :=
  if x.sys.record || x.sys.replay then
    match s.turn x.sys.record x.sys.replay x.ring x.task.uid e sq exact with
    | .held s => .held (s.noteHeld x e)
    | .go s r => .go (s.noteDone x e) r
  else .go s none

/-- R282, R284: a logged operation of a context is held, in a recording behind those held before it. -/
def State.holdOp (s : State) (x : Ctx) (e : LogRec) : State :=
  (if x.sys.record then s.joinStall x.ring.part x.ring.lch (x.task.uid, e) else s).noteHeld x e

/-- The turns of several logged operations of one context, all taken together, or none. -/
def State.turnsFrom (s0 : State) (x : Ctx) : List LogRec → State → Turn
  | [], s => .go s none
  | e :: l, s =>
    match s.turnOf x e none false with
    | .held _ => .held (s0.holdOp x e)
    | .go s _ => State.turnsFrom s0 x l s

/-- The turns of several logged operations of one context. -/
def State.turnsOf (s : State) (x : Ctx) (l : List LogRec) : Turn := s.turnsFrom x l s

/-- The turn of a logged step of an agent that serves a launch. -/
def State.turnFor (s : State) (p i : Nat) (e : LogRec) (sq : Option Nat) (exact : Bool) : Turn :=
  match s.launchAt p i with
  | none => .go s none
  | some l =>
    if l.record || l.replay then s.turn l.record l.replay (l.ring p i) 0 e sq exact else .go s none

/-- R282: a context is held by the log-full stall: at issue, or by an operation that waits at its home. -/
def State.logStall (_s : State) (x : Ctx) : Bool :=
  x.sys.record && (x.pipe.logHeld || !x.pipe.heldOps.isEmpty)

/-- LOGCTL as a context reads it: FULL while the log-full stall holds an operation of the context, EMPTY while an operation
waits for Bamosh to supply a record of its object (R276, R283). -/
def State.logctl (s : State) (x : Ctx) : DWord :=
  let full := s.logStall x
  let empty := x.sys.replay && !x.pipe.heldOps.isEmpty && (match s.launchAt x.ring.part x.ring.lch with
    | some l => x.pipe.heldOps.any fun e => !l.supply.any fun y => s.keyOf x.ring.part y == s.keyOf x.ring.part e
    | none => true)
  (x.sys.logctl &&& 0x3F3FFFFFFF) ||| BitVec.ofNat 64 (full.toNat * 2 ^ 38 + empty.toNat * 2 ^ 39)

/-! ## The assay fold (R289, R290) -/

/-- K1 of R290. -/
def k1 : DWord := 0x8C3F51B62E97D0A5
/-- K2 of R290. -/
def k2 : DWord := 0xF14D7A29C6B30E6B

/-- R289: the number of item `j` of slot `σ`. -/
def itemNo (sigma j : Nat) : DWord := BitVec.ofNat 64 ((sigma % 2 ^ 24) * 2 ^ 40 + j)

/-- R289: the place of the aligned 8-byte word at `w` of an object. -/
def placeObj (obj w : Nat) : DWord := k1 * BitVec.ofNat 64 obj ^^^ BitVec.ofNat 64 w

/-- R289: the place of the aligned 8-byte word at `w` of the scratchpad. -/
def placeSpad (w : Nat) : DWord := 0xFFFFFFFFFFFFFFF8 ^^^ BitVec.ofNat 64 w

/-- R290: the value of an item. -/
def itemVal (n l : DWord) (mask : BitVec 8) (v : DWord) : DWord :=
  let x := mix64 (n * k1 ^^^ l)
  mix64 (v * k2 ^^^ (mask.setWidth 64 <<< 56) ^^^ x)

/-- The byte mask of `n` bytes from byte `b` of an 8-byte word. -/
def byteMask (b n : Nat) : BitVec 8 := BitVec.ofNat 8 ((2 ^ n - 1) * 2 ^ b)

/-- One write of an item: `n` bytes with value `v` at address `a`, within one aligned 8-byte word. -/
structure Wr where
  a : Nat
  n : Nat
  v : Nat
  deriving DecidableEq, Repr, Inhabited

/-- The item of one write alone. -/
def Wr.item (place : Nat → DWord) (sigma j : Nat) (x : Wr) : DWord :=
  itemVal (itemNo sigma j) (place (x.a / 8 * 8)) (byteMask (x.a % 8) x.n)
    (BitVec.ofNat 64 (x.v % 2 ^ (8 * x.n) * 2 ^ (8 * (x.a % 8))))

/-- Writes one item each. -/
def foldEach (place : Nat → DWord) (sigma : Nat) : Nat → List Wr → DWord
  | _, [] => 0
  | j, x :: l => x.item place sigma j + foldEach place sigma (j + 1) l

/-- Writes gathered by aligned 8-byte word, those of one word standing together: word, mask and value. -/
def gather : List Wr → List (Nat × BitVec 8 × DWord)
  | [] => []
  | x :: l =>
    let w := x.a / 8 * 8
    let m := byteMask (x.a % 8) x.n
    let v := BitVec.ofNat 64 (x.v % 2 ^ (8 * x.n) * 2 ^ (8 * (x.a % 8)))
    match gather l with
    | (w', m', v') :: t => if w' = w then (w, m ||| m', v ||| v') :: t else (w, m, v) :: (w', m', v') :: t
    | [] => [(w, m, v)]

/-- The items of gathered words from number `j` on. -/
def foldGathered (place : Nat → DWord) (sigma : Nat) : Nat → List (Nat × BitVec 8 × DWord) → DWord
  | _, [] => 0
  | j, (w, m, v) :: l => itemVal (itemNo sigma j) (place w) m v + foldGathered place sigma (j + 1) l

/-- Writes one item for each aligned 8-byte word. -/
def foldWords (place : Nat → DWord) (sigma j : Nat) (l : List Wr) : DWord := foldGathered place sigma j (gather l)

/-- A slot of a folding form takes its number σ (R289). -/
def Task.nextSigma (t : Task) : Task := { t with sigma := (t.sigma + 1) % 2 ^ 24 }

/-- A folding slot of the current context issues, adding items to the digest. -/
def State.folded (s : State) (d : DWord) : State :=
  s.modTask fun t => { t.nextSigma with digest := t.digest + d }

/-- The number σ of the current slot. -/
def State.sigma (s : State) : Nat := s.core.ctx.task.sigma

end Sys2Proof.Machine
end

