-- ==== Sys2Proof/Machine/Access.lean ====
section
/-! DEFINITION. Global accesses: the checks of the issuing unit (R53, R236), the off-core queues and the L1G (R111 to
R120, R127, R238), and what performs at the homes (R233, R237, R246, R277, R308, R319, R344). -/

namespace Sys2Proof.Machine

open Sys2Proof

/-! ## Checks at issue -/

/-- Bounds, rights and kind of a global access, in the order of R53, with its alignment last: the cause and REASON of
the first that fails. `right` is the right it needs and `bad` the kinds it refuses. -/
def checkGlob (k : Cap) (o : Int) (w right : Nat) (bad : List Nat) : Option (Byte × Nat) :=
  if o < 0 || o + w > k.len then some (0x03, 1)
  else if !k.has right then some (0x03, 2)
  else if bad.contains k.kind then some (0x03, 3)
  else if o % w ≠ 0 then some (0x04, 0)
  else none

/-- R53: the kinds an LDG refuses. -/
def loadBad : List Nat := [5, 4]
/-- R53: the kinds an STG refuses. -/
def storeBad : List Nat := [5, 4, 2]

/-- Bits 31:0 of a checked offset (R204). -/
def offLow (o : Int) : Nat := (BitVec.ofInt 32 o).toNat

/-! ## Lines of the L1G (R115) -/

/-- The first byte's object offset of an access. -/
def Acc.off (a : Acc) : Nat := match a.items with
  | [] => 0
  | i :: _ => i.off

/-- The line of an access within its object. -/
def Acc.line (a : Acc) : Nat := a.off / 64

/-- An access reaches line `l` of object `o` of partition `p`. -/
def Acc.at (a : Acc) (p o l : Nat) : Bool := a.via.part == p && a.via.obj == o && a.line == l

/-- A queue entry changed where it is an access. -/
def QEntry.map (f : Acc → Acc) : QEntry → QEntry
  | .acc a => .acc (f a)
  | e => e

/-- Lines that satisfy `q` become invalid: they leave the L1G, and no load issued before installs one (R115). -/
def Core.dropLines (q : Nat → Nat → Nat → Bool) (c : Core) : Core :=
  { c with
    l1g := c.l1g.filter fun x => !q x.part x.obj x.line,
    fills := c.fills.map fun f => if q f.line.part f.line.obj f.line.line then { f with live := false } else f,
    queues := c.queues.map fun l => l.map (QEntry.map fun a =>
      if q a.via.part a.via.obj a.line then { a with dead := true } else a),
    hits := c.hits.map fun h => if q h.1.via.part h.1.via.obj h.1.line then ({ h.1 with dead := true }, h.2) else h }

/-- One line becomes invalid. -/
def Core.dropLine (p o l : Nat) (c : Core) : Core := c.dropLines fun p' o' l' => p' == p && o' == o && l' == l

/-- Every line becomes invalid. -/
def Core.dropL1 (c : Core) : Core := c.dropLines fun _ _ _ => true

/-- The bytes from `off` of a line. -/
def lineValue (b : List Byte) (off n : Nat) : Nat :=
  ((b.drop off).take n).foldr (fun x r => x.toNat + 256 * r) 0

/-- An item that crosses the end of a line is two, since BASE may be any byte: `sh` bytes of its value stand before the part's. -/
def Item.parts (i : Item) : List Item :=
  let n := 64 - i.off % 64
  if i.width ≤ n then [i]
  else [{ i with width := n }, { i with off := i.off + n, width := i.width - n, data := i.data >>> (8 * n), sh := n }]

/-- What an item gives to its lane, of the value `v` of its bytes. -/
def Item.gives (i : Item) (v : Nat) : Nat × DWord := (i.lane, BitVec.ofNat 64 (v * 2 ^ (8 * i.sh)))

/-- What a load gets from a line of the L1G. -/
def L1Line.gives (l : L1Line) (is : List Item) : List (Nat × DWord) :=
  is.map fun i => i.gives (lineValue l.bytes (i.off % 64) i.width)

/-- Items gathered by 64-byte line, those of one line standing together. -/
def byLine : List Item → List (List Item)
  | [] => []
  | i :: l =>
    match byLine l with
    | (j :: g) :: t => if j.off / 64 = i.off / 64 then (i :: j :: g) :: t else [i] :: (j :: g) :: t
    | _ => [[i]]

/-- The valid line that an access hits. -/
def Core.hit (c : Core) (v : Via) (l : Nat) : Option L1Line :=
  c.l1g.find? fun x => x.part == v.part && x.obj == v.obj && x.gen == v.gen && x.line == l

/-! ## Queues (R111, R118, R238) -/

/-- An entry is an atomic to a line. -/
def QEntry.atomicAt (p o l : Nat) : QEntry → Bool
  | .acc a => match a.kind with
    | .atomic _ _ _ => a.at p o l
    | _ => false
  | _ => false

/-- R238: the queue of an access: the queue of a pending atomic to its line, or the one its capability names. -/
def Core.queueFor (c : Core) (cap : CReg) (v : Via) (l : Nat) : BitVec 2 :=
  match (upTo 4).find? fun q => (c.queues.get (BitVec.ofNat 2 q)).any (QEntry.atomicAt v.part v.obj l) with
  | some q => BitVec.ofNat 2 q
  | none => cap.setWidth 2

/-- An entry joins the tail of a queue. -/
def Core.enq (q : BitVec 2) (e : QEntry) (c : Core) : Core :=
  { c with queues := c.queues.put q (c.queues.get q ++ [e]) }

/-- A fence marker stands in some queue. -/
def Core.fenced (c : Core) : Bool :=
  c.queues.toList.any fun l => l.any fun e => match e with
    | .fence _ _ => true
    | _ => false

/-- R313: the cached translation that serves an access. -/
def Core.cached (c : Core) (v : Via) (off : Nat) (w : Bool) : Option Xlat := c.xcache.find? fun t => t.serves v off w

/-- A number never used before: accesses, values and operations carry one, in issue order. -/
def State.newId (s : State) : State := { s with fresh := s.fresh + 1 }

/-- Whether an access writes. -/
def AccKind.writes : AccKind → Bool
  | .load => false
  | _ => true

/-- Whether an access counts as a load under R120. -/
def AccKind.loads : AccKind → Bool
  | .store => false
  | _ => true

/-- Words came for an interlocked value. -/
def Pipe.give (id : Nat) (got : List (Nat × DWord)) (p : Pipe) : Pipe :=
  { p with waits := p.waits.map fun w =>
      if w.id = id then { w with got := w.got ++ got, need := w.need - 1 } else w }

/-- A load enters its queue. -/
def State.queueLoad (s : State) (a : Acc) (cap : CReg) : State :=
  let c := s.core
  let a := { a with id := s.fresh, xl := c.cached a.via a.off false, start := s.cyc }
  let s := s.newId.modCore fun c => c.enq (c.queueFor cap a.via a.line) (.acc a)
  if a.via.kind = 3 then s else s.count 10

/-- R115, R127: a load of one line: it reads a valid line of the L1G as the bundle found it, or enters its queue. One that
would hit behind a FENCE waits for the FENCE. -/
def State.submitLoad (s : State) (a : Acc) (cap : CReg) : State :=
  let c := s.core
  let q := c.queueFor cap a.via a.line
  let own := (c.queues.get q).any (QEntry.atomicAt a.via.part a.via.obj a.line)
  match (if a.via.kind = 3 || own then none else s.rd.hit a.via a.line) with
  | some l =>
    if c.fenced then
      s.newId.modCore fun c => { c with hits := c.hits ++ [({ a with id := s.fresh, fenced := true }, cap)] }
    else
      (s.modPipe fun p => p.give (a.wait.getD 0) (l.gives a.items)).count 9
  | none => s.queueLoad a cap

/-- R115: a store or atomic of one line invalidates the core's line and enters its queue. -/
def State.submitStore (s : State) (a : Acc) (cap : CReg) : State :=
  let c := s.core
  let q := c.queueFor cap a.via a.line
  let a := { a with id := s.fresh, xl := c.cached a.via a.off true, start := s.cyc }
  s.newId.modCore fun c => (c.dropLine a.via.part a.via.obj a.line).enq q (.acc a)

/-- An access of the current slot through register `cap`, before it is submitted. -/
def State.access (s : State) (kind : AccKind) (cap : CReg) (items : List Item) (wait : Option Nat)
    (sigma item0 : Nat) (o : Int) : Acc :=
  { id := 0, kind, via := s.rd.via (s.rd.C cap), items, wait, sigma, item0, slot := s.slot, cap := cap.toNat,
    addr := offLow o, xl := none, held := [], uid := s.core.ctx.task.uid, fenced := false, dead := false }

/-- An interlocked value begins (R48, R108): its register is marked, and the wait takes the next number. -/
def State.await (s : State) (dest : WaitDest) (kind : WaitKind) (need : Nat) (got : List (Nat × DWord)) : State :=
  let w : Wait := { id := s.fresh, dest, kind, need, got, sigma := s.sigma }
  s.newId.modPipe fun p =>
    let p := { p with waits := p.waits ++ [w] }
    match dest with
    | .s r => p.markS r
    | .v r _ => { p with vpend := p.vpend.put r true }

/-- The stores of an access, line by line; `j` numbers the digest items (R289). -/
def State.storeLines (s : State) (cap : CReg) (sigma : Nat) (o : Int) : Nat → List (List Item) → State
  | _, [] => s
  | j, items :: l =>
    let a := s.access .store cap items none sigma j o
    State.storeLines (s.submitStore a cap) cap sigma o (j + (gather (items.map fun i => ⟨i.off, i.width, i.data.toNat⟩)).length) l

/-- The loads of an access, line by line, each for wait `id`. -/
def State.loadLines (s : State) (cap : CReg) (id : Nat) (o : Int) (l : List (List Item)) : State :=
  l.foldl (fun t items => t.submitLoad (t.access .load cap items (some id) 0 0 o) cap) s

/-! ## Performing (R117, R233) -/

/-- Entries ahead of position `k` that an access waits for: all but the remote ones (R111, R118). -/
def aheadClear (l : List QEntry) (k : Nat) : Bool :=
  (l.take k).all fun e => match e with
    | .acc a => a.via.kind == 3
    | .fence _ _ => false

/-- R127: a marker is passed when nothing but remote accesses stands ahead of the markers of its FENCE, and no load that an
earlier FENCE holds is left. -/
def passedFence (c : Core) (id : Nat) : Bool :=
  c.hits.all (fun h => id < h.1.id) && c.queues.toList.all fun l => match l.findIdx? (fun e => match e with
      | .fence j _ => j == id
      | _ => false) with
    | some k => aheadClear l k
    | none => true

/-- The FENCEs that are passed. -/
def Core.passed (c : Core) : List Nat :=
  c.queues.toList.flatMap fun l => l.filterMap fun e => match e with
    | .fence j _ => if passedFence c j then some j else none
    | _ => none

/-- The markers of some FENCEs leave the queues. -/
def Core.dropFences (done : List Nat) (c : Core) : Core :=
  { c with queues := c.queues.map fun l => l.filter fun e => match e with
      | .fence j _ => !done.contains j
      | _ => true }

/-- The markers that stand in the queues. -/
def Core.fences (c : Core) : Nat := (c.queues.toList.map fun l => l.countP fun e => match e with
  | .fence _ _ => true
  | _ => false).foldl (· + ·) 0

/-- The markers of every passed FENCE leave the queues, those of one that this passes in their turn; the first argument
bounds the rounds. -/
def Core.popFencesFrom : Nat → Core → Core
  | 0, c => c
  | n + 1, c => Core.popFencesFrom n (c.dropFences c.passed)

/-- Markers whose FENCE is passed leave the queues (R127). -/
def Core.popFences (c : Core) : Core := c.popFencesFrom c.fences

/-- Some load or atomic of the core issued before number `id` has not performed (R120); a remote one counts until it
completes (R380). -/
def State.loadsBefore (s : State) (c id : Nat) : Bool :=
  ((s.coreAt c).queues.toList.any fun l => l.any fun e => match e with
    | .acc a => a.kind.loads && a.id < id
    | _ => false)
  || (s.coreAt c).hits.any (fun h => h.1.id < id)
  || s.fab.reqs.any fun r => r.core == c && r.op.isNone && r.acc.kind.loads && r.acc.id < id

/-- R344, R346: one line charged to a partition, counted for the context that issued the access (R352); it stands in one of
the partition's ways. -/
def State.charge (s : State) (p c uid a : Nat) : State :=
  if (unitOf a).isSome then ((s.chargeUnit p a).enterWay p a).countFor c uid 11 1 else s

/-- R332, R344: a bank read of partition `p` is charged and counted, and takes no way of the slice. -/
def State.chargeBank (s : State) (p c uid a : Nat) : State :=
  if (unitOf a).isSome then (s.chargeUnit p a).countFor c uid 11 1 else s

/-- The number of a queue's entry. -/
def QEntry.id : QEntry → Nat
  | .acc a => a.id
  | .fence j _ => j

/-- An entry takes its place in a queue, behind every entry that issued before it. -/
def placeEntry (e : QEntry) : List QEntry → List QEntry
  | [] => [e]
  | x :: l => if e.id < x.id then e :: x :: l else x :: placeEntry e l

/-- R127: a FENCE that issued before access `id` is not passed yet. -/
def Core.fencedBefore (c : Core) (id : Nat) : Bool :=
  c.queues.toList.any fun l => l.any fun e => match e with
    | .fence j _ => j < id
    | .acc _ => false

/-- R127: load `k` of those that core `c` holds behind a FENCE goes on, once no marker issued before it is left: it reads its
line where that is still valid, and else enters its queue, at the place of its issue. The value of a line that was invalidated
since then goes to the load alone (R115). -/
def State.performHit (s : State) (c k : Nat) : State :=
  match (s.coreAt c).hits[k]? with
  | none => s
  | some (a, cap) =>
    if (s.coreAt c).fencedBefore a.id then s
    else
      let out := fun (s : State) => s.modAt c fun x => { x with hits := dropAt x.hits k }
      match (s.coreAt c).hit a.via a.line with
      | some l => (out (s.onCtx c a.uid fun x => { x with pipe := x.pipe.give (a.wait.getD 0) (l.gives a.items) })).countFor
          c a.uid 9 1
      | none =>
        let b := { a with xl := (s.coreAt c).cached a.via a.off false, start := s.cyc }
        (out (s.modAt c fun x =>
          let q := x.queueFor cap a.via a.line
          { x with queues := x.queues.put q (placeEntry (.acc b) (x.queues.get q)) })).countFor c a.uid 10 1

/-- R127: the markers of every passed FENCE leave the queues of core `c`, and the loads that they held go on at that point, in their
order; the first argument bounds the rounds. -/
def State.passFences (c : Nat) : Nat → State → State
  | 0, s => s
  | n + 1, s =>
    let s := s.modAt c Core.popFences
    match (s.coreAt c).hits.findIdx? fun h => !(s.coreAt c).fencedBefore h.1.id with
    | some k => State.passFences c n (s.performHit c k)
    | none => s

/-- An access has left its queue. -/
def State.leaves (s : State) (c q k : Nat) : State :=
  (s.modAt c fun x => { x with queues := x.queues.put (BitVec.ofNat 2 q) (dropAt (x.queues.get (BitVec.ofNat 2 q)) k) }).passFences
    c ((s.coreAt c).hits.length + 1)

/-- The class of a memory error at a physical address (R369): HBM, weight store or second tier. -/
def errClass (a : Nat) : Nat := if a / 2 ^ 45 = 0 then 4 else if a / 2 ^ 45 = 2 then 5 else 6

/-- A memory error that a task meets at offset `x` of an object, at physical address `pa` (R281, R370). -/
def Ctx.memErr (obj x pa : Nat) (y : Ctx) : Ctx :=
  { y with task := { y.task with errs := y.task.errs ++ [(errClass pa, obj, x / 64, lineOf pa)] } }

/-- R206, R308: a port fault of a core's access: nothing performs, and the context takes the cause at a bundle
boundary. The memory error of a remote access is noted where it comes back (R378). -/
def State.portFault (s : State) (c : Nat) (a : Acc) (e : BitVec 4) : State :=
  let lane := match a.items with
    | i :: _ => i.lane
    | [] => 0
  let info := memInfo a.slot lane a.cap (if e = 3 then 3 else 0) (offLow ((a.addr : Int) + 4 * lane))
  let s := match a.xl with
    | some t => if e = 6 && t.cls != 3 then s.onCtx c a.uid (Ctx.memErr a.via.obj a.off (t.phys a.off)) else s
    | none => s
  s.onCtx c a.uid fun x => { x with pipe := { x.pipe with async := x.pipe.async ++ [(kindCause e, info)], heldOps := [] } }

/-- The record of a logged access to a synchronisation line (R277 to R279). -/
def State.lineRec (s : State) (c : Nat) (x : Ctx) (typ sub obj off : Nat) (v : DWord) : LogRec :=
  LogRec.of typ sub (s.coreAt c).lid.toNat x.task.lidx 0 obj (off / 4) v

/-- The line of a physical address is a synchronisation line (R234). -/
def Home.sync (h : Home) (a : Nat) : Bool := (h.tag (lineOf a)).getLsbD 0

/-- A store of context `uid` has performed with digest items `d`: they join the digest, and every DGET issued after
access `id` gets them (R55, R290). -/
def Ctx.storeDone (id : Nat) (d : DWord) (x : Ctx) : Ctx :=
  { x with
    task := { x.task with digest := x.task.digest + d },
    pipe := { x.pipe with waits := x.pipe.waits.map fun w =>
      match w.kind with
      | .digest => if id < w.id then { w with need := w.need - 1, got := w.got ++ [(0, d)] } else w
      | _ => w } }

/-- The writes of a store's items. -/
def Acc.wrs (a : Acc) : List Wr := a.items.map fun i => { a := i.off, n := i.width, v := i.data.toNat }

/-- The digest items of a store. -/
def Acc.fold (a : Acc) : DWord := foldWords (placeObj a.via.obj) a.sigma a.item0 a.wrs

/-- The home after the items of a store. -/
def Home.writeItems (h : Home) (t : Xlat) : List Item → Home
  | [] => h
  | i :: l => Home.writeItems (h.write (t.phys i.off) i.width i.data.toNat) t l

/-- What a load reads at the home. -/
def Home.readItems (h : Home) (t : Xlat) (l : List Item) : List (Nat × DWord) :=
  l.map fun i => i.gives (h.mem.readLE (t.phys i.off) i.width)

/-- A line written by other parties than its own core: no other L1G changes (R115). -/
def fillOf (h : Home) (a : Acc) (t : Xlat) : Fill :=
  { line := { part := a.via.part, obj := a.via.obj, gen := a.via.gen, line := a.line, wstore := t.cls == 2,
              bytes := h.mem.bytes (t.phys (a.line * 64)) 64 }, live := true }

/-- A load, at the head of queue `q` of core `c` and with its translation, performs (R115, R233). -/
def State.performLoad (s : State) (c q k : Nat) (a : Acc) (t : Xlat) : State :=
  let pa := t.phys a.off
  if s.home.lost.contains (lineOf pa) then (s.portFault c a 6).leaves c q k
  else if !s.home.genOk t pa then (s.portFault c a 5).leaves c q k
  else
    let x := s.ctxOf c a.uid
    let go := fun (s : State) =>
      let got := s.home.readItems t a.items
      let s := (s.onCtx c a.uid fun x => { x with pipe := x.pipe.give (a.wait.getD 0) got }).leaves c q k
      let s := if a.dead then s else s.modAt c fun k => { k with fills := k.fills ++ [fillOf s.home a t] }
      s.charge a.via.part c a.uid pa
    if s.home.sync pa then
      match s.turnOf x (s.lineRec c x 2 0 a.via.obj a.off 0) none false with
      | .held s => s
      | .go s _ => go s
    else go s

/-- A store performs at the home (R233). -/
def State.performStore (s : State) (c q k : Nat) (a : Acc) (t : Xlat) : State :=
  let pa := t.phys a.off
  if s.home.lost.contains (lineOf pa) then (s.portFault c a 6).leaves c q k
  else if !s.home.genOk t pa then (s.portFault c a 5).leaves c q k
  else
    let x := s.ctxOf c a.uid
    let go := fun (s : State) =>
      (((s.modHome fun h => h.writeItems t a.items).onCtx c a.uid (Ctx.storeDone a.id a.fold)).leaves c q k).charge
        a.via.part c a.uid pa
    if s.home.sync pa then
      match s.turnOf x (s.lineRec c x 2 1 a.via.obj a.off 0) none false with
      | .held s => s
      | .go s _ => go s
    else go s

/-- R237: the new value of an atomic of `w` bytes; none where it writes nothing. -/
def AtOp.apply (op : AtOp) (w : Nat) (old v nv : DWord) : Option DWord :=
  let n := 8 * w
  let trunc := fun (x : DWord) => BitVec.ofNat 64 (x.toNat % 2 ^ n)
  let sg := fun (x : DWord) => (BitVec.ofNat n x.toNat).toInt
  let v := trunc v
  match op with
  | .add => some (trunc (old + v))
  | .min => some (if sg old ≤ sg v then old else v)
  | .max => some (if sg old ≥ sg v then old else v)
  | .and => some (old &&& v)
  | .or => some (old ||| v)
  | .xor => some (old ^^^ v)
  | .xchg => some v
  | .cas => if old = v then some (trunc nv) else none
  | .fadd => some (BitVec.ofNat 64
      (Fmt.f32.add .rne 0 (Fmt.f32.decode (old.toNat % 2 ^ 32)) (Fmt.f32.decode (v.toNat % 2 ^ 32))).1)

/-- The number of an atomic operation in the order log (R279). -/
def AtOp.no : AtOp → Nat
  | .add => 0
  | .min => 1
  | .max => 2
  | .and => 3
  | .or => 4
  | .xor => 5
  | .xchg => 6
  | .cas => 7
  | .fadd => 8

/-- The items of an atomic (R288): what it wrote, or one of mask 0 and value 0. -/
def atomicFold (obj sigma off w : Nat) : Option DWord → DWord
  | some v => (Wr.mk off w v.toNat).item (placeObj obj) sigma 0
  | none => itemVal (itemNo sigma 0) (placeObj obj (off / 8 * 8)) 0 0

/-- R279: the VALUE of an ATOM record. -/
def atomLogValue (op : AtOp) (w : Nat) (old : DWord) (failed : Bool) : DWord :=
  if op = .cas && failed && w = 4 then old ||| (1 <<< 63 : DWord) else old

/-- An atomic performs at its home in one step and sends the old value back (R237). -/
def State.performAtomic (s : State) (c q k : Nat) (a : Acc) (t : Xlat) (op : AtOp) (nv : DWord) : State :=
  let pa := t.phys a.off
  match a.items with
  | [] => s
  | i :: _ =>
    if s.home.lost.contains (lineOf pa) then (s.portFault c a 6).leaves c q k
    else if !s.home.genOk t pa then (s.portFault c a 5).leaves c q k
    else
      let x := s.ctxOf c a.uid
      let old := BitVec.ofNat 64 (s.home.mem.readLE pa i.width)
      let new := op.apply i.width old i.data nv
      match s.turnOf x (s.lineRec c x 1 op.no a.via.obj a.off (atomLogValue op i.width old new.isNone)) none false with
      | .held s => s
      | .go s _ =>
        let s := match new with
          | some v => s.modHome fun h => h.write pa i.width v.toNat
          | none => s
        let s := s.onCtx c a.uid fun x =>
          let x := Ctx.storeDone a.id (atomicFold a.via.obj a.sigma a.off i.width new) x
          { x with pipe := x.pipe.give (a.wait.getD 0) [(0, old)] }
        (s.leaves c q k).charge a.via.part c a.uid pa

/-- R246: an entry reached its bank inside a refresh window. -/
def QEntry.delay : QEntry → QEntry
  | .acc a => .acc { a with late := true }
  | .fence i s => .fence i s

/-- The entry waits for the end of a window. -/
def QEntry.isLate : QEntry → Bool
  | .acc a => a.late
  | .fence _ _ => false

/-- The entry is no longer delayed. -/
def QEntry.onTime : QEntry → QEntry
  | .acc a => .acc { a with late := false }
  | .fence i s => .fence i s

/-- An access of core `c` may perform now: outside a refresh window (R246), with its budget (R344), and, in strict
order mode, after every earlier load (R120). -/
def State.mayPerform (s : State) (c : Nat) (a : Acc) (pa : Nat) : Bool :=
  !refreshing s.cyc pa && !s.lineHeld a.via.part pa
  && !((s.ctxOf c a.uid).sys.strict && a.kind.writes && s.loadsBefore c a.id)

/-- The link that a new request takes: the lowest in service. -/
def State.route (s : State) : Nat := (s.fab.links.findIdx? fun l => l.up).getD 0

/-- R378, R380: a remote access leaves for the fabric once the issuing side has checked it. -/
def State.sendRemote (s : State) (c q k : Nat) (a : Acc) (t : Xlat) : State :=
  (s.sendOff c none a t.pframe t.n0 s.route).leaves c q k

/-- R283, step 5: access `b` issued before `a` in one task, and its record would be the same. -/
def Acc.twin (b a : Acc) : Bool :=
  decide (b.id < a.id) && b.uid == a.uid && b.via.obj == a.via.obj && b.off / 4 == a.off / 4
    && (match b.kind, a.kind with
      | .load, .load => true
      | .store, .store => true
      | .atomic o _ _, .atomic q _ _ => o == q
      | _, _ => false)

/-- R283, step 5: in replay, an access that issued before `a` in its task, and whose record would be the same, stands at the head
of another queue: it takes the record first. -/
def State.twinAhead (s : State) (c : Nat) (a : Acc) : Bool :=
  let k := s.coreAt c
  k.ctx.sys.replay && k.queues.toList.any fun l => match l.head? with
    | some (.acc b) => b.twin a
    | _ => false

/-- An entry of a queue performs, if its precondition holds (R117, R118); a remote one is sent. -/
def State.queuePerform (s : State) (c q k : Nat) (atomics : Bool) : State :=
  match ((s.coreAt c).queues.get (BitVec.ofNat 2 q))[k]? with
  | some (.acc a) =>
    match a.xl with
    | none => s
    | some t =>
      if s.cyc < a.start then s
      else if a.via.kind = 3 then
        (if (s.ctxOf c a.uid).sys.strict && a.kind.writes && s.loadsBefore c a.id then s else s.sendRemote c q k a t)
      else if !aheadClear ((s.coreAt c).queues.get (BitVec.ofNat 2 q)) k then s
      else if refreshing s.cyc (t.phys a.off) then
        s.modAt c fun x => { x with
          queues := x.queues.put (BitVec.ofNat 2 q) (changeAt (x.queues.get (BitVec.ofNat 2 q)) k QEntry.delay) }
      else if !s.mayPerform c a (t.phys a.off) || (s.home.sync (t.phys a.off) && s.twinAhead c a) then s
      else match a.kind with
        | .load => if atomics then s else s.performLoad c q k a t
        | .store => if atomics then s else s.performStore c q k a t
        | .atomic op nv _ => if atomics then s.performAtomic c q k a t op nv else s
  | _ => s

/-- R378: the issuing side's checks of a remote access, steps 1 to 3 and 5 of R308: the package and the object there,
held in a translation of their own. -/
def Part.walkRemote (p : Part) (v : Via) (x n : Nat) (w : Bool) : Except (BitVec 4) Xlat :=
  match p.check v with
  | .error e => .error e
  | .ok o =>
    if p.leased v.lease v.obj x n w false then
      .ok { (default : Xlat) with part := v.part, obj := v.obj, gen := v.gen, lease := v.lease, pframe := o.pkg,
                                  n0 := o.rmtobj, cls := 3 }
    else .error 4

/-- The extent of an access's bytes. -/
def Acc.len (a : Acc) : Nat := (a.items.foldl (fun m i => max m (i.off + i.width)) 0) - a.off

/-- Two entries are lines of one access. -/
def Acc.sameAccess (a b : Acc) : Bool :=
  a.uid == b.uid && a.slot == b.slot && a.sigma == b.sigma && a.addr == b.addr && a.wait == b.wait && a.kind == b.kind

/-- The walk of entry `k` of a queue waits. No walk of an access of one line ends before the next bundle of its context has come up
for issue, while that context is on the core: in every run of R324 the bundle behind the refused store issues before the fault is
taken. The lines of one access walk in their order: in every run of R359 the fault names lane 0 (log entry 134). -/
def State.walkWaits (s : State) (c : Nat) (a : Acc) (l : List QEntry) (k : Nat) : Bool :=
  let x := (s.coreAt c).ctx
  (a.items.length ≤ 1 && x.task.uid == a.uid && x.pipe.tried ≤ a.start
    && (match (s.coreAt c).run with
      | .running => true
      | .stopped 3 _ => true
      | _ => false))
  || (l.take k).any fun e => match e with
    | .acc b => b.xl.isNone && a.sameAccess b
    | .fence _ _ => false

/-- R308, R313: the entry at position `k` of queue `q` walks the tables: its translation is cached, or its port fault
raised. -/
def State.walkEntry (s : State) (c q k : Nat) : State :=
  match ((s.coreAt c).queues.get (BitVec.ofNat 2 q))[k]? with
  | some (.acc a) =>
    if a.xl.isSome || s.walkWaits c a ((s.coreAt c).queues.get (BitVec.ofNat 2 q)) k then s
    else
      let set := fun (t : Xlat) (x : Core) =>
        let l := changeAt (x.queues.get (BitVec.ofNat 2 q)) k (QEntry.map fun a => { a with xl := some t })
        { x with queues := x.queues.put (BitVec.ofNat 2 q) l }
      if a.via.kind = 3 then
        match (s.part a.via.part).walkRemote a.via a.off a.len a.kind.writes with
        | .ok t => s.modAt c (set t)
        | .error e => (s.portFault c a e).leaves c q k
      else
        match (s.coreAt c).cached a.via a.off a.kind.writes with
        | some t => s.modAt c (set t)
        | none =>
          match (s.part a.via.part).walk a.via a.off a.len a.kind.writes with
          | .ok t => s.modAt c fun x => { set t x with xcache := t :: x.xcache.take 255 }
          | .error e => (s.portFault c a e).leaves c q k
  | _ => s

/-- R117: the value of fill `k` of a core is installed, unless its line was invalidated. -/
def Core.install (k : Nat) (c : Core) : Core :=
  match c.fills[k]? with
  | none => c
  | some f =>
    let c := { c with fills := dropAt c.fills k }
    if f.live then
      { c with l1g := f.line :: (c.l1g.filter fun x =>
          !(x.part == f.line.part && x.obj == f.line.obj && x.line == f.line.line)).take 2047 }
    else c

/-! ## Values arriving (R48, R108) -/

/-- What came for a lane: the parts of its value, together. -/
def laneValue (got : List (Nat × DWord)) (i : Nat) : DWord :=
  got.foldl (fun v x => if x.1 = i then v ||| x.2 else v) 0

/-- What an interlocked value writes when it arrives, with its FLAGS bits none. -/
def Wait.landing (w : Wait) : Landing :=
  match w.dest with
  | .s r =>
    let v := match w.got with
      | [] => 0
      | (_, v) :: _ => v
    match w.kind with
    | .load sz => .s r (szExtend sz (laneValue w.got 0).toNat)
    | .digest => .s r (w.got.foldl (fun d x => d + x.2) 0)
    | _ => .s r v
  | .v r m => .v r (VReg.gen fun i => (laneValue w.got i).setWidth 32) m

/-- The value of wait `w`, at place `k`, is written to its register and its mark cleared, in one step (R48, R108). -/
def Ctx.arrive (k : Nat) (w : Wait) (x : Ctx) : Ctx :=
  let y := ({ x with pipe := { x.pipe with waits := dropAt x.pipe.waits k } } : Ctx).land
    { land := w.landing, flags := 0, due := 0, mark := true }
  match w.kind with
  | .atomic true _ => { y with pipe := { y.pipe with acquire := false } }
  | _ => y

/-- The values of the waits `l` that came while a context was saved are written, in their order (R211). -/
def Ctx.arrived (x : Ctx) (l : List Wait) : Ctx :=
  l.foldl (fun y w =>
    match y.pipe.waits.findIdx? (fun v => v.id == w.id && v.need == 0) with
    | some k => y.arrive k w
    | none => y) x

/-- The value of wait `k` arrives, after the results that are due in the cycle: an interlocked value counts as issued
with its own bundle, which no bundle that writes its register can follow (R9, R48, R108). An acquire at .quad or wider
empties the L1G (R239). -/
def State.valueArrives (s : State) (c k : Nat) : State :=
  match (s.coreAt c).ctx.pipe.waits[k]? with
  | none => s
  | some w =>
    if w.need ≠ 0 then s
    else
      let s := s.modAt c fun x => { x with ctx := x.landDue.ctx.arrive k w }
      match w.kind with
      | .atomic true sc => s.modAt c fun x => if sc.toNat ≥ 2 then x.dropL1 else x
      | _ => s

end Sys2Proof.Machine
end

