-- ==== Sys2Proof/Machine/Scalar.lean ====
section
/-! DEFINITION. The scalar class (R49 to R55): arithmetic, scratchpad and global accesses, capabilities, system
registers, SEED and DGET, and the accesses to system registers that have a row of their own. -/

namespace Sys2Proof.Machine

open Sys2Proof

/-! ## Arithmetic and logic (R49, R50) -/

/-- A bit as a 64-bit value. -/
def ofBit (b : Bool) : DWord := if b then 1 else 0

/-- An ALU result of latency 1 (R47). -/
def State.alu (s : State) (d : Reg) (v : DWord) : Out := .next (s.resS 1 d v)

/-- R49. -/
def execAdd (d a b : Reg) (s : State) : Out := s.alu d (s.rd.S a + s.rd.S b)
/-- R49. -/
def execAddi (d a : Reg) (imm : BitVec 35) (s : State) : Out := s.alu d (s.rd.S a + imm.signExtend 64)
/-- R49. -/
def execSub (d a b : Reg) (s : State) : Out := s.alu d (s.rd.S a - s.rd.S b)
/-- R49; latency 3. -/
def execMul (d a b : Reg) (s : State) : Out := .next (s.resS 3 d (s.rd.S a * s.rd.S b))
/-- R49; latency 3. -/
def execMulh (d a b : Reg) (s : State) : Out :=
  .next (s.resS 3 d ((BitVec.ofInt 128 (sv (s.rd.S a) * sv (s.rd.S b))).extractLsb' 64 64))
/-- R49; latency 3. -/
def execMulhu (d a b : Reg) (s : State) : Out :=
  .next (s.resS 3 d ((BitVec.ofNat 128 ((s.rd.S a).toNat * (s.rd.S b).toNat)).extractLsb' 64 64))

/-- R50: the quotient of a division. -/
def quotient (sgn : Bool) (a b : DWord) : DWord :=
  if b = 0 then BitVec.allOnes 64
  else if sgn then BitVec.ofInt 64 ((sv a).tdiv (sv b))
  else BitVec.ofNat 64 (a.toNat / b.toNat)

/-- R50: the remainder of a division. -/
def remainder (sgn : Bool) (a b : DWord) : DWord :=
  if b = 0 then a
  else if sgn then BitVec.ofInt 64 ((sv a).tmod (sv b))
  else BitVec.ofNat 64 (a.toNat % b.toNat)

/-- A divide result: its register is marked, and the result clears the mark 16 cycles after issue (R48). -/
def State.divide (s : State) (d : Reg) (v : DWord) : Out :=
  .next (s.modCore fun c =>
    let r : Result := { land := .s d v, flags := 0, due := c.lcyc + 16, mark := true }
    { c with ctx := { c.ctx with pipe :=
        { c.ctx.pipe with inflight := c.ctx.pipe.inflight ++ [r] }.markS d } })

/-- R50. -/
def execDiv (d a b : Reg) (s : State) : Out := s.divide d (quotient true (s.rd.S a) (s.rd.S b))
/-- R50. -/
def execDivu (d a b : Reg) (s : State) : Out := s.divide d (quotient false (s.rd.S a) (s.rd.S b))
/-- R50. -/
def execRem (d a b : Reg) (s : State) : Out := s.divide d (remainder true (s.rd.S a) (s.rd.S b))
/-- R50. -/
def execRemu (d a b : Reg) (s : State) : Out := s.divide d (remainder false (s.rd.S a) (s.rd.S b))
/-- R49. -/
def execAnd (d a b : Reg) (s : State) : Out := s.alu d (s.rd.S a &&& s.rd.S b)
/-- R49. -/
def execAndi (d a : Reg) (imm : BitVec 35) (s : State) : Out := s.alu d (s.rd.S a &&& imm.signExtend 64)
/-- R49. -/
def execOr (d a b : Reg) (s : State) : Out := s.alu d (s.rd.S a ||| s.rd.S b)
/-- R49. -/
def execOri (d a : Reg) (imm : BitVec 35) (s : State) : Out := s.alu d (s.rd.S a ||| imm.signExtend 64)
/-- R49. -/
def execXor (d a b : Reg) (s : State) : Out := s.alu d (s.rd.S a ^^^ s.rd.S b)
/-- R49. -/
def execXori (d a : Reg) (imm : BitVec 35) (s : State) : Out := s.alu d (s.rd.S a ^^^ imm.signExtend 64)
/-- R49. -/
def execShl (d a b : Reg) (s : State) : Out := s.alu d (s.rd.S a <<< ((s.rd.S b).toNat % 64))
/-- R49. -/
def execShli (d a : Reg) (sh : BitVec 6) (s : State) : Out := s.alu d (s.rd.S a <<< sh.toNat)
/-- R49. -/
def execShr (d a b : Reg) (s : State) : Out := s.alu d (s.rd.S a >>> ((s.rd.S b).toNat % 64))
/-- R49. -/
def execShri (d a : Reg) (sh : BitVec 6) (s : State) : Out := s.alu d (s.rd.S a >>> sh.toNat)
/-- R49. -/
def execSra (d a b : Reg) (s : State) : Out := s.alu d ((s.rd.S a).sshiftRight ((s.rd.S b).toNat % 64))
/-- R49. -/
def execSrai (d a : Reg) (sh : BitVec 6) (s : State) : Out := s.alu d ((s.rd.S a).sshiftRight sh.toNat)
/-- R49. -/
def execSlt (d a b : Reg) (s : State) : Out := s.alu d (ofBit ((s.rd.S a).slt (s.rd.S b)))
/-- R49. -/
def execSltu (d a b : Reg) (s : State) : Out := s.alu d (ofBit ((s.rd.S a).ult (s.rd.S b)))
/-- R49. -/
def execSlti (d a : Reg) (imm : BitVec 35) (s : State) : Out :=
  s.alu d (ofBit ((s.rd.S a).slt (imm.signExtend 64)))
/-- R49. -/
def execSeq (d a b : Reg) (s : State) : Out := s.alu d (ofBit (s.rd.S a == s.rd.S b))
/-- R49. -/
def execMin (d a b : Reg) (s : State) : Out :=
  s.alu d (if (s.rd.S a).slt (s.rd.S b) then s.rd.S a else s.rd.S b)
/-- R49. -/
def execMax (d a b : Reg) (s : State) : Out :=
  s.alu d (if (s.rd.S a).slt (s.rd.S b) then s.rd.S b else s.rd.S a)
/-- R49. -/
def execMinu (d a b : Reg) (s : State) : Out :=
  s.alu d (if (s.rd.S a).ult (s.rd.S b) then s.rd.S a else s.rd.S b)
/-- R49. -/
def execMaxu (d a b : Reg) (s : State) : Out :=
  s.alu d (if (s.rd.S a).ult (s.rd.S b) then s.rd.S b else s.rd.S a)
/-- R49: the old Sd selects. -/
def execSel (d a b : Reg) (s : State) : Out := s.alu d (if s.rd.S d ≠ 0 then s.rd.S a else s.rd.S b)

/-- The number of leading zero bits of a 64-bit value. -/
def clz64 (x : DWord) : Nat := 64 - bitLen x.toNat

/-- The number of trailing zero bits of the low `n` bits from bit `i`. -/
def ctzFrom (x : DWord) : Nat → Nat → Nat
  | 0, _ => 0
  | n + 1, i => if x.getLsbD i then 0 else 1 + ctzFrom x n (i + 1)

/-- The number of one bits among bits `0` to `n - 1`. -/
def popc {w : Nat} (x : BitVec w) : Nat → Nat
  | 0 => 0
  | n + 1 => (if x.getLsbD n then 1 else 0) + popc x n

/-- R49. -/
def execClz (d a : Reg) (s : State) : Out := s.alu d (BitVec.ofNat 64 (clz64 (s.rd.S a)))
/-- R49. -/
def execCtz (d a : Reg) (s : State) : Out := s.alu d (BitVec.ofNat 64 (ctzFrom (s.rd.S a) 64 0))
/-- R49. -/
def execPopc (d a : Reg) (s : State) : Out := s.alu d (BitVec.ofNat 64 (popc (s.rd.S a) 64))
/-- R49. -/
def execLi (d : Reg) (imm : BitVec 35) (s : State) : Out := s.alu d (imm.signExtend 64)
/-- R49. -/
def execMov (d a : Reg) (s : State) : Out := s.alu d (s.rd.S a)

/-! ## Scratchpad (R52) -/

/-- R52: the fault of a scratchpad access of `w` bytes at `a`, range before alignment. -/
def spadFault (a w : Nat) : Option Byte :=
  if a + w > spadSize then some 0x05 else if a % w ≠ 0 then some 0x04 else none

/-- The aligned words of `n` bytes from `a` include a lost one (R369). -/
def Core.lostIn (c : Core) (a n : Nat) : Bool := c.lost.any fun w => w * 4 < a + n && a < w * 4 + 4

/-- `n` bytes of the scratchpad from `a`. -/
def Core.spadRead (c : Core) (a n : Nat) : Nat := c.spad.readLE a n

/-- A store to the scratchpad; a lost word that it covers is lost no more (R369). -/
def Core.spadWrite (c : Core) (a n v : Nat) : Core :=
  { c with spad := c.spad.writeLE a v n, lost := c.lost.filter fun w => !(a ≤ w * 4 && w * 4 + 4 ≤ a + n) }

/-- Some bytes of a word replaced. -/
def wordMerge (old new : Word) (m : BitVec 4) : Word :=
  BitVec.ofNat 32 (((upTo 4).map fun i =>
    (if m.getLsbD i then new else old).toNat / 2 ^ (8 * i) % 256 * 2 ^ (8 * i)).foldl (· + ·) 0)

/-- The scratchpad after words of which some bytes are stored. -/
def Core.storeLate (l : List (Nat × Word × BitVec 4)) (c : Core) : Core :=
  l.foldl (fun c x => c.spadWrite x.1 4 (wordMerge (c.spad.word x.1) x.2.1 x.2.2).toNat) c

/-- R30: the inserted cycle of a split bundle: the scratchpad stores of its second half perform. -/
def Core.insertedCycle (c : Core) : Core :=
  let c := c.storeLate c.ctx.pipe.late
  { c with ctx := { c.ctx with pipe := { c.ctx.pipe with late := [] } } }

/-- R369: a sequencer read of a lost scratchpad word: a precise terminal fault. -/
def State.lostRead (s : State) (info : DWord) : State := s.takeTerminal 0x13 false s.rd.ctx.pc info

/-- R52. -/
def execLds (d a : Reg) (imm : BitVec 32) (sz : BitVec 3) (s : State) : Out :=
  let x := spadAddr (s.rd.S a) imm
  match spadFault x (szBytes sz) with
  | some f => .next (s.fault f (memInfo s.slot 0 0 0 x))
  | none =>
    if s.rd.lostIn x (szBytes sz) then .next (s.lostRead (memInfo s.slot 0 0 0 x))
    else .next (s.resS 6 d (szExtend sz (s.rd.spadRead x (szBytes sz))))

/-- R52. -/
def execSts (d a : Reg) (imm : BitVec 32) (sz : BitVec 3) (s : State) : Out :=
  let x := spadAddr (s.rd.S a) imm
  let n := szBytes sz
  match spadFault x n with
  | some f => .next (s.fault f (memInfo s.slot 0 0 0 x))
  | none =>
    .next ((s.modCore fun c => c.spadWrite x n (s.rd.S d).toNat).folded
      ((Wr.mk x n (s.rd.S d).toNat).item placeSpad s.sigma 0))

/-! ## Global memory (R53) -/

/-- R53. -/
def execLdg (d a : Reg) (cap : CReg) (imm : BitVec 26) (sz : BitVec 3) (s : State) : Out :=
  let o := globOff (s.rd.S a) imm
  let k := s.rd.C cap
  match checkGlob k o (szBytes sz) 0 loadBad with
  | some (f, r) => .next (s.fault f (memInfo s.slot 0 cap.toNat r (offLow o)))
  | none =>
    let l := byLine (Item.parts { lane := 0, off := k.base + o.toNat, width := szBytes sz, data := 0 })
    .next ((s.await (.s d) (.load sz) l.length []).loadLines cap s.fresh o l)

/-- R53. -/
def execStg (d a : Reg) (cap : CReg) (imm : BitVec 26) (sz : BitVec 3) (s : State) : Out :=
  let o := globOff (s.rd.S a) imm
  let k := s.rd.C cap
  match checkGlob k o (szBytes sz) 1 storeBad with
  | some (f, r) => .next (s.fault f (memInfo s.slot 0 cap.toNat r (offLow o)))
  | none =>
    let l := byLine (Item.parts { lane := 0, off := k.base + o.toNat, width := szBytes sz, data := s.rd.S d })
    .next ((s.storeLines cap s.sigma o 0 l).folded 0)

/-! ## Capabilities (R54) -/

/-- A capability result of latency 1. -/
def State.capRes (s : State) (d : CReg) (v : Cap) : Out := .next (s.result 1 (.c d v))

/-- R54. -/
def execCnarrow (d a : CReg) (b : Reg) (s : State) : Out :=
  let k := s.rd.C a
  let o := sv (s.rd.S b)
  let len := (s.rd.S (b + 1)).toNat
  if o < 0 || o + 64 * len > k.len then .next (s.fault 0x03 (memInfo s.slot 0 a.toNat 1 (offLow o)))
  else s.capRes d (Cap.mk k.obj k.gen k.rights.toNat k.kind (k.base + o.toNat) len)

/-- R54. -/
def execCrights (d a : CReg) (mask : BitVec 8) (s : State) : Out :=
  let k := s.rd.C a
  s.capRes d (k.extractLsb' 92 36 ++ ((k.rights &&& mask) ++ k.extractLsb' 0 84))

/-- R54. -/
def execCget (d : Reg) (a : CReg) (sel : BitVec 3) (s : State) : Out :=
  let k := s.rd.C a
  s.alu d (BitVec.ofNat 64 (match sel.toNat with
    | 0 => k.obj
    | 1 => k.gen
    | 2 => k.rights.toNat
    | 3 => k.kind
    | 4 => k.base
    | _ => k.len / 64))

/-- R54. -/
def execCmovc (d a : CReg) (s : State) : Out := s.capRes d (s.rd.C a)

/-! ## System registers (R43, R55) -/

/-- R247: WSWIN as read at cycle `cyc`. -/
def wswin (group : BitVec 4) (cyc : Nat) : DWord :=
  let x := cyc % 32768
  let w := 2048 * group.toNat
  let inwin := w ≤ x && x < w + 384
  let nxt := (w + 32768 - x) % 32768
  BitVec.ofNat 64 (group.toNat + (if nxt = 0 then 32768 else nxt) % 2 ^ 16 * 2 ^ 16
    + (if inwin then (w + 384 - x) * 2 ^ 32 + 2 ^ 41 else 0))

/-- R43: what SGET reads of register `n` in the bundle of the current core. -/
def State.sysRead (s : State) (n : Nat) : DWord :=
  let c := s.rd
  let y := c.ctx.sys
  match n with
  | 0x000 => y.flags.setWidth 64
  | 0x001 => y.roundctl
  | 0x002 => y.fmt0
  | 0x003 => y.fmt1
  | 0x008 => y.trapcause
  | 0x009 => y.trappc
  | 0x00A => y.trapinfo
  | 0x00B => y.trapvec
  | 0x010 => BitVec.ofNat 64 s.cyc
  | 0x011 => BitVec.ofNat 64 (s.cyc / 1024)
  | 0x012 => wswin y.group s.cyc
  | 0x018 => y.partid.setWidth 64
  | 0x019 => y.ctxid.setWidth 64
  | 0x01A => s.logctl c.ctx
  | 0x01B => c.engmap
  | 0x01C => y.mode.setWidth 64
  | 0x01D => y.hintdrop
  | n => if n < 0x028 then y.evsel.get (BitVec.ofNat 3 n) else y.evcnt.get (BitVec.ofNat 3 n)

/-- R159: a valid format pair, as bits 7:0 of an FMT register. -/
def fmtValid (v : DWord) : Bool :=
  let a := (v.extractLsb' 0 4).toNat
  let b := (v.extractLsb' 4 4).toNat
  (a = 2 && b = 2) || (a = 1 && b = 1) || ((a = 3 || a = 4) && (b = 3 || b = 4)) || (a = 5 && b = 5)
    || (a = 7 && (b = 7 || b = 8)) || (a = 8 && b = 8)

/-- R55, R69, R159, R203, R276, R351: a value that register `n` refuses, with the illegal-encoding trap, reason 4. -/
def sysRefuses (n : Nat) (v : DWord) : Bool :=
  match n with
  | 0x001 => (v.extractLsb' 0 3).toNat ≥ 6
  | 0x002 => !fmtValid v
  | 0x003 => !fmtValid v
  | 0x008 => v.extractLsb' 10 54 ≠ 0
  | 0x009 => v.extractLsb' 48 16 ≠ 0
  | 0x00B => v.extractLsb' 49 15 ≠ 0 || v.extractLsb' 0 2 ≠ 0
  | 0x01A => (v.extractLsb' 24 5).toNat < 10 || (v.extractLsb' 24 5).toNat > 30
      || (v.extractLsb' 32 6).toNat < 16 || (v.extractLsb' 32 6).toNat > 40
  | n => 0x020 ≤ n && n < 0x028 && (v.extractLsb' 0 8).toNat > 15

/-- Register `n` with value `v` written: the writable fields take it, and a 1 clears a W1C bit (R43, R44). -/
def Sys.write (y : Sys) (n : Nat) (v : DWord) : Sys :=
  match n with
  | 0x000 => { y with flags := y.flags &&& ~~~(v.setWidth 6) }
  | 0x001 => { y with roundctl := v &&& 0xFFFFFFFF0000000F }
  | 0x002 => { y with fmt0 := v &&& 0x1FF }
  | 0x003 => { y with fmt1 := v &&& 0x1FF }
  | 0x008 => { y with trapcause := v }
  | 0x009 => { y with trappc := v }
  | 0x00A => { y with trapinfo := v }
  | 0x00B => { y with trapvec := v }
  | 0x012 => { y with group := v.setWidth 4 }
  | 0x01A => { y with logctl := v &&& 0x3F3FFFFFFF }
  | 0x01D => { y with hintdrop := if v = 0 then y.hintdrop else 0 }
  | n =>
    if 0x020 ≤ n && n < 0x028 then
      let k := BitVec.ofNat 3 n
      { y with evsel := y.evsel.put k ((v &&& 0x3FF) ||| (y.evsel.get k &&& 0x400 &&& ~~~v)) }
    else if 0x028 ≤ n && n < 0x030 then { y with evcnt := y.evcnt.put (BitVec.ofNat 3 n) v }
    else y

/-- R166: an FMT write that changes the pair of an array not drained. -/
def Ctx.fmtHeld (x : Ctx) (n : Bool) (v : DWord) : Bool :=
  (v.extractLsb' 0 8 ≠ (if n then x.sys.fmt1 else x.sys.fmt0).extractLsb' 0 8)
    && !(if n then x.drained1 else x.drained0)

/-- A write of system register `n`: refused values trap with reason 4, which comes first within a slot (log entry 158), and a held
format change with the format-change fault; otherwise the register takes the value. -/
def State.sysWrite (s : State) (n : Nat) (v : DWord) : State :=
  if sysRefuses n v then s.fault 0x01 (trapInfo26 s.slot 4 none 0 0)
  else if (n = 2 || n = 3) && s.rd.ctx.fmtHeld (n = 3) v then
    s.fault 0x07 (memInfo s.slot (n - 2) 0 0 0)
  else s.modSys fun y => y.write n v

/-- R55. -/
def execSget (d : Reg) (n : BitVec 12) (s : State) : Out := s.alu d (s.sysRead n.toNat)

/-- R55. -/
def execSset (n : BitVec 12) (a : Reg) (s : State) : Out := .next (s.sysWrite n.toNat (s.rd.S a))

/-- R294, step 5: the next SEED of a task among the failed run's records. -/
def Launch.oldSeed (l : Launch) (t : BitVec 56) : Option LogRec :=
  if l.serial then l.oldLog.find? fun e => e.typ == 7 && e.sub == 0 && e.task == t else none

/-- R55, R286: SEED draws from the entropy source, and its record is appended; in replay it takes the record's value,
and in serialised re-execution that of the failed run. While the log holds it, its bundle is held (R282, R283). -/
def execSeed (d : Reg) (s : State) : Out :=
  let x := s.core.ctx
  let old := (s.launchAt x.sys.partid.toNat x.task.launch).bind fun l => l.oldSeed x.task.lidx
  let v := match old with
    | some e => e.w3
    | none => Config.entropy s.fresh
  match s.newId.turnOf x (LogRec.of 7 0 s.core.lid.toNat x.task.lidx 0 0 0 v) (some x.task.seeds) false with
  | .held s => .next (s.park .replay)
  | .go s r =>
    let w := match r with
      | some e => e.w3
      | none => v
    let s := match old with
      | some e => s.modLaunch x.sys.partid.toNat x.task.launch fun l => { l with oldLog := l.oldLog.erase e }
      | none => s
    .next ((s.await (.s d) .seed 0 [(0, w)]).modTask fun t => { t with seeds := t.seeds + 1 })

/-- The stores and atomics of the context with dispatch number `uid` that have not performed at their homes, whichever core issued
them (R55, R58). -/
def State.storesPending (s : State) (uid : Nat) : Nat :=
  (s.cores.toList.map fun k => (k.queues.toList.map fun l => l.countP fun e => match e with
    | .acc a => a.uid == uid && a.kind.writes
    | _ => false).foldl (· + ·) 0).foldl (· + ·) 0
  + s.fab.reqs.countP fun r => r.op.isNone && r.acc.uid == uid && r.acc.kind.writes && !r.done

/-- R55, R290: DGET's value is the digest so far with the items of every store issued before it, as they perform. -/
def execDget (d : Reg) (s : State) : Out :=
  .next (s.await (.s d) .digest (s.storesPending s.core.ctx.task.uid) [(0, s.core.ctx.task.digest)])

/-! ## Accesses to system registers that are steps of their own -/

/-- A write by a context that is not privileged to a P register: the illegal-encoding trap, reason 7 (R43). -/
def State.sysWriteP (s : State) (n : Nat) (v : DWord) : State :=
  if s.rd.ctx.sys.priv then s.sysWrite n v else s.fault 0x01 (trapInfo26 s.slot 7 none 0 0)

/-- R44: a W1C write of FLAGS. -/
def execFlagsWrite (v : DWord) (s : State) : Out := .next (s.sysWrite 0x000 v)
/-- R43: any nonzero value clears HINTDROP. -/
def execHintdropWrite (v : DWord) (s : State) : Out := .next (s.sysWrite 0x01D v)
/-- R69. -/
def execRoundctlWrite (v : DWord) (s : State) : Out := .next (s.sysWrite 0x001 v)
/-- R158, R166. -/
def execFmtWrite (n : Bool) (v : DWord) (s : State) : Out := .next (s.sysWrite (if n then 0x003 else 0x002) v)
/-- R247: an SGET of WSWIN computes its fields and leaves the register; an SSET writes GROUP. -/
def execWswinAccess (set : Option DWord) (s : State) : Out :=
  match set with
  | none => .next s
  | some v => .next (s.sysWrite 0x012 v)
/-- R276. -/
def execLogctlWrite (v : DWord) (s : State) : Out := .next (s.sysWriteP 0x01A v)
/-- R351. -/
def execEvselWrite (n : BitVec 3) (v : DWord) (s : State) : Out := .next (s.sysWrite (0x020 + n.toNat) v)
/-- R203. -/
def execTrapRegisterWrite (n : BitVec 2) (v : DWord) (s : State) : Out := .next (s.sysWriteP (0x008 + n.toNat) v)

end Sys2Proof.Machine
end

