-- ==== Sys2Proof/Machine/Ring.lean ====
section
/-! DEFINITION. Ring objects: the descriptor of R143, and the ring steps of R144 to R147, each one indivisible. -/

namespace Sys2Proof.Machine

open Sys2Proof

/-- A ring descriptor as read (R143). -/
structure RingD where
  base   : Nat
  slotsz : Nat
  count  : Nat
  wp     : Nat
  rp     : Nat
  inuse  : Nat
  full   : Nat
  deriving DecidableEq, Repr, Inhabited

/-- The scratchpad address of descriptor `n` (R143). -/
def ringAddr (n : Nat) : Nat := 0xFFF00 + 32 * n

/-- Descriptor `n` of a core. -/
def Core.ringD (c : Core) (n : Nat) : RingD :=
  let a := ringAddr n
  { base := c.spadRead a 4, slotsz := c.spadRead (a + 4) 4, count := c.spadRead (a + 8) 1,
    wp := c.spadRead (a + 9) 1, rp := c.spadRead (a + 10) 1, inuse := c.spadRead (a + 16) 8,
    full := c.spadRead (a + 24) 8 }

/-- R144. -/
def RingD.valid (d : RingD) : Bool :=
  d.base < 2 ^ 20 && d.slotsz != 0 && d.slotsz % 4 == 0 && 1 ≤ d.count && d.count ≤ 64 && d.wp < d.count
    && d.rp < d.count && d.base + d.slotsz * d.count ≤ 2 ^ 20

/-- Bit `i` of a slot map is set. -/
def slotBit (m i : Nat) : Bool := m.testBit i

/-- A slot map with bit `i` set. -/
def slotSet (m i : Nat) : Nat := if m.testBit i then m else m + 2 ^ i

/-- A slot map with bit `i` clear. -/
def slotClear (m i : Nat) : Nat := if m.testBit i then m - 2 ^ i else m

/-- R148: TRAPINFO of a ring fault. -/
def ringInfo (r : Ring) (reason : Nat) : DWord := BitVec.ofNat 64 (r.toNat + reason * 16)

/-- The scratchpad address of slot `i`. -/
def RingD.slotAddr (d : RingD) (i : Nat) : Nat := d.base + i * d.slotsz

/-- The event bit of the core's context is set (R259). -/
def Core.wake (c : Core) : Core := { c with ctx := { c.ctx with pipe := { c.ctx.pipe with event := true } } }

/-- An engine, multicast or hoist write lands in the scratchpad (R259). -/
def Core.engWrite (c : Core) (a n v : Nat) : Core := (c.spadWrite a n v).wake

/-- R145: a landing of `ext` bytes on ring `n` claims its slot: the slot and its address, or the error kind of the
suppressed landing, whose overrun is recorded. -/
def Core.ringClaim (c : Core) (n ext : Nat) : Except (BitVec 4) (Nat × Nat) × Core :=
  let a := ringAddr n
  let d := c.ringD n
  if c.lostIn a 32 then (.error 6, c)
  else if d.valid && d.base % 4 == 0 && !slotBit d.inuse d.wp && ext ≤ d.slotsz then
    (.ok (d.wp, d.slotAddr d.wp),
      (c.engWrite (a + 16) 8 (slotSet d.inuse d.wp)).engWrite (a + 9) 1 ((d.wp + 1) % d.count))
  else
    (.error 2, (c.engWrite (a + 11) 1 (slotSet (c.spadRead (a + 11) 1) 0)).engWrite (a + 12) 4
      (c.spadRead (a + 12) 4 + 1))

/-- R145: the fill step of the slot that a claim took. -/
def Core.ringFill (c : Core) (n slot : Nat) : Core :=
  c.engWrite (ringAddr n + 24) 8 (slotSet (c.ringD n).full slot)

/-- R147, R330: slot RP of the descriptor `d`, as read, is released: RP, INUSE and FULL are written. -/
def Core.ringRelease (c : Core) (n : Nat) (d : RingD) : Core :=
  let a := ringAddr n
  ((c.spadWrite (a + 10) 1 ((d.rp + 1) % d.count)).spadWrite (a + 16) 8 (slotClear d.inuse d.rp)).spadWrite
    (a + 24) 8 (slotClear d.full d.rp)

/-- R330: an `xsub.out` feeds ring `r`: no XUNSUB has ended it. -/
def Core.feedsOut (c : Core) (r : Ring) : Bool :=
  c.ctx.ops.any fun o => match o.kind with
    | .sub x => x.out && x.ring == r.toNat && x.stop.isNone
    | _ => false

/-- R146, R330: an AWAITF of ring `r` is held: the descriptor is valid and its read slot is not filled, or, while an
`xsub.out` feeds it, its write slot is still filled. -/
def State.awaitfHeld (s : State) (r : Ring) : Bool :=
  let d := s.rd.ringD r.toNat
  !s.rd.lostIn (ringAddr r.toNat) 32 && d.valid &&
    (if s.rd.feedsOut r then slotBit d.full d.wp else !slotBit d.full d.rp)

/-- R146, R330. -/
def execAwaitf (d : Reg) (r : Ring) (s : State) : Out :=
  let x := s.rd.ringD r.toNat
  if s.rd.lostIn (ringAddr r.toNat) 32 then .next (s.lostRead (memInfo s.slot 0 0 0 (ringAddr r.toNat)))
  else if !x.valid then .next (s.fault 0x06 (ringInfo r 1))
  else if s.awaitfHeld r then .next (s.park .awaitf)
  else if s.rd.feedsOut r then
    .next ((s.modCore fun c => c.spadWrite (ringAddr r.toNat + 16) 8 (slotSet x.inuse x.wp)).resS 1 d
      (BitVec.ofNat 64 (x.slotAddr x.wp)))
  else .next (s.resS 1 d (BitVec.ofNat 64 (x.slotAddr x.rp)))

/-- R330: the write slot of the descriptor `d`, as read, is filled. -/
def Core.ringProduce (c : Core) (n : Nat) (d : RingD) : Core :=
  let a := ringAddr n
  (c.spadWrite (a + 24) 8 (slotSet d.full d.wp)).spadWrite (a + 9) 1 ((d.wp + 1) % d.count)

/-- R147, R330. -/
def execRelslot (r : Ring) (s : State) : Out :=
  let x := s.rd.ringD r.toNat
  if s.rd.lostIn (ringAddr r.toNat) 32 then .next (s.lostRead (memInfo s.slot 0 0 0 (ringAddr r.toNat)))
  else if !x.valid then .next (s.fault 0x06 (ringInfo r 1))
  else if s.rd.feedsOut r then
    (if slotBit x.inuse x.wp && !slotBit x.full x.wp then .next (s.modCore fun c => c.ringProduce r.toNat x)
     else .next (s.fault 0x06 (ringInfo r 2)))
  else if !slotBit x.full x.rp then .next (s.fault 0x06 (ringInfo r 2))
  else .next (s.modCore fun c => c.ringRelease r.toNat x)

end Sys2Proof.Machine
end

