-- ==== Sys2Proof/Machine/Control.lean ====
section
/-! DEFINITION. The control class on one core: branches (R56, R57), the waits WAITW, TWAIT and YIELD (R142, R124,
R259), DRAIN and FENCE (R126, R127), SAFEPT (R215), and TRAP, SVC and ERET (R208). -/

namespace Sys2Proof.Machine

open Sys2Proof

/-! ## Branches (R56, R57) -/

/-- R7: no effect. -/
def execNop (s : State) : Out := .next s

/-- The context continues at `pc` after its bundle. -/
def State.jump (s : State) (pc : BitVec 48) : State := s.modCtx fun x => { x with npc := pc }

/-- R56: the target of a PC-relative branch. -/
def State.target (s : State) {w : Nat} (imm : BitVec w) : BitVec 48 := s.rd.ctx.pc + imm.signExtend 48 * 4

/-- R56. -/
def execBr (imm : BitVec 47) (s : State) : Out := .next (s.jump (s.target imm))

/-- R56: the condition of BC. -/
def branchIf (c : BitVec 3) (a b : DWord) : Bool :=
  match c.toNat with
  | 0 => a == b
  | 1 => a != b
  | 2 => a.slt b
  | 3 => !a.slt b
  | 4 => a.ult b
  | _ => !a.ult b

/-- R56. -/
def execBc (imm : BitVec 32) (a b : Reg) (c : BitVec 3) (s : State) : Out :=
  .next (if branchIf c (s.rd.S a) (s.rd.S b) then s.jump (s.target imm) else s)
/-- R56. -/
def execBz (imm : BitVec 41) (a : Reg) (s : State) : Out :=
  .next (if s.rd.S a = 0 then s.jump (s.target imm) else s)
/-- R56. -/
def execBnz (imm : BitVec 41) (a : Reg) (s : State) : Out :=
  .next (if s.rd.S a ≠ 0 then s.jump (s.target imm) else s)
/-- R56. -/
def execJr (a : Reg) (s : State) : Out := .next (s.jump ((s.rd.S a).setWidth 48))
/-- R56: S63 takes the offset of the next bundle in sequence. -/
def execCall (imm : BitVec 47) (s : State) : Out :=
  .next ((s.resS 1 63 (s.rd.ctx.npc.setWidth 64)).jump (s.target imm))
/-- R56. -/
def execRet (s : State) : Out := .next (s.jump ((s.rd.S 63).setWidth 48))
/-- R56, R57. -/
def execLoop (imm : BitVec 41) (a : Reg) (s : State) : Out :=
  let v := s.rd.S a - 1
  let s := s.resS 1 a v
  .next (if v ≠ 0 then s.jump (s.target imm) else s)

/-! ## Waits -/

/-- R142: the condition of WAITW on the word. -/
def waitIf (c : BitVec 3) (w b : DWord) : Bool :=
  match c.toNat with
  | 0 => w == b
  | 1 => w != b
  | _ => !w.ult b

/-- R142: the word that a WAITW reads. -/
def State.waitWord (s : State) (a : Reg) : DWord := BitVec.ofNat 64 (s.rd.spadRead (s.rd.S a).toNat 8)

/-- R142: a WAITW is held: its address passes the checks and its condition fails. -/
def State.waitwHeld (s : State) (a b : Reg) (c : BitVec 3) : Bool :=
  let x := (s.rd.S a).toNat
  (spadFault x 8).isNone && !s.rd.lostIn x 8 && !waitIf c (s.waitWord a) (s.rd.S b)

/-- R142. -/
def execWaitw (a b : Reg) (c : BitVec 3) (s : State) : Out :=
  let x := (s.rd.S a).toNat
  match spadFault x 8 with
  | some f => .next (s.fault f (memInfo s.slot 0 0 0 x))
  | none =>
    if s.rd.lostIn x 8 then .next (s.lostRead (memInfo s.slot 0 0 0 x))
    else if s.waitwHeld a b c then .next (s.park .waitw)
    else .next s

/-- R124. -/
def execTwait (t : Tok) (s : State) : Out :=
  let e := s.rd.ctx.toks.get t
  if e.pending then .next (s.park .twait)
  else if e.err ≠ 0 then .next (s.tokenError t)
  else .next s

/-- R259: the bit that a YIELD waits for is clear. -/
def State.yieldHeld (s : State) (tick : Bool) : Bool :=
  !(if tick then s.rd.ctx.pipe.tick else s.rd.ctx.pipe.event)

/-- R259: a YIELD that issues clears its bit; events before a task's first YIELD do not count for it. -/
def execYield (tick : Bool) (s : State) : Out :=
  if !s.rd.ctx.pipe.yielded then
    .next ((s.modPipe fun p => { p with yielded := true, event := false, tick := false }).park .yield)
  else if s.yieldHeld tick then .next (s.park .yield)
  else .next (s.modPipe fun p => if tick then { p with tick := false } else { p with event := false })

/-! ## Ordering -/

/-- R126: the bundle issues, and the sequencer then parks until the accesses of the core have performed. -/
def execDrain (sc : Scope) (s : State) : Out :=
  .next (if sc = 0 then s else s.modPipe fun p => { p with drain := some sc })

/-- R127: a marker joins the tail of all four queues. -/
def execFence (sc : Scope) (s : State) : Out :=
  .next (if sc = 0 then s
    else s.newId.modCore fun c =>
      ({ c with queues := c.queues.map fun l => l ++ [.fence s.fresh sc] } : Core).popFences)

/-! ## Safe points and traps -/

/-- R213: the results of the shadow buffer count from the cycle in which the first bundle after a resume issues. -/
def Core.unshelve (c : Core) : Core :=
  let p := c.ctx.pipe
  { c with ctx := { c.ctx with pipe := { p with
      inflight := p.inflight ++ p.shadow.map fun r => { r with due := r.due + c.lcyc }, shadow := [] } } }

/-- R206, item 3, R217, R218: what is pending at a safe point is taken before its bundle issues: the code-revoked
fault, or a pre-emption, which stops the context with its PC at the bundle; `live` is the list of the safe point. Results
that a quick stop had shelved are on their way again. -/
def State.safePoint (s : State) (live : Live) : Option State :=
  let x := s.core.ctx
  if x.pipe.accepted then none
  else if x.task.revoked then some (s.takeTerminal 0x15 false x.pc 0)
  else match x.pipe.safeReq with
    | some w => some (s.modCore fun c =>
        let c := c.unshelve
        { c with run := .stopped w (some live), ctx :=
          { c.ctx with pipe := { c.ctx.pipe with trapped := true, park := .none, safeReq := none, accept := none, refused := none } } })
    | none => none

/-- R216: live-state list `n` of the current context's code object. -/
def State.liveList (s : State) (n : Nat) : Live :=
  match s.launchAt s.core.pid s.core.ctx.task.launch with
  | some l => (look l.lives n).getD default
  | none => default

/-- R215: nothing, unless an event is pending for the context. The hang count starts again (R269). -/
def execSafept (n : BitVec 35) (s : State) : Out :=
  match s.safePoint (s.liveList n.toNat) with
  | some t => .next t
  | none => .next (s.modPipe fun p => { p with hang := 0 })

/-- R208: the software trap, taken once the rest of the bundle has performed, with TRAPPC at the next bundle. -/
def execTrap (n : BitVec 9) (s : State) : Out := .next (s.takeTrap 0x10 (n.setWidth 64) s.rd.ctx.npc)

/-- R208: the request goes to Bamosh with n and S1 to S8 as read at issue; the bundle after is held until S1 is
answered. -/
def execSvc (n : BitVec 9) (s : State) : Out :=
  .next (s.modPipe fun p =>
    { p with svc := some (n.setWidth 64 :: (upTo 8).map fun i => s.rd.S (BitVec.ofNat 6 (i + 1))) })

/-- R208: a context without privilege takes the illegal-encoding trap, reason 7 (R40). -/
def execEret (s : State) : Out :=
  if s.rd.ctx.sys.priv then .next s.returnFromTrap else .next (s.fault 0x01 (trapInfo26 s.slot 7 none 0 0))

end Sys2Proof.Machine
end

