-- ==== Sys2Proof/Machine/Atomics.lean ====
section
/-! DEFINITION. Atomics (R235 to R242): the issue of the nine forms, the scope checker at the home, and the steps
ACCEPT, ATOMIC_PERFORM and ACQUIRE_DONE. -/

namespace Sys2Proof.Machine

open Sys2Proof

/-! ## Accesses outstanding (R126, R239, R240) -/

/-- Some access of the core that issued before the current bundle has not performed: a non-remote one, or, with
`remote`, a remote one not completed. -/
def State.outstanding (s : State) (c : Nat) (remote : Bool) : Bool :=
  ((if s.cur.val = c then s.rd else s.coreAt c).queues.toList.any fun l => l.any fun e => match e with
    | .acc a => a.via.kind != 3 || remote
    | .fence _ _ => false)
  || !(if s.cur.val = c then s.rd else s.coreAt c).hits.isEmpty
  || (remote && s.fab.reqs.any fun r => r.core == c && r.op.isNone)

/-- What a DRAIN at scope `sc` waits for is outstanding (R126, R240, R380). -/
def State.drainHeld (s : State) (c : Nat) (sc : Scope) : Bool := sc != 0 && s.outstanding c (sc == 5)

/-! ## Scopes (R240) -/

/-- R240: scope `sc`, taken at core `a` of package `p`, includes core `b` of package `q`. -/
def scopeIncludes (sc p a q b : Nat) : Bool :=
  match sc with
  | 0 => p == q && a == b
  | 1 => p == q && a == b
  | 2 => p == q && a / 4 == b / 4
  | 3 => p == q && a / 80 == b / 80
  | 4 => p == q
  | _ => true

/-- R234: the tag that an acceptance writes. -/
def tagOf (sc core pkg : Nat) : Word := BitVec.ofNat 32 (1 + sc % 8 * 2 + core % 512 * 2 ^ 4 + pkg % 4096 * 2 ^ 13)

/-- R241: the check against a tag: none accepts, or the REASON of the refusal (R242). -/
def scopeCheck (tag : Word) (sc core pkg : Nat) : Option Nat :=
  let ls := (tag.extractLsb' 1 3).toNat
  let lc := (tag.extractLsb' 4 9).toNat
  let lp := (tag.extractLsb' 13 12).toNat
  if !tag.getLsbD 0 then none
  else if !scopeIncludes sc pkg core lp lc then some 1
  else if !scopeIncludes ls lp lc pkg core then some 2
  else none

/-- R242: TRAPINFO of a scope trap. -/
def scopeInfo (slot sc : Nat) (tag : Word) (reason addr : Nat) : DWord :=
  BitVec.ofNat 64 (slot % 8 + sc % 8 * 2 ^ 4 + (tag.extractLsb' 1 3).toNat * 2 ^ 8 + reason * 2 ^ 12
    + (tag.extractLsb' 4 9).toNat * 2 ^ 16 + addr % 2 ^ 32 * 2 ^ 32)

/-! ## Issue (R235 to R239) -/

/-- R236: the kinds an atomic refuses. -/
def atomicBad : List Nat := [2, 5, 4]

/-- R239: the release hold of an atomic stands. -/
def State.releaseHeld (s : State) (w : AtWord) : Bool := w.ord.getLsbD 1 && s.drainHeld s.cur.val w.scope

/-- R241: the refusal of the pending check is raised at the bundle: the scope trap, or the terminal port fault. -/
def State.refuse (s : State) (code : Byte) (info : DWord) : State :=
  let s := s.modPipe fun p => { p with refused := none }
  if code = 0x0E then s.fault code info else s.takeTerminal code false s.rd.ctx.pc info

/-- An atomic at its bundle: its checks, its holds and its check at the home, before which its line leaves the L1G (R115,
R238), and, once accepted, its issue. -/
def State.atomic (s : State) (op : AtOp) (d a b : Reg) (w : AtWord) (nv : DWord) : Out :=
  let o := sv (s.rd.S a) + w.off.toInt
  let k := s.rd.C w.cap
  let n := if w.wide then 8 else 4
  let p := s.core.ctx.pipe
  match checkGlob k o n 3 atomicBad with
  | some (f, r) => .next (s.fault f (memInfo s.slot 0 w.cap.toNat r (offLow o)))
  | none =>
    match p.refused with
    | some (code, info) => .next (s.refuse code info)
    | none =>
      let i : Item := { lane := 0, off := k.base + o.toNat, width := n, data := s.rd.S b }
      let acc := s.access (.atomic op nv w.scope) w.cap [i] (some s.fresh) s.sigma 0 o
      if s.releaseHeld w then .next (s.park .order)
      else if !p.accepted then
        .next (((s.modCore fun c => c.dropLine acc.via.part acc.via.obj acc.line).modPipe fun p =>
          { p with accept := some acc }).park .accept)
      else
        let acq := w.ord.getLsbD 0
        let s := (s.await (.s d) (.atomic acq w.scope) 1 []).submitStore acc w.cap
        let s := s.modPipe fun p => { p with accepted := false, acquire := p.acquire || acq }
        .next ((s.modTask fun t => { t with tied := true }).folded 0)

/-- R237. -/
def execAtadd (d a b : Reg) (w : AtWord) (s : State) : Out := s.atomic .add d a b w 0
/-- R237. -/
def execAtmin (d a b : Reg) (w : AtWord) (s : State) : Out := s.atomic .min d a b w 0
/-- R237. -/
def execAtmax (d a b : Reg) (w : AtWord) (s : State) : Out := s.atomic .max d a b w 0
/-- R237. -/
def execAtand (d a b : Reg) (w : AtWord) (s : State) : Out := s.atomic .and d a b w 0
/-- R237. -/
def execAtor (d a b : Reg) (w : AtWord) (s : State) : Out := s.atomic .or d a b w 0
/-- R237. -/
def execAtxor (d a b : Reg) (w : AtWord) (s : State) : Out := s.atomic .xor d a b w 0
/-- R237. -/
def execAtxchg (d a b : Reg) (w : AtWord) (s : State) : Out := s.atomic .xchg d a b w 0
/-- R237: S(b+1) holds the new value. -/
def execAtcas (d a b : Reg) (w : AtWord) (s : State) : Out := s.atomic .cas d a b w (s.rd.S (b + 1))
/-- R237. -/
def execAtfadd (d a b : Reg) (w : AtWord) (s : State) : Out := s.atomic .fadd d a b w 0

/-! ## Remote homes (R378) -/

/-- R379: two exports of a partition name one object: its homes are theirs in common. -/
def Export.sameHome (e x : Export) : Bool := e.part == x.part && e.pkg == x.pkg && e.obj == x.obj

/-- The export that a remote access reaches. -/
def State.exportAt (s : State) (part lobj pkg robj : Nat) : Option Export :=
  s.fab.exports.find? fun e => e.part == part && e.lobj == lobj && e.pkg == pkg && e.obj == robj

/-- A core holds a context of partition `p`, or a SPAWN has taken it for one. -/
def Core.holds (c : Core) (p : Nat) : Bool := (c.run != .idle || c.spawnAt.isSome) && c.pid == p

/-- R311: a task holds the leases of a set: its context is on a core, or saved. They are released with the last such task. -/
def State.setHeld (s : State) (p set : Nat) : Bool :=
  s.cores.toList.any (fun k => k.holds p && k.ctx.task.lease == set)
    || (s.part p).saves.any fun v => v.ctx.task.lease == set

/-- R378: the grant of an export to `n` bytes from `x` stands: a lease that some task holds names its local object over them, and
is not revoked; what was sent before a revocation performs until its XINV completes (R312). -/
def State.exportHeld (s : State) (e : Export) (x n : Nat) : Bool :=
  let q := s.part e.part
  let under := fun (y : Lease) => q.revoking.any fun r => r.obj == y.obj && r.start < y.start + y.len && y.start < r.start + r.len
  q.sets.any fun l => s.setHeld e.part l.1 && l.2.any fun y =>
    y.valid && (!y.revoked || under y) && y.obj == e.lobj && y.start ≤ x && x + n ≤ y.start + y.len

/-- R382: the reduce group that an export names. -/
def State.groupAt (s : State) (e : Export) : Option GroupDecl :=
  s.fab.groups.find? fun g => g.part == e.part && g.pkg == e.pkg && g.id == e.obj

/-- R378: the checks that PKG makes of an access to `n` bytes from `x`; `held` says that the export's grant stands. -/
def Export.check (e : Export) (held : Bool) (x n : Nat) : Option (BitVec 4) :=
  if !e.valid || !(e.typ == 0 || e.typ == 2) then some 3
  else if e.gen ≠ e.ogen then some 5
  else if x + n > e.size then some 4
  else if !held || !e.ok || x < e.start || x + n > e.start + e.len then some 4
  else if e.lost.any fun l => l * 64 < x + n && x < l * 64 + 64 then some 6
  else none

/-- The exports with the one that satisfies `q` changed. -/
def State.modExport (s : State) (q : Export → Bool) (f : Export → Export) : State :=
  { s with fab := { s.fab with exports := s.fab.exports.map fun e => if q e then f e else e } }

/-! ## ACCEPT, ATOMIC_PERFORM, ACQUIRE_DONE -/

/-- The pending check of core `c` ends: accepted, or refused with a cause. -/
def State.checked (s : State) (c : Nat) (r : Option (Byte × DWord)) : State :=
  s.modAt c fun k => { k with ctx := { k.ctx with pipe :=
    { k.ctx.pipe with accept := none, accepted := r.isNone, refused := r } } }

/-- The refusal of a port check of an atomic (R236). -/
def portRefusal (a : Acc) (e : BitVec 4) : Option (Byte × DWord) :=
  some (kindCause e, memInfo a.slot 0 a.cap (if e = 3 then 3 else 0) a.addr)

/-- The check against a tag, and the tag after it. -/
def scopeVerdict (s : State) (c : Nat) (a : Acc) (sc : Scope) (tag : Word) : Except (Byte × DWord) Word :=
  match scopeCheck tag sc.toNat c s.fab.pod with
  | some r => .error (0x0E, scopeInfo a.slot sc.toNat tag r a.addr)
  | none => .ok (tagOf sc.toNat c s.fab.pod)

/-- R236, R241: the check of an atomic at a home of this package. -/
def State.acceptHome (s : State) (c : Nat) (a : Acc) (sc : Scope) : State :=
  let found := match (s.coreAt c).cached a.via a.off true with
    | some t => Except.ok (t, false)
    | none => ((s.part a.via.part).walk a.via a.off a.len true).map fun t => (t, true)
  match found with
  | .error e => s.checked c (portRefusal a e)
  | .ok (t, new) =>
    let s := if new then s.modAt c fun k => { k with xcache := t :: k.xcache.take 255 } else s
    let l := lineOf (t.phys a.off)
    if s.home.lost.contains l then
      (s.onCtx c a.uid (Ctx.memErr a.via.obj a.off (t.phys a.off))).checked c (portRefusal a 6)
    else match scopeVerdict s c a sc (s.home.tag l) with
      | .error r => s.checked c (some r)
      | .ok tag => (s.modHome fun h => { h with tags := put h.tags l tag }).checked c none

/-- R378, R379, R381: the check of an atomic at its home on another package. -/
def State.acceptRemote (s : State) (c : Nat) (a : Acc) (sc : Scope) : State :=
  match (s.part a.via.part).walkRemote a.via a.off a.len true with
  | .error e => s.checked c (portRefusal a e)
  | .ok t =>
    match s.exportAt a.via.part a.via.obj t.pframe t.n0 with
    | none => s.checked c (portRefusal a 3)
    | some e =>
      match (if (s.groupAt e).isSome then some 3 else e.check (s.exportHeld e a.off a.len) a.off a.len) with
      | some k => s.checked c (portRefusal a k)
      | none =>
        match scopeVerdict s c a sc ((look e.tags (a.off / 64)).getD 0) with
        | .error r => s.checked c (some r)
        | .ok tag => (s.modExport e.sameHome fun x =>
            { x with tags := put x.tags (a.off / 64) tag }).checked c none

/-- R241: the home answers the check of the atomic that core `c` holds. -/
def execAccept (c : Nat) (s : State) : Out :=
  match (s.coreAt c).ctx.pipe.accept with
  | none => .next s
  | some a =>
    match a.kind with
    | .atomic _ _ sc => .next (if a.via.kind = 3 then s.acceptRemote c a sc else s.acceptHome c a sc)
    | _ => .next s

/-- R237, R244: the first atomic of queue `q` performs, where rule 3 of R118 lets it. -/
def execAtomicPerform (c q : Nat) (s : State) : Out :=
  match ((s.coreAt c).queues.get (BitVec.ofNat 2 q)).findIdx? (fun e => match e with
      | .acc a => (match a.kind with
        | .atomic _ _ _ => true
        | _ => false)
      | _ => false) with
  | some k => .next (s.queuePerform c q k true)
  | none => .next s

/-- R239: the old value of an acquire has arrived. -/
def execAcquireDone (c : Nat) (s : State) : Out :=
  match (s.coreAt c).ctx.pipe.waits.findIdx? (fun w => match w.kind with
      | .atomic acq _ => acq && w.need == 0
      | _ => false) with
  | some k => .next (s.valueArrives c k)
  | none => .next s

/-! ## Steps of the core (R117) -/

/-- R117, R118: entry `k` of queue `q` of core `c` performs, an atomic excepted; number 4 names the loads that a FENCE holds
(R127). -/
def execQueuePerform (c q k : Nat) (s : State) : Out :=
  .next (if q = 4 then (s.performHit c k).passFences c ((s.coreAt c).hits.length + 1) else s.queuePerform c q k false)
/-- R48, R108: the value of wait `k` of core `c` arrives. -/
def execValueArrives (c k : Nat) (s : State) : Out := .next (s.valueArrives c k)
/-- R115, R117: the value of fill `k` is installed, unless its line was invalidated after the load issued. -/
def execFill (c k : Nat) (s : State) : Out := .next (s.modAt c fun x => x.install k)
/-- R115: line `k` of the L1G is evicted. -/
def execEvict (c k : Nat) (s : State) : Out := .next (s.modAt c fun x => { x with l1g := dropAt x.l1g k })
/-- R9, R47: every due result of core `c` is written, a divide's excepted. -/
def execResultWrite (c : Nat) (s : State) : Out :=
  .next (s.modAt c fun x => { x with ctx := x.ctx.landDue x.now fun r => !r.mark })
/-- R48: a divide's result is written 16 cycles after its issue, with its mark cleared. -/
def execDivideResult (c : Nat) (s : State) : Out :=
  .next (s.modAt c fun x => { x with ctx := x.ctx.landDue x.now fun r => r.mark })

end Sys2Proof.Machine
end

