-- ==== Sys2Proof/Machine/Engine.lean ====
section
/-! DEFINITION. Engine operations (R116, R117, R121 to R123): tokens at issue, an operation's reach into global
memory, its failure, and its partial digest. -/

namespace Sys2Proof.Machine

open Sys2Proof

/-! ## Tokens (R121, R122) -/

/-- The tokens of an engine slot, produced first. -/
def gateToks (t : Tok) (l : List Tok) : List Tok := t :: l

/-- Some of the tokens is Pending. -/
def Core.tokPending (c : Core) (l : List Tok) : Bool := l.any fun t => (c.ctx.toks.get t).pending

/-- The first of the tokens that holds an error. -/
def Core.tokErr (c : Core) (l : List Tok) : Option Tok := l.find? fun t => (c.ctx.toks.get t).err != 0

/-- R122: an engine slot issues only when the token it produces and those it consumes are Resolved; one that holds an
error is trapped at the bundle. -/
def State.gate (s : State) (t : Tok) (l : List Tok) (go : State → Out) : Out :=
  if s.rd.tokPending (gateToks t l) then .next s
  else match s.rd.tokErr (gateToks t l) with
    | some e => .next (s.tokenError e)
    | none => go s

/-- An operation at its issue. -/
def Op.new (id : Nat) (t : Tok) (inst : Nat) (kind : OpKind) (sigma : Nat) : Op :=
  { id, tok := t, inst := BitVec.ofNat 3 inst, kind, sigma, toRead := [], buf := [], toWrite := [], wrote := [],
    part := 0, items := 0, claimed := false, slot := 0, filled := false, flagged := false, drop := false, err := 0,
    detail := 0, sticky := 0, touched := [], xls := [], held := [], stream := none }

/-- An operation starts: its token becomes Pending (R122). -/
def State.start (s : State) (op : Op) : State :=
  s.newId.modCtx fun x => { x with
    toks := x.toks.put op.tok { pending := true, err := 0, inst := op.inst, detail := 0 }, ops := x.ops ++ [op] }

/-- An operation of a folding form starts and takes its number σ (R289). -/
def State.startFolded (s : State) (op : Op) : State := (s.start op).folded 0

/-! ## Operations by position -/

/-- Operation `k` of core `c`, once it has started: the second half of a split bundle starts in the inserted cycle (R30). -/
def State.opAt (s : State) (c k : Nat) : Option Op :=
  match (s.coreAt c).ctx.ops[k]? with
  | some o => if o.start ≤ s.cyc then some o else none
  | none => none

/-- Operation `k` of core `c` changed. -/
def State.modOp (s : State) (c k : Nat) (f : Op → Op) : State :=
  s.modAt c fun x => { x with ctx := { x.ctx with ops := changeAt x.ctx.ops k f } }

/-- An operation fails: it moves no more words, and its token will resolve with the error (R122, R123). -/
def Op.fail (e : BitVec 4) (detail : Nat) (o : Op) : Op :=
  { o with err := e, detail := BitVec.ofNat 32 detail, toRead := [], toWrite := [], drop := true }

/-- Operation `k` of core `c` fails; what the core's context still holds for the log is noted anew (R284). -/
def State.failOp (s : State) (c k : Nat) (e : BitVec 4) (detail : Nat) : State :=
  (s.modAt c fun x => { x with ctx := { x.ctx with pipe := { x.ctx.pipe with heldOps := [] } } }).modOp c k (Op.fail e detail)

/-! ## Global words of an operation (R308, R315, R322) -/

/-- What comes of an operation's reach for one word. -/
inductive Reach where
  | wait (s : State)
  | bad (s : State) (e : BitVec 4)
  | ok (s : State) (t : Xlat)

/-- R322: the translation that an operation holds for an offset, or forms by its own walk. -/
def State.opXlat (s : State) (op : Op) (v : Via) (x : Nat) (w : Bool) : Except (BitVec 4) Xlat :=
  match op.xls.find? fun t => t.serves v x w with
  | some t => .ok t
  | none => (s.part v.part).walk v x 4 w

/-- R322: the entries of the core's cache that serve an operation are taken at its issue; `covers` says which leaves
the operation touches. -/
def Core.takeXlats (c : Core) (v : Via) (w : Bool) (covers : Xlat → Bool) : List Xlat :=
  c.xcache.filter fun t => t.part == v.part && t.obj == v.obj && t.gen == v.gen && t.lease == v.lease
    && (!w || t.write) && covers t

/-- R322: operation `k` of core `c` holds a translation from now on. -/
def State.keepXlat (s : State) (c k : Nat) (t : Xlat) : State :=
  s.modOp c k fun o => { o with xls := if o.xls.contains t then o.xls else t :: o.xls }

/-- R246: word `n` of an operation reached its bank inside a refresh window. -/
def State.delayWord (s : State) (c k : Nat) (w : Bool) (n : Nat) : State :=
  s.modOp c k fun o => { o with late := if o.late.contains (w, n) then o.late else o.late ++ [(w, n)] }

/-- Operation `k` of core `c` reaches its word `n`, at offset `x`, `first` being the lowest byte it has in the line: the
translation, the window of the weight store (R246), the budget (R344), lost lines (R369), the arena's generation (R319),
and, where the access is one that the log takes, its one record for a synchronisation line (R277). `touched` holds each line
charged with 2 for a read and 3 for a write, and with 10 or 11 once it is logged. -/
def State.reach (s : State) (c k n : Nat) (op : Op) (v : Via) (x first : Nat) (w log : Bool) : Reach :=
  match s.opXlat op v x w with
  | .error e => .bad s e
  | .ok t =>
    let pa := t.phys x
    let l := lineOf pa
    let sub := if w then 3 else 2
    if refreshing s.cyc pa then .wait ((s.delayWord c k w n).keepXlat c k t)
    else if s.lineHeld v.part pa then .wait s
    else if s.home.lost.contains l then
      .bad (s.onCtx c (s.coreAt c).ctx.task.uid (Ctx.memErr v.obj x pa)) 6
    else if !s.home.genOk t pa then .bad s 5
    else
      let y := (s.coreAt c).ctx
      let logs := log && s.home.sync pa && !op.touched.contains (l, sub + 8)
      let go := fun (s : State) =>
        let s := if op.touched.contains (l, sub) && (s.home.stands l || (unitOf pa).isNone) then s
          else s.charge v.part c y.task.uid pa
        Reach.ok ((s.keepXlat c k t).modOp c k fun o =>
          { o with touched := (if logs then [(l, sub + 8)] else []) ++
                     if o.touched.contains (l, sub) then o.touched else (l, sub) :: o.touched }) t
      if logs then
        match s.turnOf y (s.lineRec c y 2 sub v.obj first 0) none false with
        | .held s => .wait (s.keepXlat c k t)
        | .go s _ => go s
      else go s

/-- R152: a chain's record is marked failed or done: OWN := 0, and ERR := 1 where it failed. -/
def Core.recordDone (a : Nat) (failed : Bool) (c : Core) : Core :=
  let x := c.spadRead (a + 4) 1
  c.engWrite (a + 4) 1 (if failed then slotSet (slotClear x 0) 1 else slotClear x 0)

/-- R119: an engine may write the scratchpad of core `c`: the bundle that the core issues in the cycle has performed, or it
issues none. -/
def State.spadTurn (s : State) (c : Nat) : Bool :=
  let k := s.coreAt c
  k.issued || (k.run != .running && !k.inserted)

/-- A remote word of operation `k` is in the fabric. -/
def State.inFabric (s : State) (op : Op) (n : Nat) : Bool := s.fab.reqs.any fun r => r.op == some (op.id, n)

/-- R378, R380: word `n` of an operation is sent to a home on another package. -/
def State.sendWord (s : State) (c k : Nat) (op : Op) (n : Nat) (kind : AccKind) (v : Via) (x : Nat) (data : Word) : State :=
  if s.inFabric op n then s
  else match (s.part v.part).walkRemote v x 4 kind.writes with
    | .error e => s.failOp c k e x
    | .ok t =>
      let a : Acc := { id := op.id, kind, via := v, items := [{ lane := 0, off := x, width := 4, data := data.setWidth 64 }],
                       wait := none, sigma := op.sigma, item0 := 0, slot := 0, cap := 0, addr := 0, xl := some t,
                       held := [], uid := (s.coreAt c).ctx.task.uid, fenced := false, dead := false }
      s.sendOff c (some (op.id, n)) a t.pframe t.n0 s.route

/-- R120: in strict order mode the first word write of an operation waits for the core's earlier loads. -/
def State.opStrict (s : State) (c : Nat) (op : Op) : Bool :=
  (s.coreAt c).ctx.sys.strict && op.wrote.isEmpty && op.items == 0 && s.loadsBefore c op.id

/-- A word goes from the words to read into the buffer. -/
def Op.got (n : Nat) (v : Word) (o : Op) : Op := { o with toRead := o.toRead.erase n, buf := o.buf ++ [(n, v)] }

/-- A word is written. -/
def Op.put (n : Nat) (v : DWord) (o : Op) : Op := { o with toWrite := o.toWrite.erase n, wrote := o.wrote ++ [(n, v)] }

/-! ## The steps common to every engine -/

/-- A token resolves at its slot's issue, with no error (R122, R259). -/
def State.resolveNow (s : State) (t : Tok) (inst : Nat) : State :=
  let e : Token := { pending := false, err := 0, inst := BitVec.ofNat 3 inst, detail := 0 }
  (s.modCtx fun x => { x with toks := x.toks.put t e }).modCore Core.wake

/-- R290: a token resolves: the partial digest joins the digest, the token takes its error, sticky FLAGS bits are set,
and the event bit too (R259). -/
def State.resolveTok (s : State) (c k : Nat) (op : Op) : State :=
  s.modAt c fun x =>
    let y := x.ctx
    let y := { y with
      task := { y.task with digest := y.task.digest + op.part },
      toks := y.toks.put op.tok { pending := false, err := op.err, inst := op.inst, detail := op.detail },
      ops := dropAt y.ops k }
    ({ x with ctx := y.raise op.sticky } : Core).wake

/-- Items of one row of words are added to an operation's partial digest (R289). -/
def Op.foldRow (place : Nat → DWord) (l : List Wr) (o : Op) : Op :=
  let g := gather l
  { o with part := o.part + foldGathered place o.sigma o.items g, items := o.items + g.length }

/-- One item is added to an operation's partial digest. -/
def Op.foldOne (place : Nat → DWord) (w : Wr) (o : Op) : Op :=
  { o with part := o.part + w.item place o.sigma o.items, items := o.items + 1 }

end Sys2Proof.Machine
end

