-- ==== Sys2Proof/Machine/Barrier.lean ====
section
/-! DEFINITION. Barriers at every scope (R223 to R229, R243, R385): arrivals, deliveries, departures and completions,
and the forms ARRIVE and WAITB. -/

namespace Sys2Proof.Machine

open Sys2Proof

/-! ## Barriers by scope code and index -/

/-- The barrier with index `i` at scope `lv`: 2 quad (quad × 16 + number), 3 die (die × 64 + number), 4 package, 5 pod. -/
def State.bar (s : State) (lv i : Nat) : Bar :=
  match lv with
  | 2 => s.quadBars[i]?.getD default
  | 3 => s.dieBars[i]?.getD default
  | 4 => s.pkgBars[i]?.getD default
  | _ => s.podBars[i]?.getD default

/-- A vector with entry `i` changed, if there is one. -/
def vmod {α : Type} {n : Nat} (v : Vector α n) (i : Nat) (f : α → α) : Vector α n :=
  if h : i < n then v.set i (f v[i]) else v

/-- The barrier changed. -/
def State.modBar (s : State) (lv i : Nat) (f : Bar → Bar) : State :=
  match lv with
  | 2 => { s with quadBars := vmod s.quadBars i f }
  | 3 => { s with dieBars := vmod s.dieBars i f }
  | 4 => { s with pkgBars := vmod s.pkgBars i f }
  | _ => { s with podBars := vmod s.podBars i f }

/-- R223: a barrier of launch `l` of partition `p` changed: where another launch has it in the network, the copy that is kept for
`l`. -/
def State.modBarOf (s : State) (p l lv i : Nat) (f : Bar → Bar) : State :=
  if (s.launchAt p l).any fun x => x.bars.any fun y => y.1 == (lv, i) then
    s.modLaunch p l fun x => { x with bars := x.bars.map fun y => if y.1 = (lv, i) then (y.1, f y.2) else y }
  else s.modBar lv i f

/-- R223: the barrier of launch `l` of partition `p`, in the network or kept. -/
def State.barOfLaunch (s : State) (p l lv i : Nat) : Bar :=
  (((s.launchAt p l).bind fun x => x.bars.find? fun y => y.1 == (lv, i)).map fun y => y.2).getD (s.bar lv i)

/-- The number of a barrier within its network (R279, R243). -/
def barNo (lv i : Nat) : Nat :=
  match lv with
  | 2 => i % 16
  | 3 => i % 64
  | _ => i

/-- The die, or the package, of a barrier (R279). -/
def State.barPlace (s : State) (lv i : Nat) : Nat :=
  match lv with
  | 2 => i / 16 / 20
  | 3 => i / 64
  | _ => s.fab.pod

/-- R223, R243, R385: the member index of core `c`. -/
def State.barMember (s : State) (lv c : Nat) : Nat :=
  match lv with
  | 2 => c % 4
  | 3 => c % 80
  | 4 => c
  | _ => s.fab.pod * 320 + c

/-- The index of the barrier that core `c` names with number `n`. -/
def barIndex (lv c n : Nat) : Nat :=
  match lv with
  | 2 => c / 4 * 16 + n
  | 3 => c / 80 * 64 + n
  | _ => n

/-! ## Steps of the barrier network (R227) -/

/-- The members departed at a completion. -/
def Bar.departed (b : Bar) : Nat := b.members - (b.members &&& b.live)

/-- R227: Complete. -/
def Bar.complete (b : Bar) : Bar :=
  { b with lastdep := b.departed, phase := b.phase + 1, arrived := 0, armed := false, deliv := false, act := false }

/-- R259: a phase completing in a core's quad sets its event bit. -/
def State.quadEvent (s : State) (q : Nat) : State :=
  (upTo 4).foldl (fun s i => s.modAt (4 * q + i) Core.wake) s

/-- R284: core `c` holds the context that a barrier's held record counts among its own: that of the core whose step came last, or,
where none runs there any more, each one that runs on a live member (log entry 139). -/
def State.barHolder (s : State) (lv : Nat) (b : Bar) (c : Nat) : Bool :=
  let of := fun (k : Core) => k.pid == b.part && k.ctx.task.launch == b.lch && k.run == .running
  of (s.coreAt c) && ((s.coreAt c).lid == b.src
    || (!(s.cores.toList.any fun k => of k && k.lid == b.src) && b.live.testBit (s.barMember lv c)))

/-- R283: the record of a barrier's phase joins the held operations of its holders, or leaves those of every context. -/
def State.noteBar (s : State) (lv : Nat) (b : Bar) (held : Bool) (e : LogRec) : State :=
  (upTo 320).foldl (fun s c => s.modAt c fun k =>
    let p := k.ctx.pipe
    let has := p.heldOps.any fun o => o.matches e
    if held then
      if s.barHolder lv b c && !has then { k with ctx := { k.ctx with pipe := { p with heldOps := p.heldOps ++ [e] } } } else k
    else if has && k.pid == b.part && k.ctx.task.launch == b.lch then
      { k with ctx := { k.ctx with pipe := { p with heldOps := p.heldOps.filter fun o => !o.matches e, heldFor := 0 } } }
    else k) s

/-- The launch that a barrier's phase is logged for records or replays (R277). -/
def State.barLogged (s : State) (b : Bar) : Bool := (s.launchAt b.part b.lch).any fun l => l.record || l.replay

/-- R227: a barrier completes if its precondition holds and the log gives it its turn (R277, R283). VALUE holds the low 64 bits of
LASTDEP (R279, R243, log entry 161). -/
def State.completeBar (s : State) (lv i : Nat) : State :=
  let b := s.bar lv i
  if !b.ready then s
  else
    let e := LogRec.of 3 lv b.src.toNat 0 0 (barNo lv i) (s.barPlace lv i) (BitVec.ofNat 64 b.departed)
    match s.turnFor b.part b.lch e none true with
    | .held s => s.noteBar lv b true e
    | .go s _ =>
      let s := (if s.barLogged b then s.noteBar lv b false e else s).modBar lv i Bar.complete
      if lv = 2 then s.quadEvent (i / 16) else s

/-- The barrier's last step came from core `c`. -/
def State.barFrom (s : State) (c : Nat) (b : Bar) : Bar :=
  let k := s.coreAt c
  { b with act := true, src := k.lid, part := k.pid, lch := k.ctx.task.launch, gone := false }

/-- R227: four bytes are delivered to quad barrier `i` by an engine of core `c`. -/
def State.deliver (s : State) (c i : Nat) : State :=
  (s.modBarOf (s.coreAt c).pid (s.coreAt c).ctx.task.launch 2 i fun b =>
    s.barFrom c { b with pending := b.pending - 4, deliv := true }).completeBar 2 i

/-- Every barrier that core `c` may be a member of, by level and index. -/
def barsOf (c : Nat) : List (Nat × Nat) :=
  ((upTo 16).map fun n => (2, barIndex 2 c n)) ++ ((upTo 64).map fun n => (3, barIndex 3 c n))
    ++ ((upTo 16).map fun n => (4, n)) ++ (upTo 16).map fun n => (5, n)

/-- R223: the barrier is one of launch `l`, in the network or kept. -/
def State.ownsBar (s : State) (p l : Nat) (x : Nat × Nat) : Bool :=
  (s.bar x.1 x.2).owner == l || (s.launchAt p l).any fun y => y.bars.any fun z => z.1 == x

/-- The barriers of launch `l` of partition `p` on which the LIVE bit of core `c`'s member is set. -/
def State.liveBars (s : State) (p l c : Nat) : List (Nat × Nat) :=
  (barsOf c).filter fun x => s.ownsBar p l x && (s.barOfLaunch p l x.1 x.2).live.testBit (s.barMember x.1 c)

/-- R224: the LIVE bits of core `c`'s member that contexts of launch `l` saved from the core hold. -/
def State.heldBy (s : State) (p l c : Nat) : List (Nat × Nat) :=
  (s.part p).saves.flatMap fun v => if v.core = c && v.ctx.task.launch = l then v.held else []

/-- R224: a departed arrival of core `c` on a barrier of launch `l` whose LIVE bit it holds. -/
def State.departBar (s : State) (p l c : Nat) (x : Nat × Nat) : State :=
  let s := s.modBarOf p l x.1 x.2 fun b =>
    let b := s.barFrom c { b with live := slotClear b.live (s.barMember x.1 c) }
    { b with part := p, lch := l, gone := b.live == 0 }
  if x.1 = 2 then s.completeBar 2 x.2 else s

/-- R224: the task of core `c` exits: a departed arrival on every barrier whose LIVE bit it holds. The bits that a context
saved from the core holds are not the task's. -/
def State.depart (s : State) (c : Nat) : State :=
  let p := (s.coreAt c).pid
  let l := (s.coreAt c).ctx.task.launch
  let kept := s.heldBy p l c
  ((s.liveBars p l c).filter fun x => !kept.contains x).foldl (fun s x => s.departBar p l c x) s

/-- R224: a context saved in partition `p` exits without being resumed. -/
def State.departSaved (s : State) (p : Nat) (v : Saved) : State :=
  v.held.foldl (fun s x => s.departBar p v.ctx.task.launch v.core x) s

/-- Saved contexts of SPAWN children that satisfy `f` end: each departs its barriers (R224). -/
def State.dropKids (s : State) (p : Nat) (f : Saved → Bool) : State :=
  (((s.part p).kids.filter f).foldl (fun s v => s.departSaved p v) s).modPart p fun q =>
    { q with kids := q.kids.filter fun v => !f v }

/-- R224: a SPAWN by a task of launch `l` onto core `c` sets its LIVE bit on every barrier it is a member of. -/
def State.joinBars (s : State) (p l c : Nat) : State :=
  ((barsOf c).filter (s.ownsBar p l)).foldl (fun s x => s.modBarOf p l x.1 x.2 fun b =>
    let m := s.barMember x.1 c
    if b.members.testBit m then { b with live := slotSet b.live m } else b) s

/-! ## Binding barriers to a launch (R223, R348) -/

/-- R223: a barrier in the network is in use by another launch than `l`: a context of it on some core holds a LIVE bit there. -/
def State.barBusy (s : State) (p l lv i : Nat) : Bool :=
  let b := s.bar lv i
  b.owner != l && b.live != 0 && (upTo 320).any fun c =>
    let k := s.coreAt c
    k.holds p && k.ctx.task.launch == b.owner && barIndex lv c (barNo lv i) == i && b.live.testBit (s.barMember lv c)

/-- R223: barrier `b` of launch `l` takes its place in the network; the one of another launch that has members left is saved with
its contexts. -/
def State.putBar (s : State) (p l lv i : Nat) (b : Bar) : State :=
  let old := s.bar lv i
  let s := if old.owner != l && old.live != 0 then
      s.modLaunch p old.owner fun x => { x with bars := x.bars ++ [((lv, i), old)] } else s
  (s.modBar lv i fun _ => b).modLaunch p l fun x => { x with bars := x.bars.filter fun y => y.1 != (lv, i) }

/-- R223, R348: barrier `i` is bound to launch `l` with the members `ms`: MEMBERS and LIVE are theirs. While another launch uses it,
it is kept for `l`. The members that other packages have joined to a pod barrier stay (R385). -/
def State.bindBar (s : State) (p l lv i : Nat) (ms : List Nat) : State :=
  let m := ms.foldl slotSet 0
  let b : Bar := { (default : Bar) with members := m, live := m, owner := l }
  let old := s.bar lv i
  if lv = 5 && (upTo 320).all (fun c => !old.live.testBit (s.barMember 5 c)) && old.live != 0 then
    s.modBar 5 i fun x => { x with members := x.members ||| m, live := x.live ||| m, owner := l }
  else if s.barBusy p l lv i then s.modLaunch p l fun x => { x with bars := x.bars ++ [((lv, i), b)] }
  else s.putBar p l lv i b

/-- The kept barriers of launch `l` that core `c` may be a member of. -/
def State.keptBars (s : State) (p l c : Nat) : List ((Nat × Nat) × Bar) :=
  ((s.launchAt p l).map fun x => x.bars.filter fun y => (barsOf c).contains y.1).getD []

/-- R223: as a context of launch `l` is bound to core `c`, the barriers kept for it are restored. -/
def State.restoreBars (s : State) (p l c : Nat) : State :=
  (s.keptBars p l c).foldl (fun s y => s.putBar p l y.1.1 y.1.2 y.2) s

/-! ## ARRIVE and WAITB (R225, R226, R228, R243) -/

/-- The barrier number in Sa. -/
def barNumber (sc : Scope) (a : DWord) : Nat := if sc = 3 then a.toNat % 64 else a.toNat % 16

/-- R243, R385: the partition holds barrier `i`; a quad barrier belongs to its quad. -/
def State.holdsBar (s : State) (p lv i : Nat) : Bool :=
  let g := (s.part p).grant
  match lv with
  | 2 => true
  | 3 => g.dieBars.contains i
  | 4 => g.pkgBars.contains i
  | _ => g.podBars.contains i

/-- The barrier that a slot of the current core names. -/
def State.barOf (s : State) (a : Reg) (sc : Scope) : Nat := barIndex sc.toNat s.cur.val (barNumber sc (s.rd.S a))

/-- R243: the slot names a barrier that the partition does not hold. -/
def State.barRefused (s : State) (a : Reg) (sc : Scope) : Bool := !s.holdsBar s.rd.pid sc.toNat (s.barOf a sc)

/-- R242: the scope trap of REASON 3. -/
def State.barTrap (s : State) (a : Reg) (sc : Scope) : State :=
  s.fault 0x0E (scopeInfo s.slot sc.toNat 0 3 (barNumber sc (s.rd.S a)))

/-- R225, R380: an ARRIVE is held: an earlier access of the core is outstanding, or the core has already arrived. -/
def State.arriveHeld (s : State) (a : Reg) (sc : Scope) : Bool :=
  2 ≤ sc.toNat && (s.outstanding s.cur.val true
    || (!s.barRefused a sc && (s.bar sc.toNat (s.barOf a sc)).arrived.testBit (s.barMember sc.toNat s.cur.val)))

/-- R225: the barrier after an arrival of member `m` with expectation `e`; a core that is no member leaves ARRIVED
unchanged. -/
def Bar.arrive (m : Nat) (e : Nat) (b : Bar) : Bar :=
  { b with arrived := if b.members.testBit m then slotSet b.arrived m else b.arrived, act := true,
           pending := b.pending + BitVec.ofNat 40 e, armed := b.armed || e != 0 }

/-- R225, R228, R243. -/
def execArrive (d a b : Reg) (sc : Scope) (s : State) : Out :=
  let c := s.cur.val
  let lv := sc.toNat
  if lv ≤ 1 then .next (s.resS 1 d (BitVec.ofNat 64 (c % 4 * 2 ^ 32)))
  else if s.arriveHeld a sc then .next (s.park .arrive)
  else if s.barRefused a sc then .next (s.barTrap a sc)
  else
    let i := s.barOf a sc
    let m := s.barMember lv c
    let e := if lv = 2 then ((s.rd.S b).setWidth 32 : Word).toNat else 0
    let ph := (s.bar lv i).phase
    let s := (s.resS 1 d (BitVec.ofNat 64 (ph.toNat + m * 2 ^ 32))).modBar lv i fun b => s.barFrom c (b.arrive m e)
    .next (if lv = 2 then s.completeBar lv i else s)

/-- R226: a WAITB is held: phase Sb[31:0] has not completed. -/
def State.waitbHeld (s : State) (a b : Reg) (sc : Scope) : Bool :=
  2 ≤ sc.toNat && !s.barRefused a sc &&
    (let n := ((s.bar sc.toNat (s.barOf a sc)).phase - (s.rd.S b).setWidth 32).toNat
     n = 0 || n > 2 ^ 31)

/-- R226, R228, R243. -/
def execWaitb (d a b : Reg) (sc : Scope) (s : State) : Out :=
  let lv := sc.toNat
  if lv ≤ 1 then .next (s.resS 1 d 0)
  else if s.barRefused a sc then .next (s.barTrap a sc)
  else if s.waitbHeld a b sc then .next (s.park .waitb)
  else
    let x := s.bar lv (s.barOf a sc)
    let dep := if x.lastdep = 0 then 0 else 16
    let low := if lv = 2 then x.lastdep % 16 else 0
    .next ((s.modCore Core.dropL1).resS 1 d (BitVec.ofNat 64 (low + dep + (x.phase - 1).toNat * 2 ^ 32)))

/-- R385: a pod barrier after what its network brings of a member on another package: 0 it joins, 1 it arrives, 2 it departs. -/
def Bar.remote (b : Bar) (m what : Nat) : Bar :=
  match what with
  | 0 => { b with members := slotSet b.members m, live := slotSet b.live m }
  | 1 => { b with arrived := if b.members.testBit m then slotSet b.arrived m else b.arrived, act := true, gone := false }
  | _ =>
    if b.live.testBit m then { b with live := slotClear b.live m, act := true, gone := slotClear b.live m == 0 } else b

/-- R243, R385, R227: barrier `ix` mod 2^16 of a level completes, if its precondition holds; at the quad it is a completion that the
log held back. Where `ix` / 2^16 is n + 1, the network of a pod barrier first brings the step n mod 3 of member n / 3, package × 320 +
core, on another package (log entry 171). -/
def execPkgBarrierComplete (level ix : Nat) (s : State) : Out :=
  let i := ix % 2 ^ 16
  let s := match ix / 2 ^ 16 with
    | 0 => s
    | n + 1 =>
      let m := n / 3
      if level = 5 && m / 320 != s.fab.pod && decide (m / 320 < 4096) then s.modBar 5 i fun b => b.remote m (n % 3) else s
  .next (s.completeBar level i)

end Sys2Proof.Machine
end

