-- ==== Sys2Proof/Machine/Transcend.lean ====
section
/-! DEFINITION. The transcendental functions (R101, R102): each is enclosed between two fixed-point numbers of 192
fraction bits; where both round to one FP32 value, that value is the result. -/

namespace Sys2Proof.Machine

open Sys2Proof

/-- Fraction bits of the enclosures. -/
def fpW : Nat := 192

/-- One, in fixed point. -/
def fpOne : Nat := 2 ^ fpW

/-- The natural logarithm of 2 in fixed point, rounded down. -/
def ln2Lo : Nat := 4350955369971217654477563020407057298233370711930338590467

/-- A quotient rounded up. -/
def ceilDiv (a b : Nat) : Nat := (a + b - 1) / b

/-- The lower sum of the exponential series of `y`: the terms from the `k`-th on, the first of them `t`. -/
def expLo (y : Nat) : Nat → Nat → Nat → Nat
  | 0, _, _ => 0
  | n + 1, k, t => t + expLo y n (k + 1) (t * y / fpOne / (k + 1))

/-- The upper sum of the exponential series. -/
def expHi (y : Nat) : Nat → Nat → Nat → Nat
  | 0, _, t => 2 * t
  | n + 1, k, t => t + expHi y n (k + 1) (ceilDiv (ceilDiv (t * y) fpOne) (k + 1))

/-- Bounds of `2 ^ f` for a fraction between `lo` and `hi`, below 2. -/
def exp2Frac (lo hi : Nat) : Nat × Nat :=
  (expLo (lo * ln2Lo / fpOne) 56 0 fpOne, expHi (ceilDiv (hi * (ln2Lo + 1)) fpOne) 56 0 fpOne)

/-- The lower sum of the series of the inverse hyperbolic tangent: terms `t / (2k + 1)`, each next `t` times `z2`. -/
def athLo (z2 : Nat) : Nat → Nat → Nat → Nat
  | 0, _, _ => 0
  | n + 1, k, t => t / (2 * k + 1) + athLo z2 n (k + 1) (t * z2 / fpOne)

/-- The upper sum of the series of the inverse hyperbolic tangent. -/
def athHi (z2 : Nat) : Nat → Nat → Nat → Nat
  | 0, _, t => 2 * t
  | n + 1, k, t => ceilDiv t (2 * k + 1) + athHi z2 n (k + 1) (ceilDiv (t * z2) fpOne)

/-- The square root of a natural number, rounded down, bit by bit from bit `n`. -/
def isqrt (a : Nat) : Nat → Nat → Nat
  | 0, r => r
  | n + 1, r => if (r + 2 ^ n) * (r + 2 ^ n) ≤ a then isqrt a n (r + 2 ^ n) else isqrt a n r

/-- An irrational positive value between `lo × 2 ^ e` and `hi × 2 ^ e`, rounded to FP32 by RNE; the free value where
the two ends differ. -/
def enclose (op : Nat) (x : Word) (neg : Bool) (lo hi : Nat) (e : Int) : Nat × BitVec 6 :=
  let a := Fmt.f32.roundMag .rne 0 neg lo e true
  let b := Fmt.f32.roundMag .rne 0 neg hi e true
  if a = b then a else ((Config.transcendental op x).toNat, fNX)

/-- An exact quotient or root rounded to FP32: `m × 2 ^ e`, with more below it when `rest`. -/
def exactOr (neg : Bool) (m : Nat) (e : Int) (rest : Bool) : Nat × BitVec 6 := Fmt.f32.roundMag .rne 0 neg m e rest

/-- The integer part of a dyadic value, rounded down. -/
def floorDy (m : Int) (e : Int) : Int := if 0 ≤ e then m * 2 ^ e.toNat else m / 2 ^ (-e).toNat

/-- The fraction of a dyadic value in fixed point, rounded down, and whether that is exact. -/
def fracDy (m : Int) (e : Int) : Nat × Bool :=
  if 0 ≤ e then (0, true)
  else
    let d : Int := 2 ^ (-e).toNat
    let r := (m % d).toNat
    (r * fpOne / 2 ^ (-e).toNat, r * fpOne % 2 ^ (-e).toNat = 0)

/-- 2 to a finite nonzero power. -/
def exp2Num (x : Word) (neg : Bool) (m : Nat) (e : Int) : Nat × BitVec 6 :=
  if e > 8 || e + bitLen m > 9 then
    -- beyond 2 ^ 256 or below 2 ^ -256: past either end of FP32
    if neg then exactOr false 1 (-300) true else exactOr false 1 300 true
  else
    let n := floorDy (signed neg m) e
    let (f, ex) := fracDy (signed neg m) e
    if f = 0 && ex then exactOr false 1 n false
    else
      let (lo, hi) := exp2Frac f (if ex then f else f + 1)
      enclose 0 x false lo hi (n - fpW)

/-- The binary logarithm of a positive number. -/
def log2Num (x : Word) (m : Nat) (e : Int) : Nat × BitVec 6 :=
  let b := bitLen m
  if m = 2 ^ (b - 1) then
    let n : Int := e + b - 1
    Fmt.f32.convert .rne 0 (.num (n < 0) n.natAbs 0)
  else
    -- the number is a / 2 ^ b times 2 ^ n, with a / 2 ^ b between 2/3 and 4/3
    let up := 3 * m ≤ 2 * 2 ^ b
    let d : Nat := if up then 2 ^ (b - 1) else 2 ^ b
    let n : Int := if up then e + b - 1 else e + b
    let less := m < d
    let num := if less then d - m else m - d
    let zlo := num * fpOne / (m + d)
    let zhi := ceilDiv (num * fpOne) (m + d)
    -- ln of the ratio is 2 atanh(z); its quotient by ln 2 is the fraction of the logarithm
    let llo := 2 * athLo (zlo * zlo / fpOne) 64 0 zlo * fpOne / (ln2Lo + 1)
    let lhi := ceilDiv (2 * athHi (ceilDiv (zhi * zhi) fpOne) 64 0 zhi * fpOne) ln2Lo
    let lo : Int := n * fpOne + (if less then -(lhi : Int) else llo)
    let hi : Int := n * fpOne + (if less then -(llo : Int) else lhi)
    if lo < 0 then enclose 1 x true hi.natAbs lo.natAbs (-(fpW : Int))
    else enclose 1 x false lo.natAbs hi.natAbs (-(fpW : Int))

/-- The reciprocal of a finite nonzero number. -/
def rcpNum (neg : Bool) (m : Nat) (e : Int) : Nat × BitVec 6 :=
  let k := bitLen m + 64
  exactOr neg (2 ^ k / m) (-e - k) (2 ^ k % m ≠ 0)

/-- The reciprocal square root of a positive number. -/
def rsqNum (m : Nat) (e : Int) : Nat × BitVec 6 :=
  let (m, e) := if e % 2 = 0 then (m, e) else (2 * m, e - 1)
  let r := isqrt (2 ^ 192 / m) 97 0
  exactOr false r (-(e / 2) - 96) (r * r * m ≠ 2 ^ 192)

/-- The hyperbolic tangent of a finite nonzero number. -/
def tanhNum (x : Word) (neg : Bool) (m : Nat) (e : Int) : Nat × BitVec 6 :=
  if e + bitLen m ≤ -13 then
    -- between x (1 - x²) and x, nearer to x than half a place
    exactOr neg (m * 2 ^ 64 - 1) (e - 64) true
  else if e + bitLen m > 5 then exactOr neg (2 ^ 64 - 1) (-64) true
  else
    -- exp(2x) = 2 ^ (2x / ln 2), and tanh x = 1 - 2 / (exp(2x) + 1)
    let y := if 0 ≤ e then m * 2 ^ e.toNat * 2 * fpOne else m * 2 * fpOne / 2 ^ (-e).toNat
    let tlo := y * fpOne / (ln2Lo + 1)
    let thi := ceilDiv (y * fpOne) ln2Lo
    let n := tlo / fpOne
    let (elo, ehi) := exp2Frac (tlo - n * fpOne) (thi - n * fpOne)
    let lo := fpOne - ceilDiv (2 * fpOne * fpOne) (elo * 2 ^ n + fpOne)
    let hi := fpOne - 2 * fpOne * fpOne / (ehi * 2 ^ n + fpOne)
    enclose 4 x neg lo hi (-(fpW : Int))

/-- R101, R102: a transcendental form (0 VEXP2, 1 VLOG2, 2 VRCP, 3 VRSQ, 4 VTANH) at one FP32 lane. -/
def transcend (op : Nat) (x : Word) : Word × BitVec 6 :=
  let nan : Nat := Fmt.f32.nanCode
  let (v, f) : Nat × BitVec 6 := match Fmt.f32.decode x.toNat with
    | .nan s => (nan, flagIf s fNV)
    | .inf neg =>
      match op with
      | 0 => (if neg then 0 else Fmt.f32.infCode false, 0)
      | 1 => if neg then (nan, fNV) else (Fmt.f32.infCode false, 0)
      | 2 => (Fmt.f32.sign neg, 0)
      | 3 => if neg then (nan, fNV) else (0, 0)
      | _ => (if neg then 0xBF800000 else 0x3F800000, 0)
    | .num neg m e =>
      if m = 0 then
        match op with
        | 0 => (0x3F800000, 0)
        | 1 => (Fmt.f32.infCode true, fDZ)
        | 2 => (Fmt.f32.infCode neg, fDZ)
        | 3 => (Fmt.f32.infCode neg, fDZ)
        | _ => (Fmt.f32.sign neg, 0)
      else
        match op with
        | 0 => exp2Num x neg m e
        | 1 => if neg then (nan, fNV) else log2Num x m e
        | 2 => rcpNum neg m e
        | 3 => if neg then (nan, fNV) else rsqNum m e
        | _ => tanhNum x neg m e
  (BitVec.ofNat 32 v, f)

end Sys2Proof.Machine
end

