-- ==== Sys2Proof/Machine/Vector.lean ====
section
/-! DEFINITION. The vector class (R85 to R110). -/

namespace Sys2Proof.Machine

open Sys2Proof

/-! ## Lanes -/

/-- Every lane of a mask. -/
def allLanes : Mask := BitVec.allOnes 256

/-- The active lanes computed by `f`, with the FLAGS bits of all of them (R86). -/
def vlanes (m : Mask) (f : Nat → Word × BitVec 6) : VReg × BitVec 6 :=
  let t := File.gen 8 fun i => if m.getLsbD i then f i else (0, 0)
  (t.map fun x => x.1, t.foldl (fun r x => r ||| x.2) 0)

/-- A vector result of latency `lat` under a mask, lane by lane. -/
def State.vres (s : State) (lat : Nat) (d : Reg) (m : Mask) (f : Nat → Word × BitVec 6) : State :=
  let r := vlanes m f
  s.result lat (.v d r.1 m) r.2

/-- A vector result without FLAGS bits. -/
def State.vout (s : State) (lat : Nat) (d : Reg) (m : Mask) (f : Nat → Word) : State :=
  s.result lat (.v d (VReg.gen fun i => if m.getLsbD i then f i else 0) m)

/-- R87: an FP32 element operation, or a BF16 one on both elements of a lane; `op` takes the element index of R71 and
the codes of the operands. -/
def flLane (t : BitVec 2) (op : Fmt → Nat → Nat → Nat → Nat → Nat × BitVec 6) (i : Nat) (a b d : Word) :
    Word × BitVec 6 :=
  if t = 0 then
    let r := op .f32 i a.toNat b.toNat d.toNat
    (BitVec.ofNat 32 r.1, r.2)
  else
    let lo := op .bf16 (2 * i) (laneElem a 16 0) (laneElem b 16 0) (laneElem d 16 0)
    let hi := op .bf16 (2 * i + 1) (laneElem a 16 1) (laneElem b 16 1) (laneElem d 16 1)
    (BitVec.ofNat 32 (lo.1 + hi.1 * 2 ^ 16), lo.2 ||| hi.2)

/-- A typed form of R91: its floating operation, or its integer operation with the signedness of its type. A floating
form advances SRSEQ (R72). -/
def State.typed (s : State) (lat : Nat) (t : BitVec 2) (d a b : Reg) (m : Gov)
    (fl : Rnd → Fmt → Nat → Nat → Nat → Nat → Nat × BitVec 6) (int : Bool → Word → Word → Word → Word × BitVec 6) :
    State :=
  let c := s.rd
  let x := c.V a
  let y := c.V b
  let z := c.V d
  let r := s.rnd
  let s1 := s.vres lat d (c.G m) fun i =>
    if t.toNat < 2 then flLane t (fl r) i (x.lane i) (y.lane i) (z.lane i)
    else int (t = 2) (x.lane i) (y.lane i) (z.lane i)
  if t.toNat < 2 then s1.advance else s1

/-- An integer operation without FLAGS bits. -/
def plainInt (f : Word → Word → Word → Word) (_ : Bool) (a b d : Word) : Word × BitVec 6 := (f a b d, 0)

/-- R91. -/
def execVadd (t : BitVec 2) (d a b : Reg) (m : Gov) (s : State) : Out :=
  .next (s.typed 2 t d a b m (fun r f i x y _ => f.add r i (f.decode x) (f.decode y)) (plainInt fun x y _ => x + y))
/-- R91. -/
def execVsub (t : BitVec 2) (d a b : Reg) (m : Gov) (s : State) : Out :=
  .next (s.typed 2 t d a b m (fun r f i x y _ => f.add r i (f.decode x) (f.decode y).flip)
    (plainInt fun x y _ => x - y))
/-- R91. -/
def execVmul (t : BitVec 2) (d a b : Reg) (m : Gov) (s : State) : Out :=
  .next (s.typed 2 t d a b m (fun r f i x y _ => f.mul r i (f.decode x) (f.decode y)) (plainInt fun x y _ => x * y))
/-- R91. -/
def execVfma (t : BitVec 2) (d a b : Reg) (m : Gov) (s : State) : Out :=
  .next (s.typed 4 t d a b m (fun r f i x y z => f.fma r i (f.decode x) (f.decode y) (f.decode z))
    (plainInt fun x y z => z + x * y))
/-- R91. -/
def execVfms (t : BitVec 2) (d a b : Reg) (m : Gov) (s : State) : Out :=
  .next (s.typed 4 t d a b m (fun r f i x y z => f.fma r i (f.decode x).flip (f.decode y) (f.decode z))
    (plainInt fun x y z => z - x * y))
/-- R91. -/
def execVmin (t : BitVec 2) (d a b : Reg) (m : Gov) (s : State) : Out :=
  .next (s.typed 2 t d a b m (fun _ f _ x y _ => f.minMax false x y)
    (fun sg x y _ => (if (if sg then x.slt y else x.ult y) then x else y, 0)))
/-- R91. -/
def execVmax (t : BitVec 2) (d a b : Reg) (m : Gov) (s : State) : Out :=
  .next (s.typed 2 t d a b m (fun _ f _ x y _ => f.minMax true x y)
    (fun sg x y _ => (if (if sg then x.slt y else x.ult y) then y else x, 0)))

/-- R91: a code with the sign given; a NaN is canonical, and a signalling one sets NV. -/
def Fmt.withSign (f : Fmt) (x : Nat) (neg : Bool → Bool) : Nat × BitVec 6 :=
  match f.decode x with
  | .nan sg => (f.nanCode, flagIf sg fNV)
  | v => (x % 2 ^ (f.eb + f.mb) + f.sign (neg v.neg), 0)

/-- -2^31 has no negation: it gives 2^31 - 1 and sets SAT (R91). -/
def negSat (x : Word) : Word × BitVec 6 := if x = 0x80000000 then (0x7FFFFFFF, fSAT) else (-x, 0)

/-- R91. -/
def execVabs (t : BitVec 2) (d a : Reg) (m : Gov) (s : State) : Out :=
  .next (s.typed 2 t d a a m (fun _ f _ x _ _ => f.withSign x fun _ => false)
    (fun _ x _ _ => if x.msb then negSat x else (x, 0)))
/-- R91. -/
def execVneg (t : BitVec 2) (d a : Reg) (m : Gov) (s : State) : Out :=
  .next (s.typed 2 t d a a m (fun _ f _ x _ _ => f.withSign x not) (fun _ x _ _ => negSat x))

/-! ## Compares (R92) -/

/-- R92: a condition on two floating codes. -/
def flCmp (f : Fmt) (cond : Nat) (x y : Nat) : Bool × BitVec 6 :=
  let a := f.decode x
  let b := f.decode y
  let nv := flagIf (a.sig || b.sig) fNV
  if a.isNan || b.isNan then (cond = 1, nv)
  else
    let lt := a.lt false b
    let eq := !lt && !(b.lt false a)
    (match cond with
      | 0 => eq
      | 1 => !eq
      | 2 => lt
      | _ => lt || eq, nv)

/-- R92: a condition on a lane. -/
def laneCmp (t : BitVec 2) (cond : Nat) (x y : Word) : Bool × BitVec 6 :=
  match t.toNat with
  | 0 => flCmp .f32 cond x.toNat y.toNat
  | 1 =>
    let lo := flCmp .bf16 cond (laneElem x 16 0) (laneElem y 16 0)
    let hi := flCmp .bf16 cond (laneElem x 16 1) (laneElem y 16 1)
    (lo.1 && hi.1, lo.2 ||| hi.2)
  | k =>
    let lt := if k = 2 then x.slt y else x.ult y
    (match cond with
      | 0 => x == y
      | 1 => x != y
      | 2 => lt
      | _ => lt || x == y, 0)

/-- The mask with bit `i` given by `f`, and the FLAGS bits of the lanes. -/
def maskOf (f : Nat → Bool × BitVec 6) : Nat → Mask × BitVec 6
  | 0 => (0, 0)
  | n + 1 =>
    let r := maskOf f n
    let x := f n
    ((if x.1 then r.1 ||| (1 <<< n : Mask) else r.1), r.2 ||| x.2)

/-- A compare of R92. -/
def State.vcmp (s : State) (cond : Nat) (t : BitVec 2) (d : MReg) (a b : Reg) (m : Gov) : State :=
  let c := s.rd
  let g := c.G m
  let r := maskOf (fun i => if g.getLsbD i then laneCmp t cond ((c.V a).lane i) ((c.V b).lane i) else (false, 0)) 256
  s.result 2 (.m d r.1 g) r.2

/-- R92. -/
def execVcmpEq (t : BitVec 2) (d : MReg) (a b : Reg) (m : Gov) (s : State) : Out := .next (s.vcmp 0 t d a b m)
/-- R92. -/
def execVcmpNe (t : BitVec 2) (d : MReg) (a b : Reg) (m : Gov) (s : State) : Out := .next (s.vcmp 1 t d a b m)
/-- R92. -/
def execVcmpLt (t : BitVec 2) (d : MReg) (a b : Reg) (m : Gov) (s : State) : Out := .next (s.vcmp 2 t d a b m)
/-- R92. -/
def execVcmpLe (t : BitVec 2) (d : MReg) (a b : Reg) (m : Gov) (s : State) : Out := .next (s.vcmp 3 t d a b m)

/-! ## Logic and lane formation (R93) -/

/-- A lane-wise form of two vectors, without FLAGS bits. -/
def State.vbin (s : State) (d a b : Reg) (m : Gov) (f : Word → Word → Word) : Out :=
  .next (s.vout 2 d (s.rd.G m) fun i => f ((s.rd.V a).lane i) ((s.rd.V b).lane i))

/-- R93. -/
def execVand (d a b : Reg) (m : Gov) (s : State) : Out := s.vbin d a b m fun x y => x &&& y
/-- R93. -/
def execVor (d a b : Reg) (m : Gov) (s : State) : Out := s.vbin d a b m fun x y => x ||| y
/-- R93. -/
def execVxor (d a b : Reg) (m : Gov) (s : State) : Out := s.vbin d a b m fun x y => x ^^^ y
/-- R93. -/
def execVshl (d a b : Reg) (m : Gov) (s : State) : Out := s.vbin d a b m fun x y => x <<< (y.toNat % 32)
/-- R93. -/
def execVshr (d a b : Reg) (m : Gov) (s : State) : Out := s.vbin d a b m fun x y => x >>> (y.toNat % 32)
/-- R93. -/
def execVsra (d a b : Reg) (m : Gov) (s : State) : Out := s.vbin d a b m fun x y => x.sshiftRight (y.toNat % 32)
/-- R93: the mask selects, and every lane is written. -/
def execVsel (d a b : Reg) (m : Gov) (s : State) : Out :=
  .next (s.vout 2 d allLanes fun i => if (s.rd.G m).getLsbD i then (s.rd.V a).lane i else (s.rd.V b).lane i)
/-- R93. -/
def execVmov (d a : Reg) (m : Gov) (s : State) : Out := .next (s.vout 2 d (s.rd.G m) fun i => (s.rd.V a).lane i)
/-- R93. -/
def execVbcast (d a : Reg) (w : BitVec 2) (m : Gov) (s : State) : Out :=
  let x := (s.rd.S a).setWidth 32
  let v : Word := match w.toNat with
    | 0 => x
    | 1 => (x.extractLsb' 0 16 ++ x.extractLsb' 0 16 : BitVec 32)
    | _ => (x.extractLsb' 0 8 ++ (x.extractLsb' 0 8 ++ (x.extractLsb' 0 8 ++ x.extractLsb' 0 8)) : BitVec 32)
  .next (s.vout 2 d (s.rd.G m) fun _ => v)
/-- R93. -/
def execVidx (d a b : Reg) (m : Gov) (s : State) : Out :=
  .next (s.vout 2 d (s.rd.G m) fun i => (s.rd.S a + BitVec.ofNat 64 i * s.rd.S b).setWidth 32)

/-! ## Conversion and packing (R94, R95) -/

/-- The elements of a format that a lane holds. -/
def Elem.perLane : Elem → Nat
  | .fl f => if f = .f32 then 1 else if f = .f16 || f = .bf16 then 2 else 4
  | .fp4 => 8
  | .int w => 32 / w

/-- R71: the index of the element of format `t` that a form writes at the low bits of lane `i` (log entry 32). -/
def Elem.index (t : Elem) (i : Nat) : Nat := i * t.perLane

/-- R94: one element converted between formats, for lane `i`. -/
def convertElem (src dst : Elem) (r : Rnd) (i : Nat) (nz : Byte) (x : Word) : Word × BitVec 6 :=
  let v := src.decode x.toNat nz
  let i := dst.index i
  match dst with
  | .fl f => let y := f.convert r i v; (BitVec.ofNat 32 y.1, y.2)
  | .fp4 => let y := Fmt.e2m1.convert r i v; (BitVec.ofNat 32 y.1, y.2)
  | .int w => let y := toInt w r i v; (BitVec.ofInt 32 y.1, y.2)

/-- R94. -/
def execVcvt (d a : Reg) (src dst : BitVec 3) (m : Gov) (s : State) : Out :=
  match elemOf src.toNat, elemOf dst.toNat with
  | some f, some t =>
    let r := s.rnd
    let nz := s.rd.ctx.regs.nz.get 0
    let s1 := s.vres 2 d (s.rd.G m) fun i => convertElem f t r i nz ((s.rd.V a).lane i)
    .next (if f.floating || t.floating then s1.advance else s1)
  | _, _ => .next s

/-- The width of a VPACK or VUNPK code (R95). -/
def packWidth (w : BitVec 2) : Nat := if w = 0 then 16 else if w = 1 then 8 else 4

/-- R95. -/
def execVpack (d a : Reg) (pos : BitVec 3) (w : BitVec 2) (m : Gov) (s : State) : Out :=
  .next (s.result 3 (.vp d (packWidth w) pos.toNat (s.rd.V a) (s.rd.G m)))

/-- R95. -/
def execVunpk (d a : Reg) (sx : Bool) (pos : BitVec 3) (w : BitVec 2) (m : Gov) (s : State) : Out :=
  let n := packWidth w
  .next (s.vout 3 d (s.rd.G m) fun i =>
    let e := pos.toNat * 256 + i
    let x := laneElem ((s.rd.V a).lane (e / (32 / n))) n (e % (32 / n))
    if sx then (BitVec.ofNat n x).signExtend 32 else BitVec.ofNat 32 x)

/-! ## Permutes (R96) -/

/-- Byte `j` of a vector. -/
def VReg.byte (x : VReg) (j : Nat) : Byte := (x.lane (j / 4)).extractLsb' (8 * (j % 4)) 8

/-- R96. -/
def execVpermb (d a b : Reg) (m : Gov) (s : State) : Out :=
  let x := s.rd.V a
  let y := s.rd.V b
  let pick := fun (i k : Nat) =>
    let q := y.byte (4 * i + k)
    if q.msb then (0 : Byte) else x.byte (32 * (i / 8) + q.toNat % 32)
  .next (s.vout 3 d (s.rd.G m) fun i => (pick i 3 ++ (pick i 2 ++ (pick i 1 ++ pick i 0)) : BitVec 32))

/-- R96. -/
def execVshuf (d a b : Reg) (m : Gov) (s : State) : Out :=
  .next (s.vout 3 d (s.rd.G m) fun i => (s.rd.V a).lane (((s.rd.V b).lane i).toNat % 256))

/-- R96. -/
def execVrot (d a b : Reg) (m : Gov) (s : State) : Out :=
  .next (s.vout 3 d (s.rd.G m) fun i => (s.rd.V a).lane ((i + (s.rd.S b).toNat) % 256))

/-! ## Reductions (R97, R98) -/

/-- R97: one combine of two present values. -/
def combine2 (op t : BitVec 2) (x y : Word) : Word × BitVec 6 :=
  if t = 0 then
    let r := match op.toNat with
      | 0 => Fmt.f32.add .rne 0 (Fmt.f32.decode x.toNat) (Fmt.f32.decode y.toNat)
      | k => Fmt.f32.minMax (k = 2) x.toNat y.toNat
    (BitVec.ofNat 32 r.1, r.2)
  else
    let lt := if t = 2 then x.slt y else x.ult y
    (match op.toNat with
      | 0 => x + y
      | 1 => if lt then x else y
      | _ => if lt then y else x, 0)

/-- R97: a combine, an absent value leaving the other. -/
def combine (op t : BitVec 2) : Option Word → Option Word → Option Word × BitVec 6
  | some x, some y => let r := combine2 op t x y; (some r.1, r.2)
  | none, y => (y, 0)
  | x, none => (x, 0)

/-- One level of the tree: neighbours combined in pairs. -/
def pairUp (op t : BitVec 2) : List (Option Word) → List (Option Word) × BitVec 6
  | x :: y :: l =>
    let r := combine op t x y
    let u := pairUp op t l
    (r.1 :: u.1, r.2 ||| u.2)
  | l => (l, 0)

/-- The levels of the tree. -/
def reduceTree (op t : BitVec 2) : Nat → List (Option Word) → Option Word × BitVec 6
  | 0, l => (l.headD none, 0)
  | n + 1, l =>
    let u := pairUp op t l
    let r := reduceTree op t n u.1
    (r.1, u.2 ||| r.2)

/-- R97: the identity of an empty reduction. -/
def redIdentity (op t : BitVec 2) : Word :=
  match op.toNat, t.toNat with
  | 0, _ => 0
  | 1, 0 => 0x7F800000
  | 1, 2 => 0x7FFFFFFF
  | 1, _ => 0xFFFFFFFF
  | _, 0 => 0xFF800000
  | _, 2 => 0x80000000
  | _, _ => 0

/-- The lanes of a vector under a mask, an inactive one absent (R97). -/
def present (x : VReg) (m : Mask) : List (Option Word) :=
  (upTo 256).map fun i => if m.getLsbD i then some (x.lane i) else none

/-- R97. -/
def execVred (d a : Reg) (op t : BitVec 2) (m : Gov) (s : State) : Out :=
  let r := reduceTree op t 8 (present (s.rd.V a) (s.rd.G m))
  .next (s.result 3 (.v d (File.all 8 (r.1.getD (redIdentity op t))) allLanes) r.2)

/-- One step of the prefix: each lane from `k` on combined with the lane `k` below it. A lane that `act` does not name sets no
flag (R84, R86). -/
def scanStep (op t : BitVec 2) (act : List Bool) (k : Nat) (l : List (Option Word)) : List (Option Word) × BitVec 6 :=
  let u := (List.replicate k none ++ l).zipWith (fun x y => combine op t x y) l
  (u.map fun r => r.1, (u.zip act).foldl (fun f r => if r.2 then f ||| r.1.2 else f) 0)

/-- The steps of the prefix. -/
def scanAll (op t : BitVec 2) (act : List Bool) : List Nat → List (Option Word) → List (Option Word) × BitVec 6
  | [], l => (l, 0)
  | k :: ks, l =>
    let u := scanStep op t act k l
    let r := scanAll op t act ks u.1
    (r.1, u.2 ||| r.2)

/-- R97. -/
def execVscan (d a : Reg) (op t : BitVec 2) (m : Gov) (s : State) : Out :=
  let l := present (s.rd.V a) (s.rd.G m)
  let r := scanAll op t (l.map Option.isSome) [1, 2, 4, 8, 16, 32, 64, 128] l
  let v := r.1.toArray
  .next (s.result 3 (.v d (VReg.gen fun i => (v.getD i none).getD 0) (s.rd.G m)) r.2)

/-- R98. -/
def execVdot4 (d a b : Reg) (m : Gov) (s : State) : Out :=
  .next (s.vout 4 d (s.rd.G m) fun i =>
    let x := (s.rd.V a).lane i
    let y := (s.rd.V b).lane i
    let p := fun (k : Nat) => (x.extractLsb' (8 * k) 8).toInt * (y.extractLsb' (8 * k) 8).toInt
    (s.rd.V d).lane i + BitVec.ofInt 32 (p 0 + p 1 + p 2 + p 3))

/-! ## Quantisation (R99, R100) -/

/-- R99. -/
def execVresc (d a : Reg) (out : BitVec 2) (zpe : Bool) (qs : QReg) (m : Gov) (s : State) : Out :=
  let w := match out.toNat with
    | 0 => 32
    | 1 => 16
    | 2 => 8
    | _ => 4
  let q := s.rd.ctx.regs.q.get qs
  let z := s.rd.ctx.regs.q.get (qs + 1)
  .next (s.vres 4 d (s.rd.G m) fun i =>
    let r := rescale ((s.rd.V a).lane i).toInt (q.lane i) (if zpe then (z.lane i).toInt else 0) w
    (BitVec.ofInt 32 r.1, r.2))

/-- The narrow formats of R100. -/
def narrow (f : BitVec 3) : Elem :=
  match f.toNat with
  | 0 => .int 8
  | 1 => .int 4
  | 2 => .fl .e4m3
  | 3 => .fl .e5m2
  | 4 => .fp4
  | _ => .fl .e3m5

/-- R100: the exact product of an FP32 value and a scale, rounded once into a narrow format. -/
def quantLane (t : Elem) (r : Rnd) (i : Nat) (x y : Word) : Word × BitVec 6 :=
  let v := (Fmt.f32.decode x.toNat).mul (Fmt.f32.decode y.toNat)
  let i := t.index i
  match t with
  | .int w => let z := toInt w r i v; (BitVec.ofInt 32 z.1, z.2)
  | .fp4 => let z := Fmt.e2m1.convert r i v; (BitVec.ofNat 32 z.1, z.2)
  | .fl f => let z := f.convert r i v; (BitVec.ofNat 32 z.1, z.2)

/-- R100. -/
def execVqnt (d a b : Reg) (f : BitVec 3) (s : State) : Out :=
  let r := s.rnd
  .next (s.vres 4 d allLanes fun i => quantLane (narrow f) r i ((s.rd.V a).lane i) ((s.rd.V b).lane i)).advance

/-- R100. -/
def execVdq (d a b : Reg) (f : BitVec 3) (s : State) : Out :=
  let r := s.rnd
  let nz := s.rd.ctx.regs.nz.get 0
  .next (s.vres 4 d allLanes fun i =>
    let v := (narrow f).decode ((s.rd.V a).lane i).toNat nz
    let y := Fmt.f32.mul r i v (Fmt.bf16.decode (laneElem ((s.rd.V b).lane i) 16 0))
    (BitVec.ofNat 32 y.1, y.2)).advance

/-! ## Transcendentals and random numbers (R101 to R104) -/

/-- A transcendental form. -/
def State.vtrans (s : State) (op : Nat) (d a : Reg) (m : Gov) : Out :=
  .next (s.vres 8 d (s.rd.G m) fun i => transcend op ((s.rd.V a).lane i))

/-- R101, R102. -/
def execVexp2 (d a : Reg) (m : Gov) (s : State) : Out := s.vtrans 0 d a m
/-- R101, R102. -/
def execVlog2 (d a : Reg) (m : Gov) (s : State) : Out := s.vtrans 1 d a m
/-- R101, R102. -/
def execVrcp (d a : Reg) (m : Gov) (s : State) : Out := s.vtrans 2 d a m
/-- R101, R102. -/
def execVrsq (d a : Reg) (m : Gov) (s : State) : Out := s.vtrans 3 d a m
/-- R101, R102. -/
def execVtanh (d a : Reg) (m : Gov) (s : State) : Out := s.vtrans 4 d a m

/-- R104. -/
def execVrand (d a : Reg) (m : Gov) (s : State) : Out :=
  let t := s.rd.ctx.task
  .next (s.vout 8 d (s.rd.G m) fun i => (genG 1 t.genKey t.lidx (s.rd.S a) (BitVec.ofNat 64 i)).setWidth 32)

/-! ## Scratchpad access (R105, R106, R109) -/

/-- The active lanes, ascending. -/
def lanesOf (m : Mask) : List Nat := (upTo 256).filter fun i => m.getLsbD i

/-- R105: the lowest active lane whose address fails, with its address and fault. -/
def laneFault (m : Mask) (addr : Nat → Nat) : Option (Nat × Nat × Byte) :=
  (lanesOf m).findSome? fun i => (spadFault (addr i) 4).map fun f => (i, addr i, f)

/-- A vector load from the scratchpad: its checks, then its landing at latency 6. -/
def State.vload (s : State) (m : Mask) (addr : Nat → Nat) (land : VReg → Landing) : Out :=
  match laneFault m addr with
  | some (i, a, f) => .next (s.fault f (memInfo s.slot i 0 0 a))
  | none =>
    match (lanesOf m).find? fun i => s.rd.lostIn (addr i) 4 with
    | some i => .next (s.lostRead (memInfo s.slot i 0 0 (addr i)))
    | none => .next (s.result 6 (land (VReg.gen fun i => if m.getLsbD i then s.rd.spad.word (addr i) else 0)))

/-- A vector store to the scratchpad, lane by lane in ascending order (R106), folded as `fold` gathers its writes. -/
def State.vstore (s : State) (m : Mask) (addr : Nat → Nat) (x : VReg)
    (fold : (Nat → DWord) → Nat → List Wr → DWord) : Out :=
  match laneFault m addr with
  | some (i, a, f) => .next (s.fault f (memInfo s.slot i 0 0 a))
  | none =>
    let l := (lanesOf m).map fun i => Wr.mk (addr i) 4 (x.lane i).toNat
    .next ((s.modCore fun c => l.foldl (fun c w => c.spadWrite w.a w.n w.v) c).folded (fold placeSpad s.sigma l))

/-- R105: the lane addresses of VLD, VST and VLDQ. -/
def rowAddr (a : DWord) (imm : BitVec 32) (i : Nat) : Nat := spadAddr a imm + 4 * i

/-- R105: the lane addresses of VLDS and VSTS. -/
def strideAddr (a b : DWord) (i : Nat) : Nat := (a + BitVec.ofNat 64 i * b).toNat

/-- R105: the lane addresses of VGTH and VSCT. -/
def indexAddr (a : DWord) (x : VReg) (i : Nat) : Nat := (a + (x.lane i).setWidth 64).toNat

/-- R105. -/
def execVld (d a : Reg) (imm : BitVec 32) (m : Gov) (s : State) : Out :=
  s.vload (s.rd.G m) (rowAddr (s.rd.S a) imm) fun x => .v d x (s.rd.G m)
/-- R105. -/
def execVst (d a : Reg) (imm : BitVec 32) (m : Gov) (s : State) : Out :=
  s.vstore (s.rd.G m) (rowAddr (s.rd.S a) imm) (s.rd.V d) fun p g l => foldWords p g 0 l
/-- R105. -/
def execVlds (d a b : Reg) (m : Gov) (s : State) : Out :=
  s.vload (s.rd.G m) (strideAddr (s.rd.S a) (s.rd.S b)) fun x => .v d x (s.rd.G m)
/-- R105. -/
def execVsts (d a b : Reg) (m : Gov) (s : State) : Out :=
  s.vstore (s.rd.G m) (strideAddr (s.rd.S a) (s.rd.S b)) (s.rd.V d) fun p g l => foldEach p g 0 l
/-- R105, R106. -/
def execVgth (d a b : Reg) (m : Gov) (s : State) : Out :=
  s.vload (s.rd.G m) (indexAddr (s.rd.S a) (s.rd.V b)) fun x => .v d x (s.rd.G m)
/-- R105, R106. -/
def execVsct (d a b : Reg) (m : Gov) (s : State) : Out :=
  s.vstore (s.rd.G m) (indexAddr (s.rd.S a) (s.rd.V b)) (s.rd.V d) fun p g l => foldEach p g 0 l
/-- R109. -/
def execVldq (d : QReg) (a : Reg) (imm : BitVec 32) (m : Gov) (s : State) : Out :=
  s.vload (s.rd.G m) (rowAddr (s.rd.S a) imm) fun x => .q d x (s.rd.G m)

/-! ## Global access (R107, R108) -/

/-- R107: the lowest active lane that fails a check of R53, with its offset. -/
def globLaneFault (m : Mask) (k : Cap) (o : Int) (right : Nat) (bad : List Nat) : Option (Nat × Int × Byte × Nat) :=
  (lanesOf m).findSome? fun (i : Nat) =>
    let x : Int := o + ((4 * i : Nat) : Int)
    (checkGlob k x 4 right bad).map fun f => (i, x, f.1, f.2)

/-- The items of a vector access, one for each active lane, or two where its word crosses a line. -/
def laneItems (m : Mask) (base : Nat) (o : Int) (data : Nat → Word) : List Item :=
  (lanesOf m).flatMap fun i =>
    Item.parts { lane := i, off := base + (o + ((4 * i : Nat) : Int)).toNat, width := 4, data := (data i).setWidth 64 }

/-- R107, R108. -/
def execVldg (d a : Reg) (cap : CReg) (imm : BitVec 26) (m : Gov) (s : State) : Out :=
  let o := globOff (s.rd.S a) imm
  let k := s.rd.C cap
  let g := s.rd.G m
  match globLaneFault g k o 0 loadBad with
  | some (i, x, f, r) => .next (s.fault f (memInfo s.slot i cap.toNat r (offLow x)))
  | none =>
    let l := byLine (laneItems g k.base o fun _ => 0)
    .next ((s.await (.v d g) .vload l.length []).loadLines cap s.fresh o l)

/-- R107, R108. -/
def execVstg (d a : Reg) (cap : CReg) (imm : BitVec 26) (m : Gov) (s : State) : Out :=
  let o := globOff (s.rd.S a) imm
  let k := s.rd.C cap
  let g := s.rd.G m
  match globLaneFault g k o 1 storeBad with
  | some (i, x, f, r) => .next (s.fault f (memInfo s.slot i cap.toNat r (offLow x)))
  | none =>
    let l := byLine (laneItems g k.base o fun i => (s.rd.V d).lane i)
    .next ((s.storeLines cap s.sigma o 0 l).folded 0)

/-! ## Masks (R110) -/

/-- A whole mask result. -/
def State.mres (s : State) (d : MReg) (x : Mask) : Out := .next (s.result 2 (.m d x allLanes))

/-- R110. -/
def execVmand (d a b : MReg) (s : State) : Out := s.mres d (s.rd.M a &&& s.rd.M b)
/-- R110. -/
def execVmor (d a b : MReg) (s : State) : Out := s.mres d (s.rd.M a ||| s.rd.M b)
/-- R110. -/
def execVmnot (d a : MReg) (s : State) : Out := s.mres d (~~~(s.rd.M a))
/-- R110. -/
def execVmpop (d : Reg) (a : MReg) (s : State) : Out := .next (s.resS 2 d (BitVec.ofNat 64 (popc (s.rd.M a) 256)))
/-- R110. -/
def execVmfst (d : Reg) (a : MReg) (s : State) : Out :=
  .next (s.resS 2 d (BitVec.ofNat 64 ((lanesOf (s.rd.M a)).headD 256)))
/-- R110. -/
def execVmset (d : MReg) (a b : Reg) (s : State) : Out :=
  s.mres d (maskOf (fun i => ((s.rd.S a).toNat ≤ i && i < (s.rd.S b).toNat, 0)) 256).1

end Sys2Proof.Machine
end

