-- ==== Sys2Proof/Machine/Coder.lean ====
section
/-! DEFINITION. The range-coder unit (R176 to R198): streams and probability registers, encoding and decoding steps,
and the coder class. -/

namespace Sys2Proof.Machine

open Sys2Proof

/-! ## Faults (R191, R192) -/

/-- R192: TRAPINFO of a coder fault. -/
def coderInfo (k reason detail : Nat) : DWord :=
  BitVec.ofNat 64 (k % 64 + reason * 2 ^ 8 + detail % 2 ^ 32 * 2 ^ 16)

/-- A coder fault: its cause and TRAPINFO. -/
abbrev CFault := Byte × DWord

/-- The stream fault. -/
def streamFault (k reason : Nat) (detail : Nat := 0) : CFault := (0x09, coderInfo k reason detail)
/-- The zero-probability fault. -/
def zeroFault (k s : Nat) : CFault := (0x08, coderInfo k 0 s)
/-- The overflow fault, with the CURSOR that the stream would have. -/
def overFault (k cursor : Nat) : CFault := (0x0A, coderInfo k 0 cursor)

/-- A coder fault is raised; a lost word of a window is the memory-error fault (R369). -/
def State.coderFault (s : State) (f : CFault) : State :=
  if f.1 = 0x13 then s.lostRead (f.2 ||| BitVec.ofNat 64 (s.slot % 8)) else s.fault f.1 f.2

/-! ## Encoding steps (R185, R187) -/

/-- A stream that is encoding: its cursor is kept as a number, and the bytes it emitted stand last first. -/
structure Enc where
  low    : Nat
  range  : Nat
  cache  : Nat
  pend   : Nat
  cursor : Nat
  limit  : Nat
  out    : List (Nat × Byte)
  deriving DecidableEq, Repr

/-- A stream as an encoding step sees it. -/
def Stream.enc (x : Stream) : Enc :=
  { low := x.low.toNat, range := x.range.toNat, cache := x.cache.toNat, pend := x.pend.toNat,
    cursor := x.cursor.toNat, limit := x.limit.toNat, out := [] }

/-- The stream after an encoding step. Of a LOW of 2^33 or more, which only an image that KREST accepted can lead to, the low
33 bits are stored (log entry 149). -/
def Stream.setEnc (x : Stream) (e : Enc) : Stream :=
  { x with low := BitVec.ofNat 33 e.low, range := BitVec.ofNat 32 e.range, cache := BitVec.ofNat 8 e.cache,
           pend := BitVec.ofNat 32 e.pend, cursor := BitVec.ofNat 32 e.cursor }

/-- R185, R187: one byte emitted by stream `k`. -/
def Enc.emit (k x : Nat) (e : Enc) : Except CFault Enc :=
  if e.cursor ≥ e.limit then .error (overFault k e.cursor)
  else .ok { e with cursor := e.cursor + 1, out := (e.cursor, BitVec.ofNat 8 x) :: e.out }

/-- A byte emitted `n` times. -/
def Enc.emitN (k x : Nat) : Nat → Enc → Except CFault Enc
  | 0, e => .ok e
  | n + 1, e => (e.emit k x).bind (Enc.emitN k x n)

/-- R185: SHIFTLOW. KREST accepts any LOW of 33 bits (R194), from which a step can reach 2^33 or more, which the rule's comment
rules out: the model keeps the wider number within the step (a carry of 2) (log entry 149). -/
def Enc.shiftLow (k : Nat) (e : Enc) : Except CFault Enc :=
  let shift := fun (e : Enc) => { e with pend := (e.pend + 1) % 2 ^ 32, low := e.low * 256 % 2 ^ 32 }
  if e.low < 0xFF000000 || e.low ≥ 2 ^ 32 then
    let carry := e.low / 2 ^ 32
    ((e.emit k (e.cache + carry)).bind (Enc.emitN k (0xFF + carry) (e.pend - 1))).map fun x =>
      shift { x with cache := e.low / 2 ^ 24 % 256, pend := 0 }
  else .ok (shift e)

/-- R185: renormalisation, at most two passes. -/
def Enc.renorm (k : Nat) : Nat → Enc → Except CFault Enc
  | 0, e => .ok e
  | n + 1, e =>
    if e.range < 2 ^ 24 then (e.shiftLow k).bind fun x => Enc.renorm k n { x with range := x.range * 256 } else .ok e

/-- R187: after an encoding step, every byte still held back has room. -/
def Enc.room (k : Nat) (e : Enc) : Except CFault Enc :=
  if e.cursor + e.pend > e.limit then .error (overFault k e.cursor) else .ok e

/-- An interval narrowed to `w` units of `r` from `c` on, and renormalised. -/
def Enc.narrow (k r c w : Nat) (e : Enc) : Except CFault Enc :=
  ((Enc.renorm k 2 { e with low := e.low + r * c, range := r * w }).bind) (Enc.room k)

/-! ## Decoding steps (R184, R188) -/

/-- A stream that is decoding. -/
structure Dec where
  code   : Nat
  range  : Nat
  exh    : Bool
  cursor : Nat
  limit  : Nat
  deriving DecidableEq, Repr

/-- A stream as a decoding step sees it. -/
def Stream.dec (x : Stream) : Dec :=
  { code := x.low.toNat % 2 ^ 32, range := x.range.toNat, exh := x.exh, cursor := x.cursor.toNat,
    limit := x.limit.toNat }

/-- The stream after a decoding step. -/
def Stream.setDec (x : Stream) (d : Dec) : Stream :=
  { x with low := BitVec.ofNat 33 (d.code % 2 ^ 32), range := BitVec.ofNat 32 d.range, exh := d.exh,
           cursor := BitVec.ofNat 32 d.cursor }

/-- R184: nextbyte. -/
def Dec.next (c : Core) (d : Dec) : Except CFault (Nat × Dec) :=
  if d.cursor < d.limit then
    if c.lostIn d.cursor 1 then .error (0x13, memInfo 0 0 0 0 d.cursor)
    else .ok ((c.spad.read d.cursor).toNat, { d with cursor := d.cursor + 1 })
  else .ok (0, { d with exh := true })

/-- R188: renormalisation, at most two passes. -/
def Dec.renorm (c : Core) : Nat → Dec → Except CFault Dec
  | 0, d => .ok d
  | n + 1, d =>
    if d.range < 2 ^ 24 then
      (d.next c).bind fun x => Dec.renorm c n { x.2 with code := (d.code * 256 + x.1) % 2 ^ 32, range := d.range * 256 }
    else .ok d

/-- An interval narrowed to `w` units of `r` from `t` on, and renormalised. -/
def Dec.narrow (c : Core) (r t w : Nat) (d : Dec) : Except CFault Dec :=
  Dec.renorm c 2 { d with code := d.code - r * t, range := r * w }

/-! ## Rows (R178) -/

/-- The frequencies of a row. -/
def PRow.freqs (r : PRow) : List Nat := r.toList.map BitVec.toNat

/-- R178. -/
def Prob.wellFormed (p : Prob) (k : Nat) : Bool :=
  let f := (p.rows.get (BitVec.ofNat 6 k)).freqs
  let a := p.alpha.toNat + 1
  (f.take a).sum = 4096 && (f.drop a).all (· == 0)

/-- R178: the cumulative value of symbol `s`. -/
def cumul (f : List Nat) (s : Nat) : Nat := (f.take s).sum

/-- R188: the symbol whose interval holds `t`, from the frequencies of the symbols from `s` on and their cumulative
value. -/
def symbolAt (t : Nat) : List Nat → Nat → Nat → Nat
  | [], s, _ => s
  | f :: l, s, c => if t < c + f then s else symbolAt t l (s + 1) (c + f)

/-! ## Group forms (R180, R181, R191) -/

/-- R180: the active lanes of a group from stream `f`, ascending. -/
def groupLanes (w : Bool) (m : Mask) (f : Nat) : List Nat :=
  (upTo (if w then 16 else 8)).filter fun j => m.getLsbD j && f + j ≤ 63

/-- A group's work: the streams it has stepped, the lanes of its vector result, and its window writes. -/
structure Work where
  k   : File 6 Stream
  out : List (Nat × Nat)
  wr  : List (Nat × Byte)

/-- The lanes of a group in order; `step` is one stream's whole step, with its lane's result and its window writes, last
first. -/
def runGroup (f : Nat) (step : Nat → Nat → Stream → Except CFault (Stream × Nat × List (Nat × Byte))) :
    List Nat → Work → Except CFault Work
  | [], x => .ok x
  | j :: l, x =>
    (step j (f + j) (x.k.get (BitVec.ofNat 6 (f + j)))).bind fun r =>
      runGroup f step l { k := x.k.put (BitVec.ofNat 6 (f + j)) r.1, out := (j, r.2.1) :: x.out,
                          wr := x.wr ++ r.2.2.reverse }

/-- Window writes as digest items. -/
def byteWrs (l : List (Nat × Byte)) : List Wr := l.map fun x => { a := x.1, n := 1, v := x.2.toNat }

/-- R182, R198: the streams and window bytes of a coder slot change at issue; an encoding form folds its bytes. -/
def State.coded (s : State) (k : File 6 Stream) (wr : List (Nat × Byte)) (folds : Bool) : State :=
  let s1 := s.modCore fun c =>
    let c := wr.foldl (fun (c : Core) x => c.spadWrite x.1 1 x.2.toNat) c
    { c with ctx := { c.ctx with regs := { c.ctx.regs with k } } }
  if folds then s1.folded (foldEach placeSpad s.sigma 0 (byteWrs wr)) else s1

/-- A group form of the current slot; `dst` is its vector destination. -/
def State.group (s : State) (w : Bool) (m : BitVec 2) (f : Reg) (dst : Option Reg) (folds : Bool)
    (step : Nat → Nat → Stream → Except CFault (Stream × Nat × List (Nat × Byte))) : Out :=
  let lanes := groupLanes w (s.rd.M (m.setWidth 4)) f.toNat
  match runGroup f.toNat step lanes { k := s.rd.ctx.regs.k, out := [], wr := [] } with
  | .error e => .next (s.coderFault e)
  | .ok x =>
    let s1 := (s.coded x.k x.wr folds).count 8 lanes.length
    match dst with
    | some d =>
      let v := VReg.gen fun i => BitVec.ofNat 32 ((look x.out i).getD 0)
      .next (s1.result 6 (.v d v (maskOf (fun i => (lanes.contains i, 0)) 16).1))
    | none => .next s1

/-- R185: KENC of stream `k`. -/
def encStep (p : Prob) (x : Nat) (k : Nat) (st : Stream) : Except CFault (Stream × Nat × List (Nat × Byte)) :=
  let f := (p.rows.get (BitVec.ofNat 6 k)).freqs
  if st.mode ≠ 1 then .error (streamFault k 1)
  else if !p.wellFormed k then .error (streamFault k 2)
  else if x > p.alpha.toNat then .error (streamFault k 5 x)
  else if f.getD x 0 = 0 then .error (zeroFault k x)
  else (st.enc.narrow k (st.range.toNat / 2 ^ 12) (cumul f x) (f.getD x 0)).map fun e => (st.setEnc e, 0, e.out)

/-- R188: KDEC of stream `k`. -/
def decStep (c : Core) (p : Prob) (k : Nat) (st : Stream) : Except CFault (Stream × Nat × List (Nat × Byte)) :=
  let f := (p.rows.get (BitVec.ofNat 6 k)).freqs
  let r := st.range.toNat / 2 ^ 12
  let t := st.dec.code / r
  if st.mode ≠ 2 then .error (streamFault k 1)
  else if !p.wellFormed k then .error (streamFault k 2)
  else if t ≥ 4096 then .error (streamFault k 3 t)
  else
    let x := symbolAt t f 0 0
    (st.dec.narrow c r (cumul f x) (f.getD x 0)).map fun d => (st.setDec d, x, [])

/-- R190: KBYP.e of stream `k` with `n` bits. -/
def bypEStep (n x : Nat) (k : Nat) (st : Stream) : Except CFault (Stream × Nat × List (Nat × Byte)) :=
  if st.mode ≠ 1 then .error (streamFault k 1)
  else (st.enc.narrow k (st.range.toNat / 2 ^ n) (x % 2 ^ n) 1).map fun e => (st.setEnc e, 0, e.out)

/-- R190: KBYP.d of stream `k` with `n` bits. -/
def bypDStep (c : Core) (n : Nat) (k : Nat) (st : Stream) : Except CFault (Stream × Nat × List (Nat × Byte)) :=
  let r := st.range.toNat / 2 ^ n
  let t := st.dec.code / r
  if st.mode ≠ 2 then .error (streamFault k 1)
  else if t ≥ 2 ^ n then .error (streamFault k 3 t)
  else (st.dec.narrow c r t 1).map fun d => (st.setDec d, t, [])

/-- R189: KTGT of stream `k`. -/
def tgtStep (k : Nat) (st : Stream) : Except CFault (Stream × Nat × List (Nat × Byte)) :=
  if st.mode ≠ 2 then .error (streamFault k 1) else .ok (st, st.dec.code / (st.range.toNat / 2 ^ 12), [])

/-- R185. -/
def execKenc (d a : Reg) (p : PReg) (w : Bool) (m : BitVec 2) (s : State) : Out :=
  s.group w m d none true fun j => encStep (s.rd.ctx.regs.p.get p) ((s.rd.V a).lane j).toNat
/-- R188. -/
def execKdec (d a : Reg) (p : PReg) (w : Bool) (m : BitVec 2) (s : State) : Out :=
  s.group w m a (some d) false fun _ => decStep s.rd (s.rd.ctx.regs.p.get p)
/-- R190. -/
def execKbypE (d a : Reg) (n : BitVec 4) (w : Bool) (m : BitVec 2) (s : State) : Out :=
  s.group w m d none true fun j => bypEStep (n.toNat + 1) ((s.rd.V a).lane j).toNat
/-- R190. -/
def execKbypD (d a : Reg) (n : BitVec 4) (w : Bool) (m : BitVec 2) (s : State) : Out :=
  s.group w m a (some d) false fun _ => bypDStep s.rd (n.toNat + 1)
/-- R189. -/
def execKtgt (d a : Reg) (w : Bool) (m : BitVec 2) (s : State) : Out := s.group w m a (some d) false fun _ => tgtStep

/-! ## Single streams (R183, R184, R186, R193, R194) -/

/-- One stream written at issue. -/
def State.setStream (s : State) (d : Reg) (st : Stream) : State :=
  s.modCtx fun x => { x with regs := { x.regs with k := x.regs.k.put d st } }

/-- R183. -/
def execKbind (d a b : Reg) (s : State) : Out :=
  let x := s.rd.S a
  let y := s.rd.S b
  if y.toNat > spadSize then .next (s.fault 0x05 (memInfo s.slot 0 0 0 y.toNat))
  else if x.toNat > y.toNat then .next (s.fault 0x05 (memInfo s.slot 0 0 0 x.toNat))
  else .next (s.setStream d { s.rd.ctx.regs.k.get d with cursor := x.setWidth 32, limit := y.setWidth 32, mode := 0,
                                                          exh := false })

/-- R184. -/
def execKinitEnc (d : Reg) (s : State) : Out :=
  let st := s.rd.ctx.regs.k.get d
  if st.cursor.toNat + 1 > st.limit.toNat then .next (s.coderFault (overFault d.toNat st.cursor.toNat))
  else .next (s.setStream d { st with mode := 1, low := 0, range := BitVec.allOnes 32, cache := 0, pend := 1,
                                      exh := false })

/-- R184: the four bytes of CODE, first byte highest. -/
def Dec.fill (c : Core) : Nat → Dec → Except CFault Dec
  | 0, d => .ok d
  | n + 1, d => (d.next c).bind fun x => Dec.fill c n { x.2 with code := d.code * 256 + x.1 }

/-- R184. -/
def execKinitDec (d : Reg) (s : State) : Out :=
  let st := s.rd.ctx.regs.k.get d
  let r := (({ st.dec with exh := false } : Dec).next s.rd).bind fun x =>
    if x.1 ≠ 0 then .error (streamFault d.toNat 4 x.1) else Dec.fill s.rd 4 { x.2 with code := 0 }
  match r with
  | .error e => .next (s.coderFault e)
  | .ok x => .next (s.setStream d { st.setDec { x with range := 0xFFFFFFFF } with mode := 2, cache := 0, pend := 0 })

/-- Five SHIFTLOWs (R186). -/
def Enc.flush (k : Nat) : Nat → Enc → Except CFault Enc
  | 0, e => .ok e
  | n + 1, e => (e.shiftLow k).bind (Enc.flush k n)

/-- R186. -/
def execKflush (d : Reg) (s : State) : Out :=
  let st := s.rd.ctx.regs.k.get d
  if st.mode ≠ 1 then .next (s.coderFault (streamFault d.toNat 1))
  else match Enc.flush d.toNat 5 st.enc with
    | .error e => .next (s.coderFault e)
    | .ok e => .next (s.coded (s.rd.ctx.regs.k.put d { st.setEnc e with mode := 0 }) e.out.reverse true)

/-- R176: the image of a stream. -/
def Stream.image (x : Stream) : Nat :=
  x.low.toNat + x.mode.toNat * 2 ^ 33 + x.exh.toNat * 2 ^ 35 + x.range.toNat * 2 ^ 64 + x.cache.toNat * 2 ^ 96
    + x.pend.toNat * 2 ^ 128 + x.cursor.toNat * 2 ^ 160 + x.limit.toNat * 2 ^ 192

/-- R176: the stream of an image. -/
def Stream.ofImage (v : Nat) : Stream :=
  { low := BitVec.ofNat 33 v, mode := BitVec.ofNat 2 (v / 2 ^ 33), exh := v.testBit 35,
    range := BitVec.ofNat 32 (v / 2 ^ 64), cache := BitVec.ofNat 8 (v / 2 ^ 96), pend := BitVec.ofNat 32 (v / 2 ^ 128),
    cursor := BitVec.ofNat 32 (v / 2 ^ 160), limit := BitVec.ofNat 32 (v / 2 ^ 192) }

/-- R194: an image that KREST accepts. -/
def validImage (v : Nat) : Bool :=
  let x := Stream.ofImage v
  x.mode != 3 && v == x.image && !(x.mode == 2 && x.low.getLsbD 32) && x.cursor.toNat ≤ x.limit.toNat
    && x.limit.toNat ≤ spadSize && !((x.mode == 1 || x.mode == 2) && x.range.toNat < 2 ^ 24)
    && !(x.mode == 1 && x.cursor.toNat + x.pend.toNat > x.limit.toNat)

/-- R194: the fault of an image's address. -/
def imageFault (a : Nat) : Option Byte :=
  if a + 32 > spadSize then some 0x05 else if a % 8 ≠ 0 then some 0x04 else none

/-- R194. -/
def execKsave (d a : Reg) (imm : BitVec 32) (s : State) : Out :=
  let x := spadAddr (s.rd.S a) imm
  match imageFault x with
  | some f => .next (s.fault f (memInfo s.slot 0 0 0 x))
  | none =>
    let v := (s.rd.ctx.regs.k.get d).image
    let l := (upTo 4).map fun i => Wr.mk (x + 8 * i) 8 (v / 2 ^ (64 * i) % 2 ^ 64)
    .next ((s.modCore fun c => c.spadWrite x 32 v).folded (foldEach placeSpad s.sigma 0 l))

/-- R194. -/
def execKrest (d a : Reg) (imm : BitVec 32) (s : State) : Out :=
  let x := spadAddr (s.rd.S a) imm
  match imageFault x with
  | some f => .next (s.fault f (memInfo s.slot 0 0 0 x))
  | none =>
    let v := s.rd.spadRead x 32
    if s.rd.lostIn x 32 then .next (s.lostRead (memInfo s.slot 0 0 0 x))
    else if !validImage v then .next (s.coderFault (streamFault d.toNat 6))
    else .next (s.setStream d (Stream.ofImage v))

/-- R193. -/
def execKstat (d a : Reg) (sel : BitVec 3) (s : State) : Out :=
  let x := s.rd.ctx.regs.k.get a
  .next (s.resS 6 d (match sel.toNat with
    | 0 => BitVec.ofNat 64 (x.mode.toNat + x.exh.toNat * 4)
    | 1 => x.low.setWidth 64
    | 2 => x.range.setWidth 64
    | 3 => x.cache.setWidth 64
    | 4 => x.pend.setWidth 64
    | 5 => x.cursor.setWidth 64
    | _ => x.limit.setWidth 64))

/-! ## Probability registers (R195 to R197) -/

/-- A row from its first frequencies, the others zero. -/
def PRow.of (l : List Nat) : PRow := File.gen 4 fun i => BitVec.ofNat 12 (l.getD i 0)

/-- R197: the frequencies of nonnegative dyadic entries; none where the row cannot be coded. -/
def normalise (p : List Dy) : Option (List Nat) :=
  let low := p.foldl (fun m x => min m x.e) 0
  let n := p.map fun x => (x.m * 2 ^ (x.e - low).toNat).toNat
  let m := (n.filter (· != 0)).length
  let total := n.sum
  if m < 2 then none
  else
    let x := n.map fun v => if v = 0 then (0, 0) else (1 + v * (4096 - m) / total, v * (4096 - m) % total)
    let left := 4096 - (x.map fun v => v.1).sum
    some ((upTo x.length).map fun i =>
      let a := x.getD i (0, 0)
      let ahead := ((upTo x.length).filter fun j =>
        let b := x.getD j (0, 0)
        b.1 != 0 && (b.2 > a.2 || (b.2 = a.2 && j < i))).length
      if a.1 ≠ 0 && ahead < left then a.1 + 1 else a.1)

/-- The row of a form, with its NV bit. -/
def rowOf (l : List Word) : Option (List Nat) → BitVec 6 → PRow × BitVec 6
  | some f, nv => (PRow.of f, nv)
  | none, _ => (PRow.of (l.map fun _ => 0), fNV)

/-- R196. -/
def pldRow (l : List Word) : PRow × BitVec 6 := (PRow.of (l.map fun x => x.toNat % 2 ^ 12), 0)

/-- R197: a row of FP32 probabilities. -/
def pqntRow (l : List Word) : PRow × BitVec 6 :=
  let v := l.map fun x => Fmt.f32.decode x.toNat
  let bad := fun (x : Val) => x.isNan || (x.neg && !x.isZero)
  let nv := flagIf (v.any bad) fNV
  if v.any (Val.isInf false) then (PRow.of [], fNV)
  else rowOf l (normalise (v.map fun x => if bad x then ⟨0, 0⟩ else x.dy)) nv

/-- R197: a row of counts. -/
def pnrmRow (l : List Word) : PRow × BitVec 6 := rowOf l (normalise (l.map fun x => ⟨x.toNat, 0⟩)) 0

/-- R195: a form fills its rows of a P register. Where a row sets FLAGS.NV (R197) and an SSET of the same bundle clears it, no
rule says which stands: the later slot's write does here (log entry 150). -/
def State.fillRows (s : State) (d : PReg) (a alpha : Reg) (rows : BitVec 3) (f : List Word → PRow × BitVec 6) : State :=
  let src := fun (k : Nat) =>
    let v := s.rd.V (if rows = 0 then a + BitVec.ofNat 6 (k / 16) else a)
    (upTo alpha.toNat).map fun n => v.lane (16 * (k % 16) + n)
  let old := s.rd.ctx.regs.p.get d
  let new : File 6 (PRow × BitVec 6) := File.gen 6 fun k =>
    if rows = 0 || k / 16 + 1 = rows.toNat then f (src k) else (old.rows.get (BitVec.ofNat 6 k), 0)
  s.modCtx fun x =>
    let p : Prob := { rows := new.map fun r => r.1, alpha := (alpha - 1).setWidth 4 }
    ({ x with regs := { x.regs with p := x.regs.p.put d p } } : Ctx).raise (new.foldl (fun b r => b ||| r.2) 0)

/-- R196. -/
def execPld (d : PReg) (a alpha : Reg) (rows : BitVec 3) (s : State) : Out := .next (s.fillRows d a alpha rows pldRow)
/-- R197. -/
def execPqnt (d : PReg) (a alpha : Reg) (rows : BitVec 3) (s : State) : Out := .next (s.fillRows d a alpha rows pqntRow)
/-- R197. -/
def execPnrm (d : PReg) (a alpha : Reg) (rows : BitVec 3) (s : State) : Out := .next (s.fillRows d a alpha rows pnrmRow)

end Sys2Proof.Machine
end

