-- ==== Sys2Proof/Machine/Copy.lean ====
section
/-! DEFINITION. The copy engines (R133 to R155) and multicast fill (R230 to R232): the checks at issue, the forms, and
the word steps, claims, fills, chain walks and host completions of their operations. -/

namespace Sys2Proof.Machine

open Sys2Proof

/-! ## Shapes (R138, R140) -/

/-- A payload moves (R139). -/
def Shape.moves (h : Shape) : Bool := h.rows != 0 && h.rowb != 0

/-- Words in a row. -/
def Shape.wpr (h : Shape) : Nat := h.rowb / 4

/-- Words in the payload. -/
def Shape.words (h : Shape) : Nat := if h.moves then h.rows * h.wpr else 0

/-- The extent of the payload at a pitch (R139). -/
def Shape.ext (h : Shape) (pitch : Nat) : Nat := if h.moves then (h.rows - 1) * pitch + h.rowb else 0

/-- R140: the scratchpad address of word `n` of a payload at `sp`. -/
def Shape.sAt (h : Shape) (sp n : Nat) : Nat := sp + n / h.wpr * h.spitch + n % h.wpr * 4

/-- R140: the object offset of word `n` of a payload at `g`. -/
def Shape.gAt (h : Shape) (g n : Nat) : Nat := g + n / h.wpr * h.gpitch + n % h.wpr * 4

/-- The lowest byte that the row of word `n` has in that word's line. -/
def Shape.first (h : Shape) (g n : Nat) : Nat := max (h.gAt g n / 64 * 64) (g + n / h.wpr * h.gpitch)

/-- A leaf is touched by a payload at `g`. -/
def Shape.touches (h : Shape) (g : Nat) (t : Xlat) : Bool :=
  h.moves && (upTo h.rows).any fun r =>
    let a := g + r * h.gpitch
    t.oframe * 2 ^ 21 < a + h.rowb && a < (t.oframe + t.n0 * t.n1 * t.n2) * 2 ^ 21

/-! ## Operand groups (R138) -/

/-- Register `i` of the operand group at Sn. -/
def Core.group (c : Core) (n : Reg) (i : Nat) : DWord := c.S (n + BitVec.ofNat 6 i)

/-- R138: the shape that an operand group gives. -/
def Core.shape (c : Core) (n : Reg) (shape : Bool) : Shape :=
  let a := c.group n 0
  if shape then
    let b := c.group n 1
    { rows := (a.extractLsb' 24 16).toNat, rowb := (a.extractLsb' 0 24).toNat, spitch := (b.extractLsb' 0 20).toNat,
      gpitch := (b.extractLsb' 20 44).toNat }
  else { rows := 1, rowb := a.toNat, spitch := 0, gpitch := 0 }

/-- R138: the flag word and its value, from register `i` of the group. -/
def Core.flagArg (c : Core) (n : Reg) (i : Nat) (flag : Bool) : Option (Nat × DWord) :=
  if flag then some ((c.group n i).toNat, c.group n (i + 1)) else none

/-! ## Checks at issue (R139) -/

/-- R139, checks 1 to 3: the cause, REASON and ADDR of the first that fails. `need` lists the rights and `kinds` the
kinds of the form; no `sp` is checked where the form has none. -/
def copyFault (k : Cap) (need kinds : List Nat) (sp : Option Nat) (h : Shape) (o : Int) (flag : Option (Nat × DWord)) :
    Option (Byte × Nat × Nat) :=
  let fa := match flag with
    | some (a, _) => a
    | none => 0
  let odd := ((if h.moves then
      (match sp with
        | some x => [(x % 4, offLow x)]
        | none => []) ++ [((o % 4).toNat, offLow o)] else [])
    ++ ((if flag.isSome then [(fa % 8, fa)] else [])
    ++ (if h.moves then [(h.rowb % 4, h.rowb), (h.spitch % 4, h.spitch), (h.gpitch % 4, h.gpitch)] else []))).find?
      fun x => x.1 != 0
  if h.moves && (match sp with
      | some x => x + h.ext h.spitch > spadSize
      | none => false) then some (0x05, 0, sp.getD 0)
  else if flag.isSome && fa + 8 > spadSize then some (0x05, 0, fa)
  else match odd with
    | some (_, x) => some (0x04, 0, x)
    | none =>
      if !h.moves then none
      else if o < 0 || o + h.ext h.gpitch > k.len then some (0x03, 1, offLow o)
      else if !need.all k.has then some (0x03, 2, offLow o)
      else if !kinds.contains k.kind then some (0x03, 3, offLow o)
      else none

/-- R139: the rights and kinds of a form that moves one payload. -/
def CopyForm.needs : CopyForm → List Nat × List Nat
  | .ld => ([4], [0, 1, 2, 3])
  | .st => ([5], [0, 1, 2, 3])
  | .red _ => ([5, 3], [0, 1, 3])
  | .hostIn => ([4], [4])
  | .hostOut => ([5], [4])

/-- A form writes global memory. -/
def CopyForm.writes : CopyForm → Bool
  | .st => true
  | .red _ => true
  | _ => false

/-- A form lands in the scratchpad. -/
def CopyForm.lands : CopyForm → Bool
  | .ld => true
  | .hostIn => true
  | _ => false

/-- R29, R123: the physical copy engine of the current slot. -/
def State.ceInst (s : State) : Nat := (s.rd.engmap.extractLsb' (4 + s.ord) 1).toNat

/-- R136: the checked offset of an operand word. -/
def Core.xOff (c : Core) (b : Reg) (w : XWord) : Int := sv (c.S b) + w.off.toInt

/-- A copy of one payload starts. -/
def State.startCopy (s : State) (t : Tok) (form : CopyForm) (sp : Nat) (h : Shape) (v : Via) (g : Nat)
    (flag : Option (Nat × DWord)) (ring : Option Nat) : State :=
  let n := h.words
  let s := match form with
    | .red _ => s.modTask fun t => { t with tied := true }
    | _ => s
  let op := Op.new s.fresh t s.ceInst (.copy form sp h v g flag ring) s.sigma
  let xls := if form.lands || form.writes then s.rd.takeXlats v form.writes (h.touches g) else []
  s.startFolded { op with toRead := upTo n, toWrite := upTo n, claimed := ring.isNone, filled := ring.isNone,
                          flagged := flag.isNone, xls }

/-- R139: a copy that lands or leaves at scratchpad address `sp`. -/
def State.copyAt (s : State) (t : Tok) (form : CopyForm) (sp : Nat) (b : Reg) (shape flag : Bool) (w : XWord)
    (ring : Option Ring) : Out :=
  let h := s.rd.shape w.n shape
  let fl := s.rd.flagArg w.n (if shape then 2 else 1) flag
  let o := s.rd.xOff b w
  let k := s.rd.C w.cap
  match copyFault k form.needs.1 form.needs.2 (some sp) h o fl with
  | some (f, r, a) => .next (s.fault f (memInfo s.slot 0 w.cap.toNat r a))
  | none =>
    match ring with
    | some r =>
      if h.ext h.spitch > (s.rd.ringD r.toNat).slotsz then .next (s.fault 0x06 (ringInfo r 3))
      else .next (s.startCopy t form sp h (s.rd.via k) (k.base + o.toNat) fl (some r.toNat))
    | none => .next (s.startCopy t form sp h (s.rd.via k) (k.base + o.toNat) fl none)

/-! ## Forms -/

/-- R137, R140. -/
def execXld (t : Tok) (a b : Reg) (ring shape flag : Bool) (w : XWord) (toks : List Tok) (s : State) : Out :=
  s.gate t toks fun s =>
    if ring then
      let r : Ring := a.setWidth 3
      let d := s.rd.ringD r.toNat
      if s.rd.lostIn (ringAddr r.toNat) 32 then .next (s.lostRead (memInfo s.slot 0 w.cap.toNat 0 (ringAddr r.toNat)))
      else if !d.valid then .next (s.fault 0x06 (ringInfo r 1))
      else s.copyAt t .ld (d.slotAddr d.wp) b shape flag w (some r)
    else s.copyAt t .ld (s.rd.S a).toNat b shape flag w none
/-- R137, R140. -/
def execXst (t : Tok) (a b : Reg) (shape flag : Bool) (w : XWord) (toks : List Tok) (s : State) : Out :=
  s.gate t toks fun s => s.copyAt t .st (s.rd.S a).toNat b shape flag w none
/-- R137, R140. -/
def execXred (t : Tok) (a b : Reg) (int shape flag : Bool) (w : XWord) (toks : List Tok) (s : State) : Out :=
  s.gate t toks fun s => s.copyAt t (.red int) (s.rd.S a).toNat b shape flag w none
/-- R137, R153. -/
def execXhost (t : Tok) (a b : Reg) (out shape flag : Bool) (w : XWord) (toks : List Tok) (s : State) : Out :=
  s.gate t toks fun s =>
    s.copyAt t (if out then .hostOut else .hostIn) (s.rd.S a).toNat b shape flag w none

/-- R150: the record goes to channel `ch`, with a copy of C0 to C15. -/
def execXchain (t : Tok) (a : Reg) (ch : Bool) (toks : List Tok) (s : State) : Out :=
  s.gate t toks fun s =>
    let x := (s.rd.S a).toNat
    if x % 64 ≠ 0 then .next (s.fault 0x04 (memInfo s.slot 0 0 0 x))
    else if x + 64 > spadSize then .next (s.fault 0x05 (memInfo s.slot 0 0 0 x))
    else
      let caps := (upTo 16).map fun i => s.rd.C (BitVec.ofNat 4 i)
      let op := Op.new s.fresh t s.ceInst (.chain ch.toNat x caps none) s.sigma
      .next (s.startFolded { op with claimed := true, filled := true })

/-- R155: what drops a hint at issue. The table of R139 has no row for a hint: the model checks it as the source of a local
copy (read right, kinds 0, 1 and 2), so a hint through a remote capability is dropped (log entry 43). -/
def hintBad (k : Cap) (o : Int) (n : Nat) (big : Bool) : Bool :=
  (copyFault k [4] [0, 1, 2] none { rows := 1, rowb := n, spitch := 0, gpitch := 0 } o none).isSome
    || (big && n > 0x1000000)

/-- A hint starts; a dropped one waits only for its Resolve step. -/
def State.startHint (s : State) (t : Tok) (kind : OpKind) (bad : Bool) (lines : List Nat) (xls : List Xlat) : State :=
  let op := Op.new s.fresh t s.ceInst kind 0
  s.start { op with toRead := if bad then [] else lines, claimed := true, filled := true, flagged := true,
                    drop := bad, xls }

/-- R154: the 64-byte lines that `n` bytes from `g` cover. -/
def linesOf (g n : Nat) : List Nat := if n = 0 then [] else (upTo ((g + n - 1) / 64 - g / 64 + 1)).map fun i => g / 64 + i

/-- R154, R155. -/
def execXpf (t : Tok) (b : Reg) (lvl : Bool) (w : XWord) (toks : List Tok) (s : State) : Out :=
  s.gate t toks fun s =>
    let k := s.rd.C w.cap
    let o := s.rd.xOff b w
    let n := (s.rd.S w.n).toNat
    let g := k.base + o.toNat
    let v := s.rd.via k
    let h : Shape := { rows := 1, rowb := n, spitch := 0, gpitch := 0 }
    .next (s.startHint t (.prefetch lvl v g n) (hintBad k o n true) (linesOf g n) (s.rd.takeXlats v false (h.touches g)))

/-- R154, R155. -/
def execXres (t : Tok) (b : Reg) (lvl : Bool) (w : XWord) (toks : List Tok) (s : State) : Out :=
  s.gate t toks fun s =>
    let k := s.rd.C w.cap
    let o := s.rd.xOff b w
    let n := (s.rd.S w.n).toNat
    .next (s.startHint t (.residency lvl (s.rd.via k) (k.base + o.toNat) n) (hintBad k o n false) [] [])

/-- R230: the multicast group of a partition on a die. -/
def Part.members (p : Part) (die : Nat) : List Nat := (look p.mcast die).getD []

/-- The destinations that a mask names, in ascending member index. -/
def mcDests (l : List Nat) (mask : DWord) (sp n : Nat) (ring flag : Bool) : List McDest :=
  (upTo 64).filterMap fun i =>
    match l[i]? with
    | some c => if mask.getLsbD i then
        some { member := i, core := c, sp, slot := none, claimed := !ring, ovr := false, left := upTo n, filled := !ring,
               flagged := !flag }
      else none
    | none => none

/-- R230, R231. -/
def execXmc (t : Tok) (a b : Reg) (ring shape flag : Bool) (w : XWord) (toks : List Tok) (s : State) : Out :=
  s.gate t toks fun s =>
    let h := s.rd.shape w.n shape
    let i := if shape then 2 else 1
    let mask := s.rd.group w.n i
    let compl := s.rd.group w.n (i + 1)
    let fl := s.rd.flagArg w.n (i + 2) flag
    let o := s.rd.xOff b w
    let k := s.rd.C w.cap
    let r : Ring := a.setWidth 3
    let sp := (s.rd.S a).toNat
    let grp := (s.part s.rd.pid).members (s.cur.val / 80)
    let bar := if compl.getLsbD 4 then some (compl.extractLsb' 0 4).toNat else none
    match copyFault k [4] [0, 1, 2] (if ring then none else some sp) h o fl with
    | some (f, x, y) => .next (s.fault f (memInfo s.slot 0 w.cap.toNat x y))
    | none =>
      match (upTo 64).find? fun i => mask.getLsbD i && grp.length ≤ i with
      | some i => .next (s.fault 0x03 (memInfo s.slot 0 w.cap.toNat 1 i))
      | none =>
        if ring && s.rd.lostIn (ringAddr r.toNat) 32 then
          .next (s.lostRead (memInfo s.slot 0 w.cap.toNat 0 (ringAddr r.toNat)))
        else if ring && !(s.rd.ringD r.toNat).valid then .next (s.fault 0x06 (ringInfo r 1))
        else if mask = 0 then .next ((s.folded 0).resolveNow t s.ceInst)
        else
          let v := s.rd.via k
          let g := k.base + o.toNat
          let ds := mcDests grp mask sp h.words ring flag
          let op := Op.new s.fresh t s.ceInst (.multi h v g fl (if ring then some r.toNat else none) ds bar) s.sigma
          .next (s.startFolded { op with toRead := upTo h.words, claimed := true, filled := true, flagged := true,
                                         xls := s.rd.takeXlats v false (h.touches g) })

/-! ## Claims and fills (R145, R232) -/

/-- The rings that an operation of core `c` has still to claim. -/
def Op.ringsDue (op : Op) (c : Nat) : List (Nat × Nat) :=
  match op.kind with
  | .copy _ _ _ _ _ _ (some r) => if op.claimed || op.drop then [] else [(c, r)]
  | .multi _ _ _ _ (some r) ds _ => if op.drop then [] else (ds.filter fun d => !d.claimed).map fun d => (d.core, r)
  | _ => []

/-- R145, R232: an earlier operation of the core has still to claim the ring. -/
def State.claimBehind (s : State) (c k : Nat) (ring : Nat × Nat) : Bool :=
  ((s.coreAt c).ctx.ops.take k).any fun o => (o.ringsDue c).contains ring

/-- A copy's claim: it takes its slot, or its landing is suppressed. -/
def State.claimOne (s : State) (c k : Nat) (form : CopyForm) (h : Shape) (v : Via) (g : Nat)
    (fl : Option (Nat × DWord)) (r : Nat) : State :=
  let (x, core) := (s.coreAt c).ringClaim r (h.ext h.spitch)
  let s := s.modAt c fun _ => core
  match x with
  | .error e => s.failOp c k e 0
  | .ok (slot, sp) => s.modOp c k fun o => { o with kind := .copy form sp h v g fl (some r), claimed := true, slot }

/-- A destination after its claim. -/
def McDest.claim (x : Except (BitVec 4) (Nat × Nat)) (d : McDest) : McDest :=
  match x with
  | .ok (slot, sp) => { d with claimed := true, slot := some slot, sp }
  | .error _ => { d with claimed := true, ovr := true, left := [], filled := true, flagged := true }

/-- A multicast's claim on destination `i`; the others proceed whatever comes of it (R232). -/
def State.claimDest (s : State) (c k i : Nat) (h : Shape) (v : Via) (g : Nat) (fl : Option (Nat × DWord)) (r : Nat)
    (ds : List McDest) (bar : Option Nat) (d : McDest) : State :=
  let (x, core) := (s.coreAt d.core).ringClaim r (h.ext h.spitch)
  let s := s.modAt d.core fun _ => core
  let ds := changeAt ds i (McDest.claim x)
  s.modOp c k fun o =>
    { o with kind := .multi h v g fl (some r) ds bar,
             err := match x with
               | .error e => e
               | .ok _ => o.err,
             toRead := if ds.all (fun d => d.ovr) then [] else o.toRead }

/-- R335: the slot of a bank product's y is claimed. -/
def State.claimBmv (s : State) (c k : Nat) (x : Bmv) (r : Nat) : State :=
  let (y, core) := (s.coreAt c).ringClaim r (4 * x.m)
  let s := s.modAt c fun _ => core
  match y with
  | .error e => s.failOp c k e 0
  | .ok (slot, sp) => s.modOp c k fun o => { o with kind := .bmv { x with y := sp }, claimed := true, slot }

/-- R119, R120, R145: an operation of core `c` may write a ring descriptor of core `d`. -/
def State.ringTurn (s : State) (c : Nat) (op : Op) (d : Nat) : Bool := s.spadTurn d && !s.opStrict c op

/-- R145: operation `k` of core `c` claims the next ring that it has to claim and that no earlier one of the core comes
first on. -/
def execClaim (c k : Nat) (s : State) : Out :=
  match s.opAt c k with
  | none => .next s
  | some op =>
    match op.kind, op.ringsDue c with
    | .copy form _ h v g fl (some r), ring :: _ =>
      .next (if s.claimBehind c k ring || !s.ringTurn c op c then s else s.claimOne c k form h v g fl r)
    | .multi h v g fl (some r) ds bar, _ :: _ =>
      match ds.findIdx? (fun d => !d.claimed && !s.claimBehind c k (d.core, r) && s.ringTurn c op d.core) with
      | some i =>
        match ds[i]? with
        | some d => .next (s.claimDest c k i h v g fl r ds bar d)
        | none => .next s
      | none => .next s
    | .bmv x, _ =>
      match x.ring with
      | some r => .next (if op.claimed || op.drop || !s.ringTurn c op c then s else s.claimBmv c k x r)
      | none => .next s
    | _, _ => .next s

/-- R145: the fill step, once the last payload word of a landing is written. -/
def execRingFill (c k : Nat) (s : State) : Out :=
  match s.opAt c k with
  | none => .next s
  | some op =>
    match op.kind with
    | .copy _ _ _ _ _ _ (some r) =>
      if op.claimed && !op.filled && !op.drop && op.toRead.isEmpty && op.toWrite.isEmpty && s.spadTurn c then
        .next ((s.modAt c fun x => x.ringFill r op.slot).modOp c k fun o => { o with filled := true })
      else .next s
    | .multi h v g fl (some r) ds bar =>
      match ds.findIdx? (fun d => d.claimed && !d.filled && d.left.isEmpty && s.spadTurn d.core) with
      | some i =>
        match ds[i]? with
        | some d =>
          if op.drop then .next s
          else .next ((s.modAt d.core fun x => x.ringFill r (d.slot.getD 0)).modOp c k fun o =>
            { o with kind := .multi h v g fl (some r) (changeAt ds i fun d => { d with filled := true }) bar })
        | none => .next s
      | none => .next s
    | .bmv x =>
      match x.ring with
      | some r =>
        if op.claimed && !op.filled && !op.drop && op.toWrite.isEmpty && s.spadTurn c then
          .next ((s.modAt c fun y => y.ringFill r op.slot).modOp c k fun o => { o with filled := true })
        else .next s
      | none => .next s
    | _ => .next s

/-! ## The weight store's write rule (R245) -/

/-- The lease sets that tasks of partition `p` hold (R311). -/
def State.heldSets (s : State) (p : Nat) : List Nat :=
  (s.cores.toList.filterMap fun c => if c.holds p then some c.ctx.task.lease else none)
  ++ (s.part p).saves.map fun v => v.ctx.task.lease

/-- A range of an object reaches the weight store of a die, by the leaves that map it, or by those removed from it whose
frames are not yet free (R316, R321). -/
def Part.inStore (q : Part) (die obj start len : Nat) : Bool :=
  (q.leaves ++ q.unmapped).any fun l => l.1 == obj && l.2.cls == 2 && (upTo l.2.frames).any fun i =>
    let x := (l.2.oframe + i) * 2 ^ 21
    x < start + len && start < x + 2 ^ 21 && homeDie ((l.2.xlat default false).phys x) == die

/-- R245: the region of partition `p` on a die is LEASED. -/
def State.storeLeased (s : State) (p die : Nat) : Bool :=
  let q := s.part p
  ((s.heldSets p).any fun i => ((look q.sets i).getD []).any fun l =>
    l.valid && !l.revoked && q.inStore die l.obj l.start l.len)
  || q.revoking.any fun r => q.inStore die r.obj (r.whole.getD (r.start, r.len)).1 (r.whole.getD (r.start, r.len)).2

/-! ## Word steps (R134, R140) -/

/-- The object offset of a subscription's next tile (R327). -/
def Sub.at (x : Sub) : Nat := (x.g + (x.tile % x.nt0 : Nat) * x.ts0 + (x.tile / x.nt0 : Nat) * x.ts1).toNat

/-- The payload that an operation is moving: its form, scratchpad address, shape, target and object offset. A
subscription's tile moves as a copy does. -/
def Op.payload (op : Op) : Option (CopyForm × Nat × Shape × Via × Nat) :=
  match op.kind with
  | .copy f sp h v g _ _ => some (f, sp, h, v, g)
  | .chain _ _ _ (some c) => some (c.form, c.sp, c.sh, c.via, c.g)
  | .sub x => some (if x.out then .st else .ld, x.sp, x.sh, x.via, x.at)
  | _ => none

/-! ## The words of a bank product (R332) -/

/-- The bytes of W. -/
def Bmv.wBytes (x : Bmv) : Nat := if x.fmt = 0 then 2 * x.m * x.n else x.m * x.n / 2

/-- The bytes of the scales, and of the band scales. -/
def Bmv.sBytes (x : Bmv) : Nat := if x.fmt = 0 then 0 else if x.fmt = 1 then x.m * x.n / 64 else x.m * x.n / 8

/-- The bytes of the band scales. -/
def Bmv.bBytes (x : Bmv) : Nat := if x.fmt = 2 then 2 * ((x.m + 63) / 64) else 0

/-- The aligned words that cover `n` bytes from `a`. -/
def coverWords (a n : Nat) : Nat := if n = 0 then 0 else (a + n - 1) / 4 - a / 4 + 1

/-- The words of W come first among the words that the operation reads. -/
def Bmv.wWords (x : Bmv) : Nat := x.wBytes / 4
/-- The words of x. -/
def Bmv.xWords (x : Bmv) : Nat := x.n / 2
/-- The words of the scales. -/
def Bmv.sWords (x : Bmv) : Nat := coverWords x.sg x.sBytes
/-- The words of the band scales. -/
def Bmv.bWords (x : Bmv) : Nat := coverWords x.bg x.bBytes
/-- The words that the operation reads: W, x, scales, band scales. -/
def Bmv.words (x : Bmv) : Nat := x.wWords + x.xWords + x.sWords + x.bWords

/-- The capability and offset of word `n` where it is one of global memory. -/
def Bmv.wordAt (x : Bmv) (n : Nat) : Option (Via × Nat) :=
  if n < x.wWords then some (x.via, x.g + 4 * n)
  else if n < x.wWords + x.xWords then none
  else
    let i := n - x.wWords - x.xWords
    some (if i < x.sWords then (x.svia, (x.sg / 4 + i) * 4) else (x.bvia, (x.bg / 4 + (i - x.sWords)) * 4))

/-- The lowest byte that a bank product reads in the line of word `n`, at offset `a` (R277). -/
def Bmv.firstAt (x : Bmv) (n a : Nat) : Nat := max (a / 64 * 64) (if n < x.wWords + x.xWords + x.sWords then x.sg else x.bg)

/-! ## Logged words -/

/-- The words that an operation has still to read, or to write, at homes and that are logged there: each one's object and the
lowest byte that the operation has in its line (R277). XRED words are not logged (R140). -/
def Op.places (o : Op) (w : Bool) : List (Via × Nat) :=
  if o.err ≠ 0 then []
  else match o.kind with
    | .multi h v g _ _ _ _ => if w then [] else o.toRead.map fun n => (v, h.first g n)
    | .bmv x => if w then [] else o.toRead.filterMap fun n => if n < x.wWords then none else (x.wordAt n).map fun y =>
        (y.1, x.firstAt n y.2)
    | _ => match o.payload with
      | some (form, _, h, v, g) =>
        (if w then (if form = .st then o.toWrite else []) else if form = .ld then o.toRead else []).map fun n => (v, h.first g n)
      | none => []

/-- R283, step 5: in replay, an operation of the core's task that issued before operation `k` has words left in the line at
which `k` stands, from the same byte on, and has not logged it: its record would be the same, and it takes it first. -/
def State.opTwinAhead (s : State) (c k : Nat) (v : Via) (first : Nat) (w : Bool) : Bool :=
  let x := (s.coreAt c).ctx
  x.sys.replay && (x.ops.take k).any fun o =>
    (o.places w).any (fun y => y.1.obj == v.obj && y.2 == first) && !(match (s.part v.part).phys v.obj first with
        | some a => o.touched.contains (lineOf a, if w then 11 else 10) || !s.home.sync a
        | none => true)

/-- A scratchpad word is read by an engine (R369). -/
def State.engineSpad (s : State) (c k n x : Nat) : State :=
  if (s.coreAt c).lostIn x 4 then s.failOp c k 6 0
  else s.modOp c k (Op.got n (BitVec.ofNat 32 ((s.coreAt c).spadRead x 4)))

/-- R308, R309: the checks of a host access to a word at offset `x` as it is sent: the error kind that its handle gives. -/
def State.hostFault (s : State) (v : Via) (x : Nat) : Option (BitVec 4) :=
  match (s.part v.part).check v with
  | .error e => some e
  | .ok o => if x + 4 > o.hostlen then some 3 else none

/-- R153: word `n` of an operation is sent over the host link, under its handle's checks. -/
def State.hostSend (s : State) (c k n : Nat) (op : Op) (v : Via) (x : Nat) : State :=
  if op.sent.contains n then s
  else match s.hostFault v x with
    | some e => s.failOp c k e x
    | none => s.modOp c k fun o => { o with sent := n :: o.sent }

/-- R153: an operation of the same engine that issued earlier has host writes to send: an XHOST.out, or a chain whose walk
has not ended. -/
def State.hostBehind (s : State) (c k : Nat) (inst : BitVec 3) : Bool :=
  ((s.coreAt c).ctx.ops.take k).any fun o => o.inst == inst && (match o.kind with
    | .copy .hostOut _ _ _ _ _ _ => !(o.toWrite.filter fun n => !o.sent.contains n).isEmpty
    | .chain _ _ _ _ => !o.flagged && o.err == 0
    | _ => false)

/-- R117, R140: word `n` of a copy is read. -/
def State.copyRead (s : State) (c k n : Nat) (op : Op) : State :=
  match op.payload with
  | none => s
  | some (form, sp, h, v, g) =>
    if !op.claimed || !op.toRead.contains n then s
    else match form with
      | .ld =>
        if v.kind = 3 then s.sendWord c k op n .load v (h.gAt g n) 0
        else if s.opTwinAhead c k v (h.first g n) false then s
        else match s.reach c k n op v (h.gAt g n) (h.first g n) false true with
          | .wait s => s
          | .bad s e => s.failOp c k e (h.gAt g n)
          | .ok s t => s.modOp c k (Op.got n (s.home.word (t.phys (h.gAt g n))))
      | .hostIn => s.hostSend c k n op v (h.gAt g n)
      | _ => s.engineSpad c k n (h.sAt sp n)

/-- R134: a higher row has already written the word's place. -/
def Op.shadowed (op : Op) (h : Shape) (place : Nat → Nat) (n : Nat) : Bool :=
  op.wrote.any fun w => n < w.1 && w.1 / h.wpr != n / h.wpr && place w.1 == place n

/-- R140: the word operation of XRED at its home. -/
def redWord (int : Bool) (x y : Word) : Word :=
  if int then x + y
  else BitVec.ofNat 32 (Fmt.f32.add .rne 0 (Fmt.f32.decode x.toNat) (Fmt.f32.decode y.toNat)).1

/-- R245: a refused word of an XST: nothing is written, and the token will resolve with kind 3 at the lowest refused
line. -/
def Op.refuse (n x : Nat) (o : Op) : Op :=
  let d := min (x / 64 * 64) (o.refused.getD x)
  { o with toWrite := o.toWrite.erase n, refused := some d, detail := BitVec.ofNat 32 d, err := 3 }

/-- A global word is written by an engine: its home, and the core's own L1G line (R115). -/
def State.engineStore (s : State) (c : Nat) (v : Via) (x : Nat) (t : Xlat) (val : Word) : State :=
  (s.modHome fun h => h.write (t.phys x) 4 val.toNat).modAt c fun k => k.dropLine v.part v.obj (x / 64)

/-- R117, R140: word `n` of a copy is written. -/
def State.copyWrite (s : State) (c k n : Nat) (op : Op) : State :=
  match op.payload, look op.buf n with
  | some (form, sp, h, v, g), some val =>
    if !op.toWrite.contains n || s.opStrict c op then s
    else
      let x := h.gAt g n
      match form with
      | .ld | .hostIn =>
        if !s.spadTurn c then s
        else
        let s := if op.shadowed h (h.sAt sp) n then s else s.modAt c fun y => y.engWrite (h.sAt sp n) 4 val.toNat
        s.modOp c k (Op.put n (val.setWidth 64))
      | .st =>
        if v.kind = 3 then s.sendWord c k op n .store v x val
        else if s.opTwinAhead c k v (h.first g n) true then s
        else match s.reach c k n op v x (h.first g n) true true with
          | .wait s => s
          | .bad s e => s.failOp c k e x
          | .ok s' t =>
            if t.cls = 2 && s.storeLeased v.part (homeDie (t.phys x)) then s.modOp c k (Op.refuse n x)
            else
              let s := if op.shadowed h (h.gAt g) n then s' else s'.engineStore c v x t val
              s.modOp c k (Op.put n (val.setWidth 64))
      | .red int =>
        if v.kind = 3 then s.sendWord c k op n (.atomic (if int then .add else .fadd) 0 0) v x val
        else match s.reach c k n op v x (h.first g n) true false with
          | .wait s => s
          | .bad s e => s.failOp c k e x
          | .ok s t =>
            let y := redWord int (s.home.word (t.phys x)) val
            (s.engineStore c v x t y).modOp c k (Op.put n (y.setWidth 64))
      | .hostOut => if s.hostBehind c k op.inst then s else s.hostSend c k n op v x
  | _, _ => s

/-! ## Flags and digests (R141, R289) -/

/-- The words of one row that were written, `m` being the number of the row's first word in `wrote`. -/
def Op.rowWrs (op : Op) (h : Shape) (m base : Nat) : List Wr :=
  (upTo h.wpr).filterMap fun j => (look op.wrote (m + j)).map fun v => { a := base + 4 * j, n := 4, v := v.toNat }

/-- R289: the payload written joins the partial digest, row by row. -/
def Op.foldPayload (op : Op) (place : Nat → DWord) (h : Shape) (m base pitch : Nat) : Op :=
  if h.moves then
    (upTo h.rows).foldl (fun o r => o.foldRow place (op.rowWrs h (m + r * h.wpr) (base + r * pitch))) op
  else op

/-- The partial digest of a copy whose words are written. -/
def Op.foldCopy (op : Op) : Op :=
  match op.payload with
  | some (form, sp, h, v, g) =>
    if form.lands then op.foldPayload placeSpad h 0 sp h.spitch else op.foldPayload (placeObj v.obj) h 0 g h.gpitch
  | none => op

/-- R141: a flag word, and its item. -/
def Op.foldFlag (f : Option (Nat × DWord)) (op : Op) : Op :=
  match f with
  | some (a, v) => op.foldOne placeSpad { a, n := 8, v := v.toNat }
  | none => op

/-- R119, R120, R141: the flag word of operation `k` of core `c` is written, once everything before it is. -/
def State.copyFlag (s : State) (c k : Nat) (op : Op) : State :=
  match op.kind with
  | .copy _ _ _ _ _ (some (a, v)) _ =>
    if op.flagged || op.err ≠ 0 || !op.claimed || !op.filled || !op.toRead.isEmpty || !op.toWrite.isEmpty
        || !s.spadTurn c || s.opStrict c op then s
    else (s.modAt c fun x => x.engWrite a 8 v.toNat).modOp c k fun o => { o with flagged := true }
  | _ => s

/-- A copy has nothing left to do but write its flag word and resolve. One that failed still waits for the words that it has sent over
the host link (R153, R309). -/
def Op.copyDone (op : Op) : Bool :=
  op.toRead.isEmpty && op.toWrite.isEmpty && op.sent.isEmpty && (op.err != 0 || (op.claimed && op.filled))

/-- RESOLVE of a copy: its flag word if it is still due, its items, its token. -/
def State.resolveCopy (s : State) (c k : Nat) (op : Op) : State :=
  if !op.copyDone || (op.err = 0 && !op.flagged && (!s.spadTurn c || s.opStrict c op)) then s
  else
    let s := s.copyFlag c k op
    match op.kind with
    | .copy _ _ _ _ _ fl _ => s.resolveTok c k (if op.err = 0 then op.foldCopy.foldFlag fl else op.foldCopy)
    | _ => s

/-! ## Multicast (R232) -/

/-- R232: a source word is read once, at its home, once some destination has claimed. -/
def State.multiRead (s : State) (c k n : Nat) (op : Op) : State :=
  match op.kind with
  | .multi h v g _ _ ds _ =>
    if !op.toRead.contains n || ds.all (fun d => !d.claimed || d.ovr) then s
    else if s.opTwinAhead c k v (h.first g n) false then s
    else match s.reach c k n op v (h.gAt g n) (h.first g n) false true with
      | .wait s => s
      | .bad s e => s.failOp c k e (h.gAt g n)
      | .ok s t => s.modOp c k (Op.got n (s.home.word (t.phys (h.gAt g n))))
  | _ => s

/-- Word `n` of destination `d`, or its flag word where `n` is the number of words. Bytes are delivered to the barrier
of the destination's quad (R227). -/
def State.multiWrite (s : State) (c k w : Nat) (op : Op) : State :=
  match op.kind with
  | .multi h v g fl ring ds bar =>
    let i := w / (h.words + 1)
    let n := w % (h.words + 1)
    match ds[i]? with
    | none => s
    | some d =>
      if op.drop || d.ovr || !d.claimed || s.opStrict c op || !s.spadTurn d.core then s
      else if n = h.words then
        match fl with
        | some (a, val) =>
          if d.flagged || !d.filled || !d.left.isEmpty then s
          else (s.modAt d.core fun x => x.engWrite a 8 val.toNat).modOp c k fun o =>
            { o with kind := .multi h v g fl ring (changeAt ds i fun d => { d with flagged := true }) bar }
        | none => s
      else match look op.buf n with
        | some val =>
          if !d.left.contains n then s
          else
            let hidden := op.wrote.any fun x => x.1 / (h.words + 1) == i && n < x.1 % (h.words + 1)
              && h.sAt 0 (x.1 % (h.words + 1)) == h.sAt 0 n
            let s := if hidden then s else s.modAt d.core fun x => x.engWrite (h.sAt d.sp n) 4 val.toNat
            let s := match bar with
              | some b => s.deliver c (barIndex 2 d.core b)
              | none => s
            s.modOp c k fun o =>
              { (o.put w (val.setWidth 64)) with
                kind := .multi h v g fl ring (changeAt ds i fun d => { d with left := d.left.erase n }) bar }
        | none => s
  | _ => s

/-- R289: the items of each destination in ascending member index, each with its own flag word. -/
def Op.foldMulti (op : Op) (h : Shape) (fl : Option (Nat × DWord)) (ds : List McDest) : Op :=
  (upTo ds.length).foldl (fun o i =>
    match ds[i]? with
    | some d =>
      if d.ovr then o
      else
        let o := o.foldPayload placeSpad h (i * (h.words + 1)) d.sp h.spitch
        if d.flagged then o.foldFlag fl else o
    | none => o) op

/-- RESOLVE of a multicast: after every destination's last step. -/
def State.resolveMulti (s : State) (c k : Nat) (op : Op) : State :=
  match op.kind with
  | .multi h _ _ fl _ ds _ =>
    if op.drop || ds.all (fun d => d.claimed && d.filled && d.flagged && d.left.isEmpty) then
      s.resolveTok c k (op.foldMulti h fl ds)
    else s
  | _ => s

/-! ## Chains (R150 to R152) -/

/-- R151: bits of a record at `a` of the scratchpad. -/
def Core.recBits (c : Core) (a pos n : Nat) : Nat := c.spadRead (a + pos / 64 * 8) 8 / 2 ^ (pos % 64) % 2 ^ n

/-- The form that a record's DIR names. -/
def chainForm : Nat → Option CopyForm
  | 0 => some .ld
  | 1 => some .st
  | 2 => some .hostIn
  | 3 => some .hostOut
  | _ => none

/-- An earlier chain of the same channel is still walking (R150). -/
def State.chainBehind (s : State) (c k ch : Nat) (inst : BitVec 3) : Bool :=
  ((s.coreAt c).ctx.ops.take k).any fun o => match o.kind with
    | .chain ch' _ _ _ => ch' == ch && o.inst == inst
    | _ => false

/-- R152: the walk of operation `k` reads its next record, once. -/
def execChainRecordRead (c k : Nat) (s : State) : Out :=
  match s.opAt c k with
  | none => .next s
  | some op =>
    match op.kind with
    | .chain ch a caps none =>
      if op.flagged || op.err ≠ 0 || s.chainBehind c k ch op.inst || !s.spadTurn c || s.opStrict c op then .next s
      else
        let x := s.coreAt c
        let h : Shape := if x.recBits a 52 1 = 1 then
            { rows := x.recBits a 216 16, rowb := x.recBits a 192 24, spitch := x.recBits a 256 20,
              gpitch := x.recBits a 320 64 }
          else { rows := 1, rowb := x.recBits a 192 24, spitch := 0, gpitch := 0 }
        let cap := caps[x.recBits a 48 4]?.getD 0
        let o := sv (BitVec.ofNat 64 (x.recBits a 64 64))
        let sp := x.recBits a 128 20
        let bad := (s.modAt c fun x => x.recordDone a true).failOp c k 3 a
        if x.lostIn a 64 then .next (s.failOp c k 6 0)
        else if x.recBits a 32 1 = 0 then .next (s.modOp c k fun o => { o with flagged := true })
        else match chainForm (x.recBits a 40 3) with
          | none => .next bad
          | some f =>
            if (copyFault cap f.needs.1 f.needs.2 (some sp) h o none).isSome then .next bad
            else
              let cur : ChainCur := { form := f, sp, sh := h, via := x.via cap, g := cap.base + o.toNat,
                                      stop := x.recBits a 31 1 == 1, next := x.recBits a 0 20 }
              .next (s.modOp c k fun o =>
                { o with kind := .chain ch a caps (some cur), toRead := upTo h.words, toWrite := upTo h.words, buf := [] })
    | _ => .next s

/-- R152: the record of operation `k` is done: OWN := 0 after its payload, and the walk ends or goes on. -/
def State.chainNext (s : State) (c k : Nat) (op : Op) : State :=
  match op.kind with
  | .chain ch a caps (some cur) =>
    if op.err ≠ 0 || !op.toRead.isEmpty || !op.toWrite.isEmpty || !s.spadTurn c then s
    else
      let s := s.modAt c fun x => x.recordDone a false
      let o := op.foldCopy
      let o := { o with wrote := [], buf := [] }
      if cur.stop then s.modOp c k fun _ => { o with kind := .chain ch a caps none, flagged := true }
      else if cur.next % 64 ≠ 0 then
        (s.modOp c k fun _ => { o with kind := .chain ch a caps none }).failOp c k 3 cur.next
      else s.modOp c k fun _ => { o with kind := .chain ch cur.next caps none }
  | _ => s

/-- RESOLVE of a chain: its walk has ended. A record that failed at a port is marked so first, once its other words have moved where
the weight store refused some (R152, R245). -/
def State.resolveChain (s : State) (c k : Nat) (op : Op) : State :=
  match op.kind with
  | .chain _ a _ cur =>
    if op.err ≠ 0 then
      if !op.copyDone || (cur.isSome && (!s.spadTurn c || s.opStrict c op)) then s
      else (if cur.isSome then s.modAt c fun x => x.recordDone a true else s).resolveTok c k op.foldCopy
    else if op.flagged then s.resolveTok c k op
    else s
  | _ => s

/-! ## Hints (R154, R155, R315) -/

/-- A hint is dropped: its token resolves with no error. -/
def Op.dropHint (o : Op) : Op := { o with toRead := [], drop := true }

/-- R154: line `n` of a prefetch is read at its home, and installed by a Fill step where it goes to the L1G. R155 does not list
a lost line: the model drops a prefetch that meets one, since a hint never faults (log entry 147). -/
def State.prefetchRead (s : State) (c k n : Nat) (op : Op) : State :=
  match op.kind with
  | .prefetch l1 v _ _ =>
    if !op.toRead.contains n then s
    else
      let x := n * 64
      match s.opXlat op v x false with
      | .error _ => s.modOp c k Op.dropHint
      | .ok t =>
        let pa := t.phys x
        if refreshing s.cyc pa then (s.delayWord c k false n).keepXlat c k t
        else if s.lineHeld v.part pa then s
        else if s.home.lost.contains (lineOf pa) || !s.home.genOk t pa then s.modOp c k Op.dropHint
        else
          let fill : Fill := { line := { part := v.part, obj := v.obj, gen := v.gen, line := n, wstore := t.cls == 2,
                                         bytes := s.home.mem.bytes (pa / 64 * 64) 64 }, live := true }
          let s := if l1 then s.modAt c fun y => { y with fills := y.fills ++ [fill] } else s
          (s.charge v.part c (s.coreAt c).ctx.task.uid pa).modOp c k fun o =>
            { o with toRead := o.toRead.erase n, xls := if o.xls.contains t then o.xls else t :: o.xls }
  | _ => s

/-- R155: an XRES range is mapped, leased and of the current generation. -/
def Part.resident (p : Part) (v : Via) (g len : Nat) : Bool :=
  (linesOf g len).all fun l => match p.walk v (max g (l * 64)) 1 false with
    | .ok _ => true
    | .error _ => false

/-- R155: HINTDROP counts a dropped hint, saturating. -/
def State.hintDropped (s : State) (c : Nat) : State :=
  (s.modAt c fun x => { x with ctx := { x.ctx with sys := { x.ctx.sys with
    hintdrop := if x.ctx.sys.hintdrop = BitVec.allOnes 64 then x.ctx.sys.hintdrop else x.ctx.sys.hintdrop + 1 } } }).countAt
    c 15 1

/-- R154, R155: Bamosh's residency queue takes a request, or is full: one queue for each partition, all of one depth (log entries
136 and 157). -/
def State.residencyRoom (s : State) (p : Nat) : Bool := (s.part p).residency.length < Config.residencyDepth

/-- RESOLVE of a hint (R154): one that asks for residency is accepted, or dropped where it fails a check or the queue is
full. -/
def State.resolveHint (s : State) (c k : Nat) (op : Op) : State :=
  let lost := match op.kind with
    | .residency _ v g n => !(s.part v.part).resident v g n || !s.residencyRoom v.part
    | _ => false
  if !op.toRead.isEmpty then s
  else if op.drop || lost then (s.hintDropped c).resolveTok c k { op with err := 0 }
  else
    let s := match op.kind with
      | .residency far v g n => s.modPart v.part fun q => { q with residency := q.residency ++ [(v.obj, g, n, far)] }
      | _ => s
    s.resolveTok c k op

/-! ## The host link (R153) -/

/-- R153: the host events that fail an access: completer abort or unsupported request (3), and a poisoned completion (6). -/
def hostEvent (e : BitVec 4) : Bool := e == 0 || e == 3 || e == 6

/-- R153: a word sent by an operation that has failed since completes: a write has reached the host; a read lands nothing. -/
def Op.sentDone (form : CopyForm) (w : Nat) (o : Op) : Op :=
  match form, look o.buf w with
  | .hostOut, some val => o.put w (val.setWidth 64)
  | _, _ => o

/-- R153, R309: the host completes word `w` of operation `k`: the word `v` read, or a write accepted, or an error kind. A
word not yet sent is sent in the same step, under the checks of R308; one that was sent needs its handle no more. -/
def execHostCompletion (c k w : Nat) (err : BitVec 4) (v : Word) (s : State) : Out :=
  match s.opAt c k with
  | none => .next s
  | some op =>
    match op.payload with
    | some (form, _, h, via, g) =>
      let x := h.gAt g w
      let bad := match (if op.sent.contains w then none else s.hostFault via x) with
        | some e => some e
        | none => if err = 0 then none else some err
      let done := fun (f : Op → Op) => .next (match bad with
        | some e => s.failOp c k e x
        | none => s.modOp c k fun o => { f o with sent := o.sent.erase w })
      if !hostEvent err then .next s
      else if op.drop then
        .next (if op.sent.contains w then s.modOp c k fun o => { o.sentDone form w with sent := o.sent.erase w } else s)
      else match form with
        | .hostIn => if !op.toRead.contains w then .next s else done (Op.got w v)
        | .hostOut =>
          match look op.buf w with
          | none => .next s
          | some val =>
            if !op.toWrite.contains w || (!op.sent.contains w && s.hostBehind c k op.inst) || s.opStrict c op then .next s
            else done (Op.put w (val.setWidth 64))
        | _ => .next s
    | none => .next s

end Sys2Proof.Machine
end

