-- ==== Sys2Proof/Machine/Matrix.lean ====
section
/-! DEFINITION. The matrix arrays (R156 to R175) and their sum order (R75 to R81): operands, busy bits and array
queues, the forms, and the steps of their operations. -/

namespace Sys2Proof.Machine

open Sys2Proof

/-! ## Format pairs (R159) -/

/-- The bit width of a format code of a pair. -/
def codeWidth (x : Nat) : Nat := ((elemOf x).map Elem.width).getD 8

/-- AFMT. -/
def fmtA (v : DWord) : Nat := (v.extractLsb' 0 4).toNat
/-- BFMT. -/
def fmtB (v : DWord) : Nat := (v.extractLsb' 4 4).toNat
/-- The pair is FP4. -/
def fmtFp4 (v : DWord) : Bool := fmtA v == 5
/-- The pair is integer. -/
def fmtInt (v : DWord) : Bool := fmtA v ≥ 7
/-- K. -/
def fmtK (v : DWord) : Nat := 1024 / codeWidth (fmtA v)
/-- FMTn of a context. -/
def Ctx.fmt (x : Ctx) (n : Bool) : DWord := if n then x.sys.fmt1 else x.sys.fmt0

/-! ## Operands (R160 to R162) -/

/-- The layout of an operand: its lines, the bytes of a line, and whether a scale tile belongs to it. -/
structure Lay where
  lines : Nat
  lb    : Nat
  sc    : Bool
  deriving DecidableEq, Repr

/-- The words of an operand's lines. -/
def Lay.words (y : Lay) : Nat := y.lines * y.lb / 4
/-- The words an operand takes from the scratchpad. -/
def Lay.total (y : Lay) : Nat := y.words + if y.sc then 512 else 0

/-- The layout of A under a pair. -/
def layA (v : DWord) : Lay := { lines := 64, lb := 128, sc := fmtFp4 v }
/-- The layout of B under a pair. -/
def layB (v : DWord) : Lay := { lines := fmtK v, lb := 8 * codeWidth (fmtB v), sc := fmtFp4 v }
/-- The layout that an MLATCH fills from. -/
def layLatch (sc : Bool) : Lay := { lines := 64, lb := 128, sc }

/-- R161: bits 11:7 of an address rotated by line `m`. -/
def rotated (y m rot : Nat) : Nat := y - y / 128 % 32 * 128 + (y / 128 + m * rot) % 32 * 128

/-- R161: y of byte `t` of line `l`. -/
def lineY (base pitch tpitch l t : Nat) : Nat := base + l / 64 * tpitch + l % 64 * (16 * pitch) + t

/-- R161: the scratchpad address of word `n` of an operand, its scale words after its lines. -/
def Lay.addr (y : Lay) (base pitch tpitch rot n : Nat) : Nat :=
  if n < y.words then
    let l := n / (y.lb / 4)
    rotated (lineY base pitch tpitch l (n % (y.lb / 4) * 4)) (l % 64) rot
  else base + y.lines / 64 * tpitch + (n - y.words) * 4

/-- R161: the lowest address at or above the scratchpad's end among `n` bytes from `y`. -/
def rangeFail (y n : Nat) : Option Nat := if y + n ≤ spadSize then none else some (max y spadSize)

/-- The lower of two optional addresses. -/
def lower (a b : Option Nat) : Option Nat :=
  match a, b with
  | some x, some y => some (min x y)
  | none, y => y
  | x, none => x

/-- R161: the checks of a scratchpad operand: the cause and ADDR of the first that fails. -/
def Lay.fault (y : Lay) : MatSrc → Option (Byte × Nat)
  | .spad base pitch tpitch _ =>
    let bad := (upTo y.lines).foldl (fun r l => lower r (rangeFail (lineY base pitch tpitch l 0) y.lb))
      (if y.sc then rangeFail (base + y.lines / 64 * tpitch) 2048 else none)
    match bad with
    | some a => some (0x05, a)
    | none =>
      if base % 16 ≠ 0 then some (0x04, base)
      else if tpitch % 16 ≠ 0 then some (0x04, tpitch)
      else none
  | _ => none

/-- The pair [Sn, S(n+1)] (R161). -/
def Core.pair (c : Core) (n : Reg) : MatSrc :=
  let a := c.S n
  let b := c.S (n + 1)
  .spad (a.extractLsb' 0 20).toNat (a.extractLsb' 20 16).toNat (b.extractLsb' 0 20).toNat (b.extractLsb' 20 4).toNat

/-- Eight vector registers, and two more for a scale tile. -/
def Core.vecs (c : Core) (n : Reg) (sc : Bool) : MatSrc :=
  .vec ((upTo (if sc then 10 else 8)).map fun i => c.V (n + BitVec.ofNat 6 i))

/-- An operand named by a vector or a pair field. -/
def Core.matSrc (c : Core) (vec sc : Bool) (n : Reg) : MatSrc := if vec then c.vecs n sc else c.pair n

/-- The words that an operation reads of an operand. -/
def Lay.reads (y : Lay) : MatSrc → Nat
  | .spad _ _ _ _ => y.total
  | _ => 0

/-! ## Busy bits and queues (R163, R164) -/

/-- The tiles that an operation holds busy. -/
def Op.tiles (o : Op) : List ZReg :=
  match o.kind with
  | .mma _ _ _ z _ _ _ _ _ _ => [z]
  | .zero z _ => [z]
  | .ldz z _ _ => [z]
  | .stz z _ _ _ _ _ _ => [z]
  | .trn a b => [a, b]
  | _ => []

/-- The logical array of an operation. -/
def Op.array (o : Op) : Option Bool :=
  match o.kind with
  | .drain n => some n
  | .latch l _ _ => some (l.getLsbD 2)
  | .mma _ _ n _ _ _ _ _ _ _ => some n
  | _ => none

/-- An operation is an MMA or MMAT of array `n`. -/
def Op.mmaOf (n : Bool) (o : Op) : Bool :=
  match o.kind with
  | .mma _ _ m _ _ _ _ _ _ _ => m == n
  | _ => false

/-- R164: a slot that names tile `z` stalls on it; `arr` is the array of an MMA or MMAT, which queues behind its own
kind. -/
def Core.tileBusy (c : Core) (z : ZReg) (arr : Option Bool) : Bool :=
  c.ctx.ops.any fun o => o.tiles.contains z && (match arr with
    | some n => !o.mmaOf n
    | none => true)

/-- R164: a latch's busy bit. -/
def Core.latchBusy (c : Core) (l : LReg) : Bool :=
  c.ctx.ops.any fun o => match o.kind with
    | .latch m _ _ => m == l
    | _ => false

/-- R163, R29: operation `k` stands behind an earlier one of its physical array. -/
def State.arrayBehind (s : State) (c k : Nat) (op : Op) : Bool :=
  op.array.isSome && ((s.coreAt c).ctx.ops.take k).any fun o => o.array.isSome && o.inst == op.inst

/-- R123: INST of array work: 2 + the physical array. -/
def State.arrInst (s : State) (n : Bool) : Nat := 2 + (s.rd.engmap.extractLsb' (2 + n.toNat) 1).toNat

/-- R165: the least cycles that an operation occupies its array or the tile port. -/
def Op.span (o : Op) : Nat :=
  match o.kind with
  | .mma _ _ _ _ _ _ _ _ _ _ => 64
  | .latch _ (.spad _ _ _ _) sc => if sc then 3 else 2
  | .latch _ _ _ => 2
  | .ldz _ _ _ => 4
  | .stz _ _ w _ _ _ _ => (codeWidth w.out.toNat + 7) / 8
  | _ => 0

/-- A matrix operation that issues now, with its occupancy. -/
def State.spanned (s : State) (o : Op) : Op := { o with upto := s.cyc + o.span }

/-- R163, R165: array work of core `c` ends on instance `i`; what stands behind it begins now. -/
def State.arrayNext (s : State) (c : Nat) (i : BitVec 3) : State :=
  let f := fun (o : Op) => if o.array.isSome && o.inst == i then { o with upto := max o.upto (s.cyc + o.span) } else o
  s.modAt c fun x => { x with ctx := { x.ctx with ops := x.ctx.ops.map f } }

/-- DRAINEDn (R166). -/
def Ctx.setDrained (n v : Bool) (x : Ctx) : Ctx := if n then { x with drained1 := v } else { x with drained0 := v }

/-- A matrix slot stalls while it names something busy; then its tokens decide (R46, R122). -/
def State.gateMat (s : State) (busy : Bool) (t : Tok) (l : List Tok) (go : State → Out) : Out :=
  if busy then .next s else s.gate t l go

/-- The fault of an operand. -/
def State.matFault (s : State) (f : Byte × Nat) : State := s.fault f.1 (memInfo s.slot 0 0 0 f.2)

/-! ## Forms -/

/-- R168. -/
def execMcfg (t : Tok) (n : Bool) (a : Reg) (toks : List Tok) (s : State) : Out :=
  s.gate t toks fun s =>
    let v := s.rd.S a
    let s1 := s.sysWrite (2 + n.toNat) v
    if !fmtValid v || s.rd.ctx.fmtHeld n v then .next s1 else .next (s1.resolveNow t (s.arrInst n))

/-- R168: the token waits for the array's earlier operations, if there are any. -/
def execMdrain (t : Tok) (n : Bool) (toks : List Tok) (s : State) : Out :=
  s.gate t toks fun s =>
    let s1 := s.modCtx (Ctx.setDrained n true)
    if s.rd.ctx.ops.any fun o => o.array == some n then
      .next (s1.start (Op.new s.fresh t (s.arrInst n) (.drain n) 0))
    else .next (s1.resolveNow t (s.arrInst n))

/-- R169. -/
def execMlatch (t : Tok) (l : LReg) (b : Reg) (sc vec : Bool) (toks : List Tok) (s : State) : Out :=
  s.gateMat (s.rd.latchBusy l) t toks fun s =>
    let src := s.rd.matSrc vec sc b
    match (layLatch sc).fault src with
    | some f => .next (s.matFault f)
    | none =>
      let n := l.getLsbD 2
      let op := Op.new s.fresh t (s.arrInst n) (.latch l src sc) 0
      .next ((s.start { s.spanned op with toRead := upTo ((layLatch sc).reads src) }).modCtx (Ctx.setDrained n false))

/-- R170, R171: an MMA or MMAT issues under the pair of its array. -/
def State.multiply (s : State) (tri : Bool) (t : Tok) (a b : Reg) (w : MmaWord) (toks : List Tok) : Out :=
  let l : LReg := b.setWidth 3
  let lat := w.bkind = 2
  let n := if lat then l.getLsbD 2 else w.arr
  s.gateMat ((lat && s.rd.latchBusy l) || s.rd.tileBusy w.zt (some n)) t toks fun s =>
    let v := s.rd.ctx.fmt n
    let x := s.rd.matSrc w.avec (fmtFp4 v) a
    let y := if lat then .latch l else s.rd.matSrc (w.bkind = 1) (fmtFp4 v) b
    match ((layA v).fault x).orElse fun _ => (layB v).fault y with
    | some f => .next (s.matFault f)
    | none =>
      let nz := s.rd.ctx.regs.nz
      let op := Op.new s.fresh t (s.arrInst n)
        (.mma tri w.strict n w.zt x y v (nz.get w.nza) (nz.get w.nzb) w.fresh) 0
      .next ((s.start { s.spanned op with toRead := upTo ((layA v).reads x + (layB v).reads y) }).modCtx (Ctx.setDrained n false))

/-- R171. -/
def execMma (t : Tok) (a b : Reg) (w : MmaWord) (toks : List Tok) (s : State) : Out := s.multiply false t a b w toks
/-- R171. -/
def execMmat (t : Tok) (a b : Reg) (w : MmaWord) (toks : List Tok) (s : State) : Out := s.multiply true t a b w toks

/-- R172. -/
def execMzero (t : Tok) (z : ZReg) (int : Bool) (toks : List Tok) (s : State) : Out :=
  s.gateMat (s.rd.tileBusy z none) t toks fun s => .next (s.start (Op.new s.fresh t 5 (.zero z int) 0))

/-- The layout that MLDZ reads. -/
def layTile : Lay := { lines := 64, lb := 256, sc := false }

/-- R172. -/
def execMldz (t : Tok) (z : ZReg) (b : Reg) (int : Bool) (toks : List Tok) (s : State) : Out :=
  s.gateMat (s.rd.tileBusy z none) t toks fun s =>
    let src := s.rd.pair b
    match layTile.fault src with
    | some f => .next (s.matFault f)
    | none => .next (s.start { s.spanned (Op.new s.fresh t 5 (.ldz z src int) 0) with toRead := upTo layTile.total })

/-- The layout that MST writes: 64 elements to a line. -/
def layOut (w : MstWord) : Lay := { lines := 64, lb := 8 * codeWidth w.out.toNat, sc := false }

/-- ROUNDCTL as an MST takes it at issue, with its SRSEQ (R72, R174). -/
def State.takeRound (s : State) : DWord :=
  let r := s.rnd
  (r.srseq.setWidth 32 : BitVec 32) ++ (s.rd.ctx.sys.roundctl.extractLsb' 0 32)

/-- R174. -/
def execMst (t : Tok) (z : ZReg) (b : Reg) (w : MstWord) (toks : List Tok) (s : State) : Out :=
  s.gateMat (s.rd.tileBusy z none) t toks fun s =>
    let dst := s.rd.pair b
    match (layOut w).fault dst with
    | some f => .next (s.matFault f)
    | none =>
      let q := s.rd.ctx.regs.q
      let op := Op.new s.fresh t 5 (.stz z dst w ((s.rd.S w.bsr).setWidth 16) (q.get w.qs) (q.get (w.qs + 1))
        s.takeRound) s.sigma
      let s1 := s.startFolded { s.spanned op with toWrite := upTo (layOut w).total }
      .next (if w.resc then s1 else s1.advance)

/-- R175. -/
def execMtrn (t : Tok) (a b : ZReg) (toks : List Tok) (s : State) : Out :=
  s.gateMat (s.rd.tileBusy a none || s.rd.tileBusy b none) t toks fun s =>
    .next (s.start (Op.new s.fresh t 5 (.trn a b) 0))

/-- R175: a tile's sticky bits cleared. -/
def Tile.clearSticky (z : Tile) : Tile := { z with status := z.status &&& ~~~(0x3F : DWord) }

/-- R175. -/
def execMstat (t : Tok) (a : ZReg) (b : Reg) (clr : Bool) (toks : List Tok) (s : State) : Out :=
  s.gateMat (s.rd.tileBusy a none) t toks fun s =>
    let z := s.rd.ctx.regs.z.get a
    let s1 := (s.resS 1 b z.status).resolveNow t 5
    .next (if clr then s1.modCtx fun x => { x with regs := { x.regs with z := x.regs.z.put a z.clearSticky } } else s1)

/-- R175. -/
def execMnz (t : Tok) (a : Reg) (n : NzReg) (toks : List Tok) (s : State) : Out :=
  s.gate t toks fun s => .next ((s.result 1 (.nz n ((s.rd.S a).setWidth 8))).resolveNow t 5)

/-! ## Operands as the array sees them -/

/-- The words of an operation's buffer, by number. -/
def wordsOf (n : Nat) (buf : List (Nat × Word)) : Array Word :=
  buf.foldl (fun a x => a.setIfInBounds x.1 x.2) (Array.replicate n 0)

/-- The bytes of a list of words (R51). -/
def bytesOfWords (l : List Word) : List Byte := l.flatMap fun w => (upTo 4).map fun i => w.extractLsb' (8 * i) 8

/-- The bytes of an operand's lines and of its scale tile; `o` is the number of its first word in the buffer. -/
def Core.matBytes (c : Core) (y : Lay) (buf : Array Word) (o : Nat) : MatSrc → Array Byte × Array Byte
  | .vec v =>
    let f := fun (l : List VReg) => (l.flatMap fun x => bytesOfWords x.toList).toArray
    (f (v.take 8), f (v.drop 8))
  | .latch l =>
    let x := c.ctx.regs.l.get l
    (x.lines.toArray, x.scales.toArray)
  | .spad _ _ _ _ =>
    let f := fun (p n : Nat) => (bytesOfWords ((upTo n).map fun i => buf.getD (p + i) 0)).toArray
    (f o y.words, f (o + y.words) (y.total - y.words))

/-- Element `p` of packed elements of `w` bits (R60). -/
def packedElem (b : Array Byte) (w p : Nat) : Nat :=
  if w = 4 then (b.getD (p / 2) 0).toNat / 16 ^ (p % 2) % 16
  else if w = 8 then (b.getD p 0).toNat
  else (b.getD (2 * p) 0).toNat + 256 * (b.getD (2 * p + 1) 0).toNat

/-- The value of an element under a format code. -/
def codeVal (code x : Nat) (nz : Byte) : Val :=
  match elemOf code with
  | some t => t.decode x nz
  | none => .num false 0 0

/-! ## The sum order (R76, R77, R80) -/

/-- R76, R77: the exact sum of a block's products, and whether it sets NV. -/
def blockSum (l : List (Val × Val)) : Val × Bool :=
  let ps := l.map fun x => x.1.mul x.2
  let nan := ps.any Val.isNan
  let nv := nan || l.any fun x => x.1.sig || x.2.sig
  let pos := ps.any (Val.isInf false)
  let neg := ps.any (Val.isInf true)
  if nan || (pos && neg) then (.nan false, nv)
  else if pos then (.inf false, nv)
  else if neg then (.inf true, nv)
  else
    let d : Dy := ps.foldl (fun (d : Dy) p => d.add p.dy) ⟨0, 0⟩
    (.num (d.m < 0) d.m.natAbs d.e, nv)

/-- R61, R76, R77: a floating accumulator after one block, with its sticky bits; one that holds a signalling NaN sets NV as the
block is added to it. -/
def accFloat (acc : Nat) (p : Val) (nv : Bool) : Nat × BitVec 6 :=
  if p.isZero then (acc, flagIf nv fNV)
  else
    let x := Fmt.f32.decode acc
    let r := Fmt.f32.add .rne 0 x p
    (r.1, flagIf nv fNV ||| r.2)

/-- R76, R80: an integer accumulator after one block. -/
def accInt (acc : Int) (p : Val) : Int × BitVec 6 :=
  let d := p.dy
  let r := clamp40 (acc + d.m * 2 ^ d.e.toNat)
  (r.1, flagIf r.2 fSAT)

/-- What a product of tiles is made of: the element values of A by row and of B by line, and the block scales. -/
structure Factors where
  k    : Nat
  a    : Array Val
  b    : Array Val
  sa   : Array Val
  sb   : Array Val
  fp4  : Bool
  int  : Bool
  tri  : Bool
  strict : Bool

/-- R162: the block scales of a tile. -/
def scaleVals (b : Array Byte) : Array Val := b.map fun x => Fmt.e3m5.decode x.toNat

/-- The factors of an MMA or MMAT. -/
def factors (v : DWord) (tri strict : Bool) (a b : Array Byte × Array Byte) (nza nzb : Byte) : Factors :=
  let k := fmtK v
  let vals := fun (x : Array Byte) (code n : Nat) (nz : Byte) =>
    ((upTo n).map fun p => codeVal code (packedElem x (codeWidth code) p) nz).toArray
  { k, a := vals a.1 (fmtA v) (64 * k) nza, b := vals b.1 (fmtB v) (64 * k) nzb,
    sa := scaleVals a.2, sb := scaleVals b.2, fp4 := fmtFp4 v, int := fmtInt v, tri, strict }

/-- The zero value. -/
def Val.zero : Val := .num false 0 0

/-- R171, R76: block `q` of element (i, j); masked terms are exact zero. -/
def Factors.block (f : Factors) (i j q : Nat) : Val × Bool :=
  let ks := ((upTo 8).map fun n => 8 * q + n).filter fun k => !(f.tri && (k > i || (k = i && f.strict)))
  let r := blockSum (ks.map fun k => (f.a.getD (i * f.k + k) Val.zero, f.b.getD (k * 64 + j) Val.zero))
  if f.fp4 then ((r.1.mul (f.sa.getD (32 * i + q) Val.zero)).mul (f.sb.getD (32 * j + q) Val.zero), r.2) else r

/-- R171: element (i, j) of the tile, from what it held. -/
def Factors.elem (f : Factors) (fresh : Bool) (old : BitVec 40) (i j : Nat) : BitVec 40 × BitVec 6 :=
  if f.int then
    let r := (upTo (f.k / 8)).foldl (fun (x : Int × BitVec 6) q =>
      let y := accInt x.1 (f.block i j q).1
      (y.1, x.2 ||| y.2)) (if fresh then 0 else old.toInt, 0)
    (BitVec.ofInt 40 r.1, r.2)
  else
    let r := (upTo (f.k / 8)).foldl (fun (x : Nat × BitVec 6) q =>
      let p := f.block i j q
      let y := accFloat x.1 p.1 p.2
      (y.1, x.2 ||| y.2)) (if fresh then 0 else old.toNat % 2 ^ 32, 0)
    (BitVec.ofNat 40 r.1, r.2)

/-- The status word of a tile (R157). -/
def tileStatus (int : Bool) (sticky : BitVec 6) : DWord := sticky.setWidth 64 ||| (if int then 0x100 else 0)

/-- R171: the tile after an MMA or MMAT, and whether an integer block step clamped. -/
def Factors.tile (f : Factors) (fresh : Bool) (z : Tile) : Tile × Bool :=
  let t : File 12 (BitVec 40 × BitVec 6) := File.gen 12 fun n =>
    f.elem fresh (z.elem.get (BitVec.ofNat 12 n)) (n / 64) (n % 64)
  let st := t.foldl (fun r x => r ||| x.2) 0
  ({ elem := t.map fun x => x.1, status := tileStatus f.int (st ||| if fresh then 0 else z.status.setWidth 6) },
    st &&& fSAT != 0)

/-! ## Stores (R174) -/

/-- R174: the rounding an MST took at its issue. -/
def Ctx.tookRound (x : Ctx) (rm : DWord) : Rnd :=
  { rm := (rm.extractLsb' 0 3).toNat, satf8 := rm.getLsbD 3, key := x.task.genKey, task := x.task.lidx,
    srseq := (rm.extractLsb' 32 32).setWidth 64 }

/-- R174: the value that element `n` of a tile stands for. -/
def Tile.val (z : Tile) (n : Nat) : Val :=
  let e := z.elem.get (BitVec.ofNat 12 n)
  if z.status.getLsbD 8 then intVal 40 e.toNat else Fmt.f32.decode (e.toNat % 2 ^ 32)

/-- R174: element `n` of the output, as a code of the OUT width, with its FLAGS bits. -/
def mstElem (z : Tile) (w : MstWord) (bs : BitVec 16) (qs zps : VReg) (r : Rnd) (n : Nat) : Nat × BitVec 6 :=
  let width := codeWidth w.out.toNat
  let v := z.val n
  if w.resc then
    let c := n % 64 + 64 * w.qoff.toNat
    let a := if z.status.getLsbD 8 then ((z.elem.get (BitVec.ofNat 12 n)).toInt, 0) else toInt 32 r n v
    let y := rescale a.1 (qs.lane c) (if w.zpe then (zps.lane c).toInt else 0) width
    ((BitVec.ofInt width y.1).toNat, a.2 ||| y.2)
  else
    let x := v.mul (if w.bse then Fmt.bf16.decode bs.toNat else .num false 1 0)
    match elemOf w.out.toNat with
    | some (.int k) =>
      let y := toInt k r n x
      ((BitVec.ofInt k y.1).toNat, y.2 ||| flagIf x.sig fNV)
    | some (.fl f) => f.convert r n x
    | _ => (0, 0)

/-- R174: word `n` of the output. -/
def mstWord (z : Tile) (w : MstWord) (bs : BitVec 16) (qs zps : VReg) (r : Rnd) (n : Nat) : Word × BitVec 6 :=
  let width := codeWidth w.out.toNat
  let per := 32 / width
  let l := (upTo per).map fun p => (p, mstElem z w bs qs zps r (n * per + p))
  (BitVec.ofNat 32 ((l.map fun x => x.2.1 * 2 ^ (width * x.1)).foldl (· + ·) 0), l.foldl (fun f x => f ||| x.2.2) 0)

/-! ## Steps -/

/-- The address of word `n` of an operation's scratchpad operands, A before B. -/
def Op.matAddr (op : Op) (n : Nat) : Option Nat :=
  let at1 := fun (y : Lay) (src : MatSrc) (n : Nat) => match src with
    | .spad base pitch tpitch rot => some (y.addr base pitch tpitch rot n)
    | _ => none
  match op.kind with
  | .latch _ src sc => at1 (layLatch sc) src n
  | .mma _ _ _ _ a b v _ _ _ =>
    let k := (layA v).reads a
    if n < k then at1 (layA v) a n else at1 (layB v) b (n - k)
  | .ldz _ src _ => at1 layTile src n
  | .stz _ dst w _ _ _ _ => at1 (layOut w) dst n
  | _ => none

/-- R117, R163: word `n` of a matrix operation is read. -/
def State.matRead (s : State) (c k n : Nat) (op : Op) : State :=
  if !op.toRead.contains n || s.arrayBehind c k op then s
  else match op.matAddr n with
    | some a => s.engineSpad c k n a
    | none => s

/-- R117, R174: word `n` of an MST is written. -/
def State.matWrite (s : State) (c k n : Nat) (op : Op) : State :=
  match op.kind with
  | .stz z _ w bs qs zps rm =>
    if !op.toWrite.contains n || s.opStrict c op || !s.spadTurn c then s
    else match op.matAddr n with
      | some a =>
        let x := (s.coreAt c).ctx
        let v := mstWord (x.regs.z.get z) w bs qs zps (x.tookRound rm) n
        (s.modAt c fun y => y.engWrite a 4 v.1.toNat).modOp c k fun o =>
          { o.put n (v.1.setWidth 64) with sticky := o.sticky ||| v.2 }
      | none => s
  | _ => s

/-- R289: the rows that an MST wrote join its partial digest. -/
def Op.foldMst (op : Op) (w : MstWord) : Op :=
  let y := layOut w
  let per := y.lb / 4
  (upTo 64).foldl (fun o l => o.foldRow placeSpad ((upTo per).filterMap fun j =>
    match op.matAddr (l * per + j), look op.wrote (l * per + j) with
    | some a, some v => some { a, n := 4, v := v.toNat }
    | _, _ => none)) op

/-- The registers of core `c` changed. -/
def State.modRegs (s : State) (c : Nat) (f : Regs → Regs) : State :=
  s.modAt c fun x => { x with ctx := { x.ctx with regs := f x.ctx.regs } }

/-- A tile written. -/
def State.putTile (s : State) (c : Nat) (z : ZReg) (t : Tile) : State := s.modRegs c fun r => { r with z := r.z.put z t }

/-- R169: a latch filled with lines, and with a scale tile where it comes with one. -/
def Latch.fill (l : Latch) (b : Array Byte × Array Byte) (sc : Bool) : Latch :=
  { lines := File.gen 13 fun i => b.1.getD i 0, scales := if sc then File.gen 11 fun i => b.2.getD i 0 else l.scales }

/-- R172: a tile loaded from words. -/
def loadTile (buf : Array Word) (int : Bool) : Tile :=
  { elem := File.gen 12 fun n => if int then (buf.getD n 0).signExtend 40 else (buf.getD n 0).setWidth 40,
    status := tileStatus int 0 }

/-- R175: a tile transposed. -/
def Tile.transpose (z : Tile) : Tile :=
  { z with elem := File.gen 12 fun n => z.elem.get (BitVec.ofNat 12 (n % 64 * 64 + n / 64)) }

/-- R117, R163, R165: a matrix operation resolves, once the time that it occupies its array or the port has passed. It writes its
tile or latch if it has met no error, and leaves them as they are with one (log entry 159); its token resolves, with accumulator
overflow where OVT asks for it (R81). -/
def State.resolveMat (s : State) (c k : Nat) (op : Op) : State :=
  let x := s.coreAt c
  if !op.toRead.isEmpty || !op.toWrite.isEmpty || (op.err == 0 && s.cyc < op.upto) then s
  else match op.kind with
    | .drain n =>
      if (x.ctx.ops.take k).any fun o => o.array == some n then s else s.resolveTok c k op
    | .latch l src sc =>
      if s.arrayBehind c k op then s
      else if op.err ≠ 0 then (s.resolveTok c k op).arrayNext c op.inst
      else
        let b := x.matBytes (layLatch sc) (wordsOf ((layLatch sc).reads src) op.buf) 0 src
        (s.modRegs c fun r => { r with l := r.l.put l ((r.l.get l).fill b sc) }).resolveTok c k op |>.arrayNext c op.inst
    | .mma tri strict _ z a b v nza nzb fresh =>
      if s.arrayBehind c k op then s
      else if op.err ≠ 0 then (s.resolveTok c k op).arrayNext c op.inst
      else
        let na := (layA v).reads a
        let buf := wordsOf (na + (layB v).reads b) op.buf
        let f := factors v tri strict (x.matBytes (layA v) buf 0 a) (x.matBytes (layB v) buf na b) nza nzb
        let t := f.tile fresh (x.ctx.regs.z.get z)
        (s.putTile c z t.1).resolveTok c k (if v.getLsbD 8 && t.2 then { op with err := 7 } else op)
          |>.arrayNext c op.inst
    | .zero z int => (s.putTile c z { Tile.reset with status := tileStatus int 0 }).resolveTok c k op
    | .ldz z _ int =>
      if op.err ≠ 0 then s.resolveTok c k op
      else (s.putTile c z (loadTile (wordsOf 4096 op.buf) int)).resolveTok c k op
    | .stz z _ w _ _ _ _ =>
      let o := op.foldMst w
      s.resolveTok c k { o with sticky := o.sticky ||| (x.ctx.regs.z.get z).status.setWidth 6 }
    | .trn a b => (s.putTile c b (x.ctx.regs.z.get a).transpose).resolveTok c k op
    | _ => s

end Sys2Proof.Machine
end

