-- ==== Sys2Proof/Machine/Hoists.lean ====
section
/-! DEFINITION. Hoists and bank compute (R325 to R339): the four forms, streams, the tiles of subscriptions, the bank
products and the bank fence. -/

namespace Sys2Proof.Machine

open Sys2Proof

/-! ## Tiles (R327) -/

/-- The number of tiles. -/
def Sub.total (x : Sub) : Nat := x.nt0 * x.nt1

/-- The number of tiles that the subscription stops at (R331). -/
def Sub.last (x : Sub) : Nat :=
  match x.stop with
  | some n => min n x.total
  | none => x.total

/-- The lowest and the highest first byte of any tile. -/
def Sub.span (x : Sub) : Int × Int :=
  let a := ((x.nt0 - 1 : Nat) : Int) * x.ts0
  let b := ((x.nt1 - 1 : Nat) : Int) * x.ts1
  (x.g + min 0 a + min 0 b, x.g + max 0 a + max 0 b)

/-- Some tile has bytes. -/
def Sub.moves (x : Sub) : Bool := x.total != 0 && x.sh.moves

/-- The first byte in each frame that `n` bytes from `x` reach. -/
def frameStarts (x n : Nat) : List Nat :=
  if n = 0 then []
  else (upTo ((x + n - 1) / 2 ^ 21 - x / 2 ^ 21 + 1)).map fun i => max x ((x / 2 ^ 21 + i) * 2 ^ 21)

/-- Where a subscription's rows enter a frame, in tile order. -/
def Sub.starts (x : Sub) : List Nat :=
  if x.moves then
    (upTo x.total).flatMap fun t => (upTo x.sh.rows).flatMap fun r =>
      frameStarts (({ x with tile := t } : Sub).at + r * x.sh.gpitch) x.sh.rowb
  else []

/-! ## Streams (R325) -/

/-- The device is in reduced service (R364, R365). -/
def State.reduced (s : State) : Bool := s.dev.status.getLsbD 1

/-- The streams of hoist `h` granted to a partition; none in reduced service (R365). -/
def State.streams (s : State) (p h : Nat) : Nat := if s.reduced then 0 else (s.part p).grant.streams[h]?.getD 0

/-- The class and the stack of the frame of an offset, if it is mapped. -/
def State.stackAt (s : State) (v : Via) (x : Nat) : Option (Nat × Nat) :=
  ((s.part v.part).leaf v.obj x).map fun l =>
    let a := (l.xlat v false).phys x
    (a / 2 ^ 45, (unitOf a).getD 0)

/-- R325: the hoist that serves an operation whose object bytes begin at `l`, or the first offset that breaks the rule;
none where nothing of it is mapped, so that its accesses fail by themselves. -/
def State.hoistOf (s : State) (v : Via) (l : List Nat) : Except Nat (Option Nat) :=
  let m := l.filterMap fun x => (s.stackAt v x).map fun y => (x, y)
  match m with
  | [] => .ok none
  | (_, y) :: _ =>
    match m.find? fun z => z.2.1 != 0 || z.2.2 != y.2 with
    | some z => .error z.1
    | none => .ok (some y.2)

/-- What an operation of the hoists reaches: its target, and its first bytes in each frame. -/
def Op.hoistBytes (o : Op) : Option (Via × List Nat) :=
  match o.kind with
  | .sub x => some (x.via, x.starts)
  | .bmv x => some (x.via, frameStarts x.g (if x.fmt = 0 then 2 * x.m * x.n else x.m * x.n / 2))
  | _ => none

/-- An operation waits for a stream of hoist `h`. -/
def State.waitsFor (s : State) (h : Nat) (o : Op) : Bool :=
  o.stream.isNone && o.err == 0 &&
    (match o.hoistBytes with
      | some (v, l) => (match s.hoistOf v l with
        | .ok (some j) => j == h
        | _ => false)
      | none => false)

/-- R217, R331: the context on a core has stopped to be taken, so that its subscriptions pause; those that an XUNSUB or
the end of their task has ended run out. -/
def Core.pauses (c : Core) : Bool :=
  match c.run with
  | .stopped w _ => w != 3
  | .ending _ _ => true
  | _ => false

/-- The streams of hoist `h` that operations of partition `p` hold. -/
def State.streamsHeld (s : State) (p h : Nat) : Nat :=
  ((s.cores.toList.flatMap fun c => if c.pid = p then c.ctx.ops else [])
    ++ ((s.part p).saves.flatMap fun v => v.ctx.ops)).countP fun o => o.stream == some h

/-- A subscription. -/
def Op.isSub (o : Op) : Bool :=
  match o.kind with
  | .sub _ => true
  | _ => false

/-- R325: an operation of partition `p` that issued before number `id` waits for a stream of hoist `h`, a subscription that
pauses with its context excepted. -/
def State.streamAhead (s : State) (p h id : Nat) : Bool :=
  s.cores.toList.any fun c => c.pid == p && c.ctx.ops.any fun o =>
    o.id < id && s.waitsFor h o && !(c.pauses && o.isSub)

/-- What comes of an operation's turn at its hoist. -/
inductive Grab where
  | wait
  | bad (e : BitVec 4) (detail : Nat)
  | ok (s : State)

/-- R325: operation `k` of core `c` takes a stream of its hoist, in arrival order, unless it holds one. -/
def State.takeStream (s : State) (c k : Nat) (op : Op) : Grab :=
  match op.hoistBytes with
  | none => .ok s
  | some (v, l) =>
    if op.stream.isSome then .ok s
    else match s.hoistOf v l with
      | .error x => .bad 3 x
      | .ok none => .ok s
      | .ok (some h) =>
        if s.streams v.part h = 0 then .bad 3 0
        else if s.streamsHeld v.part h ≥ s.streams v.part h || s.streamAhead v.part h op.id then .wait
        else .ok (s.modOp c k fun o => { o with stream := some h })

/-! ## Subscriptions (R327 to R331) -/

/-- A subscription feeds ring `r`, until it has resolved, also where an XUNSUB has ended it (log entry 162). -/
def Core.subOf (c : Core) (r : Ring) : Option Nat :=
  c.ctx.ops.findIdx? fun o => match o.kind with
    | .sub x => x.ring == r.toNat
    | _ => false

/-- R328, checks 2 and 3: the cause, REASON and ADDR of the first that fails. `o` is the checked offset. -/
def Sub.fault (x : Sub) (k : Cap) (o : Int) : Option (Byte × Nat × Nat) :=
  let odd := [(x.sh.rowb % 4, x.sh.rowb), (x.sh.spitch % 4, x.sh.spitch), (x.sh.gpitch % 4, x.sh.gpitch),
    ((o % 4).toNat, offLow o), ((x.ts0 % 4).toNat, offLow x.ts0), ((x.ts1 % 4).toNat, offLow x.ts1)].find? fun y => y.1 != 0
  match odd with
  | some (_, a) => some (0x04, 0, a)
  | none =>
    if !(k.kind = 0 || k.kind = 1) then some (0x03, 3, offLow o)
    else if !(k.has 7 && k.has (if x.out then 5 else 4)) then some (0x03, 2, offLow o)
    else if x.moves && (x.span.1 < k.base || x.span.2 + x.sh.ext x.sh.gpitch > k.base + k.len) then
      some (0x03, 1, offLow o)
    else none

/-- R328, check 1: the extent of a tile in the scratchpad, an empty tile's too, exceeds a slot. -/
def Sub.tooWide (x : Sub) (slotsz : Nat) : Bool := ((x.sh.rows : Int) - 1) * x.sh.spitch + x.sh.rowb > slotsz

/-- R322: the entries of the core's cache that cover some of the offsets `l`. -/
def Core.takeFor (c : Core) (v : Via) (w : Bool) (l : List Nat) : List Xlat := c.takeXlats v w fun t => l.any t.covers

/-- R327, R328. -/
def execXsub (t : Tok) (r : Ring) (b : Reg) (out : Bool) (w : XWord) (toks : List Tok) (s : State) : Out :=
  s.gate t toks fun s =>
    let k := s.rd.C w.cap
    let o := s.rd.xOff b w
    let nt := s.rd.group w.n 2
    let x : Sub := { ring := r.toNat, out, via := s.rd.via k, sh := s.rd.shape w.n true, g := k.base + o,
                     nt0 := (nt.extractLsb' 0 16).toNat, nt1 := (nt.extractLsb' 16 16).toNat,
                     ts0 := sv (s.rd.group w.n 3), ts1 := sv (s.rd.group w.n 4), tile := 0, sp := 0, stop := none }
    let d := s.rd.ringD r.toNat
    if s.rd.lostIn (ringAddr r.toNat) 32 then .next (s.lostRead (memInfo s.slot 0 w.cap.toNat 0 (ringAddr r.toNat)))
    else if !d.valid then .next (s.fault 0x06 (ringInfo r 1))
    else if x.tooWide d.slotsz then .next (s.fault 0x06 (ringInfo r 3))
    else if (s.rd.subOf r).isSome then .next (s.fault 0x06 (ringInfo r 4))
    else match x.fault k o with
      | some (f, rs, a) => .next (s.fault f (memInfo s.slot 0 w.cap.toNat rs a))
      | none =>
        if x.total = 0 then .next ((s.folded 0).resolveNow t 4)
        else .next (s.startFolded { Op.new s.fresh t 4 (.sub x) s.sigma with
          xls := s.rd.takeFor x.via x.out x.starts })

/-- The number of slots of a ring that are filled. -/
def RingD.filled (d : RingD) : Nat := (upTo d.count).countP fun i => slotBit d.full i

/-- R331: a subscription is ended: a loader finishes the tile it has claimed, a storer the slots filled by now. -/
def Sub.end (x : Sub) (claimed : Bool) (d : RingD) : Sub :=
  { x with stop := some (x.stop.getD (if x.out then x.tile + d.filled else x.tile + claimed.toNat)) }

/-- R331. -/
def execXunsub (t : Tok) (r : Ring) (toks : List Tok) (s : State) : Out :=
  s.gate t toks fun s =>
    match s.rd.subOf r with
    | none => .next (s.resolveNow t 4)
    | some k =>
      let id := match s.core.ctx.ops[k]? with
        | some o => o.id
        | none => 0
      let d := s.rd.ringD r.toNat
      let s := s.modOp s.cur.val k fun o => match o.kind with
        | .sub x => { o with kind := .sub (x.end o.claimed d) }
        | _ => o
      .next (s.start (Op.new s.fresh t 4 (.unsub id) 0))

/-- A tile begins: its words are due, in slot `slot` at `sp`. -/
def Op.tileStart (x : Sub) (slot sp : Nat) (o : Op) : Op :=
  { o with kind := .sub { x with sp }, claimed := true, slot, toRead := upTo x.sh.words, toWrite := upTo x.sh.words,
           buf := [], wrote := [] }

/-- A tile ends: its items join the partial digest (R339), and the next tile is due. The translations
that an XINV dropped under a claimed tile of a loader go with it, since pushes not yet claimed are cancelled and walk afresh
(R315). -/
def Op.tileEnd (x : Sub) (o : Op) : Op :=
  { o.foldCopy with kind := .sub { x with tile := x.tile + 1 }, claimed := false, buf := [], wrote := [],
                    xls := o.xls.filter fun t => !o.stale.contains t, stale := [],
                    held := if x.out then o.held else [] }

/-- Every word of the operation's tile has moved. -/
def Op.tileMoved (o : Op) : Bool := o.claimed && o.toRead.isEmpty && o.toWrite.isEmpty

/-- R344: the budget is spent at a unit that the next tile of a subscription reaches. -/
def State.tileSpent (s : State) (x : Sub) : Bool :=
  x.sh.moves && (frameStarts x.at (x.sh.ext x.sh.gpitch)).any fun y => match (s.part x.via.part).phys x.via.obj y with
    | some a => s.spent x.via.part a
    | none => false

/-- A subscription of core `c` may begin its next tile. -/
def State.tileDue (s : State) (c : Nat) (op : Op) (x : Sub) : Bool :=
  !op.claimed && op.err == 0 && !s.tileSpent x && decide (x.tile < x.last) && !((s.coreAt c).pauses && x.stop.isNone)

/-- R329: a loader claims the slot of its next tile, waiting while it is in use. A claim that fails on its descriptor is recorded
as R145 records one (log entries 53 and 163). -/
def State.pushClaim (s : State) (c k : Nat) (x : Sub) : State :=
  let y := s.coreAt c
  let d := y.ringD x.ring
  if !y.lostIn (ringAddr x.ring) 32 && d.valid && slotBit d.inuse d.wp then s
  else
    let (r, core) := y.ringClaim x.ring (x.sh.ext x.sh.spitch)
    let s := s.modAt c fun _ => core
    match r with
    | .error e => s.failOp c k e 0
    | .ok (slot, sp) => s.modOp c k (Op.tileStart x slot sp)

/-- R329: the loader at operation `k` of core `c` takes its next ring step: the claim of a tile, or its fill. -/
def execPush (c k : Nat) (s : State) : Out :=
  match s.opAt c k with
  | none => .next s
  | some op =>
    match op.kind with
    | .sub x =>
      if x.out || !s.ringTurn c op c then .next s
      else if op.tileMoved && op.err = 0 then
        .next ((s.modAt c fun y => y.ringFill x.ring op.slot).modOp c k (Op.tileEnd x))
      else if s.tileDue c op x then
        match s.takeStream c k op with
        | .wait => .next s
        | .bad e d => .next (s.failOp c k e d)
        | .ok s => .next (s.pushClaim c k x)
      else .next s
    | _ => .next s

/-- R330: a storer takes the slot at RP once it is filled. -/
def State.pullTake (s : State) (c k : Nat) (x : Sub) : State :=
  let y := s.coreAt c
  let d := y.ringD x.ring
  if y.lostIn (ringAddr x.ring) 32 then s.failOp c k 6 0
  else if !d.valid then s.failOp c k 2 0
  else if slotBit d.full d.rp then s.modOp c k (Op.tileStart x d.rp (d.slotAddr d.rp))
  else s

/-- R330: the drain step. -/
def Core.ringDrain (n : Nat) (c : Core) : Core := (c.ringRelease n (c.ringD n)).wake

/-- R330: the storer at operation `k` of core `c` takes its next ring step: it takes a filled slot, or drains one. -/
def execPull (c k : Nat) (s : State) : Out :=
  match s.opAt c k with
  | none => .next s
  | some op =>
    match op.kind with
    | .sub x =>
      if !x.out || !s.ringTurn c op c then .next s
      else if op.tileMoved && op.err = 0 then
        .next ((s.modAt c fun y => y.ringDrain x.ring).modOp c k (Op.tileEnd x))
      else if s.tileDue c op x then
        match s.takeStream c k op with
        | .wait => .next s
        | .bad e d => .next (s.failOp c k e d)
        | .ok s => .next (s.pullTake c k x)
      else .next s
    | _ => .next s

/-- RESOLVE of a subscription: after its last tile, or its error. -/
def State.resolveSub (s : State) (c k : Nat) (op : Op) (x : Sub) : State :=
  if op.err ≠ 0 then s.resolveTok c k op.foldCopy
  else if !op.claimed && x.last ≤ x.tile then s.resolveTok c k op
  else s

/-- RESOLVE of an XUNSUB: once its subscription has resolved (R331). -/
def State.resolveUnsub (s : State) (c k : Nat) (op : Op) (sub : Nat) : State :=
  if (s.coreAt c).ctx.ops.any fun o => o.id == sub then s else s.resolveTok c k op

/-! ## The bank matrix-vector unit (R332 to R336) -/

/-- R333: the first capability check of the three that fails: the capability's number, REASON and checked offset. -/
def capFault (l : List (CReg × Cap × Int × Nat × List Nat)) : Option (CReg × Nat × Int) :=
  match l with
  | [] => none
  | (r, k, o, n, need) :: l =>
    if o < 0 || o + n > k.len then some (r, 1, o)
    else if !need.all k.has then some (r, 2, o)
    else if !(k.kind = 0 || k.kind = 1) then some (r, 3, o)
    else capFault l

/-- R333: the shape of a product is refused. -/
def Bmv.shapeBad (x : Bmv) : Bool :=
  x.m == 0 || x.n == 0 || x.m % 8 != 0 || decide (x.m > 65536)
    || x.n % (if x.fmt = 1 then 128 else if x.fmt = 2 then 64 else 8) != 0 || decide (x.n > 16384)

/-- R333, checks 1 and 2: the cause and ADDR of the first that fails. -/
def Bmv.spadFault (x : Bmv) (o : Int) : Option (Byte × Nat) :=
  let y := if x.ring.isSome then 0 else x.y
  let fa := match x.flag with
    | some (a, _) => a
    | none => 0
  if x.n ≠ 0 && x.x + 2 * x.n > spadSize then some (0x05, x.x)
  else if x.ring.isNone && x.m ≠ 0 && x.y + 4 * x.m > spadSize then some (0x05, x.y)
  else if x.flag.isSome && fa + 8 > spadSize then some (0x05, fa)
  else (([(x.x % 4, x.x), (y % 4, y), ((o % 4).toNat, offLow o), (fa % 8, fa)]
    ++ if x.fmt = 0 then [] else [((o % 256).toNat, offLow o)]).find? fun z => z.1 != 0).map fun z => (0x04, z.2)

/-- R332 to R334. -/
def execXbmv (t : Tok) (a b : Reg) (flag : Bool) (fmt : BitVec 2) (w : XWord) (toks : List Tok) (s : State) : Out :=
  s.gate t toks fun s =>
    let r0 := s.rd.group w.n 0
    let ctl := s.rd.group w.n 2
    let sc : CReg := ctl.extractLsb' 0 4
    let bc : CReg := ctl.extractLsb' 4 4
    let ring := if ctl.getLsbD 8 then some (ctl.extractLsb' 9 3).toNat else none
    let k := s.rd.C w.cap
    let ks := s.rd.C sc
    let kb := s.rd.C bc
    let o := s.rd.xOff b w
    let so := sv (s.rd.group w.n 1)
    let bo := sv (s.rd.group w.n 3)
    let x : Bmv :=
      { x := (s.rd.S a).toNat, fmt, via := s.rd.via k, g := (k.base + o).toNat, n := (r0.extractLsb' 0 20).toNat,
        m := (r0.extractLsb' 20 24).toNat, svia := s.rd.via ks, sg := (ks.base + so).toNat, bvia := s.rd.via kb,
        bg := (kb.base + bo).toNat, y := (s.rd.group w.n 4).toNat, ring,
        nz := s.rd.ctx.regs.nz.get (ctl.extractLsb' 12 2), flag := s.rd.flagArg w.n 5 flag, checked := false }
    let caps := [(w.cap, k, o, x.wBytes, [7, 4])]
      ++ (if fmt = 0 then [] else [(sc, ks, so, x.sBytes, [4])])
      ++ (if fmt = 2 then [(bc, kb, bo, x.bBytes, [4])] else [])
    match x.spadFault o with
    | some (f, y) => .next (s.fault f (memInfo s.slot 0 w.cap.toNat 0 y))
    | none =>
      if x.shapeBad then .next (s.fault 0x03 (memInfo s.slot 0 w.cap.toNat 1 (offLow o)))
      else match capFault caps with
        | some (c, rs, y) => .next (s.fault 0x03 (memInfo s.slot 0 c.toNat rs (offLow y)))
        | none =>
          let op := Op.new s.fresh t 4 (.bmv x) s.sigma
          let op := { op with toRead := upTo x.words, toWrite := upTo x.m, claimed := ring.isNone, filled := ring.isNone,
                              flagged := !flag, xls := s.rd.takeFor x.via false (frameStarts x.g x.wBytes)
                                ++ s.rd.takeFor x.svia false (frameStarts x.sg x.sBytes)
                                ++ s.rd.takeFor x.bvia false (frameStarts x.bg x.bBytes) }
          match ring with
          | some r =>
            let d := s.rd.ringD r
            let n : Ring := BitVec.ofNat 3 r
            if s.rd.lostIn (ringAddr r) 32 then .next (s.lostRead (memInfo s.slot 0 w.cap.toNat 0 (ringAddr r)))
            else if !d.valid then .next (s.fault 0x06 (ringInfo n 1))
            else if 4 * x.m > d.slotsz then .next (s.fault 0x06 (ringInfo n 3))
            else .next (s.startFolded op)
          | none => .next (s.startFolded op)

/-- The layout code that a format needs (R332). -/
def Bmv.layout (x : Bmv) : Nat := if x.fmt = 0 then 0 else if x.fmt = 1 then 3 else 4

/-- R333: the first offset of W whose leaf carries another layout code. -/
def State.layoutBad (s : State) (x : Bmv) : Option Nat :=
  (frameStarts x.g x.wBytes).find? fun y => match (s.part x.via.part).leaf x.via.obj y with
    | some l => l.layout != x.layout
    | none => false

/-- R336: word `n` of W is read from its bank image, with the arena generation of R319 checked. -/
def State.bankWord (s : State) (c k n : Nat) (op : Op) (v : Via) (x : Nat) : State :=
  match s.opXlat op v x false with
  | .error e => s.failOp c k e x
  | .ok t =>
    let pa := t.phys x
    let l := lineOf pa
    if s.spent v.part pa then s
    else if s.home.lost.contains l then
      (s.onCtx c (s.coreAt c).ctx.task.uid (Ctx.memErr v.obj x pa)).failOp c k 6 x
    else if !s.home.genOk t pa then s.failOp c k 5 x
    else
      let s := if op.touched.contains (l, 4) then s else s.chargeBank v.part c (s.coreAt c).ctx.task.uid pa
      s.modOp c k fun o =>
        { o.got n (s.home.bank.word pa) with
          xls := if o.xls.contains t then o.xls else t :: o.xls,
          touched := if o.touched.contains (l, 4) then o.touched else (l, 4) :: o.touched }

/-- The bank unit at operation `k` of core `c` reads word `w` of W. Before the first word, the hoist checks the layout
of every leaf and takes its stream (R325, R333). -/
def execBankRead (c k w : Nat) (s : State) : Out :=
  match s.opAt c k with
  | none => .next s
  | some op =>
    match op.kind with
    | .bmv x =>
      if op.err ≠ 0 then .next s
      else
        let go := fun (s : State) (op : Op) =>
          if w < x.wWords && op.toRead.contains w then s.bankWord c k w op x.via (x.g + 4 * w) else s
        if x.checked then .next (go s op)
        else match s.layoutBad x with
          | some y => .next (s.failOp c k 8 y)
          | none => match s.takeStream c k op with
            | .wait => .next s
            | .bad e d => .next (s.failOp c k e d)
            | .ok s =>
              let s := s.modOp c k fun o => { o with kind := .bmv { x with checked := true } }
              .next (match s.opAt c k with
                | some op => go s op
                | none => s)
    | _ => .next s

/-- The hoist reads word `n` of x, of the scales or of the band scales, once it holds its stream. -/
def State.bmvRead (s : State) (c k n : Nat) (op : Op) (x : Bmv) : State :=
  if !op.toRead.contains n || !x.checked then s
  else if n < x.wWords then s
  else match x.wordAt n with
    | none => s.engineSpad c k n (x.x + 4 * (n - x.wWords))
    | some (v, a) =>
      if s.opTwinAhead c k v (x.firstAt n a) false then s
      else match s.reach c k n op v a (x.firstAt n a) false true with
      | .wait s => s
      | .bad s e => s.failOp c k e a
      | .ok s t => s.modOp c k (Op.got n (s.home.word (t.phys a)))

/-- Byte `b` of the words from number `o` of a buffer. -/
def bufByte (buf : Array Word) (o b : Nat) : Nat := (buf.getD (o + b / 4) 0).toNat / 2 ^ (8 * (b % 4)) % 256

/-- The 16 bits at byte `b` of the words from number `o` of a buffer. -/
def bufHalf (buf : Array Word) (o b : Nat) : Nat := bufByte buf o b + 256 * bufByte buf o (b + 1)

/-- R129, R131, R332: element (i, j) of W. -/
def Bmv.weight (x : Bmv) (buf : Array Word) (i j : Nat) : Val :=
  if x.fmt = 0 then Fmt.bf16.decode (bufHalf buf 0 (2 * (i * x.n + j)))
  else
    let c := bufByte buf 0 ((i / 8 * (x.n / 64) + j / 64) * 256 + 8 * (j % 64 / 2) + i % 8) / 16 ^ (j % 2) % 16
    if x.fmt = 1 then intVal 4 c else fp4Val c x.nz

/-- R130, R131: the scale of block `q` of row `i`; one for BF16. -/
def Bmv.scale (x : Bmv) (buf : Array Word) (i q : Nat) : Val :=
  let o := x.wWords + x.xWords
  if x.fmt = 1 then Fmt.bf16.decode (bufHalf buf o (x.sg % 4 + 2 * (i * (x.n / 128) + q / 16)))
  else if x.fmt = 2 then Fmt.e3m5.decode (bufByte buf o (x.sg % 4 + i * (x.n / 8) + q))
  else .num false 1 0

/-- R334: y[i] with its sticky bits. -/
def Bmv.row (x : Bmv) (buf : Array Word) (i : Nat) : Nat × BitVec 6 :=
  let r := (upTo (x.n / 8)).foldl (fun (y : Nat × BitVec 6) q =>
    let b := blockSum ((upTo 8).map fun n =>
      (x.weight buf i (8 * q + n), Fmt.bf16.decode (bufHalf buf x.wWords (2 * (8 * q + n)))))
    let p := b.1.mul (x.scale buf i q)
    let z := accFloat y.1 p (b.2 || p.sig)
    (z.1, y.2 ||| z.2)) (0, 0)
  if x.fmt = 2 then
    let s := Fmt.bf16.decode (bufHalf buf (x.wWords + x.xWords + x.sWords) (x.bg % 4 + 2 * (i / 64)))
    let z := Fmt.f32.mul .rne 0 (Fmt.f32.decode r.1) s
    (z.1, r.2 ||| z.2)
  else r

/-- R335: word `n` of y is written; after the last, the sticky bits join FLAGS. -/
def State.bmvWrite (s : State) (c k n : Nat) (op : Op) (x : Bmv) : State :=
  if !op.claimed || !op.toRead.isEmpty || !op.toWrite.contains n || s.opStrict c op || !s.spadTurn c then s
  else
    let v := x.row (wordsOf x.words op.buf) n
    let st := op.sticky ||| v.2
    let last := (op.toWrite.erase n).isEmpty
    let s := (s.modAt c fun y => y.engWrite (x.y + 4 * n) 4 v.1).modOp c k fun o =>
      { o.put n (BitVec.ofNat 64 v.1) with sticky := if last then 0 else st }
    if last then s.modAt c fun y => { y with ctx := y.ctx.raise st } else s

/-- R339: the y words written join the partial digest, in the aligned 8-byte items of R289's copies (log entry 164). -/
def Op.foldBmv (op : Op) (x : Bmv) : Op :=
  op.foldRow placeSpad ((upTo x.m).filterMap fun i => (look op.wrote i).map fun v =>
    { a := x.y + 4 * i, n := 4, v := v.toNat })

/-- RESOLVE of a bank product: its flag word, its items, its token (R335). -/
def State.resolveBmv (s : State) (c k : Nat) (op : Op) (x : Bmv) : State :=
  if op.err ≠ 0 then s.resolveTok c k (op.foldBmv x)
  else if op.claimed && op.filled && op.toRead.isEmpty && op.toWrite.isEmpty && (x.flag.isNone || s.spadTurn c) then
    let s := match x.flag with
      | some (a, v) => s.modAt c fun y => y.engWrite a 8 v.toNat
      | none => s
    s.resolveTok c k ((op.foldBmv x).foldFlag x.flag)
  else s

/-! ## The bank fence (R337) -/

/-- R337. -/
def execXbfen (t : Tok) (b : Reg) (w : XWord) (toks : List Tok) (s : State) : Out :=
  s.gate t toks fun s =>
    let n := sv (s.rd.S w.n)
    let o := s.rd.xOff b w
    let k := s.rd.C w.cap
    if n ≤ 0 then .next (s.resolveNow t 4)
    else match copyFault k [7] [0, 1, 2] none { rows := 1, rowb := n.toNat, spitch := 0, gpitch := 0 } o none with
      | some (f, r, a) => .next (s.fault f (memInfo s.slot 0 w.cap.toNat r a))
      | none =>
        let g := k.base + o.toNat
        .next (s.start { Op.new s.fresh t 4 (.bfen (s.rd.via k) g n.toNat) 0 with
          xls := s.rd.takeFor (s.rd.via k) false (frameStarts g n.toNat) })

/-- An operation has a global write under way (R337, step 1). -/
def State.opStores (s : State) (c : Nat) (o : Op) : Bool :=
  match o.kind with
  | .sub x => x.out && (o.claimed || (let d := (s.coreAt c).ringD x.ring; slotBit d.full d.rp && x.tile < x.last))
  | .chain _ _ _ _ => !o.flagged && o.err == 0
  | .copy f _ _ _ _ _ _ => f.writes && !o.toWrite.isEmpty
  | _ => false

/-- Something that the core stored before operation `k` has not performed (R337, step 1). -/
def State.storesBefore (s : State) (c k : Nat) (op : Op) : Bool :=
  ((s.coreAt c).queues.toList.any fun l => l.any fun e => match e with
    | .acc a => a.kind.writes && a.id < op.id
    | .fence _ _ => false)
  || (s.fab.reqs.any fun r => r.core == c && r.op.isNone && r.acc.kind.writes && r.acc.id < op.id)
  || ((s.coreAt c).ctx.ops.take k).any fun o => s.opStores c o

/-- An earlier bank product whose W overlaps the range has bank reads left (R337, step 2). -/
def State.readsBefore (s : State) (c k : Nat) (v : Via) (g n : Nat) : Bool :=
  ((s.coreAt c).ctx.ops.take k).any fun o => match o.kind with
    | .bmv x => x.via.part == v.part && x.via.obj == v.obj && x.g < g + n && g < x.g + x.wBytes
        && o.toRead.any fun w => w < x.wWords
    | _ => false

/-- R337, step 3, R344: the dirty lines of an object range are written back and charged, as far as the budget goes, and then the
token of operation `k` resolves; a line that no translation serves resolves it with the error. -/
def State.fenceLines (s : State) (c k : Nat) (op : Op) (v : Via) (g : Nat) : List Nat → State
  | [] => s.resolveTok c k op
  | l :: r =>
    match s.opXlat op v (max (l * 64) (g / 4 * 4)) false with
    | .error e => s.resolveTok c k { op with err := e, detail := BitVec.ofNat 32 (max (l * 64) g) }
    | .ok t =>
      let pa := t.phys (l * 64)
      let s := s.keepXlat c k t
      if !s.home.dirty.contains (lineOf pa) then State.fenceLines s c k op v g r
      else if s.spent v.part pa then s
      else
        let s := s.backLine v.part (lineOf pa)
        State.fenceLines (if (unitOf pa).isSome then s.countFor c (s.coreAt c).ctx.task.uid 11 1 else s) c k op v g r

/-- R337: once what came before is done, every dirty line of the range is written back and the token resolves. -/
def execBankFence (c k : Nat) (s : State) : Out :=
  match s.opAt c k with
  | none => .next s
  | some op =>
    match op.kind with
    | .bfen v g n =>
      if s.storesBefore c k op || s.readsBefore c k v g n then .next s
      else .next (s.fenceLines c k op v g (linesOf g n))
    | _ => .next s

/-- The partition whose objects hold a physical address. -/
def State.ownerOf (s : State) (a : Nat) : Option Nat :=
  (upTo 12).find? fun p => (s.part p).leaves.any fun l => (upTo l.2.frames).any fun i =>
    frameKey ((l.2.xlat default false).phys ((l.2.oframe + i) * 2 ^ 21)) == frameKey a

/-- R336, R344: the home slice writes line `line` back, unless the budget of the partition that holds it is spent. -/
def execWriteBack (line : Nat) (s : State) : Out :=
  if !s.home.dirty.contains line then .next s
  else match s.ownerOf (line * 64) with
    | none => .next (s.modHome fun h => h.writeBack line)
    | some p =>
      if s.spent p (line * 64) then .next s else .next (s.backLine p line)

/-! ## Operations under an XINV (R309, R315, R322) -/

/-- The range ends: a length of 0 names the whole object (R314). -/
def Inv.end (i : Inv) : Nat := if i.len = 0 then 2 ^ 48 else i.start + i.len

/-- A range of an object overlaps an XINV's. -/
def Inv.meets (i : Inv) (obj x n : Nat) : Bool := i.obj == obj && x < i.end && i.start < x + n

/-- A translation is dropped by an XINV of partition `p`. -/
def Inv.hits (i : Inv) (p : Nat) (t : Xlat) : Bool :=
  t.part == p && t.cls != 3 && i.meets t.obj (t.oframe * 2 ^ 21) (t.n0 * t.n1 * t.n2 * 2 ^ 21)

/-- An operation of the hoists. -/
def Op.ofHoist (o : Op) : Bool :=
  match o.kind with
  | .sub _ => true
  | .bmv _ => true
  | .bfen _ _ _ => true
  | _ => false

/-- R315, R322: an operation that uses a dropped entry: a hint is cancelled, a loader between tiles walks afresh, and
any other moves what it has left before its holder acknowledges. -/
def Op.invalidate (p : Nat) (i : Inv) (o : Op) : Op :=
  if !o.xls.any (i.hits p) then o
  else match o.kind with
    | .prefetch _ _ _ _ => { o.dropHint with xls := [] }
    | .residency _ _ _ _ => { o.dropHint with xls := [] }
    | .sub x => if !x.out && !o.claimed then { o with xls := o.xls.filter fun t => !i.hits p t }
      else { o with held := i.id :: o.held, stale := if x.out then o.stale else o.xls.filter (i.hits p) ++ o.stale }
    | _ => { o with held := i.id :: o.held }

/-- A host operation's words that have been sent through a handle over an XINV's range (R309). -/
def Inv.meetsHost (i : Inv) (p : Nat) (o : Op) : Bool :=
  !o.sent.isEmpty && (match o.payload with
    | some (_, _, _, v, _) => v.kind == 4 && v.part == p && v.obj == i.obj
    | none => false)

/-- R309, R315: an operation, of the hoists or not, under XINV number `k`. -/
def Op.underInv (p k : Nat) (i : Inv) (hoist : Bool) (o : Op) : Op :=
  if o.ofHoist != hoist || o.held.contains k then o
  else
    let o := o.invalidate p i
    if i.meetsHost p o then { o with held := k :: o.held } else o

end Sys2Proof.Machine
end

