-- ==== Sys2Proof/Machine/Tasks.lean ====
section
/-! DEFINITION. The task machine at its controllers (R248 to R271): records, jobs, queues and priorities, the forms ENQ,
TDEC and CANCEL with their requests, binds, steals, the timetable and the hang watchdog. -/

namespace Sys2Proof.Machine

open Sys2Proof

/-! ## Records (R248 to R251) -/

/-- A record that is present. -/
def Part.getRec (q : Part) (n : Nat) : Option Rec := if n < q.grant.recs then look q.recs n else none

/-- Record `n` changed. -/
def Part.modRec (q : Part) (n : Nat) (f : Rec → Rec) : Part := { q with recs := change q.recs n f }

/-- A record has not started and not ended: a sweep or a kill takes it (R268, R355). -/
def RecState.unstarted : RecState → Bool
  | .idle => true
  | .waiting => true
  | .timed => true
  | .queued => true
  | .bound => true
  | _ => false

/-- A record counts in LIVE of its job (R252). -/
def RecState.live : RecState → Bool
  | .retired => false
  | .cancelled => false
  | .failed => false
  | _ => true

/-- A record's task has not retired (R264, R267). -/
def RecState.unretired : RecState → Bool
  | .done => false
  | .retired => false
  | _ => true

/-! ## Jobs and priorities (R252, R264) -/

/-- A job of the partition. -/
def Part.job (q : Part) (j : BitVec 32) : Option Job := q.jobs.find? fun x => x.id == j

/-- A job changed. -/
def Part.modJob (q : Part) (j : BitVec 32) (f : Job → Job) : Part :=
  { q with jobs := q.jobs.map fun x => if x.id = j then f x else x }

/-- R256: a queue handle's queue is on a die that the partition uses. -/
def Part.usesDie (q : Part) (die : Nat) : Bool := q.grant.quads.any fun k => k / 20 == die

/-- R342: the partition holds a queue, on a die that it uses. -/
def Part.holdsQueue (q : Part) (k : Nat) : Bool := q.usesDie (k / 64) && q.grant.queues.contains k

/-- The dies whose controllers serve the partition. -/
def Part.dies (q : Part) : List Nat := (upTo 4).filter q.usesDie

/-- R248: the die of a record's home controller. The spec gives no rule for it: with more than one die it follows a free
value (log entry 130). -/
def Part.recordDie (q : Part) (n : Nat) : Nat :=
  match q.dies with
  | [] => 0
  | [d] => d
  | l => (l[Config.recordDie q.grant n % l.length]?).getD 0

/-- The controller of a die has marked a job cancelled (R268). -/
def Part.marked (q : Part) (j : BitVec 32) (die : Nat) : Bool :=
  match q.job j with
  | some x => x.marks.contains die
  | none => false

/-- The job of a record is cancelled. -/
def Part.cancelled (q : Part) (j : BitVec 32) : Bool :=
  match q.job j with
  | some x => x.cancelled
  | none => false

/-- EFFPRIO of a job in a job table. -/
def effOf (l : List Job) (j : BitVec 32) : Nat :=
  match l.find? fun x => x.id == j with
  | some x => x.eff
  | none => 0

/-- The records that pending cross-job edges from job `j` reach (R264). -/
def Part.edges (q : Part) (j : BitVec 32) : List Rec :=
  q.recs.flatMap fun r =>
    if r.2.job = j && r.2.state.unretired then
      r.2.succ.filterMap fun y => match q.getRec y with
        | some z => if z.job ≠ j && (z.state = .waiting || z.state = .timed) then some z else none
        | none => none
    else []

/-- One round of R264's maxima. -/
def Part.raise (q : Part) (l : List Job) : List Job :=
  l.map fun x => { x with eff := (q.edges x.id).foldl (fun e y => max e (max y.prio (effOf l y.job))) x.base }

/-- `n` rounds of R264. -/
def Part.raises (q : Part) : Nat → List Job → List Job
  | 0, l => l
  | n + 1, l => Part.raises q n (q.raise l)

/-- LIVE and EFFPRIO of every job, as the records stand (R252, R264). -/
def Part.refresh (q : Part) : Part :=
  { q with jobs := q.raises q.jobs.length (q.jobs.map fun x =>
      { x with eff := x.base, live := q.recs.countP fun r => r.2.job == x.id && r.2.state.live }) }

/-- The priority of a queued record (R264). -/
def Part.prioOf (q : Part) (r : Rec) : Nat := max r.prio (effOf q.jobs r.job)

/-! ## Queues (R253) -/

/-- The records of queue `k`, head first. -/
def Part.queue (q : Part) (k : Nat) : List Nat := (look q.queues k).getD []

/-- Record `n` joins the tail of its queue. -/
def Part.enqueue (q : Part) (n : Nat) : Part :=
  match look q.recs n with
  | some r => { q.modRec n (fun r => { r with state := .queued }) with
      queues := put q.queues r.queue (q.queue r.queue ++ [n]) }
  | none => q

/-- Record `n` leaves every queue. -/
def Part.unqueue (q : Part) (n : Nat) : Part := { q with queues := q.queues.map fun x => (x.1, x.2.filter fun k => k != n) }

/-- R251: an armed record with PENDING = 0 becomes QUEUED, or TIMED. -/
def Part.ready (q : Part) (n : Nat) : Part :=
  match look q.recs n with
  | some r => if r.tt then q.modRec n fun r => { r with state := .timed } else q.enqueue n
  | none => q

/-- The priority of a queue: that of its head (R253). -/
def Part.queuePrio (q : Part) (k : Nat) : Option Nat :=
  match q.queue k with
  | [] => none
  | n :: _ => (look q.recs n).map q.prioOf

/-- R263: the queue of a die that Bamosh binds from: the highest priority among those whose head satisfies `ok`, ties to
the lower number. -/
def Part.topQueue (q : Part) (die : Nat) (ok : Rec → Bool) : Option Nat :=
  (upTo 64).foldl (fun (b : Option Nat) i =>
    let k := die * 64 + i
    let h := match (q.queue k).head? with
      | some n => (look q.recs n).any ok
      | none => false
    match (if h then q.queuePrio k else none), b with
    | none, _ => b
    | some _, none => some k
    | some p, some j => if (q.queuePrio j).getD 0 < p then some k else b) none

/-! ## Ends (R251, R260) -/

/-- R260, step 2: what follows when record `n` reaches RETIRED or CANCELLED: OPEN of its PARENT falls, and a DONE parent
whose OPEN reaches 0 retires in its turn. The first argument bounds the ancestors. -/
def Part.closed : Nat → Nat → Part → Part
  | 0, _, q => q
  | f + 1, n, q =>
    match (look q.recs n).bind fun r => r.parent with
    | none => q
    | some m =>
      match look q.recs m with
      | none => q
      | some r =>
        let q := q.modRec m fun r => { r with opens := r.opens - 1 }
        if r.state = .done && r.opens = 1 then Part.closed f m (q.modRec m fun r => { r with state := .retired }) else q

/-- Record `n` reaches CANCELLED. -/
def Part.cancelRec (q : Part) (n : Nat) : Part :=
  let q := (q.unqueue n).modRec n fun r => { r with state := .cancelled, saved := none }
  q.closed q.recs.length n

/-- R260, step 2: record `n` retires. -/
def Part.retireRec (q : Part) (n : Nat) : Part :=
  match look q.recs n with
  | none => q
  | some r =>
    if r.opens > 0 then q.modRec n fun r => { r with state := .done }
    else (q.modRec n fun r => { r with state := .retired }).closed q.recs.length n

/-- Record `n` reaches FAILED. -/
def Part.failRec (q : Part) (n : Nat) : Part := (q.unqueue n).modRec n fun r => { r with state := .failed, saved := none }

/-! ## Requests (R255 to R258, R271) -/

/-- A job that a request finds: it leaves the table when its LIVE reaches zero (R252). -/
def Part.liveJob (q : Part) (j : BitVec 32) : Option Job :=
  match q.job j with
  | some x => if x.live = 0 then none else some x
  | none => none

/-- A record that a request finds: it becomes absent when its job leaves the table (R248). -/
def Part.reqRec (q : Part) (n : Nat) : Option Rec :=
  match q.getRec n with
  | some r => if (q.liveJob r.job).isSome then some r else none
  | none => none

/-- R257: a decrement of record `n`, with its result code. -/
def Part.tdec (q : Part) (n : Nat) : Part × Nat :=
  match q.reqRec n with
  | none => (q, 4)
  | some r =>
    if q.marked r.job (q.recordDie n) then (q, 1)
    else if !(r.state = .idle || r.state = .waiting) || r.pending = 0 then (q, 3)
    else
      let q := q.modRec n fun r => { r with pending := r.pending - 1 }
      if r.pending = 1 && r.state = .waiting then (q.ready n, 2) else (q, 0)

/-- R256: an ENQ of record `n` with `args` on queue `k`, with its result code. -/
def Part.enq (q : Part) (n : Nat) (args : List DWord) (k : Nat) : Part × Nat :=
  match q.reqRec n with
  | none => (q, 4)
  | some r =>
    if q.marked r.job (q.recordDie n) then (q, 1)
    else if q.killed.contains k then (q, 5)
    else if r.state ≠ .idle then (q, 3)
    else
      let q := q.modRec n fun r => { r with args := args ++ r.args.drop args.length, queue := k }
      if r.pending > 0 then (q.modRec n fun r => { r with state := .waiting }, 0) else (q.ready n, 0)

/-- The partition that holds core `c`. -/
def State.partOf (s : State) (c : Nat) : Option Nat := (upTo 12).find? fun p => (s.part p).cores.contains c

/-- A pre-emption at the next safe point is pending for a core's context, which wakes it (R217, R259). -/
def Core.preempt (why : Nat) (c : Core) : Core :=
  { c with ctx := { c.ctx with pipe := { c.ctx.pipe with safeReq := some (max why (c.ctx.pipe.safeReq.getD 0)),
                                                         event := true } } }

/-- The records of job `j` that the sweep of a die takes (R268). -/
def Part.sweeps (q : Part) (j : BitVec 32) (die : Nat) : List (Nat × Rec) :=
  q.recs.filter fun r => r.2.job == j && r.2.state.unstarted && q.recordDie r.1 == die

/-- Bamosh is notified of the records that wait on record `r` and satisfy `f` (R268, R355). -/
def State.noticeSucc (s : State) (p : Nat) (r : Rec) (f : Rec → Bool) : State :=
  let l := r.succ.filter fun n => ((s.part p).getRec n).any fun y => y.state == .waiting && f y
  { s with dev := { s.dev with notices := s.dev.notices ++ l.map fun n => (p, n) } }

/-- R268, step 4: record `n` has been cancelled: Bamosh is notified of the records of other jobs that wait on it. -/
def State.noticeJob (s : State) (p n : Nat) : State :=
  match (s.part p).getRec n with
  | some r => s.noticeSucc p r fun y => y.job != r.job
  | none => s

/-- R268: the one step of a CANCEL of job `j` of partition `p` at the controller of a die: the job is marked and its records
there are swept, the cancel bits of the die's cores are set, and the running tasks on them take the cancel at their next
safe points. -/
def State.sweep (s : State) (p : Nat) (j : BitVec 32) (die : Nat) : State :=
  let l := (s.part p).sweeps j die
  let gone := l.map fun r => r.1
  let s := (l.filterMap fun r => r.2.saved).foldl (fun s v => s.departSaved p v) s
  let s := s.dropKids p fun v => v.ctx.task.job == j && v.core / 80 == die
  let s := s.modPart p fun q => (gone.foldl Part.cancelRec (q.modJob j fun x =>
    { x with cancelled := true, marks := die :: x.marks })).refresh
  let s := gone.foldl (fun s n => s.noticeJob p n) s
  (s.part p).cores.foldl (fun s c => s.modAt c fun k =>
    let k := { k with entry := match k.entry with
      | some (n, st, b) => if gone.contains n then none else some (n, st, b)
      | none => none }
    if c / 80 = die then
      let k := { k with cancel := true }
      if k.holds p && k.ctx.task.job == j then k.preempt 1 else k
    else k) s

/-- The number of a record's state (R250). -/
def RecState.no : RecState → Nat
  | .idle => 0
  | .waiting => 1
  | .queued => 2
  | .bound => 3
  | .running => 4
  | .done => 5
  | .retired => 6
  | .cancelled => 7
  | .failed => 8
  | .timed => 9

/-- The QREQ record of a request or a decrement of core `c` (R279). -/
def State.qreq (s : State) (c : Nat) (x : Ctx) (sub obj code : Nat) : LogRec :=
  LogRec.of 4 sub (s.coreAt c).lid.toNat x.task.lidx 0 obj 0 (BitVec.ofNat 64 code)

/-- Request `k` of core `c`: one of its context, or, behind those, one that a SPAWN child has left (R260), with its context. -/
def Core.requestAt (k : Core) (i : Nat) : Option (Ctx × Req) :=
  match k.ctx.pipe.requests[i]? with
  | some q => some (k.ctx, q)
  | none => k.orphans[i - k.ctx.pipe.requests.length]?

/-- Request `i` of a core changed, or taken out where `f` gives none. -/
def Core.modRequest (i : Nat) (f : Req → Option Req) (k : Core) : Core :=
  let n := k.ctx.pipe.requests.length
  let at_ := fun (j : Nat) (l : List Req) => ((upTo l.length).zip l).filterMap fun x => if x.1 = j then f x.2 else some x.2
  if i < n then { k with ctx := { k.ctx with pipe := { k.ctx.pipe with requests := at_ i k.ctx.pipe.requests } } }
  else { k with orphans := ((upTo k.orphans.length).zip k.orphans).filterMap fun x =>
      if x.1 = i - n then (f x.2.2).map fun q => (x.2.1, q) else some x.2 }

/-- A request of core `c` has performed: its result code is on its way. -/
def State.answered (s : State) (c uid k : Nat) (q : Req) (code : Nat) : State :=
  (s.modAt c (Core.modRequest k fun _ => none)).onCtx c uid fun x =>
    { x with pipe := x.pipe.give q.wait [(0, BitVec.ofNat 64 code)] }

/-- The QREQ records of a sweep (R279). -/
def Part.sweepRecs (q : Part) (j : BitVec 32) (die : Nat) : List LogRec :=
  (q.sweeps j die).map fun y => LogRec.of 4 4 0 0 0 y.1 0 (BitVec.ofNat 64 y.2.state.no)

/-- R268: request `k` of core `c`, a CANCEL, has reached the controller of a die, with those of the dies `l` still to reach:
the result comes once every one of them has marked the job and swept (R258). -/
def State.cancelStep (s : State) (c uid p k : Nat) (q : Req) (die : Nat) (l : List Nat) : State :=
  let s := s.sweep p (BitVec.ofNat 32 q.num) die
  if l.isEmpty then s.answered c uid k q 0
  else s.modAt c (Core.modRequest k fun r => some { r with dies := some l })

/-- R256 to R258: request `k` of core `c`, which has not performed, performs at its controller, if the log gives it its
turn. A CANCEL that sets the mark goes on through the other controllers; one of a job that another CANCEL is marking waits until
every controller has marked it. -/
def State.request (s : State) (c k p : Nat) (x : Ctx) (q : Req) : State :=
  let y := s.part p
  let j : BitVec 32 := BitVec.ofNat 32 q.num
  let mark := q.kind = 2 && (match y.liveJob j with
    | some y => !y.cancelled
    | none => false)
  let r := if q.kind = 0 then y.enq q.num q.args q.queue
    else if q.kind = 1 then y.tdec q.num
    else (y, if mark then 0 else if (y.liveJob j).isSome then 1 else 4)
  let die := y.dies.headD 0
  if q.kind = 2 && y.cancelled j && !y.dies.all (y.marked j) then s
  else
  let e := s.qreq c x q.kind (if q.kind = 2 then q.num % 2 ^ 24 else q.num) r.2
  match s.turnsOf x (e :: if mark then y.sweepRecs j die else []) with
  | .held s => s
  | .go s _ =>
    if mark then s.cancelStep c x.task.uid p k q die (y.dies.drop 1)
    else (s.modPart p fun y => (if q.kind = 0 then (y.enq q.num q.args q.queue).1
      else if q.kind = 1 then (y.tdec q.num).1 else y).refresh).answered c x.task.uid k q r.2

/-- R256 to R258, R268: request `k` of core `c` takes its next step at a controller: the one in which it performs, or a
CANCEL's mark and sweep at one more die. -/
def execRequest (c k : Nat) (s : State) : Out :=
  match (s.coreAt c).requestAt k with
  | none => .next s
  | some (x, q) =>
    let p := x.sys.partid.toNat
    match q.dies with
    | none => .next (s.request c k p x q)
    | some l =>
      let die := l.headD 0
      match s.turnsOf x ((s.part p).sweepRecs (BitVec.ofNat 32 q.num) die) with
      | .held s => .next s
      | .go s _ => .next (s.cancelStep c x.task.uid p k q die (l.drop 1))

/-- A request issues: it is held until the core's earlier accesses have performed; its result is interlocked. -/
def State.sendReq (s : State) (d : Reg) (kind num : Nat) (args : List DWord) (queue : Nat) : Out :=
  if s.outstanding s.cur.val true then .next (s.park .order)
  else
    let q : Req := { kind, wait := s.fresh, num, args, queue }
    let s := (s.await (.s d) .request 1 []).modPipe fun p => { p with requests := p.requests ++ [q] }
    .next (s.modTask fun t => { t with tied := true })

/-- R255, R256, R342: a handle of a queue that the partition does not hold is refused as one on a die that it does not use
(log entry 131). -/
def execEnq (d a b : Reg) (n : BitVec 3) (cap : CReg) (s : State) : Out :=
  let k := s.rd.C cap
  let info := fun (r : Nat) => memInfo s.slot 0 cap.toNat r 0
  if k.kind ≠ 6 then .next (s.fault 0x03 (info 3))
  else if !k.has 1 then .next (s.fault 0x03 (info 2))
  else if !(s.part s.rd.pid).holdsQueue (k.obj % 256) then .next (s.fault 0x03 (info 1))
  else s.sendReq d 0 ((s.rd.S a).extractLsb' 0 20).toNat ((upTo (n.toNat + 1)).map fun i => s.rd.S (b + BitVec.ofNat 6 i))
    (k.obj % 256)

/-- R255, R257. -/
def execTdec (d a : Reg) (s : State) : Out := s.sendReq d 1 ((s.rd.S a).extractLsb' 0 20).toNat [] 0

/-- R255, R258. -/
def execCancel (d a : Reg) (s : State) : Out := s.sendReq d 2 ((s.rd.S a).extractLsb' 0 32).toNat [] 0

/-! ## Binds and steals (R261, R263, R265) -/

/-- The physical quad and the place of core `c`. -/
def State.physCore (s : State) (c u : Nat) : DevUnit :=
  .core (c / 80) ((((s.dev.enabled[c / 80]?).getD [])[c % 80 / 4]?).getD (c % 80 / 4)) (c % 4) u

/-- R28: ENGMAP of a core whose failed instances, and failed remainder, are `bad`: each ordinal names its own instance, or
the survivor of its kind; where neither is left, no rule gives the two ordinals and both read 1 (log entry 152). -/
def engmapOf (bad : Nat → Bool) : DWord :=
  let ord := fun (a b : Nat) => if bad a then (1, 1) else if bad b then (0, 0) else (0, 1)
  let v := ord 0 1
  let m := ord 2 3
  let x := ord 4 5
  let off := bad 6 || (bad 0 && bad 1) || (bad 2 && bad 3) || (bad 4 && bad 5)
  BitVec.ofNat 64 (v.1 + v.2 * 2 + m.1 * 4 + m.2 * 8 + x.1 * 16 + x.2 * 32
    + ((upTo 6).map fun i => if bad i then 2 ^ (8 + i) else 0).foldl (· + ·) 0 + off.toNat * 2 ^ 14)

/-- A quad of a die, by physical number, whose cores are all whole enough to serve (R28, R363). -/
def quadServes (defects : List DevUnit) (die q : Nat) : Bool :=
  (upTo 4).all fun i => !(engmapOf fun u => defects.contains (.core die q i u)).getLsbD 14

/-- ENGMAP of core `c` by the defect map. -/
def State.engmapDue (s : State) (c : Nat) : DWord := engmapOf fun u => s.dev.defects.contains (s.physCore c u)

/-- R28, R373: core `c` may be bound, and may take its entry: Bamosh has written its ENGMAP since its last failure, and the
device has not halted. -/
def State.offered (s : State) (c : Nat) : Bool := (s.coreAt c).engmap == s.engmapDue c && !s.dev.halted

/-- A core is idle (R222): no context, no SPAWN, past the cycle of its task's exit, and not off. -/
def State.idleCore (s : State) (c : Nat) : Bool :=
  let k := s.coreAt c
  k.run == .idle && k.spawnAt.isNone && decide (k.freeAt ≤ s.cyc) && !k.engmap.getLsbD 14

/-- R265, R398: the logical id that launch `l` of partition `p` gives core `c`. -/
def State.lidIn (s : State) (p l c : Nat) : Option (BitVec 22) := (s.launchAt p l).bind fun x => look x.lids c

/-- R32, R224, R398: record `r` may be bound to core `c`: one with a CYC contract to a core with every instance alive, its
first dispatch to the logical core of its launch that it names, and a context that holds LIVE bits to its own core. -/
def State.mayResume (s : State) (p c : Nat) (r : Rec) : Bool :=
  (!r.cyc || (s.coreAt c).engmap.extractLsb' 8 6 == 0) && (match r.saved with
    | some v => v.held.isEmpty || v.core == c
    | none => r.ran || r.lid.isNone || r.lid == s.lidIn p r.launch c)

/-- The recorded BIND that a serialised re-execution still follows (R294), and whether it names `rec` and core `c`. -/
def Launch.bindFree (l : Launch) (lid rec : Nat) : Bool :=
  !l.serial || (match l.oldLog.find? fun e => e.typ == 5 with
    | some e => e.obj == rec && e.src == lid
    | none => true)

/-- A record taken off its queue for core `c` (R261). -/
def State.bound (s : State) (p c rec : Nat) (steal : Bool) : State :=
  let b := (s.part p).bseq
  (s.modPart p fun q => (({ q with bseq := if steal then b else b + 1 } : Part).unqueue rec |>.modRec rec fun r =>
    { r with state := .bound }).refresh).modAt c fun k => { k with entry := some (rec, steal, b) }

/-- The first record of a type leaves a serialised re-execution's list. -/
def Launch.followed (typ : Nat) (l : Launch) : Launch :=
  match l.oldLog.find? fun e => e.typ == typ with
  | some e => { l with oldLog := l.oldLog.erase e }
  | none => l

/-- The launch's binds follow a log: replay, or a serialised re-execution whose recorded BINDs last (R283, R294). -/
def Launch.bindsByLog (l : Launch) : Bool := l.replay || (l.serial && l.oldLog.any fun e => e.typ == 5)

/-- R28, R261, R263, R286: Bamosh binds the head of queue `q` of partition `p` to core `c`, once the launch has its seed. An idle core is bound from the queue
of highest priority, except where a log is followed. -/
def execBind (p q c rec : Nat) (s : State) : Out :=
  let y := s.part p
  let k := s.coreAt c
  match y.getRec rec with
  | none => .next s
  | some r =>
    match s.launchAt p r.launch with
    | none => .next s
    | some l =>
      let lid := ((s.lidIn p r.launch c).getD k.lid).toNat
      let order := l.bindsByLog || !s.idleCore c || y.topQueue (q / 64) (s.mayResume p c) == some q
      if !y.cores.contains c || c / 80 != q / 64 || (y.queue q).head? != some rec || r.state != .queued || k.entry.isSome
          || k.stealDue || l.seedDue || !s.offered c || !s.mayResume p c r || !l.bindFree lid rec || !order then .next s
      else
        match s.turnFor p r.launch (LogRec.of 5 0 lid 0 0 rec 0 (BitVec.ofNat 64 y.bseq)) (some y.bseq) false with
        | .held s => .next s
        | .go s _ =>
          let s := s.modLaunch p r.launch (Launch.followed 5)
          .next (s.bound p c rec false)

/-- R265: the victim of core `c`'s next attempt. -/
def Core.victim (c : Core) : Nat :=
  let v := (mix64 (c.lid.setWidth 64 ^^^ (BitVec.ofNat 64 c.att <<< 24))).toNat % c.steals.length
  match c.steals[v]? with
  | some q => q.toNat
  | none => 0

/-- What a steal attempt takes: a logged record, or the head of the victim queue where the partition holds it (R342) and it
is not killed. -/
def State.stealTakes (s : State) (p c : Nat) (logged : Option LogRec) : Option Nat :=
  let y := s.part p
  match logged with
  | some e => if e.w3 = BitVec.allOnes 64 then none else some e.w3.toNat
  | none =>
    let q := (s.coreAt c).victim
    if y.killed.contains q || !y.holdsQueue q then none else (y.queue q).head?

/-- R265: the one steal attempt that core `c` makes after a task retires. Where the victim's head may not go to this core
(R32, R224, R398) the spec does not say what the attempt is: the model counts it as a failed attempt, which raises ATT (log
entry 132). -/
def execStealAttempt (c : Nat) (s : State) : Out :=
  let k := s.coreAt c
  let p := k.pid
  if !k.stealDue || !s.offered c then .next s
  else if k.steals.isEmpty then .next (s.modAt c fun k => { k with stealDue := false })
  else
    match s.launchAt p k.ctx.task.launch with
    | none => .next (s.modAt c fun k => { k with stealDue := false })
    | some l =>
      let fits := fun (e : LogRec) => e.typ == 6 && e.src == k.lid.toNat
      let old := if l.replay then l.supply.find? fits else if l.serial then l.oldLog.find? fits else none
      let take := s.stealTakes p c old
      let ok := match take with
        | none => true
        | some n => (match (s.part p).getRec n with
          | some r => r.state == .queued && s.mayResume p c r && !(s.launchAt p r.launch).any fun l => l.seedDue
          | none => false)
      if l.replay && old.isNone || old.isSome && !ok then .next s
      else
        let take := if ok then take else none
        let e := LogRec.of 6 (if take.isSome then 1 else 0) k.lid.toNat 0 0 k.victim 0
          (match take with
            | some n => BitVec.ofNat 64 n
            | none => BitVec.allOnes 64)
        match s.turnFor p k.ctx.task.launch e (some k.att) false with
        | .held s => .next s
        | .go s _ =>
          let s := s.modAt c fun k => { k with att := k.att + 1, stealDue := false }
          let s := match old with
            | some x => if l.serial then s.modLaunch p k.ctx.task.launch fun l => { l with oldLog := l.oldLog.erase x } else s
            | none => s
          match take with
          | some n => .next (s.bound p c n true)
          | none => .next s

/-! ## The timetable (R266, R267) -/

/-- FRC. -/
def State.frc (s : State) : Nat := s.cyc / 1024

/-- R266: a TIMED record is released. -/
def execTimetableRelease (p rec : Nat) (s : State) : Out :=
  let q := s.part p
  match q.getRec rec with
  | some r =>
    if r.state = .timed && !q.stalled && q.frameBase + r.release ≤ s.frc && r.pending = 0 then
      .next (s.modPart p fun q => (q.enqueue rec).refresh)
    else .next s
  | none => .next s

/-- R267: a timetable block is late. -/
def execDeadlineMiss (p rec : Nat) (s : State) : Out :=
  let q := s.part p
  match q.getRec rec with
  | some r =>
    if r.tt && !r.late && r.state.unretired && r.state.live && q.frameBase + r.deadline ≤ s.frc then
      .next (s.modPart p fun q => { q.modRec rec (fun r => { r with late := true }) with stalled := true })
    else .next s
  | none => .next s

/-- R267: record `rec` retires; where it is the last late block, the slip, or none. The rule gives the case of a block that
retires: where the last late block ends by a cancel or a failure, STALLED stays set (log entry 133). -/
def State.slipAt (s : State) (p rec : Nat) : Option Nat :=
  let q := s.part p
  match q.getRec rec with
  | none => none
  | some r =>
    let late := q.recs.filter fun x => x.2.late
    if !r.late || late.any fun x => x.1 != rec && x.2.state.unretired && x.2.state.live then none
    else
      let d := late.foldl (fun m x => min m (q.frameBase + x.2.deadline)) (q.frameBase + r.deadline)
      some (s.frc - d + 1)

/-- R267: FRAMEBASE slips. -/
def Part.slip (n : Nat) (q : Part) : Part :=
  { q with frameBase := q.frameBase + n, stalled := false, slips := q.slips + 1,
           recs := q.recs.map fun r => (r.1, { r.2 with late := false }) }

/-! ## The hang watchdog (R269, R270) -/

/-- R270: WHERE. The wait for the answer of an atomic's home is no park of the table, so it counts as a stall (0). -/
def Ctx.hangWhere (x : Ctx) : Nat :=
  if x.pipe.svc.isSome then 6
  else match x.pipe.park with
    | .none => if x.pipe.retiring then 7 else 0
    | .waitw => 1
    | .awaitf => 2
    | .waitb => 3
    | .twait => 4
    | .yield => 5
    | .svc => 6
    | .retire => 7
    | .arrive => 8
    | .order => 9
    | .replay => 10
    | .accept => 0

/-- R269: the hang count of core `c` has reached HANGLIM: the terminal cause is pending at the next bundle boundary of a
context that runs, and strikes one that has stopped at a safe point, or from a park, where it stands. -/
def execHangFault (c : Nat) (s : State) : Out :=
  let k := s.coreAt c
  let x := k.ctx.pipe
  let info := BitVec.ofNat 64 (k.ctx.hangWhere + 16 * Nat.log2 x.hanglim)
  if x.hang < x.hanglim then .next s
  else match k.run with
    | .running => .next (s.modAt c fun k => { k with ctx := { k.ctx with pipe :=
        { k.ctx.pipe with async := k.ctx.pipe.async ++ [(0x16, info)], hang := 0 } } })
    | .stopped w _ =>
      if w ≤ 1 then .next (((s.focus c).modPipe fun p => { p with hang := 0 }).takeTerminal 0x16 true k.ctx.pc info)
      else .next s
    | _ => .next s

end Sys2Proof.Machine
end

