-- ==== Sys2Proof/Machine/Contexts.lean ====
section
/-! DEFINITION. Contexts on their cores: dispatch and resume (R262, R213, R216), the stops and saves of pre-emption, quick
stop and cancel (R211 to R217, R268), terminal causes and their ends (R209, R293, R354, R370, R371), retirement (R58,
R260, R291, R292), and the answer to an SVC (R208). -/

namespace Sys2Proof.Machine

open Sys2Proof

/-! ## Digest tables (R291) -/

/-- The digest slot of a task: DIGEST of its record, or, for a SPAWN child, one named by that DIGEST and its index. -/
def Task.slot (t : Task) : Nat := if t.child then t.slotD + 2 ^ 16 * t.lidx.toNat else t.slotD

/-- R291: the order of the table: by DIGEST, with the entries of a record's children behind its own, by LIDX. -/
def slotBefore (a b : Nat) : Bool := a % 2 ^ 16 < b % 2 ^ 16 || (a % 2 ^ 16 == b % 2 ^ 16 && a / 2 ^ 16 < b / 2 ^ 16)

/-- A digest table with entry `k` holding `d`; a new one takes its place in the order of R291. -/
def putDigest : List (Nat × Digest) → Nat → Digest → List (Nat × Digest)
  | [], k, d => [(k, d)]
  | (j, y) :: l, k, d =>
    if j = k then (j, d) :: l else if slotBefore k j then (k, d) :: (j, y) :: l else (j, y) :: putDigest l k d

/-- The entry of a digest slot, as it stands. -/
def Launch.digest (l : Launch) (k : Nat) : Digest := (look l.digests k).getD default

/-- R291: a task opens its slot. -/
def Launch.opens (k : Nat) (lidx : BitVec 56) (l : Launch) : Launch :=
  { l with digests := putDigest l.digests k { l.digest k with current := 0, lidx, done := false, assay := false } }

/-- R293, R299: the assay trap ends a task, whose slot keeps CURRENT. -/
def Launch.assays (t : Task) (l : Launch) : Launch :=
  { l with digests := putDigest l.digests t.slot { l.digest t.slot with current := t.digest, lidx := t.lidx, assay := true } }

/-- R291, R292: a task that retires closes its slot, and joins the kernel digest. -/
def Launch.closes (t : Task) (record : Bool) (l : Launch) : Launch :=
  let d := l.digest t.slot
  let d := { d with current := t.digest, lidx := t.lidx, done := true }
  { l with digests := putDigest l.digests t.slot
             (if record && !d.rvalid then { d with recorded := t.digest, rvalid := true } else d),
           kd := l.kd + mix64 (t.lidx.setWidth 64) * t.digest }

/-! ## Dispatch (R261, R262) -/

/-- R275, R365, R370, R294: MODE of a context of a launch. -/
def Launch.mode (l : Launch) (priv reduced rerun : Bool) : BitVec 6 :=
  flagIf priv 1 ||| flagIf (l.word.getLsbD 2 || reduced || rerun || l.serial) 2 ||| flagIf l.record 4
    ||| flagIf l.verify 8 ||| flagIf l.replay 16 ||| flagIf reduced 32

/-- R276: LOGCTL of a context of a launch. -/
def Launch.logctl (l : Launch) : DWord :=
  BitVec.ofNat 64 (l.ringObj % 2 ^ 24 + (l.word.extractLsb' 4 5).toNat * 2 ^ 24 + (l.word.getLsbD 3).toNat * 2 ^ 29
    + (l.word.extractLsb' 9 6).toNat * 2 ^ 32)

/-- R203: TRAPVEC at task entry. -/
def Launch.trapvec (l : Launch) : DWord :=
  match l.handler with
  | some h => h.setWidth 64 ||| (1 <<< 48 : DWord)
  | none => 0

/-- The system registers of a task of a launch at its entry (R43, R203, R275, R276). -/
def Launch.sys (l : Launch) (p : Nat) (mode : BitVec 6) : Sys :=
  { Sys.entry with trapvec := l.trapvec, partid := BitVec.ofNat 4 p, mode, logctl := l.logctl,
                   ctxid := BitVec.ofNat 20 (l.ctx % 2 ^ 16 + p * 2 ^ 16) }

/-- A register file holding a list from register `o` on, and `x` elsewhere. -/
def File.load {k : Nat} {α : Type} (x : α) (o : Nat) (l : List α) : File k α :=
  File.gen k fun i => if i < o then x else l[i - o]?.getD x

/-- R262: the context of a record at its first dispatch, or at one that starts it afresh. -/
def Ctx.start (p n uid : Nat) (r : Rec) (l : Launch) (reduced : Bool) (caps : List Cap) : Ctx :=
  { Ctx.entry with
    pc := r.entry, npc := r.entry, code := l.code,
    regs := { Regs.entry with s := File.load 0 1 r.args, c := File.load 0 0 caps },
    sys := l.sys p (l.mode r.priv reduced r.rerun),
    task := { (default : Task) with uid, lidx := r.lidx, job := r.job, record := some n, lease := r.lease,
                                    slotD := r.digest, launch := r.launch, genKey := l.seed } }

/-- The elements of a file that a bitmap names, and `x` elsewhere (R216). -/
def File.keep {k w : Nat} {α : Type} (x : α) (m : BitVec w) (f : File k α) : File k α :=
  File.gen k fun i => if m.getLsbD i then f.get (BitVec.ofNat k i) else x

/-- R216: the registers that a live-state list keeps. -/
def Regs.keep (v : Live) (g : Regs) : Regs :=
  { s := File.keep 0 v.s g.s, c := File.keep 0 v.c g.c, v := File.keep (File.all 8 0) v.v g.v, m := File.keep 0 v.m g.m,
    q := File.keep (File.all 8 0) v.q g.q, k := File.keep Stream.reset v.k g.k,
    p := File.keep { rows := File.all 6 (File.all 4 0), alpha := 0 } v.p g.p, z := File.keep Tile.reset v.z g.z,
    l := File.keep Latch.reset v.l g.l, nz := File.keep 0 v.nz g.nz }

/-- R216: the scratchpad bytes in the ranges of a live-state list. -/
def liveSpad (v : Live) (m : Memory) : Memory := m.filter fun c => v.ranges.any fun r => r.1 ≤ c.1 && c.1 < r.1 + r.2

/-- What a context keeps when it stops: the stop is taken, and what its held bundle had begun is given up. A pre-emption or
cancel that is pending for its next safe point stays pending (R217). -/
def Ctx.parked (x : Ctx) : Ctx :=
  { x with pipe := { x.pipe with accept := none, accepted := false, refused := none, stopReq := none,
                                 trapped := false, heldOps := [], heldFor := 0, logHeld := false,
                                 stalled := false, park := .none, split := false } }

/-- A live-state list names the register that an interlocked value is for. -/
def liveKeeps (v : Live) : WaitDest → Bool
  | .s r => v.s.getLsbD r.toNat
  | .v r _ => v.v.getLsbD r.toNat

/-- R216: a register that the list omits reads zero after the resume: what was on its way to it is discarded, and its mark
is clear. -/
def Pipe.keep (v : Live) (p : Pipe) : Pipe :=
  { p with
    waits := p.waits.map fun w => if liveKeeps v w.dest then w else { w with dest := .s 0 },
    inflight := p.inflight.filter fun r => match r.land with
      | .s d _ => liveKeeps v (.s d)
      | _ => true,
    spend := File.gen 6 fun i => v.s.getLsbD i && p.spend.get (BitVec.ofNat 6 i),
    vpend := File.gen 6 fun i => v.v.getLsbD i && p.vpend.get (BitVec.ofNat 6 i) }

/-- R211, R213, R216, R259, R262, R269: a saved context as it resumes: the values that came meanwhile are written, and a
safe-point save gives what its list names. -/
def Saved.resume (v : Saved) : Ctx :=
  let y := v.ctx.arrived v.ctx.pipe.waits
  let x := match v.live with
    | some l => { y with regs := y.regs.keep l, pipe := y.pipe.keep l }
    | none => y
  { x with pipe := { x.pipe with event := true, tick := true, yielded := true, hang := 0, safeReq := none } }

/-- The lost words of the scratchpad that a saved context still has as it resumes (R262, R369). -/
def Saved.lostWords (v : Saved) : List Nat :=
  match v.live with
  | some l => v.lost.filter fun w => l.ranges.any fun r => r.1 ≤ w * 4 && w * 4 < r.1 + r.2
  | none => v.lost

/-- The scratchpad of a saved context as it resumes (R216, R262). -/
def Saved.mem (v : Saved) : Memory :=
  match v.live with
  | some l => liveSpad l v.spad
  | none => v.spad

/-- R48: the results of divides under way, with their due cycles counted by another clock: `d` cycles are added and `t` taken off. -/
def Ctx.rebase (d t : Nat) (x : Ctx) : Ctx :=
  { x with pipe := { x.pipe with inflight := x.pipe.inflight.map fun r => { r with due := r.due + d - t } } }

/-- R213, R262: a core takes a saved context at package cycle `t`. -/
def Core.restore (t : Nat) (v : Saved) (k : Core) : Core :=
  { k.dropL1 with run := .running, ctx := v.resume.rebase k.lcyc t, spad := v.mem, lost := v.lostWords,
                  lastCtx := some v.ctx.sys.ctxid, lastRet := false, entry := none }

/-- R311: every frame of the ranges of a lease set is mapped, with the object's current GEN. -/
def Part.pinned (q : Part) (set : Nat) : Bool :=
  ((look q.sets set).getD []).all fun e => !e.valid || e.revoked || (match q.obj e.obj with
    | some o => if o.typ = 3 || o.typ = 4 then true
      else (upTo (e.len / 2 ^ 21)).all fun i => (q.leaf e.obj (e.start + i * 2 ^ 21)).any fun l => l.gen == o.gen
    | none => false)

/-- R245: a write to weight-store frames of the ranges of a lease set has a token Pending. -/
def State.storeBusy (s : State) (p set : Nat) : Bool :=
  ((look (s.part p).sets set).getD []).any fun e => e.valid && s.cores.toList.any fun k => k.pid == p &&
    k.ctx.ops.any fun o => match o.kind with
      | .chain _ _ caps _ => caps.any fun a => a.kind == 2 && a.obj == e.obj
      | _ => match o.payload with
        | some (f, _, _, v, _) => f.writes && v.kind == 2 && v.obj == e.obj
        | none => false

/-- R317: the arena of a record has been born. -/
def Part.born (q : Part) (r : Rec) : Bool :=
  r.arena == 0 || (match q.obj r.arena with
    | some o => o.arena
    | none => false)

/-- A core after its context has left it: idle, busy no longer from the next cycle on (R222). It holds no context. -/
def Core.vacate (t : Nat) (retired : Bool) (c : Core) : Core :=
  let c := c.insertedCycle
  { c with run := .idle, freeAt := t + 1, lastRet := retired, spawnAt := none,
           ctx := { c.ctx with ops := [], task := { c.ctx.task with uid := 0 },
                               pipe := { c.ctx.parked.pipe with retiring := false, waits := [], requests := [], svc := none,
                                                                safeReq := none } } }

/-- R315, R322: the operations of a context resumed on core `c` come under an XINV for which the core's copy engine or hoists have
dropped their entries. -/
def Core.underInvs (k : Core) (p c : Nat) (i : Inv) : Core :=
  let under := fun (h : Nat) (hoist : Bool) (l : List Op) => if i.dropped.contains (h + c) then l.map (Op.underInv p i.id i hoist) else l
  { k with ctx := { k.ctx with ops := under 640 true (under 320 false k.ctx.ops) } }

/-- R262: the record of a context named by core `c`'s entry starts, or its saved context resumes. The core's cancel bit is
that of the task's job (R268), and a task whose job is being cancelled takes the cancel at its next safe point. -/
def State.begin (s : State) (p c n : Nat) (r : Rec) (l : Launch) : State :=
  let s := match r.saved with
    | some v => s.modAt c fun k => (s.part p).invs.foldl (fun k i => k.underInvs p c i) (Core.restore s.cyc v k)
    | none =>
      let x := Ctx.start p n (s.fresh + 1) r l s.reduced ((look (s.part p).capls r.capl).getD [])
      let s := (s.newId.modLaunch p r.launch (Launch.opens x.task.slot r.lidx)).modAt c fun k =>
        let keep := k.lastCtx == some x.sys.ctxid && k.lastRet && !r.ran && !l.serial
        { k.dropL1 with
          run := .running, ctx := x, spad := if keep then k.spad else [], lost := if keep then k.lost else [],
          lastCtx := some x.sys.ctxid, lastRet := false, entry := none }
      s
  let s := (s.restoreBars p r.launch c).modAt c fun k =>
    let k := { k with cancel := (s.part p).marked r.job (c / 80), lid := (s.lidIn p r.launch c).getD k.lid }
    if (s.part p).cancelled r.job then k.preempt 1 else k
  s.modPart p fun q => q.modRec n fun r => { r with state := .running, ran := true, saved := none }

/-- Every running core of core `c`'s quad has attempted its bundle in this cycle, so that a SPAWN goes first (R222). -/
def State.quadTried (s : State) (c : Nat) : Bool :=
  (upTo 4).all fun i => let k := s.coreAt (c / 4 * 4 + i); k.run != .running || k.issued

/-- R262: core `c` takes its slot-table entry. -/
def execDispatch (c : Nat) (s : State) : Out :=
  match (s.coreAt c).entry, s.partOf c with
  | some (n, _, _), some p =>
    let q := s.part p
    match q.getRec n with
    | none => .next s
    | some r =>
      match s.launchAt p r.launch with
      | none => .next s
      | some l =>
        let answered := match r.saved with
          | some v => v.ctx.pipe.svc.isNone
          | none => true
        if r.state = .bound && s.idleCore c && s.offered c && s.quadTried c && !l.failing && q.pinned r.lease && !s.storeBusy p r.lease && q.born r && answered
            && s.mayResume p c r && !(s.keptBars p r.launch c).any (fun y => s.barBusy p r.launch y.1.1 y.1.2) then .next (s.begin p c n r l)
        else .next s
  | _, _ => .next s

/-! ## Stops (R211 to R217) -/

/-- R211, R212: a quick stop taken at a bundle boundary. -/
def Core.quickStop (why : Nat) (c : Core) : Core :=
  { c.shelve with run := .stopped why none, ctx := { c.shelve.ctx.parked with pipe := { c.shelve.ctx.parked.pipe with
      trapped := true } } }

/-- R217: a pre-emption that takes a parked context whole; results on their way are written first, those of a shadow buffer
too. A pre-emption that waits for the next safe point has its effect with this one. -/
def Core.takeParked (why : Nat) (c : Core) : Core :=
  let c := c.unshelve
  { c with run := .stopped why none, ctx := { c.ctx.parked with pipe := { c.ctx.parked.pipe with
      safeReq := match c.ctx.pipe.safeReq with
        | some 0 => none
        | r => r } } }

/-- R217: the parks that such a pre-emption can take. -/
def Pipe.parked (p : Pipe) : Bool :=
  p.svc.isSome || (match p.park with
    | .waitw => true
    | .awaitf => true
    | .waitb => true
    | .twait => true
    | .yield => true
    | .svc => true
    | .arrive => true
    | _ => false)

/-- A quick stop is requested of core `c`'s context. One for a kill, or for a failed kernel, is not given up for another. -/
def Core.stop (why : Nat) (c : Core) : Core :=
  let w := match c.ctx.pipe.stopReq with
    | some 2 => 2
    | some 5 => if why = 2 then 2 else 5
    | _ => why
  { c with ctx := { c.ctx with pipe := { c.ctx.pipe with stopReq := some w } } }

/-- A subscription that has not ended, ended as an XUNSUB ends it (R331, R355). -/
def Core.endSubs (c : Core) : Core :=
  { c with ctx := { c.ctx with ops := c.ctx.ops.map fun o => match o.kind with
      | .sub x => if x.stop.isSome then o else { o with kind := .sub (x.end o.claimed (c.ringD x.ring)) }
      | _ => o } }

/-- A subscription that has not ended. -/
def Op.openSub (o : Op) : Bool :=
  match o.kind with
  | .sub x => x.stop.isNone
  | _ => false

/-- A subscription paused at a tile boundary, its token Pending (R217). -/
def Op.paused (o : Op) : Bool := o.openSub && !o.claimed && o.err == 0

/-- What a stop waits for: every operation but paused subscriptions, every exposed result, and every request
(R212, R217). -/
def Core.drained (c : Core) : Bool :=
  c.ctx.ops.all Op.paused && c.ctx.pipe.inflight.all (fun r => r.mark) && c.ctx.pipe.requests.isEmpty

/-- R212, R217, R251: the context of core `c` is saved in its record, which joins the tail of its queue; that of a SPAWN child,
which no record holds, by itself (log entry 70). The LIVE bits of the core's member are its own, but those that a context saved
before it has (R224). -/
def State.save (s : State) (c : Nat) (live : Option Live) : State :=
  let k := s.coreAt c
  let l := k.ctx.task.launch
  let kept := s.heldBy k.pid l c
  let v : Saved := { ctx := k.ctx.parked.rebase s.cyc k.lcyc, core := c, spad := k.spad, lost := k.lost, live,
                     held := (s.liveBars k.pid l c).filter fun x => !kept.contains x }
  let put := fun (q : Part) => if k.ctx.task.child then { q with kids := q.kids ++ [v] }
    else match k.ctx.task.record with
      | some n => ((q.modRec n fun r => { r with saved := some v }).enqueue n).refresh
      | none => q
  if !k.ctx.task.child && k.ctx.task.record.isNone then s
  else (s.modPart k.pid put).modAt c (Core.vacate s.cyc false)

/-- R268, step 3: a cancel has taken the context of core `c`. -/
def State.cancelled (s : State) (c : Nat) : State :=
  let k := s.coreAt c
  let s := (s.depart c).modAt c (Core.vacate s.cyc false)
  match k.ctx.task.record with
  | some n => if k.ctx.task.child then s else (s.modPart k.pid fun q => (q.cancelRec n).refresh).noticeJob k.pid n
  | none => s

/-! ## Queue-level kill (R354 to R357) -/

/-- The context of a core runs a record of queue `q`, or is a SPAWN child of one. -/
def State.runsQueue (s : State) (p q : Nat) (k : Core) : Bool :=
  k.holds p && (match k.ctx.task.record with
    | some n => (match (s.part p).getRec n with
      | some r => r.queue == q
      | none => false)
    | none => false)

/-- R343, R357: the kill records of partition `p` whose contexts have all ended go to the trace buffer and to the virtual
function. -/
def State.reportKills (s : State) (p : Nat) : State :=
  let done := (s.part p).kills.filter fun x => !s.cores.toList.any fun k => s.runsQueue p x.1 k && (match k.run with
    | .stopped w _ => w == 2
    | _ => k.ctx.pipe.stopReq == some 2)
  let s := s.modPart p fun q => { q with kills := q.kills.filter fun x => !done.contains x }
  done.foldl (fun s x =>
    let body : List DWord := [BitVec.ofNat 64 (x.2.1 + (x.1 / 64) * 2 ^ 8 + (x.1 % 64) * 2 ^ 10 + (x.2.2.1 % 2 ^ 32) * 2 ^ 16
      + (x.2.2.2 % 2 ^ 16) * 2 ^ 48), 0, 0, 0]
    { s with dev := { s.dev with posts := s.dev.posts ++ [(p, body)] } }.traceAdd p 4 0xFFFF body) s

/-- R355: Bamosh is notified of the records of other queues that wait on record `r`, which has failed. -/
def State.noticeWaiting (s : State) (p : Nat) (r : Rec) : State := s.noticeSucc p r fun y => y.queue != r.queue

/-- R355, R357: a record of queue `q` more has failed in the kill under way. -/
def countKill (q : Nat) : List (Nat × Nat × Nat × Nat) → List (Nat × Nat × Nat × Nat)
  | [] => []
  | x :: l => if x.1 = q then (x.1, x.2.1, x.2.2.1 + 1, x.2.2.2) :: l else x :: countKill q l

/-- R318, R355: a record whose task a kill has stopped: it fails, its arena is abandoned, and its job has failed. -/
def Part.killRec (q : Part) (n : Nat) (r : Rec) : Part :=
  { ((q.failRec n).modRec n fun r => { r with abandoned := true }).modJob r.job (fun j => { j with failed := true }) with
    kills := countKill r.queue q.kills }

/-- R355, step 4: a kill has taken the context of core `c`. -/
def State.killed (s : State) (c : Nat) : State :=
  let k := s.coreAt c
  let p := k.pid
  let s := (s.depart c).modAt c (Core.vacate s.cyc false)
  let s := match k.ctx.task.record with
    | some n => if k.ctx.task.child then s
      else match (s.part p).getRec n with
        | some r => (s.modPart p fun q => (q.killRec n r).refresh).noticeWaiting p r
        | none => s
    | none => s
  s.reportKills p

/-- A kill stops the context of a core, whatever else it was stopping for (R355). -/
def Core.kill (c : Core) : Core :=
  match c.run with
  | .stopped _ _ => { c with run := .stopped 2 none }
  | .ending _ _ => c
  | _ => c.stop 2

/-- A context that a kill is stopping. -/
def Core.killing (c : Core) : Bool :=
  match c.run with
  | .stopped w _ => w == 2
  | _ => c.ctx.pipe.stopReq == some 2

/-- R355, steps 1 and 2: queue `q` is marked killed, its records fail, and its contexts stop. A kill that a terminal cause asks
for counts the context that it ended, and the `moved` records that it moved to FAILED (R357, R359). -/
def State.markKill (s : State) (p q code moved : Nat) : State :=
  let y := s.part p
  let l := y.recs.filter fun r => r.2.queue == q && r.2.state.unstarted
  let gone := l.map fun r => r.1
  let n := s.cores.toList.countP (fun k => s.runsQueue p q k && !k.killing) + (if code = 0 then 0 else 1)
  let s := (l.filterMap fun r => r.2.saved).foldl (fun s v => s.departSaved p v) s
  let s := s.dropKids p fun v => v.ctx.task.record.any fun n => ((s.part p).getRec n).any fun r => r.queue == q
  let s := s.modPart p fun x =>
    let x : Part := l.foldl (fun (x : Part) (r : Nat × Rec) => ((x.failRec r.1).modJob r.2.job fun j => { j with failed := true }).modRec r.1 fun y =>
      { y with abandoned := y.abandoned || r.2.saved.isSome }) x
    let x := { x with recs := x.recs.map fun (r : Nat × Rec) =>
      if r.2.queue = q && r.2.state = RecState.failed && r.2.repair.isSome then (r.1, { r.2 with repair := none, abandoned := true }) else r }
    { x.refresh with killed := if x.killed.contains q then x.killed else q :: x.killed,
                     kills := x.kills ++ [(q, code, l.length + moved, n)] }
  let s := l.foldl (fun s r => s.noticeWaiting p r.2) s
  let s := y.cores.foldl (fun s c => s.modAt c fun k =>
    let k := { k with entry := match k.entry with
      | some (m, st, b) => if gone.contains m then none else some (m, st, b)
      | none => none }
    if s.runsQueue p q k then k.kill else k) s
  s.reportKills p

/-! ## Terminal causes (R209, R354, R370, R371) -/

/-- The contexts of launch `l` of partition `p` quick-stop (R284, R293). -/
def State.stopKernel (s : State) (p l : Nat) : State :=
  (s.modAll fun k =>
    if k.holds p && k.ctx.task.launch == l then
      match k.run with
      | .stopped w _ => if w = 2 then k else { k with run := .stopped 5 none }
      | .ending _ _ => k
      | _ => k.stop 5
    else k).dropKids p fun v => v.ctx.task.launch == l

/-- R252, R284, R293, R298: the kernel of launch `l` passes to serialised re-execution; what FAILED its jobs had is kept, since
the reset of their records leaves it as it was. -/
def State.failKernel (s : State) (p l : Nat) : State :=
  let old := fun (j : Job) => { j with failed := ((s.part p).job j.id).any fun x => x.failed }
  (s.modLaunch p l fun x => if x.failing then x else { x with failing := true, jobs0 := x.jobs0.map old }).stopKernel p l

/-- A lost line of another package, as the number that stands for it here: the partition, the local object and the line of the
object. -/
def remoteLine (p obj line : Nat) : Nat := 2 ^ 80 + p * 2 ^ 72 + obj * 2 ^ 48 + line

/-- R369: a line is lost at its home, here or on another package. -/
def State.lineLost (s : State) (l : Nat) : Bool :=
  s.home.lost.contains l || s.fab.exports.any fun e => e.lost.any fun x => remoteLine e.part e.lobj x == l

/-- R370, R371: whether a task may re-execute alone: the lost lines that wait for repair. An error of CLASS 8 lost none. -/
def State.rerunLines (s : State) (t : Task) (code : Byte) : Option (List Nat) :=
  if t.tied || t.child then none
  else some (if code = 0x13 then
      ((t.errs.filter fun e => 4 ≤ e.1 && e.1 < 8).map fun e => e.2.2.2).filter s.lineLost
    else [])

/-- A record that waits for repair, and has nothing more to wait for, returns to QUEUED (R251, R370). -/
def Part.rerunReady (q : Part) : Part :=
  (q.recs.foldl (fun q r =>
    if r.2.state = .failed && r.2.repair == some [] then
      (q.modRec r.1 fun r => { r with repair := none, rerun := true, saved := none }).enqueue r.1
    else q) q).refresh

/-- The job of a task fails (R252). -/
def Part.failJob (q : Part) (j : BitVec 32) : Part := q.modJob j fun x => { x with failed := true }

/-- R370: the job of record `n` fails, or its kernel passes to serialised re-execution where it may. -/
def State.failOrSerial (s : State) (p n : Nat) (j : BitVec 32) (l : Nat) (second : Bool) : State :=
  match s.launchAt p l with
  | some x =>
    if x.verify && !second then s.failKernel p l
    else s.modPart p fun q => (q.modRec n fun r => { r with repair := none }).failJob j
  | none => s.modPart p fun q => q.failJob j

/-- R209, R354: a terminal cause kills the queue of its task. -/
def Part.killsFor (q : Part) (code : Byte) : Bool := code == 0x16 || code == 0x19 || q.killOn.getLsbD code.toNat

/-- R209, step 4: what follows a terminal cause of the task of core `c`, whose record has reached FAILED. -/
def State.aftermath (s : State) (k : Core) (code : Byte) : State :=
  let p := k.pid
  let t := k.ctx.task
  let n := t.record.getD 0
  match (s.part p).getRec n with
  | none => s.modPart p fun q => (q.failJob t.job).refresh
  | some r =>
    let again := code = 0x13 && r.memFault
    let s := if code = 0x18 then s.failKernel p t.launch
      else if code = 0x17 then (s.failKernel p t.launch).modPart p fun q => q.failJob t.job
      else if (code = 0x13 || code = 0x14) && !(s.part p).killsFor code && !(s.part p).killed.contains r.queue then
        let s := if code = 0x13 && !t.child then s.modPart p fun q => q.modRec n fun r => { r with memFault := true } else s
        match if again then none else s.rerunLines t code with
        | some lines => s.modPart p fun q => (q.modRec n fun r => { r with repair := some lines }).rerunReady
        | none => s.failOrSerial p n t.job t.launch again
      else s.modPart p fun q => q.failJob t.job
    let s := s.modPart p Part.refresh
    if (s.part p).killsFor code then
      s.modPart p fun q => { q with killDue := q.killDue ++ [(r.queue, code.toNat, if t.child then 0 else 1)] }
    else s

/-- R279: the MEMERR record of a task that a memory error ends. -/
def memRec (k : Core) : LogRec :=
  match k.ctx.task.errs with
  | (cls, obj, line, _) :: _ => LogRec.of 10 cls k.lid.toNat k.ctx.task.lidx 0 obj (line * 16) 0
  | [] => LogRec.of 10 1 k.lid.toNat k.ctx.task.lidx 0 0 0 0

/-- R281: accesses of the context of core `c` are still to perform. -/
def State.accessesLeft (s : State) (c : Nat) : Bool :=
  let k := s.coreAt c
  (k.queues.toList.any fun l => l.any fun e => match e with
    | .acc a => a.uid == k.ctx.task.uid
    | .fence _ _ => false)
  || k.hits.any (fun h => h.1.uid == k.ctx.task.uid)
  || s.fab.reqs.any fun r => r.core == c && r.op.isNone && !r.done && r.acc.uid == k.ctx.task.uid

/-- R355: record `n` has failed by terminal cause `code`: where the cause kills its queue, or a kill has taken the queue before,
its arena is abandoned, and Bamosh is notified of the records that wait on it. -/
def State.failKilled (s : State) (p n : Nat) (code : Byte) : State :=
  match (s.part p).getRec n with
  | some r => if (s.part p).killsFor code || (s.part p).killed.contains r.queue then
      (s.modPart p fun q => q.modRec n fun r => { r with abandoned := true }).noticeWaiting p r else s
  | none => s

/-- R209, steps 3 and 4: the terminal cause of core `c`'s task, which has drained, ends it, once a memory error's
record has its turn, behind those of the task's accesses (R281). -/
def State.finish (s : State) (c : Nat) (code : Byte) (r : List DWord) : State :=
  let k := s.coreAt c
  let p := k.pid
  let logged : Turn := if code = 0x13 then
      (if (k.ctx.sys.record || k.ctx.sys.replay) && s.accessesLeft c then .held s else s.turnOf k.ctx (memRec k) none false)
    else .go s none
  match logged with
  | .held s => s
  | .go s _ =>
    let s := { s with dev := { s.dev with reports := s.dev.reports ++ [r] } }.traceAdd p 1 ((s.part p).coreNo c) r
    let s := (s.depart c).modAt c (Core.vacate s.cyc false)
    let s := match k.ctx.task.record with
      | some n => if k.ctx.task.child then s else (s.modPart p fun q => q.failRec n).failKilled p n code
      | none => s
    s.aftermath k code

/-! ## Settling -/

/-- The context of core `c`, stopped for good or for other work, leaves the core once it has drained. One of a cancelled
job is not saved: no queue holds a task of the job (R258), so the cancel takes it here. -/
def State.settle (s : State) (c : Nat) : State :=
  let k := s.coreAt c
  let ends := fun (go : State) =>
    if k.ctx.ops.any Op.openSub then s.modAt c Core.endSubs else if k.drained then go else s
  let gone := (s.part k.pid).cancelled k.ctx.task.job
  match k.run with
  | .stopped 0 live => if gone then ends (s.cancelled c) else if k.drained then s.save c live else s
  | .stopped 4 live => if gone then ends (s.cancelled c) else if k.drained then s.save c live else s
  | .stopped 1 _ => ends (s.cancelled c)
  | .stopped 2 _ => ends (s.killed c)
  | .stopped 5 _ => ends ((s.depart c).modAt c (Core.vacate s.cyc false))
  | .ending code r => ends (s.finish c code r)
  | _ => s

/-- R30, point 7: the core stands between the halves of a split bundle. -/
def Core.inSplit (c : Core) : Bool := c.ctx.pipe.split || c.inserted || !c.ctx.pipe.late.isEmpty

/-- R217: a pre-emption of core `c`'s context: 0 at its next safe point, for one that is stopped for debugging once it has resumed;
1 one that takes it where it is parked. A context that has stopped for other ends settles. -/
def execPreEmption (c why : Nat) (s : State) : Out :=
  let k := s.coreAt c
  match k.run with
  | .running =>
    if why = 1 then
      (if k.ctx.pipe.parked && !k.ctx.pipe.retiring && !k.inSplit then .next (s.modAt c (Core.takeParked 0)) else .next s)
    else .next (s.modAt c (Core.preempt 0))
  | .stopped 3 _ => .next (if why = 0 then s.modAt c (Core.preempt 0) else s)
  | _ => .next (s.settle c)

/-- R212: a quick stop of core `c`'s context is requested, for debugging (3) or for other work (4); a context that has
stopped settles. -/
def execQuickStop (c why : Nat) (s : State) : Out :=
  match (s.coreAt c).run with
  | .running => .next (if why = 3 || why = 4 then s.modAt c (Core.stop why) else s)
  | _ => .next (s.settle c)

/-- R209: Bamosh reports a terminal cause to a running context, or one that has struck ends its task. -/
def execTerminalCause (c : Nat) (code : Byte) (info : DWord) (s : State) : Out :=
  match (s.coreAt c).run with
  | .running => .next (s.modAt c fun k => { k with ctx := { k.ctx with pipe :=
      { k.ctx.pipe with async := k.ctx.pipe.async ++ [(code, info)] } } })
  | .ending _ _ => .next (s.settle c)
  | _ => .next s

/-- R355: queue `q` of partition `p` is killed, for a terminal cause that asks for it or, with code 0, for a request of
the host. -/
def execQueueKill (p q code : Nat) (s : State) : Out :=
  let y := s.part p
  if code = 0 then .next (if y.grant.queues.contains q then s.markKill p q 0 0 else s)
  else match y.killDue.find? fun x => x.1 == q && x.2.1 == code with
    | some x => .next ((s.modPart p fun y => { y with killDue := y.killDue.erase x }).markKill p q code x.2.2)
    | none => .next s

/-- R356: Bamosh clears the mark of a killed queue. -/
def execKillClear (p q : Nat) (s : State) : Out :=
  .next (s.modPart p fun y => { y with killed := y.killed.filter fun x => x != q })

/-- R217: the saved context of a SPAWN child resumes on core `c`, from which it was saved (R224). One whose job is being cancelled
takes the cancel at its next safe point. -/
def State.resumeKid (s : State) (c : Nat) : State :=
  match s.partOf c with
  | none => s
  | some p =>
    match (s.part p).kids.find? fun v => v.core == c with
    | none => s
    | some v =>
      let t := v.ctx.task
      if !s.idleCore c || !s.offered c || (s.coreAt c).entry.isSome || v.ctx.pipe.svc.isSome || !(s.part p).pinned t.lease
          || (s.keptBars p t.launch c).any fun y => s.barBusy p t.launch y.1.1 y.1.2 then s
      else
        let s := s.modPart p fun q => { q with kids := q.kids.filter fun w => w.ctx.task.uid != t.uid }
        (s.restoreBars p t.launch c).modAt c fun k =>
          let k := { k.restore s.cyc v with cancel := (s.part p).marked t.job (c / 80) }
          if (s.part p).cancelled t.job then k.preempt 1 else k

/-- R213: a context that was stopped for debugging resumes where it stood, and the saved one of a SPAWN child on its core; one
with a service request outstanding waits for its answer (R208). Nothing resumes on a halted device (R373). -/
def execDebugStopResume (c : Nat) (s : State) : Out :=
  let k := s.coreAt c
  match k.run with
  | .stopped 3 _ =>
    if k.ctx.pipe.svc.isNone && !s.dev.halted then
      .next (s.modAt c fun k => { k with run := .running, ctx := { k.ctx with pipe :=
        { k.ctx.pipe with trapped := false, hang := 0 } } })
    else .next s
  | .idle => .next (s.resumeKid c)
  | _ => .next s

/-! ## Services (R208) -/

/-- An answer written to S1 of a context. -/
def Ctx.answer (v : DWord) (x : Ctx) : Ctx :=
  { x with regs := { x.regs with s := x.regs.s.put 1 v }, pipe := { x.pipe with svc := none, park := .none } }

/-- The answer that Bamosh gives to request `n` of a context: the two services of R321 have steps of their own where the
caller is privileged, and answer all ones where it is not. -/
def svcValue (x : Ctx) (v : DWord) : Option DWord :=
  match x.pipe.svc with
  | some (n :: _) => if n = 0x40 || n = 0x41 then (if x.sys.priv then none else some (BitVec.allOnes 64)) else some v
  | _ => none

/-- Saved context `n` of a partition: the one of record `n`, or, from number 2^19 on, that of the SPAWN child saved from core
n - 2^19. -/
def Part.savedNo (q : Part) (n : Nat) : Option Saved :=
  if n < 2 ^ 19 then (look q.recs n).bind fun r => r.saved else q.kids.find? fun v => v.core == n - 2 ^ 19

/-- The context that a service step names: that of core `c`, or, from number 320 on, saved context (c - 320) mod 2^20 of
partition (c - 320) / 2^20. -/
def State.svcCtx (s : State) (c : Nat) : Option Ctx :=
  if c < 320 then some (s.coreAt c).ctx
  else ((s.part ((c - 320) / 2 ^ 20)).savedNo ((c - 320) % 2 ^ 20)).map fun v => v.ctx

/-- The context that a service step names, changed; on a core, after the results that are due there (R9). -/
def State.onSvc (s : State) (c : Nat) (f : Ctx → Ctx) : State :=
  if c < 320 then s.modAt c fun k => { k with ctx := f k.landDue.ctx }
  else
    let n := (c - 320) % 2 ^ 20
    let g := fun (v : Saved) => { v with ctx := f v.ctx }
    s.modPart ((c - 320) / 2 ^ 20) fun q =>
      if n < 2 ^ 19 then q.modRec n fun r => { r with saved := r.saved.map g }
      else { q with kids := q.kids.map fun v => if v.core = n - 2 ^ 19 then g v else v }

/-- R208: Bamosh answers the request of a context. -/
def execSvcAnswer (c : Nat) (v : DWord) (s : State) : Out :=
  match (s.svcCtx c).bind fun x => svcValue x v with
  | some w => .next (s.onSvc c (Ctx.answer w))
  | none => .next s

/-! ## Retirement (R58, R260) -/

/-- R58, R260: a task waits for its tokens and its stores, and one that is no SPAWN child for its requests. -/
def State.retireWaits (s : State) (k : Core) : Bool :=
  k.ctx.toks.toList.any (fun t => t.pending) || (!k.ctx.task.child && !k.ctx.pipe.requests.isEmpty)
    || s.storesPending k.ctx.task.uid != 0

/-- R58: the lowest token that holds an error. R123 orders slots, produced and listed tokens and is silent on RETIRE's implicit
ones: that the lowest number is reported is the model's choice (log entry 145). -/
def Core.badToken (k : Core) : Option Tok :=
  ((upTo 32).map fun i => (BitVec.ofNat 5 i : Tok)).find? fun t => (k.ctx.toks.get t).err != 0

/-- R260, step 1: the decrements of the successors, in order, each with its result code. -/
def Part.decrements : List Nat → Part → List (Nat × Nat) → Part × List (Nat × Nat)
  | [], q, l => (q, l)
  | y :: ys, q, l =>
    let r := q.tdec y
    Part.decrements ys r.1 (l ++ [(y, r.2)])

/-- The core of a task that has retired (R222, R265). The requests of a SPAWN child go on without it (R260). -/
def Core.retired (t : Nat) (c : Core) : Core :=
  { c.vacate t true with stealDue := !c.ctx.task.child && c.entry.isNone,
                         orphans := c.orphans ++ c.ctx.pipe.requests.map fun q => (c.ctx, q) }

/-- A RETIRE that its bundle has issued waits on. -/
def State.retireHeld (s : State) : State := s.modPipe fun p => { p with retiring := true, park := .retire }

/-- R58, R260, R293: the current task retires: its digest is compared and closes, its record is updated with its
successors and its slip, each in its log turn, and it departs its barriers. -/
def State.retireNow (s : State) : State :=
  let c := s.cur.val
  let k := s.core
  let p := k.pid
  let t := k.ctx.task
  match s.launchAt p t.launch with
  | none => (s.depart c).modCore (Core.retired s.cyc)
  | some l =>
    let d := l.digest t.slot
    if k.ctx.sys.verify && d.rvalid && d.recorded != t.digest then
      (s.modLaunch p t.launch (Launch.assays t)).takeTerminal 0x17 false k.ctx.pc t.digest
    else
      let n := t.record.getD 0
      let own := !t.child && t.record.isSome
      let succ := match (s.part p).getRec n with
        | some r => if own then r.succ else []
        | none => []
      let dec := Part.decrements succ (s.part p) []
      match s.turnsOf k.ctx (dec.2.map fun y => s.qreq c k.ctx 3 y.1 y.2) with
      | .held s => s.retireHeld
      | .go s1 _ =>
        let s1 := (s1.modLaunch p t.launch (Launch.closes t k.ctx.sys.record)).modPart p fun q =>
          ((succ.foldl (fun q y => (q.tdec y).1) q))
        let slip := if own then s.slipAt p n else none
        let s2 : Except State State := match slip with
          | none => .ok s1
          | some d =>
            let e := LogRec.of 8 0 0 0 0 0 0 (BitVec.ofNat 64 d)
            (match s1.turnOf k.ctx e (some (s.part p).slips) false with
            | .held _ => .error (s.holdOp k.ctx e)
            | .go s _ => .ok (s.modPart p (Part.slip d)))
        match s2 with
        | .error s => s.retireHeld
        | .ok s2 =>
          let s2 := if own then s2.modPart p fun q => (q.retireRec n).refresh else s2.modPart p Part.refresh
          (s2.depart c).modCore (Core.retired s.cyc)

/-- R58: RETIRE parks until what the task started before it has resolved, and then for what its own bundle started. -/
def execRetire (s : State) : Out :=
  if !s.rd.ctx.pipe.retiring && s.retireWaits s.rd then .next (s.park .retire)
  else match s.rd.badToken with
    | some t => .next (s.tokenError t)
    | none =>
      if s.retireWaits s.core then .next s.retireHeld
      else match s.core.badToken with
        | some t => .next (s.tokenError t)
        | none => .next s.retireNow

end Sys2Proof.Machine
end

