-- ==== Sys2Proof/Machine/Quad.lean ====
section
/-! DEFINITION. SPAWN on the quad (R219 to R222): its traps, the state of a child at its entry, and the child's entry. -/

namespace Sys2Proof.Machine

open Sys2Proof

/-- R219: the sibling of core `c` at offset `k`. -/
def sibling (c k : Nat) : Nat := c / 4 * 4 + (c % 4 + k) % 4

/-- R222: why core `c` cannot take a child, if it cannot: the REASON of the busy-sibling trap. A core from which a child was saved
is spawned until that child exits, and one whose ENGMAP Bamosh has still to write after a failure takes no context (R28, R371; log
entry 101). -/
def State.spawnRefuses (s : State) (c k : Nat) : Option Nat :=
  let t := s.coreAt (sibling c k)
  if k = 0 then some 3
  else if t.engmap.getLsbD 14 then some 2
  else if t.spawnAt = some (s.cyc + 2) then some 4
  else if s.idleCore (sibling c k) && s.offered (sibling c k) && !(s.part s.rd.pid).kids.any (fun v => v.core == sibling c k)
    then none
  else some 1

/-- R262: the logical index of the `n`-th child of a task. -/
def childIndex (lidx : BitVec 56) (n : Nat) : BitVec 56 :=
  (mix64 (lidx.setWidth 64 ^^^ (BitVec.ofNat 64 n <<< 56))).setWidth 56 ||| (1 <<< 55 : BitVec 56)

/-- R221: a capability as a child gets it. -/
def Cap.granted (c : Cap) : Cap := if c.has 6 then c else 0

/-- R221: the context of a child, `x` being its parent's as the bundle found it. -/
def Ctx.child (x : Ctx) (l : Launch) (uid n : Nat) (pc : BitVec 48) (args : List DWord) : Ctx :=
  { Ctx.entry with
    pc, npc := pc, code := x.code,
    regs := { Regs.entry with s := File.load 0 1 args, c := x.regs.c.map Cap.granted },
    sys := l.sys x.sys.partid.toNat (x.sys.mode &&& 0x3E),
    pipe := { Pipe.entry with hanglim := x.pipe.hanglim },
    task := { (default : Task) with
      uid, lidx := childIndex x.task.lidx n, job := x.task.job, record := x.task.record, child := true,
      lease := x.task.lease, slotD := x.task.slotD, launch := x.task.launch, genKey := x.task.genKey } }

/-- R220, R268: a SPAWN of the current task is refused because its job is cancelled: the mark of its die is read. -/
def State.spawnCancelled (s : State) : Bool := (s.part s.rd.pid).marked s.rd.ctx.task.job (s.cur.val / 80)

/-- R220, R221, R224. -/
def execSpawn (d a b : Reg) (n : BitVec 3) (s : State) : Out :=
  let c := s.cur.val
  let x := s.rd.ctx
  let k := ((s.rd.S a).extractLsb' 48 2).toNat
  let t := sibling c k
  if s.spawnCancelled then .next (s.resS 1 d 1)
  else match s.spawnRefuses c k with
    | some r => .next (s.fault 0x0F (BitVec.ofNat 64 (t % 4 + k * 4 + r * 16)))
    | none =>
      match s.launchAt s.rd.pid x.task.launch with
      | none => .next (s.resS 1 d 0)
      | some l =>
        let m := x.task.spawns + 1
        let args := (upTo (n.toNat + 1)).map fun i => s.rd.S (b + BitVec.ofNat 6 i)
        let y := x.child l (s.fresh + 1) m ((s.rd.S a).extractLsb' 0 48) args
        let s := (s.newId.modLaunch s.rd.pid x.task.launch (Launch.opens y.task.slot y.task.lidx)).modAt t fun z =>
          { z with ctx := y, spawnAt := some (s.cyc + 2), lastCtx := some y.sys.ctxid, lastRet := false }
        .next (((s.joinBars s.rd.pid x.task.launch t).modTask fun t => { t with spawns := m }).resS 1 d 0)

/-- R220, R221: the child on core `c` enters, two cycles after its SPAWN or later. -/
def execChildEntry (c : Nat) (s : State) : Out :=
  match (s.coreAt c).spawnAt with
  | some t => .next (if t ≤ s.cyc && !s.dev.halted then s.modAt c fun k => { k with run := .running, spawnAt := none } else s)
  | none => .next s

end Sys2Proof.Machine
end

