-- ==== Sys2Proof/Machine/Determinism.lean ====
section
/-! DEFINITION. LOGMARK (R287), the log-full release and the supply of replay (R282, R283), the replay-divergence fault
(R284), and serialised re-execution with its report (R294, R295). -/

namespace Sys2Proof.Machine

open Sys2Proof

/-! ## LOGMARK (R287) -/

/-- R287: nothing, unless LOGCTL.MARKEN is 1 and the context records or replays. -/
def execLogmark (a : Reg) (tag : BitVec 3) (s : State) : Out :=
  let x := s.core.ctx
  if !x.sys.logctl.getLsbD 29 || !(x.sys.record || x.sys.replay) then .next s
  else
    match s.turnOf x (LogRec.of 9 tag.toNat s.core.lid.toNat x.task.lidx 0 0 0 (s.rd.S a)) (some x.task.marks) true with
    | .held s => .next (s.park .replay)
    | .go s _ => .next (s.modTask fun t => { t with marks := t.marks + 1 })

/-! ## The ring (R282, R283) -/

/-- R282: Bamosh drains `n` records of the ring of launch `r`. -/
def execLogFullRelease (p r n : Nat) (s : State) : Out :=
  match s.launchAt p r with
  | none => .next s
  | some l =>
    let rd := s.agentRead p l.ringObj 8
    if !l.record || n > (s.agentRead p l.ringObj 0 - rd).toNat then .next s
    else .next (s.agentWrite p l.ringObj 8 [rd + BitVec.ofNat 64 n])

/-- Records written to a ring from position `i` on. -/
def State.ringLoad (s : State) (r : RingAt) (i : Nat) : List LogRec → State
  | [] => s
  | e :: l => State.ringLoad (s.agentWrite r.part r.obj (64 + 32 * (i % 2 ^ r.lg)) [e.w0, e.w1, e.w2, e.w3]) r (i + 1) l

/-- R283: `n` more records of the recorded run supplied to launch `r`, as many as its ring has room for. -/
def State.supply (s : State) (p r n : Nat) (l : Launch) : State :=
  let g := l.ring p r
  let rd := s.agentRead p g.obj 8
  let n := min n (2 ^ g.lg - (rd - s.agentRead p g.obj 0).toNat)
  let recs := l.unfed.take n
  let s := (s.ringLoad g rd.toNat recs).agentWrite p g.obj 8 [rd + BitVec.ofNat 64 recs.length]
  s.modLaunch p r fun l => { l with supply := l.supply ++ recs, unfed := l.unfed.drop n }

/-- R286: the seed of launch `l` is drawn, or taken from its log, and is the generator key of its tasks; in replay it waits for
its record. -/
def State.jobSeed (s : State) (p l : Nat) : State :=
  let v := Config.entropy s.fresh
  match s.newId.turnFor p l (LogRec.of 7 1 0 0 0 0 0 v) (some 0) false with
  | .held s => s.modLaunch p l fun x => { x with seedDue := true }
  | .go s e => s.modLaunch p l fun x => { x with seedDue := false, seed := match e with
      | some e => e.w3
      | none => v }

/-- R283, R286: Bamosh supplies recorded records to launch `r`, whose seed may wait for them. -/
def execReplaySupply (p r n : Nat) (s : State) : Out :=
  match s.launchAt p r with
  | none => .next s
  | some l =>
    let s := if l.replay then s.supply p r n l else s
    .next (if l.seedDue then s.jobSeed p r else s)

/-- R283: Bamosh marks the log of launch `r` exhausted, once it has supplied every record. A launch whose seed still waits has
no record of it (R284, reason 6; log entry 139). -/
def execLogExhausted (p r : Nat) (s : State) : Out :=
  match s.launchAt p r with
  | none => .next s
  | some l =>
    let s := s.modLaunch p r fun l => { l with spent := l.spent || l.unfed.isEmpty }
    .next (if l.seedDue && l.unfed.isEmpty then s.failKernel p r else s)

/-! ## The replay-divergence fault (R284) -/

/-- A record's task is over: it has retired, failed or been cancelled. -/
def RecState.over (x : RecState) : Bool := !(x.unstarted || x == .running)

/-- The task with index `t` of a launch has retired, failed or been cancelled: one of a record, or a SPAWN child. -/
def State.taskEnded (s : State) (p l : Nat) (t : BitVec 56) : Bool :=
  !(s.cores.toList.any fun k => k.holds p && k.ctx.task.launch == l && k.ctx.task.lidx == t)
  && ((s.part p).recs.any fun r => r.2.launch == l && r.2.lidx == t && r.2.state.over
    || (match s.launchAt p l with
      | some x => x.digests.any fun d => d.2.lidx == t && d.2.done
      | none => false))

/-- A record of an operation of a task: TASK is its index (R278). -/
def ofTask (e : LogRec) : Bool :=
  e.typ == 1 || e.typ == 2 || (e.typ == 4 && e.sub ≤ 3) || (e.typ == 7 && e.sub == 0) || e.typ == 9 || e.typ == 10

/-- An access of a context is one of its held operations. -/
def Ctx.holdsAcc (x : Ctx) (a : Acc) : Bool :=
  a.uid == x.task.uid && x.pipe.heldOps.any fun e => (e.typ == 1 || e.typ == 2) && e.obj == a.via.obj && e.off == a.off / 4

/-- The number of operations that a core's context may still bring: accesses, requests and engine operations. Behind a held
access at its head a queue brings nothing. -/
def Core.underWay (k : Core) : Nat :=
  ((k.queues.toList.map fun l => match l.head? with
    | some (.acc a) => if k.ctx.holdsAcc a then 1 else l.countP fun e => match e with
      | .acc a => a.uid == k.ctx.task.uid
      | .fence _ _ => false
    | _ => l.countP fun e => match e with
      | .acc a => a.uid == k.ctx.task.uid
      | .fence _ _ => false).foldl (· + ·) 0) + k.ctx.pipe.requests.length + k.ctx.ops.length

/-- An access of the context to the line of the held operation `e` has issued and is still to arrive. -/
def Core.arrives (k : Core) (e : LogRec) : Bool :=
  (e.typ == 1 || e.typ == 2) && k.queues.toList.any fun l => l.any fun y => match y with
    | .acc a => a.uid == k.ctx.task.uid && !k.ctx.holdsAcc a && a.via.obj == e.obj && a.off / 64 == e.off / 16
    | .fence _ _ => false

/-- R284: what parks or stalls the sequencer is something that a held operation ends: an interlocked result, an acquire or release hold,
a DRAIN, an ARRIVE hold, the parking of RETIRE, or its own turn at issue; not a wait for others, nor a divide. -/
def Pipe.awaitsHeld (p : Pipe) : Bool :=
  p.stalled && p.svc.isNone && p.inflight.all (fun r => !r.mark) && (match p.park with
    | .none => true
    | .order => true
    | .arrive => true
    | .retire => true
    | .replay => true
    | _ => false)

/-- R284: the context is held so that nothing but its held operations can go on, and nothing else of it on the object of
`e` is still to arrive. -/
def Core.onlyHeld (k : Core) (e : LogRec) : Bool :=
  k.ctx.pipe.awaitsHeld && !k.arrives e
    && decide (k.underWay ≤ k.ctx.pipe.heldOps.countP fun o => o.typ ≤ 2 || o.typ == 4 && o.sub ≤ 2)

/-- R284: the REASON for which the held operation `e` of the context of core `k` diverges, and the record it was
compared with. -/
def State.diverges (s : State) (k : Core) (l : Launch) (e : LogRec) : Option (Nat × Option LogRec) :=
  let late := k.ctx.pipe.heldFor ≥ 2 ^ (k.ctx.sys.logctl.extractLsb' 32 6).toNat
  match l.supply.find? fun r => s.keyOf k.pid r == s.keyOf k.pid e with
  | some r =>
    if r.typ = 9 && r.matches e then (if r.w3 ≠ e.w3 then some (4, some r) else none)
    else if ofTask r && r.task = e.task && !r.matches e && k.onlyHeld e && (s.part k.pid).power == 0 then some (1, some r)
    else if ofTask r && r.task ≠ e.task && s.taskEnded k.pid k.ctx.task.launch r.task then some (2, some r)
    else if late then some (3, some r)
    else none
  | none => if l.spent then some (6, none) else if late then some (3, none) else none

/-- R284, reason 5: a barrier at its precondition that the context of core `c` holds has another LASTDEP than its record, and the
departures still to come cannot make them equal. -/
def State.barDiverges (s : State) (c : Nat) (l : Launch) : Option LogRec :=
  let own := fun (lv i : Nat) =>
    let b := s.bar lv i
    if b.ready && s.barHolder lv b c then
      let d : DWord := BitVec.ofNat 64 b.departed
      let e := LogRec.of 3 lv b.src.toNat 0 0 (barNo lv i) (s.barPlace lv i) d
      match l.supply.find? fun r => r.key == e.key with
      | some r => if r.w3 ≠ d && (d &&& ~~~r.w3 ≠ 0 || r.w3 &&& ~~~(d ||| BitVec.ofNat 64 b.live) ≠ 0) then some r else none
      | none => none
    else none
  ((upTo 16).findSome? fun n => own 2 (barIndex 2 c n)).orElse fun _ =>
    ((upTo 64).findSome? fun n => own 3 (barIndex 3 c n)).orElse fun _ =>
      ((upTo 16).findSome? fun n => own 4 n).orElse fun _ => (upTo 16).findSome? fun n => own 5 n

/-- R283, R284: a bind to core `c`, or its steal attempt, diverges from the log of launch `i`: the record that it would follow names
a task's record that is over (reason 2), or none is left of an exhausted log (reason 6). No context takes this fault (log entry
139). -/
def State.agentDiverges (s : State) (c : Nat) (p i : Nat) (l : Launch) : Bool :=
  let k := s.coreAt c
  let ended := fun (n : Nat) => ((s.part p).getRec n).any fun r => r.launch == i && r.state.over
  let steal := k.stealDue && k.ctx.task.launch == i && (match l.supply.find? fun e => e.typ == 6 && e.src == k.lid.toNat with
    | some e => e.w3 != BitVec.allOnes 64 && ended e.w3.toNat
    | none => l.spent)
  let waits := fun (q : Nat) => ((s.part p).queue q).head?.any fun n => ((s.part p).getRec n).any fun r =>
    r.launch == i && s.mayResume p c r
  let bind := s.idleCore c && !k.stealDue && k.entry.isNone && (match l.supply.find? fun e => e.typ == 5 with
    | some e => e.src == k.lid.toNat && ended e.obj
    | none => l.spent && (upTo 64).any fun q => waits (c / 80 * 64 + q))
  l.replay && !l.failing && (s.part p).cores.contains c && (steal || bind)

/-- R284: TRAPINFO. -/
def divergeInfo (reason atype : Nat) (r : Option LogRec) : DWord :=
  match r with
  | some e => BitVec.ofNat 64 (e.typ + (if reason = 2 || reason = 3 then 0 else atype) * 2 ^ 6 + reason * 2 ^ 12
      + e.obj * 2 ^ 16 + e.sq * 2 ^ 40)
  | none => BitVec.ofNat 64 ((if reason = 3 then 0 else atype) * 2 ^ 6 + reason * 2 ^ 12)

/-- R284: the context on core `c` diverges from its log, if it does: the terminal cause is pending. Where a bind or a steal of the
core does, or the MEMERR record of a context that has ended, the kernel passes to serialised re-execution at once. -/
def execReplayDivergenceFault (c : Nat) (s : State) : Out :=
  let k := s.coreAt c
  let info := match s.launchAt k.pid k.ctx.task.launch with
    | none => none
    | some l =>
      if k.run = .running && k.ctx.sys.replay && !k.ctx.pipe.async.any (fun a => a.1 == 0x18) then
        (k.ctx.pipe.heldOps.findSome? fun e => (s.diverges k l e).map fun x => divergeInfo x.1 e.typ x.2).orElse
          fun _ => (s.barDiverges c l).map fun r => divergeInfo 5 3 (some r)
      else none
  let past := match k.run, s.launchAt k.pid k.ctx.task.launch with
    | .ending _ _, some l => l.replay && !l.failing && k.ctx.pipe.heldOps.any fun e => (s.diverges k l e).isSome
    | _, _ => false
  if past then .next (s.failKernel k.pid k.ctx.task.launch)
  else match info with
  | some info => .next (s.modAt c fun k => { k with ctx := { k.ctx with pipe :=
      { k.ctx.pipe with async := k.ctx.pipe.async ++ [(0x18, info)] } } })
  | none =>
    match s.partOf c with
    | none => .next s
    | some p =>
      match (upTo (s.part p).launches.length).find? fun i => (s.launchAt p i).any fun l => s.agentDiverges c p i l with
      | some i => .next (s.failKernel p i)
      | none => .next s

/-! ## Serialised re-execution (R294, R295) -/

/-- Some core still holds a context of launch `l`, or accesses of one are still to perform: in the queues of a core, behind its
FENCEs, or in the fabric. -/
def State.kernelHeld (s : State) (p l : Nat) : Bool :=
  s.cores.toList.any (fun k => k.pid == p && k.ctx.task.launch == l
    && (k.holds p || k.queues.toList.any (fun x => !x.isEmpty) || !k.hits.isEmpty))
  || (s.part p).kids.any (fun v => v.ctx.task.launch == l) || s.fab.reqs.any fun r => r.acc.via.part == p && !r.done

/-- A barrier as it is before its first phase, with its members. -/
def Bar.fresh (b : Bar) : Bar := { (default : Bar) with members := b.members, live := b.members, owner := b.owner }

/-- R294, step 1: the barriers of launch `i` of partition `p`, in the network and kept for it, return to phase 0. -/
def State.freshBars (s : State) (p i : Nat) : State :=
  let fresh := fun (b : Bar) => if b.owner = i then b.fresh else b
  let g := (s.part p).grant
  let s := g.quads.foldl (fun s q => (upTo 16).foldl (fun s n => s.modBar 2 (q * 16 + n) fresh) s) s
  let s := g.dieBars.foldl (fun s i => s.modBar 3 i fresh) s
  let s := g.pkgBars.foldl (fun s i => s.modBar 4 i fresh) s
  let s := g.podBars.foldl (fun s i => s.modBar 5 i fresh) s
  s.modLaunch p i fun l => { l with bars := l.bars.map fun x => (x.1, x.2.fresh) }

/-- R252, R294, step 1: the records of launch `l` as it gave them, in their queues again, and its jobs, with FAILED as it was. -/
def Part.relaunch (l : Launch) (q : Part) : Part :=
  let own := l.start.map fun r => r.1
  let q : Part := own.foldl Part.unqueue q
  let jobs : List Job := l.jobs0.filter fun j => !q.jobs.any fun (i : Job) => i.id == j.id
  let was := fun (j : Job) => match l.jobs0.find? fun (i : Job) => i.id == j.id with
    | some i => { j with failed := i.failed }
    | none => j
  let q := { q with recs := l.start.foldl (fun rs (r : Nat × Rec) => put rs r.1 r.2) q.recs, jobs := q.jobs.map was ++ jobs }
  (l.start.foldl (fun q r => if r.2.state = .queued then q.enqueue r.1 else q) q).refresh

/-- R294: a digest slot as the failed run leaves it. A task that the assay trap ended has its CURRENT in the report, though the run
did not retire it (R299; log entry 90). -/
def Digest.afterFailure (d : Digest) : Digest :=
  { d with failrun := d.done, failed := if d.done || d.assay then d.current else 0, current := 0, done := false }

/-- R294: the launch as it runs again: strict, with neither REPLAY nor VERIFY, with RECORD as the failed run had it, on
a new ring. -/
def Launch.again (l : Launch) : Launch :=
  { l with word := (l.word &&& ~~~(3 : DWord)) ||| (if l.record then 1 else 0), counts := [], unfed := [], supply := [], spent := false,
           log := [], oldLog := l.log ++ l.supply ++ l.unfed, digests := l.digests.map fun d => (d.1, d.2.afterFailure), kd := 0,
           serial := true, failing := false }

/-- The bytes of an object frame in storage. -/
def Part.inStorage (q : Part) (n i : Nat) : Option Memory := (q.stored.find? fun y => y.1 == n && y.2.1 == i).map fun y => y.2.2

/-- R294: the bytes of a writable object frame of a kernel: those of the frame that maps it, or those in storage; an arena not yet
born has none. -/
def State.objFrame (s : State) (p n i : Nat) : Memory :=
  match (s.part p).phys n (i * 2 ^ 21) with
  | some a => s.home.mem.frame (frameKey a * 2 ^ 21)
  | none => ((s.part p).inStorage n i).getD []

/-- R234, R294, R369: object frame `i` of object `n` holds the bytes `b` again, where it is mapped or in storage; the tags of its
lines are zero again, and none is lost. -/
def State.restoreFrame (s : State) (p n i : Nat) (b : Memory) : State :=
  match (s.part p).phys n (i * 2 ^ 21) with
  | some a => s.modHome fun h => h.fillFrame (frameKey a) b
  | none => s.modPart p fun q => { q with stored := q.stored.map fun y => if y.1 = n && y.2.1 = i then (n, i, b) else y }

/-- R294, step 1: every writable leased frame of a launch as its copy has it. -/
def State.restoreFrames (s : State) (p : Nat) (l : Launch) : State :=
  l.copy.foldl (fun s x => s.restoreFrame p x.1 x.2.1 x.2.2) s

/-- R294: a copied range of an export's bytes, from `start` on, as it was; its tags are zero again, and none of its lines is
lost. -/
def Export.restore (start len : Nat) (m : Memory) (e : Export) : Export :=
  let out := fun (l : Nat) => !(start ≤ l * 64 && l * 64 < start + len)
  { e with mem := (e.mem.clear start len).setBytes start (m.bytes start len), lost := e.lost.filter out,
           tags := e.tags.filter fun t => out t.1 }

/-- R294: the ranges on other packages as they were copied. -/
def State.restoreFar (s : State) (p : Nat) (l : List (Nat × Nat × Nat × Memory)) : State :=
  l.foldl (fun s x => s.modExport (fun e => s.fab.exports.any fun y => y.part == p && y.lobj == x.1 && y.sameHome e) (Export.restore x.2.1 x.2.2.1 x.2.2.2)) s

/-- R261, R294: a core of the partition before its kernel runs again: its slot-table entry names no record of launch `l`. -/
def Core.again (l : Launch) (k : Core) : Core :=
  { k.dropL1 with att := 0, stealDue := false,
                  entry := if k.entry.any fun e => l.start.any fun r => r.1 == e.1 then none else k.entry }

/-- R294: launch `l` of partition `p` starts again. A seed that still waits for its record is drawn (R286). -/
def State.serialise (s : State) (p i : Nat) (l : Launch) : State :=
  let s := ((s.restoreFrames p l).restoreFar p l.far).freshBars p i
  let s := (s.modPart p (Part.relaunch l)).modLaunch p i Launch.again
  let s := if l.seedDue then s.newId.modLaunch p i fun x => { x with seed := Config.entropy s.fresh, seedDue := false } else s
  let s := (s.part p).cores.foldl (fun s c => s.modAt c (Core.again l)) s
  s.agentWrite p l.ringObj 0 [0, 0]

/-- Digest slots by ascending logical index. -/
def insertLidx (d : Digest) : List Digest → List Digest
  | [] => [d]
  | x :: l => if x.lidx.toNat ≤ d.lidx.toNat then x :: insertLidx d l else d :: x :: l

/-- R295: two of the three runs hold digests of a task, and these differ. -/
def Digest.differs (d : Digest) : Bool :=
  (d.rvalid && d.failrun && d.recorded != d.failed) || (d.rvalid && d.done && d.recorded != d.current)
    || (d.failrun && d.done && d.failed != d.current)

/-- R295: an entry of the report. -/
def Digest.entry (d : Digest) : List DWord :=
  [d.lidx.setWidth 64 ||| BitVec.ofNat 64 (d.failrun.toNat * 2 ^ 56 + d.rvalid.toNat * 2 ^ 57),
   if d.rvalid then d.recorded else 0, d.failed, if d.done then d.current else 0]

/-- R295: the divergence report of launch `i` goes to the trace buffer. -/
def State.report (s : State) (p i : Nat) (l : Launch) : State :=
  let ds := (l.digests.map fun d => d.2).foldl (fun o d => insertLidx d o) []
  let es := (ds.filter Digest.differs).map Digest.entry ++ [[BitVec.ofNat 64 (2 ^ 56 - 1), l.recKd, 0, l.kd]]
  (es.foldl (fun s e => s.traceAdd p 2 0xFFFF e) s).modLaunch p i fun l => { l with serial := false, oldLog := [] }

/-- Every record of launch `i` has ended. -/
def Part.launchEnded (q : Part) (i : Nat) : Bool :=
  q.recs.all fun r => r.2.launch != i || !r.2.state.live

/-- R294: a failed kernel of partition `p` runs again once its contexts have left their cores; one that has run again to
its end is reported. -/
def execSerialisedReExecution (p : Nat) (s : State) : Out :=
  let q := s.part p
  let go := fun (f : Nat → Launch → Bool) => (upTo q.launches.length).find? fun i => match q.launches[i]? with
    | some l => f i l && !s.kernelHeld p i
    | none => false
  match go fun _ l => l.failing && !l.serial with
  | some i => (match q.launches[i]? with
    | some l => .next (s.serialise p i l)
    | none => .next s)
  | none =>
    match go fun i l => l.serial && q.launchEnded i with
    | some i => (match q.launches[i]? with
      | some l => .next (s.report p i l)
      | none => .next s)
    | none => .next s

end Sys2Proof.Machine
end

