-- ==== Sys2Proof/Machine/Objects.lean ====
section
/-! DEFINITION. Objects, leases and arenas as Bamosh and privileged tasks manage them (R303 to R321): XINV and its steps,
walks, revocation, unmapping, and the life of an arena. -/

namespace Sys2Proof.Machine

open Sys2Proof

/-! ## XINV (R314, R315) -/

/-- An XINV starts. -/
def State.invStart (s : State) (p id obj start len mode : Nat) : State :=
  s.modPart p fun q => { q with invs := q.invs ++ [{ id, obj, start, len, mode, dropped := [], acked := [] }] }

/-- R314, R315. -/
def execXinv (t : Tok) (mode : BitVec 2) (flag : Bool) (n : Reg) (toks : List Tok) (s : State) : Out :=
  s.gate t toks fun s =>
    let r := s.rd.group n 0
    let p := (r.extractLsb' 24 4).toNat
    let start := ((s.rd.group n 1).extractLsb' 0 48).toNat
    let len := (s.rd.group n 2).toNat
    let fl := s.rd.flagArg n 3 flag
    let fa := match fl with
      | some (a, _) => a
      | none => 0
    let odd := [(start % 64, start), (len % 64, len), (fa % 8, fa)].find? fun x => x.1 != 0
    if !s.rd.ctx.sys.priv then .next (s.fault 0x01 (trapInfo26 s.slot 7 none 0 0))
    else if 12 ≤ p then .next (s.fault 0x03 (memInfo s.slot 0 0 3 start))
    else if start + len > 2 ^ 48 then .next (s.fault 0x03 (memInfo s.slot 0 0 1 start))
    else match odd with
      | some (_, x) => .next (s.fault 0x04 (memInfo s.slot 0 0 0 x))
      | none =>
        if flag && fa + 8 > spadSize then .next (s.fault 0x05 (memInfo s.slot 0 0 0 fa))
        else
          let op := Op.new s.fresh t s.ceInst (.inv p s.fresh fl) 0
          .next ((s.start op).invStart p s.fresh ((r.extractLsb' 0 24).toNat) (if len = 0 then 0 else start) len mode.toNat)

/-- An access used an entry that an XINV of partition `p` drops. -/
def Inv.meetsAcc (i : Inv) (p : Nat) (a : Acc) : Bool :=
  match a.xl with
  | some t => i.hits p t || (a.via.kind == 3 && a.via.part == p && i.meets a.via.obj a.off a.len)
  | none => false

/-- An access that an XINV waits for. -/
def Acc.hold (id : Nat) (a : Acc) : Acc := { a with held := id :: a.held }

/-- R315: a core's Invalidate: its entries and its L1G lines of the range, and the accesses that used them. -/
def Core.invalidate (p : Nat) (i : Inv) (c : Core) : Core :=
  let c := { c with
    xcache := c.xcache.filter fun t => !i.hits p t,
    queues := c.queues.map fun (l : List QEntry) => l.map (QEntry.map fun a => if i.meetsAcc p a then a.hold i.id else a) }
  c.dropLines fun q o l => q == p && i.meets o (l * 64) 64

/-- R322: the last word of an operation through its global operand has performed. -/
def Op.globalDone (o : Op) : Bool :=
  o.err != 0 || (match o.kind with
    | .copy f _ _ _ _ _ _ => if f.writes then o.toWrite.isEmpty else o.claimed && o.toRead.isEmpty
    | .multi _ _ _ _ _ ds _ => o.toRead.isEmpty && ds.all fun d => d.claimed
    | .chain _ _ _ _ => o.flagged
    | .sub x => !o.claimed && (!x.out || x.last ≤ x.tile)
    | .bmv _ => o.toRead.isEmpty
    | .bfen _ _ _ => false
    | _ => true)

/-- The holders that serve a partition. -/
def Part.holders (q : Part) : List Nat := q.cores ++ (q.cores.map fun c => 320 + c) ++ q.cores.map fun c => 640 + c

/-- An XINV under way, with its partition. -/
def State.invAt (s : State) (id : Nat) : Option (Nat × Inv) :=
  (upTo 12).findSome? fun p => ((s.part p).invs.find? fun i => i.id == id).map fun i => (p, i)

/-- An XINV changed. -/
def State.modInv (s : State) (p id : Nat) (f : Inv → Inv) : State :=
  s.modPart p fun q => { q with invs := q.invs.map fun i => if i.id = id then f i else i }

/-- R312, R315: XINV `k` waits for the remote requests of core `c`, its own or its engines', that are in the fabric under a
translation of the range. -/
def State.holdReqs (s : State) (c : Nat) (eng : Bool) (p k : Nat) (i : Inv) : State :=
  let f := fun (r : Remote) =>
    if r.core == c && r.op.isSome == eng && i.meetsAcc p r.acc then { r with acc := r.acc.hold k } else r
  { s with fab := { s.fab with reqs := s.fab.reqs.map f } }

/-- R315, R322: an operation still has to move what XINV `k` waits for. -/
def Op.holdsInv (k : Nat) (o : Op) : Bool := o.held.contains k && (!o.globalDone || !o.sent.isEmpty)

/-- R315: holder `h` drops its entries for XINV number `k`; a subscription that a context saved from its core has paused is its
own still. -/
def execInvalidate (h k : Nat) (s : State) : Out :=
  match s.invAt k with
  | none => .next s
  | some (p, i) =>
    if !(s.part p).holders.contains h || i.dropped.contains h then .next s
    else
      let s := s.modInv p k fun i => { i with dropped := h :: i.dropped }
      if h < 320 then
        let s := s.modAt h (Core.invalidate p i)
        .next (s.holdReqs h false p k i)
      else
        let hoist := decide (640 ≤ h)
        let c := if hoist then h - 640 else h - 320
        let s := if hoist then s else s.holdReqs c true p k i
        let under := fun (x : Ctx) => { x with ops := x.ops.map (Op.underInv p k i hoist) }
        .next ((s.modAt c fun y => { y with ctx := under y.ctx }).modPart p fun q =>
          q.mapSaves fun v => if v.core = c then { v with ctx := under v.ctx } else v)

/-- The contexts saved from core `c`. -/
def State.saved (s : State) (c : Nat) : List Saved := (s.parts.toList.flatMap Part.saves).filter fun v => v.core == c

/-- An operation of a context that has moved to another core since is one that XINV `k` waits for. -/
def State.heldElsewhere (s : State) (p k : Nat) : Bool :=
  ((s.part p).cores.any fun c => (s.coreAt c).ctx.ops.any (Op.holdsInv k)) || (s.part p).saves.any fun v => v.ctx.ops.any (Op.holdsInv k)

/-- Some access at holder `h` that XINV `k` waits for has not performed. -/
def State.ackHeld (s : State) (h k : Nat) : Bool :=
  if h < 320 then
    ((s.coreAt h).queues.toList.any fun l => l.any fun e => match e with
      | .acc a => a.held.contains k
      | .fence _ _ => false)
    || s.fab.reqs.any fun r => r.core == h && r.acc.held.contains k && r.op.isNone && !r.done
  else
    let hoist := decide (640 ≤ h)
    let c := if hoist then h - 640 else h - 320
    ((s.coreAt c).ctx.ops ++ (s.saved c).flatMap fun v => v.ctx.ops).any (fun o => o.ofHoist == hoist && o.holdsInv k)
      || (!hoist && s.fab.reqs.any fun r => r.core == c && r.acc.held.contains k && r.op.isSome && !r.done)

/-- The leaves of an object, mapped or unmapped and not yet freed. -/
def Part.framesOf (q : Part) (o : Nat) : List Leaf :=
  (q.leaves ++ q.unmapped).filterMap fun l => if l.1 = o then some l.2 else none

/-- The physical frames of an XINV's range. -/
def Part.invFrames (q : Part) (i : Inv) : List Nat :=
  (q.framesOf i.obj).flatMap fun l => (upTo l.frames).filterMap fun n =>
    let x := (l.oframe + n) * 2 ^ 21
    if i.meets i.obj x (2 ^ 21) then some ((l.xlat default false).phys x) else none

/-- The lines that satisfy `f` are dropped, without write-back where they are dirty (R315, R318). -/
def Home.flush (h : Home) (f : Nat → Bool) : Home :=
  { (h.dirty.filter f).foldl Home.drop h with ways := h.ways.filter fun y => !f y.1 }

/-- A line lies in the range of an XINV. -/
def Part.invLine (q : Part) (i : Inv) (l : Nat) : Bool :=
  (q.framesOf i.obj).any fun y => (upTo y.frames).any fun n =>
    let x := (y.oframe + n) * 2 ^ 21
    let a := (y.xlat default false).phys x
    a / 64 ≤ l && l < a / 64 + 2 ^ 15 && i.meets i.obj (x + (l * 64 - a)) 64

/-- A range lies within an XINV's. -/
def Inv.coversPrep (i : Inv) (r : Prep) : Bool :=
  i.obj == r.obj && i.start ≤ r.start && r.start + r.len ≤ i.end && r.stamp ≤ i.id

/-- The core and the place of the operation that waits for an XINV of partition `p`, where a task issued it. -/
def State.invOwner (s : State) (p : Nat) (i : Inv) : Option (Nat × Nat) :=
  let own := fun (o : Op) => match o.kind with
    | .inv p' id _ => p' == p && id == i.id
    | _ => false
  (upTo 320).findSome? fun c => ((s.coreAt c).ctx.ops.findIdx? own).map fun k => (c, k)

/-- R315, R344: the dirty lines `l` of an XINV's range are written back, each charged to its partition and counted for the context
that issued the XINV (R352), as far as the budget goes. -/
def State.invWriteBack (s : State) (p : Nat) (who : Option (Nat × Nat)) : List Nat → State
  | [] => s
  | l :: r =>
    if s.spent p (l * 64) then State.invWriteBack s p who r
    else
      let s := (s.modHome fun h => h.writeBack l).chargeUnit p (l * 64)
      State.invWriteBack (match who with
        | some (c, _) => if (unitOf (l * 64)).isSome then s.countFor c (s.coreAt c).ctx.task.uid 11 1 else s
        | none => s) p who r

/-- R315: an XINV that every holder has acknowledged completes: the lines of the range leave the slices, then its flag word is
written and its token resolves where a task issued it. -/
def State.invDone (s : State) (p : Nat) (i : Inv) : State :=
  let q := s.part p
  let s := if i.mode = 0 then s else s.modHome fun h => h.flush (q.invLine i)
  let s := s.modPart p fun q =>
    { q with invs := q.invs.filter fun j => j.id != i.id,
             revoking := q.revoking.filter fun r => !i.coversPrep r,
             prepared := q.prepared.map fun r => if i.mode != 0 && i.coversPrep r then { r with wb := i.id :: r.wb } else r }
  match s.invOwner p i with
  | none => s
  | some (c, k) =>
    match s.opAt c k with
    | none => s
    | some o =>
      let s := match o.kind with
        | .inv _ _ (some (a, v)) => s.modAt c fun x => x.engWrite a 8 v.toNat
        | _ => s
      s.resolveTok c k o

/-- R119, R120, R315: the flag word of an XINV may be written: no bundle of its core is to perform in the cycle, and in strict
order mode no earlier load is left. -/
def State.invTurn (s : State) (p : Nat) (i : Inv) : Bool :=
  match s.invOwner p i with
  | none => true
  | some (c, k) =>
    match s.opAt c k with
    | none => true
    | some o => match o.kind with
      | .inv _ _ (some _) => s.spadTurn c && !s.opStrict c o
      | _ => true

/-- R315: an XINV that every holder has acknowledged takes its last step, once the write-backs that .wb asks for are done. -/
def State.invFinish (s : State) (p : Nat) (i : Inv) : State :=
  if !(s.part p).holders.all i.acked.contains || s.heldElsewhere p i.id || !s.invTurn p i then s
  else
    let due := fun (s : State) => s.home.dirty.filter ((s.part p).invLine i)
    let s := if i.mode = 1 then s.invWriteBack p (s.invOwner p i) (due s) else s
    if i.mode = 1 && !(due s).isEmpty then s else s.invDone p i

/-- R315: the XINV numbered `id` takes its last step, if it may. -/
def State.resolveInv (s : State) (p id : Nat) : State :=
  match (s.part p).invs.find? fun i => i.id == id with
  | some i => s.invFinish p i
  | none => s

/-- R315: holder `h` acknowledges XINV number `k`, which ends with the last acknowledgement. -/
def execAck (h k : Nat) (s : State) : Out :=
  match s.invAt k with
  | none => .next s
  | some (p, i) =>
    if i.acked.contains h || (s.part p).holders.all i.acked.contains then .next (s.resolveInv p k)
    else if !i.dropped.contains h || s.ackHeld h k then .next s
    else .next ((s.modInv p k fun i => { i with acked := h :: i.acked }).resolveInv p k)

/-- An XINV of Bamosh's own starts; where nothing holds entries it ends at once. -/
def State.bamoshInv (s : State) (p obj start len mode : Nat) : State :=
  (s.newId.invStart p s.fresh obj start len mode).invFinish p
    { id := s.fresh, obj, start, len, mode, dropped := [], acked := [] }

/-- R308, R313: access `k / 4` of queue `k mod 4` of core `c` walks. -/
def execWalk (c k : Nat) (s : State) : Out := .next (s.walkEntry c (k % 4) (k / 4))

/-! ## Leases (R312) -/

/-- A lease entry of a set changed. -/
def Part.modLease (q : Part) (set i : Nat) (f : Lease → Lease) : Part :=
  { q with sets := change q.sets set fun l => changeAt l i f }

/-- R312, steps 1 and 2: entry `i` of lease set `set` is revoked, and Bamosh's XINV over its range starts. -/
def execLeaseRevoke (p set i : Nat) (s : State) : Out :=
  match ((look (s.part p).sets set).getD [])[i]? with
  | none => .next s
  | some e =>
    if !e.valid || e.revoked then .next s
    else
      let r : Prep := { obj := e.obj, start := e.start, len := e.len, stamp := s.fresh, wb := [] }
      .next ((s.modPart p fun q =>
        { q.modLease set i (fun e => { e with revoked := true }) with revoking := q.revoking ++ [r] }).bamoshInv p e.obj
          e.start e.len 0)

/-- R309: a host handle is unbound, and Bamosh's XINV over it starts. -/
def execHostHandleUnbind (p obj : Nat) (s : State) : Out :=
  match (s.part p).obj obj with
  | some o =>
    if o.typ = 4 && o.bound then
      .next ((s.modPart p fun q => { q with objs := change q.objs obj fun o => { o with bound := false } }).bamoshInv p obj 0 0 0)
    else .next s
  | none => .next s

/-! ## Unmapping (R316, R321) -/

/-- A leaf lies inside a range of its object. -/
def Leaf.inside (l : Leaf) (start len : Nat) : Bool :=
  start ≤ l.oframe * 2 ^ 21 && (l.oframe + l.frames) * 2 ^ 21 ≤ start + len

/-- The leaves of an object inside a range become unmapped. -/
def Part.unmapRange (q : Part) (obj start len : Nat) : Part :=
  let out := fun (l : Nat × Leaf) => l.1 == obj && l.2.inside start len
  { q with leaves := q.leaves.filter fun l => !out l, unmapped := q.unmapped ++ q.leaves.filter out }

/-- Two ranges meet. -/
def rangesMeet (a n b m : Nat) : Bool := a < b + m && b < a + n

/-- A context runs code of object `obj` in a range: its code capability reaches into it (R218). -/
def Ctx.runsIn (x : Ctx) (obj start len : Nat) : Bool := x.code.obj == obj && rangesMeet x.code.base x.code.len start len

/-- R218: a context that holds lease set `set` still fetches from a range, whose execute right may be revoked: its safe point
has not come. -/
def State.fetchesIn (s : State) (p set obj start len : Nat) : Bool :=
  s.cores.toList.any (fun k => k.holds p && k.ctx.task.lease == set && k.ctx.runsIn obj start len)
    || (s.part p).saves.any fun v => v.ctx.task.lease == set && v.ctx.runsIn obj start len

/-- R218, R311: a lease that some task holds stands over a range of an object; a revoked one stands over code that is still
fetched. -/
def State.leasedOver (s : State) (p obj start len : Nat) : Bool :=
  (s.part p).sets.any fun x => x.2.any fun e =>
    e.valid && e.obj == obj && rangesMeet e.start e.len start len
      && (if e.revoked then e.x && s.fetchesIn p x.1 obj start len else s.setHeld p x.1)

/-- A range of an object meets one of a list. -/
def prepMeets (l : List Prep) (obj start len : Nat) : Bool := l.any fun r => r.obj == obj && rangesMeet r.start r.len start len

/-- The frames of a range, prepared together. -/
def prepFrames (obj start len stamp : Nat) : List Prep :=
  (upTo (len / 2 ^ 21)).map fun i => { obj, start := start + i * 2 ^ 21, len := 2 ^ 21, stamp, wb := [] }

/-- The prepared frames of a range. -/
def Part.prepIn (q : Part) (obj start len : Nat) : List Prep :=
  q.prepared.filter fun r => r.obj == obj && start ≤ r.start && r.start + r.len ≤ start + len

/-- R316, R321: every frame of a range is prepared, and one XINV with a write-back or discard has completed over them all. -/
def Part.freeable (q : Part) (obj start len : Nat) : Bool :=
  let l := q.prepIn obj start len
  start % 2 ^ 21 == 0 && len % 2 ^ 21 == 0 && 0 < len && l.length == len / 2 ^ 21
    && (match l with
      | [] => false
      | r :: _ => r.wb.any fun x => l.all fun y => y.wb.contains x)

/-- R218, R316, R321: a range may be freed: it is freeable, and no code of it is still fetched under its lease. -/
def State.freeOk (s : State) (p obj start len : Nat) : Bool := (s.part p).freeable obj start len && !s.leasedOver p obj start len

/-- The frames of an unmapped range return to the pool. -/
def Part.freeRange (q : Part) (obj start len : Nat) : Part :=
  { q with unmapped := q.unmapped.filter fun l => !(l.1 == obj && l.2.inside start len),
           prepared := q.prepared.filter fun r => !(r.obj == obj && start ≤ r.start && r.start + r.len ≤ start + len) }

/-- R316: Bamosh unmaps a range that no lease covers, and over which no revocation waits for its XINV: it removes the leaves
and issues XINV .wb; once that is done it frees the frames. -/
def execUnmap (p obj start len : Nat) (s : State) : Out :=
  let q := s.part p
  if s.freeOk p obj start len then .next (s.modPart p fun q => q.freeRange obj start len)
  else if start % 2 ^ 21 != 0 || len % 2 ^ 21 != 0 || len = 0 || s.leasedOver p obj start len || prepMeets q.revoking obj start len
      || prepMeets q.prepared obj start len then .next s
  else
    .next ((s.modPart p fun q =>
      { q.unmapRange obj start len with prepared := q.prepared ++ prepFrames obj start len s.fresh }).bamoshInv p obj start len 1)

/-- The operands of a service of R321: partition, object, start and length. -/
def svcRange : List DWord → Nat × Nat × Nat × Nat
  | _ :: a :: b :: c :: _ => ((a.extractLsb' 24 4).toNat, (a.extractLsb' 0 24).toNat, b.toNat, c.toNat)
  | _ => (0, 0, 0, 0)

/-- The request of a privileged context for service `n`, with its operands. -/
def Ctx.asks (x : Ctx) (n : Nat) : Option (Nat × Nat × Nat × Nat) :=
  match x.pipe.svc with
  | some (m :: l) => if m.toNat = n && x.sys.priv then some (svcRange (m :: l)) else none
  | _ => none

/-- R321: a range cannot be prepared: it is misaligned, a frame of it is not covered by a single-frame leaf, or a
preparation over it is outstanding. -/
def Part.unpreparable (q : Part) (obj start len : Nat) : Bool :=
  start % 2 ^ 21 != 0 || len % 2 ^ 21 != 0 || len == 0 || prepMeets q.prepared obj start len
    || !(upTo (len / 2 ^ 21)).all fun i => match q.leaf obj (start + i * 2 ^ 21) with
      | some l => !l.tile
      | none => false

/-- R321: every lease over the range is revoked, and its leaves are removed. -/
def Part.prepare (q : Part) (obj start len stamp : Nat) : Part :=
  let meets := fun (e : Lease) => e.obj == obj && rangesMeet e.start e.len start len
  let hit := fun (e : Lease) => e.valid && !e.revoked && meets e
  let rs := q.sets.flatMap fun (x : Nat × List Lease) => (x.2.filter hit).map fun e =>
    ({ obj, start := max e.start start, len := min (e.start + e.len) (start + len) - max e.start start, stamp,
       wb := [], whole := some (e.start, e.len) } : Prep)
  let q := { q with sets := q.sets.map fun (x : Nat × List Lease) => (x.1, x.2.map fun e => if meets e then { e with revoked := true } else e),
                    revoking := q.revoking ++ rs }
  { q.unmapRange obj start len with prepared := q.prepared ++ prepFrames obj start len stamp }

/-- R321, service 0x40, for a context on a core or saved. -/
def execUnmapPreparation (c : Nat) (s : State) : Out :=
  match (s.svcCtx c).bind fun x => x.asks 0x40 with
  | none => .next s
  | some (p, obj, start, len) =>
    if 12 ≤ p || (s.part p).unpreparable obj start len then .next (s.onSvc c (Ctx.answer 1))
    else .next ((s.modPart p fun q => q.prepare obj start len s.fresh).onSvc c (Ctx.answer 0))

/-- R321, service 0x41, for a context on a core or saved. -/
def execUnmapFree (c : Nat) (s : State) : Out :=
  match (s.svcCtx c).bind fun x => x.asks 0x41 with
  | none => .next s
  | some (p, obj, start, len) =>
    if s.freeOk p obj start len then
      .next ((s.modPart p fun q => q.freeRange obj start len).onSvc c (Ctx.answer 0))
    else .next (s.onSvc c (Ctx.answer 1))

/-! ## Arenas (R317, R318) -/

/-- The frames of a partition's pool that nothing uses and that an arena may take, lowest first: none of the weight store
(R306). -/
def Part.freeFrames (q : Part) : List Nat :=
  let used := (q.leaves ++ q.unmapped).flatMap fun l => (upTo l.2.frames).map fun n =>
    frameKey ((l.2.xlat default false).phys ((l.2.oframe + n) * 2 ^ 21))
  q.grant.frames.filter fun f => !used.contains f && f / 2 ^ 24 != 2

/-- The single-frame leaves that map frames from object frame `i` on. -/
def arenaLeaves (obj gen : Nat) : Nat → List Nat → List (Nat × Leaf)
  | _, [] => []
  | i, f :: l =>
    (obj, { oframe := i, tile := false, layout := 0, cls := f / 2 ^ 24, arena := true, gen, pframe := f % 2 ^ 24, n0m1 := 0,
            n1m1 := 0, n2m1 := 0, str1 := 0, str2 := 0 }) :: arenaLeaves obj gen (i + 1) l

/-- R317: the handle of an arena. -/
def arenaCap (obj gen size : Nat) : Cap := Cap.mk obj gen 0x7B 1 0 (size / 64)

/-- R317: the handle written into the capability lists that the launch marks. -/
def Part.giveArena (q : Part) (l : Launch) (obj : Nat) (c : Cap) : Part :=
  (l.arenas.filter fun a => a.1 == obj).foldl (fun q a =>
    { q with capls := change q.capls a.2.1 fun x => changeAt x a.2.2 fun _ => c }) q

/-- R317: the arena of record `rec` is born once the record has left IDLE: its object, its leaves on the lowest free
frames of the pool, its handles and its frame generations. -/
def execArenaBirth (p rec : Nat) (s : State) : Out :=
  let q := s.part p
  match q.getRec rec with
  | none => .next s
  | some r =>
    match s.launchAt p r.launch, look q.objs r.arena with
    | some l, some o =>
      let n := (o.size + 2 ^ 21 - 1) / 2 ^ 21
      let fs := q.freeFrames.take n
      if r.arena = 0 || r.state = .idle || !r.state.live || o.valid || o.gen ≥ 4095 || fs.length < n
          || prepMeets q.prepared r.arena 0 (2 ^ 48) then .next s
      else
        let g := o.gen + 1
        let s := s.modHome fun h => fs.foldl (fun h f => { h.zeroFrame f with gens := put h.gens f g }) h
        .next (s.modPart p fun q =>
          { q.giveArena l r.arena (arenaCap r.arena g o.size) with
            objs := change q.objs r.arena fun o => { o with valid := true, arena := true, typ := 1, gen := g },
            leaves := q.leaves ++ arenaLeaves r.arena g 0 fs })
    | _, _ => .next s

/-- R318, R355: a record has reached its end: RETIRED, CANCELLED, or FAILED with its job or its arena abandoned. -/
def Rec.ended (r : Rec) : Bool := r.state == .retired || r.state == .cancelled || (r.state == .failed && r.abandoned)

/-- R318, R355: every record below record `n` has reached its end. The first argument bounds the depth. -/
def Part.subtreeOver (q : Part) : Nat → Nat → Bool
  | 0, _ => true
  | f + 1, n => q.recs.all fun r => r.2.parent != some n || (r.2.ended && q.subtreeOver f r.1)

/-- R318: the arena of record `n` may die: the record has retired, been cancelled, or failed and been abandoned, and its subtree is
over. -/
def Part.arenaOver (q : Part) (n : Nat) (r : Rec) : Bool := r.ended && q.subtreeOver q.recs.length n

/-- R318, steps 1 to 3: the arena of record `rec` is bumped at its object and its homes, its lines are dropped, and
Bamosh's XINV .discard over it starts. -/
def execArenaDeath (p rec : Nat) (s : State) : Out :=
  let q := s.part p
  match q.getRec rec with
  | none => .next s
  | some r =>
    match q.obj r.arena with
    | none => .next s
    | some o =>
      if r.arena = 0 || !o.arena || !q.arenaOver rec r || q.dying.any fun d => d.1 == r.arena then .next s
      else
        let id := s.fresh
        let i : Inv := { (default : Inv) with obj := r.arena }
        let fs := (q.invFrames i).map frameKey
        let s := s.modHome fun h =>
          { h.flush (fun l => fs.contains (l / 2 ^ 15)) with
            gens := h.gens.map fun g => if fs.contains g.1 then (g.1, g.2 + 1) else g }
        .next ((s.modPart p fun q =>
          { q with objs := change q.objs r.arena fun o => { o with gen := o.gen + 1 }, dying := (r.arena, id) :: q.dying }
            ).bamoshInv p r.arena 0 0 2)

/-- R318, step 4: the frames of a dead arena return to the pool, once every holder has acknowledged. -/
def execFree (p rec : Nat) (s : State) : Out :=
  let q := s.part p
  match q.getRec rec with
  | none => .next s
  | some r =>
    match q.dying.find? fun d => d.1 == r.arena with
    | none => .next s
    | some (o, id) =>
      if q.invs.any fun i => i.id == id then .next s
      else
        let fs := (q.invFrames { (default : Inv) with obj := o }).map frameKey
        let s := s.modHome fun h => { h with gens := h.gens.filter fun g => !fs.contains g.1 }
        .next (s.modPart p fun q =>
          { q with leaves := q.leaves.filter fun l => l.1 != o, dying := q.dying.filter fun d => d.1 != o,
                   objs := change q.objs o fun x => { x with valid := false, arena := false } })

/-- R318, R370: Bamosh abandons the job of a failed record: what still waits to re-execute takes the next path of R370,
and the arenas of the job's failed records may die. -/
def execJobAbandon (p rec : Nat) (s : State) : Out :=
  match (s.part p).getRec rec with
  | none => .next s
  | some r =>
    if r.state ≠ .failed then .next s
    else if r.repair.isSome then .next (s.failOrSerial p rec r.job r.launch false)
    else
      .next (s.modPart p fun q =>
        { q.failJob r.job with recs := q.recs.map fun x =>
          if x.2.job = r.job && x.2.state = .failed then (x.1, { x.2 with abandoned := true }) else x })

end Sys2Proof.Machine
end

