-- ==== Sys2Proof/Machine/Partition.lean ====
section
/-! DEFINITION. Partitions: what Bamosh grants and takes back (R341, R346, R347), its table changes (R303, R304, R310,
R320), the tick of memory shares (R344), and power and heat (R345, R373). -/

namespace Sys2Proof.Machine

open Sys2Proof

/-! ## Frames (R306) -/

/-- The unit of a frame: its class, and its stack, port or die. -/
def frameUnit (f : Nat) : Nat × Nat :=
  let p := f % 2 ^ 24
  match f / 2 ^ 24 with
  | 0 => (0, p / 2 ^ 15)
  | 1 => (1, p / 2 ^ 19)
  | c => (c, p / 2 ^ 9)

/-- A frame exists. -/
def frameReal (f : Nat) : Bool :=
  let p := f % 2 ^ 24
  match frameUnit f with
  | (0, u) => u < 12
  | (1, u) => u < 8 && p % 2 ^ 19 ≤ 393215
  | (2, u) => u < 4
  | _ => false

/-- R363: a home slice of a die has failed. A slice is a fixed function of a line's address (R233), so every frame that is homed
on the die has lines there. -/
def Device.slicesFail (d : Device) (die : Nat) : Bool := d.defects.any fun u => match u with
  | .slice x _ => x == die
  | _ => false

/-- Reduced service serves only the weight store of die 0 (R365), a stack serves once it is in service (R364), and HBM and the
second tier need every home slice of their die (R363). -/
def State.frameServed (s : State) (f : Nat) : Bool :=
  let slices := !s.dev.slicesFail (homeDie (f * 2 ^ 21))
  match frameUnit f with
  | (0, u) => !s.reduced && s.dev.status.getLsbD (4 + u) && slices
  | (1, u) => !s.reduced && !s.dev.defects.contains (.port u) && slices
  | (_, u) => (!s.reduced || u == 0) && !s.dev.defects.contains (.wstore u)

/-- The device is in service, reduced or full. -/
def State.serving (s : State) : Bool := !s.dev.halted && (s.dev.status.getLsbD 0 || s.dev.status.getLsbD 1)

/-! ## Grants (R341) -/

/-- Two lists share an element. -/
def meet (l m : List Nat) : Bool := l.any fun x => m.contains x

/-- The partitions bound, but `p`. -/
def State.others (s : State) (p : Nat) : List Part :=
  ((upTo 12).filter fun i => i != p && (s.part i).bound).map fun i => s.part i

/-- R341: the quads of a grant exist, serve, and belong to no other partition; no core of them is off (R28). -/
def State.quadsOk (s : State) (p : Nat) (g : Grant) : Bool :=
  decide g.quads.Nodup && g.quads.all fun q =>
    q < 80 && (!s.reduced || q < 20) && q % 20 < ((s.dev.enabled[q / 20]?).getD []).length
      && (upTo 4).all (fun i => !(s.coreAt (4 * q + i)).engmap.getLsbD 14)
      && (s.others p).all fun o => !o.grant.quads.contains q

/-- R341, R346: the frames are served, and disjoint from other partitions'; a die that homes one has a way. -/
def State.framesOk (s : State) (p : Nat) (g : Grant) : Bool :=
  decide g.frames.Nodup && g.frames.all fun f =>
    frameReal f && s.frameServed f && (g.ways[homeDie (f * 2 ^ 21)]?).getD 0 != 0
      && (s.others p).all fun o => !o.grant.frames.contains f

/-- R341, R344: the shares on one unit sum to at most 64. -/
def State.sharesOk (s : State) (p : Nat) (g : Grant) : Bool :=
  (upTo 20).all fun u => ((s.others p).map fun o => (look o.grant.shares u).getD 0).foldl (· + ·)
    ((look g.shares u).getD 0) ≤ 64

/-- R325, R341: at most 16 streams in total per hoist; none in reduced service (R365). -/
def State.streamsOk (s : State) (p : Nat) (g : Grant) : Bool :=
  (upTo 12).all fun h =>
    let n := (g.streams[h]?).getD 0
    ((s.others p).map fun o => (o.grant.streams[h]?).getD 0).foldl (· + ·) n ≤ 16 && (!s.reduced || n == 0)

/-- R347: the ways of a die that a change under way has taken from a partition and not yet handed over. -/
def Part.passing (q : Part) (die : Nat) : BitVec 16 :=
  match q.shift with
  | some (d, m, _, _) => if d = die then m else 0
  | none => 0

/-- R341, R346: on each die, the ways of two partitions are disjoint, and hold the pinned record region. -/
def State.waysOk (s : State) (p : Nat) (g : Grant) : Bool :=
  let q : Part := { Part.reset with grant := g }
  (upTo 4).all fun d => q.pinFits d
    && (s.others p).all fun o => (o.waysOn d ||| o.passing d) &&& q.waysOn d == 0

/-- R230, R341: a multicast group is up to 64 of the partition's cores on its die. -/
def mcastOk (g : Grant) : Bool :=
  g.mcast.all fun x => x.1 < 4 && x.2.length ≤ 64 && decide x.2.Nodup
    && x.2.all fun c => c / 80 == x.1 && g.quads.contains (c / 4)

/-- R341: a grant that Bamosh may make to partition `p`. -/
def State.grantOk (s : State) (p : Nat) (g : Grant) : Bool :=
  s.quadsOk p g && s.framesOk p g && s.sharesOk p g && s.streamsOk p g && s.waysOk p g && mcastOk g
    && g.recs ≤ 65536 && g.podBars.isEmpty && g.queues.all (fun q => q < 256) && g.dieBars.all (fun b => b < 256)
    && g.pkgBars.all (fun b => b < 16) && g.frames.contains g.traceFrame && 0 < g.traceObj && g.traceObj < 2 ^ 24 && 0 < g.traceCap && g.traceCap < 32768
    && (s.others p).all fun o =>
      !(meet o.grant.queues g.queues || meet o.grant.dieBars g.dieBars || meet o.grant.pkgBars g.pkgBars)

/-- The leaf that maps one frame at object frame `i`. -/
def frameLeaf (i f layout gen : Nat) (arena : Bool) : Leaf :=
  { oframe := i, tile := false, layout, cls := f / 2 ^ 24, arena, gen, pframe := f % 2 ^ 24, n0m1 := 0, n1m1 := 0,
    n2m1 := 0, str1 := 0, str2 := 0 }

/-- A partition as its bind leaves it: every record absent, and an empty trace buffer (R248, R350). -/
def Part.ofGrant (g : Grant) : Part :=
  let o : Obj := { (default : Obj) with valid := true, typ := if g.traceFrame / 2 ^ 24 = 2 then 2 else 0, size := 2 ^ 21 }
  { Part.reset with
    bound := true, grant := g, objs := [(g.traceObj, o)], leaves := [(g.traceObj, frameLeaf 0 g.traceFrame 0 0 false)],
    mcast := g.mcast, killOn := g.killOn, trace := { obj := g.traceObj, waiting := [] } }

/-- The barriers that a grant names, as they are before their first phase. -/
def State.clearBars (s : State) (g : Grant) : State :=
  let s := g.quads.foldl (fun s q => (upTo 16).foldl (fun s n => s.modBar 2 (q * 16 + n) fun _ => default) s) s
  let s := g.dieBars.foldl (fun s i => s.modBar 3 i fun _ => default) s
  let s := g.pkgBars.foldl (fun s i => s.modBar 4 i fun _ => default) s
  g.podBars.foldl (fun s i => s.modBar 5 i fun _ => default) s

/-- A core as it passes between partitions: nothing of the last one's translations, lines or schedule is left. -/
def Core.handOver (c : Core) : Core :=
  { c.dropL1 with xcache := [], lid := 0, steals := [], att := 0, cancel := false, stealDue := false, entry := none,
                  lastCtx := none, lastRet := false }

/-- R341: Bamosh binds partition `p` with grant `g`. -/
def execPartitionBind (p : Nat) (g : Grant) (s : State) : Out :=
  if 12 ≤ p || (s.part p).bound || !s.serving || !s.grantOk p g then .next s
  else
    let s := (s.modPart p fun _ => Part.ofGrant g).clearBars g
    let s := s.modHome fun h => h.zeroFrame g.traceFrame
    let s := (s.part p).cores.foldl (fun s c => s.modAt c Core.handOver) s
    .next (s.agentWrite p g.traceObj 16 [BitVec.ofNat 64 g.traceCap])

/-- Nothing is on a core: no context, no entry, and nothing that one has left to perform. -/
def Core.clear (k : Core) : Bool :=
  k.run == .idle && k.spawnAt.isNone && k.entry.isNone && k.orphans.isEmpty && k.hits.isEmpty && k.queues.toList.all fun l => l.isEmpty

/-- Something of partition `p` is still under way. -/
def State.partBusy (s : State) (p : Nat) : Bool :=
  (s.part p).shift.isSome || !(s.part p).invs.isEmpty || !(s.part p).dying.isEmpty || !(s.part p).trace.waiting.isEmpty
    || !(s.part p).kids.isEmpty || !(s.part p).cores.all fun c => (s.coreAt c).clear

/-- R341: Bamosh unbinds partition `p`, once nothing of it is under way; what it held is free again. -/
def execPartitionUnbind (p : Nat) (s : State) : Out :=
  if !(s.part p).bound || s.partBusy p then .next s
  else
    let q := s.part p
    let s := q.cores.foldl (fun s c => s.modAt c Core.handOver) s
    let e := s.fab.exports.filter fun e => e.part != p
    .next ({ s with fab := { s.fab with exports := e } } |>.modPart p fun _ => Part.reset)

/-! ## Cache ways (R346, R347) -/

/-- A partition's grant with ways `m` on a die. -/
def Part.setWays (q : Part) (die : Nat) (m : BitVec 16) : Part :=
  let l := (upTo 4).map fun d => if d = die then m else (q.grant.ways[d]?).getD 0
  { q with grant := { q.grant with ways := l } }

/-- R347, step 1: partition `p` gives up the ways `m` of a die for partition `q`: new lines enter the ways it keeps, and those in
the lost ways are still to take. -/
def State.shiftWays (s : State) (p q die : Nat) (m : BitVec 16) : State :=
  s.modPart p fun y => { y.setWays die (y.waysOn die &&& ~~~m) with
    shift := some (die, m, q, (s.home.inWays die m).map fun x => x.1) }

/-- R347, step 2: the lines `l` of the lost ways are written back where they are dirty, each charged to partition `p` and waiting
while its budget is spent, and leave. -/
def State.takeLost (s : State) (p : Nat) : List Nat → State
  | [] => s
  | l :: r =>
    if s.home.dirty.contains l && s.spent p (l * 64) then State.takeLost s p r
    else
      State.takeLost (((s.backLine p l).modHome fun h => h.leaveWay l).modPart p fun y => { y with shift := y.shift.map fun x =>
        (x.1, x.2.1, x.2.2.1, x.2.2.2.filter fun k => k != l) }) p r

/-- R347, step 3: the ways pass to the gaining partition, and both trace buffers are told; die, old mask and new mask of R350 take a
64-bit word each (log entry 165). -/
def State.handWays (s : State) (p q die : Nat) (m : BitVec 16) : State :=
  let kept := (s.part p).waysOn die
  let b := (s.part q).waysOn die
  let s := (s.modPart p fun y => { y with shift := none }).modPart q fun y => y.setWays die (b ||| m)
  let s := s.traceAdd p 5 0xFFFF [BitVec.ofNat 64 die, (kept ||| m).setWidth 64, kept.setWidth 64, 0]
  s.traceAdd q 5 0xFFFF [BitVec.ofNat 64 die, b.setWidth 64, (b ||| m).setWidth 64, 0]

/-- R347: partition `p` hands the ways `m` of a die to partition `q`: a first step stops their allocation, others take the lines
that stand in them, `lines` at a time, and the last hands them over. -/
def execWayMaskChange (p q die : Nat) (m : BitVec 16) (lines : List Nat) (s : State) : Out :=
  let a := s.part p
  let b := s.part q
  let old := a.waysOn die
  let kept := old &&& ~~~m
  let homed := a.grant.frames.any fun f => homeDie (f * 2 ^ 21) == die
  match a.shift with
  | none =>
    let after := a.setWays die kept
    if p = q || 12 ≤ p || 12 ≤ q || 4 ≤ die || !a.bound || !b.bound || m &&& old ≠ m || m = 0 || (homed && kept = 0)
        || !(upTo 4).all after.pinFits then .next s
    else .next (s.shiftWays p q die m)
  | some (d, n, r, left) =>
    if d ≠ die || n ≠ m || r ≠ q || !b.bound then .next s
    else if left.isEmpty then .next (s.handWays p q die m)
    else .next (s.takeLost p (lines.filter left.contains))

/-! ## Ticks, power and heat (R344, R345, R373) -/

/-- R259, R344, R350: FRC ticks: each partition's budget begins anew, the tick event bit of every context is set, and Bamosh
puts what waits for room into the trace buffers. -/
def execFrcTick (s : State) : Out :=
  if s.ticked = s.frc then .next s
  else
    let s := { s with ticked := s.frc, parts := s.parts.map fun (q : Part) => { q with charges := [] } }
    let s := (upTo 12).foldl (fun s p => match (s.part p).trace.waiting with
      | [] => s
      | l => s.traceFlush p l) s
    .next (s.modAll fun k => let k := k.wake; { k with ctx := { k.ctx with pipe := { k.ctx.pipe with tick := true } } })

/-- R373: the dies over the limit that holds issue: at 95 degrees, and from then on until below 90. -/
def hotDies (old : List Nat) (t : List Nat) : List Nat :=
  (upTo 4).filter fun d => let x := (t[d]?).getD 0; 95 ≤ x || (old.contains d && 90 ≤ x)

/-- R373: a sample of the package power (its 10 ms average, in watts) and of the temperatures of dies and stacks. Over
a limit that holds issue, each partition's cores are held for `hold` cycles for each of its quads; a stack over its limit
has its accesses held; a die at 110 degrees halts the device. -/
def execPowerSample (watts : Nat) (dies hbms : List Nat) (hold : Nat) (s : State) : Out :=
  if dies.any fun t => 110 ≤ t then
    let s := s.modAll fun k => match k.run with
      | .running => k.quickStop 4
      | _ => k
    .next { s with dev := { s.dev with halted := true, status := s.dev.status ||| 4 } }
  else
    let hot := hotDies s.dev.hot dies
    let s := { s with dev := { s.dev with hot, hotStk := (upTo 12).filter fun i => 95 ≤ (hbms[i]?).getD 0 } }
    let due := s.dev.plim < watts || !hot.isEmpty
    let f := fun (q : Part) => { q with power := if due then hold * q.grant.quads.length else 0 }
    .next { s with parts := s.parts.map f }

/-! ## Table changes (R303, R304, R310, R320) -/

/-- R303: an object-table entry from its words. -/
def Obj.ofWords (v : List DWord) : Obj :=
  let w := fun (i : Nat) => (v[i]?).getD 0
  let f := fun (i a n : Nat) => ((w i).extractLsb' a n).toNat
  { valid := (w 0).getLsbD 0, arena := (w 0).getLsbD 1, bound := (w 0).getLsbD 2, typ := f 0 4 4, gen := f 0 8 12,
    size := f 0 32 32 + f 1 0 16 * 2 ^ 32, pkg := f 2 0 12, rmtobj := f 2 12 24, hostva := (w 2).toNat,
    hostlen := (w 3).toNat }

/-- R304: a leaf from its words. -/
def Leaf.ofWords (v : List DWord) : Leaf :=
  let w := fun (i : Nat) => (v[i]?).getD 0
  let f := fun (i a n : Nat) => ((w i).extractLsb' a n).toNat
  { oframe := f 0 0 27, tile := (w 0).getLsbD 27, layout := f 0 28 4, cls := f 0 32 2, arena := (w 0).getLsbD 34,
    gen := f 0 36 12, pframe := f 0 48 16 + f 1 0 8 * 2 ^ 16, n0m1 := f 1 8 10, n1m1 := f 1 18 10, n2m1 := f 1 28 10,
    str1 := f 2 0 24, str2 := f 2 24 24 }

/-- R310: a lease entry from its words. -/
def Lease.ofWords (v : List DWord) : Lease :=
  let w := fun (i : Nat) => (v[i]?).getD 0
  let f := fun (i a n : Nat) => ((w i).extractLsb' a n).toNat
  { obj := f 0 0 24, valid := (w 0).getLsbD 24, w := (w 0).getLsbD 25, x := (w 0).getLsbD 26,
    revoked := (w 0).getLsbD 27, start := f 0 32 32 + f 1 0 16 * 2 ^ 32, len := f 1 16 48 }

/-- The kinds that leaves map (R303, R304). -/
def mapped (typ : Nat) : Bool := typ = 0 || typ = 1 || typ = 2 || typ = 5

/-- R303: Bamosh may write entry `x` for object `n`: a number returns to use with GEN one above the last, and never past
4,095; an arena comes only by its birth. An object under a granted lease keeps its entry (R311, R316), and a remote one that exists
keeps the object that it names (R378). -/
def State.entryOk (s : State) (p n : Nat) (x : Obj) : Bool :=
  0 < n && n < 2 ^ 24 && x.typ < 6 && !x.arena && (!mapped x.typ || x.size % 2 ^ 21 == 0) && (x.typ == 4 || !x.bound)
    && (!s.reduced || x.typ == 2 || x.typ == 5 || !x.valid)
    && (match look (s.part p).objs n with
      | none => true
      | some o => if x.valid && !o.valid then o.gen < 4095 && x.gen == o.gen + 1
        else x.gen == o.gen && x.typ == o.typ && (x.valid || !o.valid || !s.leasedOver p n 0 (2 ^ 48))
          && (!o.valid || x.typ != 3 || x.pkg == o.pkg && x.rmtobj == o.rmtobj))

/-- The frames that a leaf reaches. -/
def Leaf.keys (l : Leaf) : List Nat :=
  (upTo l.frames).map fun i => frameKey ((l.xlat default false).phys ((l.oframe + i) * 2 ^ 21))

/-- The frames of the partition that some leaf maps, or that an unmap has not yet freed. -/
def Part.usedFrames (q : Part) : List Nat := (q.leaves ++ q.unmapped).flatMap fun l => l.2.keys

/-- R304, R306, R365: leaf `l` fits object `n`, and its frames serve, are of the pool, of one unit and not in use. Only objects of
TYPE 2 take the weight store's frames, but in reduced service, which has no other memory, code stands there too (log entry
138). -/
def State.leafFits (s : State) (p n : Nat) (l : Leaf) : Bool :=
  let q := s.part p
  let ks := l.keys
  let a := l.oframe * 2 ^ 21
  let z := (l.oframe + l.frames) * 2 ^ 21
  match q.obj n with
  | none => false
  | some o =>
    mapped o.typ && l.arena == o.arena && l.gen == o.gen && l.layout ≤ 4 && z ≤ o.size && (l.cls == 2) == (o.typ == 2 || o.typ == 5 && s.reduced)
      && ks.all (fun f => frameReal f && s.frameServed f && q.grant.frames.contains f && !q.usedFrames.contains f)
      && decide ((ks.map frameUnit).eraseDups.length ≤ 1) && decide ks.Nodup
      && !(q.leaves.any fun y => y.1 == n && y.2.oframe * 2 ^ 21 < z && a < (y.2.oframe + y.2.frames) * 2 ^ 21)

/-- R321: Bamosh may map leaf `l` of object `n`: no range that is prepared lies under it. -/
def State.leafOk (s : State) (p n : Nat) (l : Leaf) : Bool :=
  s.leafFits p n l && !prepMeets (s.part p).prepared n (l.oframe * 2 ^ 21) (l.frames * 2 ^ 21)

/-- R234, R369: a frame is mapped: the tags of its lines are zero, and none is lost. -/
def Home.mapFrame (h : Home) (f : Nat) : Home :=
  { h with ways := h.ways.filter fun y => y.1 / 2 ^ 15 != f, tags := h.tags.filter fun t => t.1 / 2 ^ 15 != f, lost := h.lost.filter fun l => l / 2 ^ 15 != f }

/-- R310, R321: Bamosh may write lease entry `e`: no context holds the set, and no prepared range lies under it. -/
def State.leaseOk (s : State) (p set i : Nat) (e : Lease) : Bool :=
  set < 65536 && i < 16 && !e.revoked && e.start % 2 ^ 21 == 0 && e.len % 2 ^ 21 == 0 && (!e.valid || 0 < e.len)
    && !prepMeets (s.part p).prepared e.obj e.start e.len && !s.setHeld p set

/-- A list of 16 lease entries with entry `i` set. -/
def setLease (l : List Lease) (i : Nat) (e : Lease) : List Lease :=
  (upTo 16).map fun j => if j = i then e else (l[j]?).getD default

/-- R378: an access that went by remote object `n` is still to perform: in a queue, of an operation, or in the fabric. -/
def State.remoteInUse (s : State) (p n : Nat) : Bool :=
  s.cores.toList.any (fun k => k.queues.toList.any (fun l => l.any fun e => match e with
      | .acc a => a.via.part == p && a.via.obj == n
      | .fence _ _ => false)
    || k.ctx.ops.any fun o => o.payload.any fun y => y.2.2.2.1.part == p && y.2.2.2.1.obj == n)
  || s.fab.reqs.any fun r => r.acc.via.part == p && r.acc.via.obj == n

/-- R378, R379: an export of the remote object that local object `n` names, from its words: TYPE, SIZE, GEN at PKG, START,
LENGTH, and bit 0 VALID and bit 1 granted. GEN at PKG changes only as the number is used anew, which is after this package has
cleared the entry that names it and its accesses have performed: the new entry then has a new export, which records GEN. Two local
objects that name one object share its home. -/
def State.setExport (s : State) (p n : Nat) (o : Obj) (v : List DWord) : State :=
  let w := fun (i : Nat) => ((v[i]?).getD 0)
  let twin := s.fab.exports.find? fun e => e.part == p && e.pkg == o.pkg && e.obj == o.rmtobj
  let fresh : Export := { pkg := o.pkg, obj := o.rmtobj, lobj := n, part := p, valid := false, gen := (w 2).toNat,
                          ogen := (w 2).toNat, typ := 0, size := 0, start := 0, len := 0, ok := false,
                          mem := (twin.map fun e => e.mem).getD [], tags := (twin.map fun e => e.tags).getD [],
                          lost := (twin.map fun e => e.lost).getD [] }
  let old := (s.fab.exports.find? fun e => e.part == p && e.lobj == n).filter fun e => e.pkg == o.pkg && e.obj == o.rmtobj
  let e := old.getD fresh
  if (w 2).toNat ≠ e.ogen || (old.isNone && s.remoteInUse p n) then s
  else
    let e := { e with typ := (w 0).toNat, size := (w 1).toNat, start := (w 3).toNat, len := (w 4).toNat,
                      valid := (w 5).getLsbD 0, ok := (w 5).getLsbD 1 }
    { s with fab := { s.fab with exports := e :: s.fab.exports.filter fun x => !(x.part == p && x.lobj == n) } }

/-! ## Residency (R154, R311, R316) -/

/-- Bytes of a migrated frame: those of frame `f`, with its tags and its lost lines, stand in frame `g` (R234, R316, log entry 160). -/
def Home.moveFrame (h : Home) (f g : Nat) : Home :=
  let tags := (h.tags.filter fun t => t.1 / 2 ^ 15 == f).map fun t => (t.1 - f * 2 ^ 15 + g * 2 ^ 15, t.2)
  let lost := (h.lost.filter fun l => l / 2 ^ 15 == f).map fun l => l - f * 2 ^ 15 + g * 2 ^ 15
  let h := h.fillFrame g (h.mem.frame (f * 2 ^ 21))
  { h with tags := h.tags ++ tags, lost := h.lost ++ lost }

/-- The frame that held object frame `i` of object `n` before its range was prepared. -/
def Part.oldFrame (q : Part) (n i : Nat) : Option Nat :=
  (q.unmapped.find? fun y => y.1 == n && y.2.covers (i * 2 ^ 21)).map fun y => frameKey ((y.2.xlat default false).phys (i * 2 ^ 21))

/-- R316: migration of a prepared range: its frames are copied to those of leaf `l`, which maps them in place of the old
leaves. -/
def State.migrate (s : State) (p n : Nat) (l : Leaf) : State :=
  let q := s.part p
  let s := (upTo l.frames).foldl (fun s i => match q.oldFrame n (l.oframe + i), l.keys[i]? with
    | some f, some g => s.modHome fun h => h.moveFrame f g
    | _, _ => s) s
  s.modPart p fun q => { q.freeRange n (l.oframe * 2 ^ 21) (l.frames * 2 ^ 21) with leaves := q.leaves ++ [(n, l)] }

/-- R311: the frames of a prepared range go to storage, and return to the pool. -/
def State.evict (s : State) (p n start len : Nat) : State :=
  let q := s.part p
  let out := (upTo (len / 2 ^ 21)).filterMap fun i =>
    let x := start / 2 ^ 21 + i
    (q.oldFrame n x).map fun f => (n, x, s.home.mem.frame (f * 2 ^ 21))
  s.modPart p fun q => { q.freeRange n start len with
    stored := out ++ q.stored.filter fun y => !(y.1 == n && start / 2 ^ 21 ≤ y.2.1 && y.2.1 < (start + len) / 2 ^ 21) }

/-- R303, R311: a leaf is mapped. Each of its frames holds what storage keeps of it, or else what it held; tags are zero and no
line is lost (R234, R369). -/
def State.mapLeaf (s : State) (p n : Nat) (l : Leaf) : State :=
  let q := s.part p
  let s := (upTo l.frames).foldl (fun s i => match l.keys[i]? with
    | some f => s.modHome fun h => (match q.inStorage n (l.oframe + i) with
      | some b => h.fillFrame f b
      | none => h.mapFrame f)
    | none => s) s
  s.modPart p fun q => { q with leaves := q.leaves ++ [(n, l)],
                                stored := q.stored.filter fun y => !(y.1 == n && l.covers (y.2.1 * 2 ^ 21)) }

/-! ## Changes of a grant (R341) -/

/-- Bamosh may grant a bound partition `p` one thing more, or take it back: `g` is its grant afterwards. -/
def State.regrantOk (s : State) (p : Nat) (g : Grant) : Bool :=
  s.grantOk p g && (s.part p).shift.isNone && (s.part p).invs.isEmpty

/-- Nothing of a partition is on the cores of a quad, and no barrier of the quad has members. -/
def State.quadFree (s : State) (quad : Nat) : Bool :=
  (upTo 4).all (fun i => (s.coreAt (4 * quad + i)).clear)
  && (upTo 16).all fun n => (s.bar 2 (quad * 16 + n)).live == 0

/-- R341: quad `quad` joins or leaves the grant of partition `p`; the cores are numbered anew in their order. Every
member of its multicast groups stays one of its cores. -/
def State.regrantQuad (s : State) (p quad : Nat) (add : Bool) : State :=
  let g := (s.part p).grant
  let g := { g with mcast := (s.part p).mcast, quads := if add then g.quads ++ [quad] else g.quads.filter fun q => q != quad }
  if !s.regrantOk p g || !s.quadFree quad || add == (s.part p).grant.quads.contains quad then s
  else
    let s := (s.modPart p fun q => { q with grant := g }).clearBars { (default : Grant) with quads := [quad] }
    (upTo 4).foldl (fun s i => s.modAt (4 * quad + i) Core.handOver) s

/-- R341: frame `f` joins or leaves the pool of partition `p`. -/
def State.regrantFrame (s : State) (p f : Nat) (add : Bool) : State :=
  let q := s.part p
  let g := { q.grant with frames := if add then q.grant.frames ++ [f] else q.grant.frames.filter fun x => x != f }
  if !s.regrantOk p g || add == q.grant.frames.contains f || (!add && q.usedFrames.contains f) then s
  else s.modPart p fun q => { q with grant := g }

/-- R341: queue `k`, empty and named by no record, joins or leaves the queues of partition `p`. -/
def State.regrantQueue (s : State) (p k : Nat) (add : Bool) : State :=
  let q := s.part p
  let g := { q.grant with queues := if add then q.grant.queues ++ [k] else q.grant.queues.filter fun x => x != k }
  if !s.regrantOk p g || add == q.grant.queues.contains k || (!add && (!(q.queue k).isEmpty
      || q.recs.any fun r => r.2.queue == k && r.2.state.live)) then s
  else s.modPart p fun q => { q with grant := g, killed := q.killed.filter fun x => x != k }

/-- R341: a die or package barrier of which nothing is live joins or leaves the grant of partition `p`. -/
def State.regrantBar (s : State) (p lv i : Nat) (add : Bool) : State :=
  let q := s.part p
  let ch := fun (l : List Nat) => if add then l ++ [i] else l.filter fun x => x != i
  let had := if lv = 3 then q.grant.dieBars.contains i else q.grant.pkgBars.contains i
  let g := if lv = 3 then { q.grant with dieBars := ch q.grant.dieBars } else { q.grant with pkgBars := ch q.grant.pkgBars }
  if !s.regrantOk p g || add == had || (s.bar lv i).live != 0 then s
  else (s.modPart p fun q => { q with grant := g }).modBar lv i fun _ => default

/-- R364: the bits from bit `o` on that a list of numbers names. -/
def statusBits (o : Nat) (l : List Nat) : DWord := l.foldl (fun m i => m ||| ((1 : DWord) <<< (o + i))) 0

/-- R371: package quad `quad` stands from now on in the spare physical quad of its die, in place of one that no longer serves; the die serves a
quad then (R364). -/
def State.grantSpare (s : State) (quad : Nat) : State :=
  let die := quad / 20
  let l := (s.dev.enabled[die]?).getD []
  match l[quad % 20]?, (upTo 21).find? fun q => !l.contains q && quadServes s.dev.defects die q with
  | some old, some new =>
    if quadServes s.dev.defects die old || !s.quadFree quad then s
    else
      let s := { s with dev := { s.dev with enabled := changeAt s.dev.enabled die fun l => changeAt l (quad % 20) fun _ => new,
                                            status := s.dev.status ||| statusBits 16 [die] } }
      (upTo 4).foldl (fun s i => s.modAt (4 * quad + i) fun k =>
        { k.handOver with spad := [], lost := [], lastCtx := none, lastRet := false }) s
  | _, _ => s

/-! ## Records (R248, R249) -/

/-- A record that stands in no queue and on no core. -/
def RecState.rewritable : RecState → Bool
  | .queued => false
  | .bound => false
  | .running => false
  | _ => true

/-- R249: a record with the fields that Bamosh writes, from the words of its layout; what is the controllers' own stays. -/
def Rec.written (r : Rec) (v : List DWord) : Rec :=
  let w := fun (i : Nat) => (v[i]?).getD 0
  let f := fun (i a n : Nat) => ((w i).extractLsb' a n).toNat
  { r with entry := (w 0).extractLsb' 0 48, prio := f 0 52 4, queue := f 0 56 8, job := (w 1).extractLsb' 32 32,
           lidx := ((w 2).extractLsb' 0 55).setWidth 56, arena := f 3 32 24, lease := f 4 0 16, digest := f 4 16 16,
           capl := f 4 32 16, succ := [f 5 32 20, f 6 0 20, f 6 32 20, f 7 0 20, f 7 32 20, f 8 0 20].take (f 5 0 3),
           tt := (w 5).getLsbD 3, release := f 8 32 32, deadline := f 9 0 32,
           parent := if f 9 32 20 = 0xFFFFF then none else some (f 9 32 20), args := (upTo 8).map fun i => w (16 + i) }

/-- What Bamosh writes into record `r` as `x` names a job of its table and a queue of the partition, and a record that stands in
a queue, on a core or under an arena keeps the queue, the job and the arena that it is under. -/
def Part.recOk (q : Part) (r x : Rec) : Bool :=
  (q.job x.job).isSome && (x.queue == r.queue || q.holdsQueue x.queue && r.state.rewritable)
    && (x.job == r.job && x.arena == r.arena || r.state == .idle)

/-- R252: a job whose records have all ended leaves the job table, and its records become absent. -/
def Part.dropJob (q : Part) (j : BitVec 32) : Part :=
  { q with jobs := q.jobs.filter fun x => x.id != j, recs := q.recs.filter fun r => r.2.job != j }

/-- R318: a record of the job has an arena that lives or is dying. -/
def Part.arenasLeft (q : Part) (j : BitVec 32) : Bool :=
  q.recs.any fun r => r.2.job == j && r.2.arena != 0
    && ((q.obj r.2.arena).any (fun o => o.arena) || q.dying.any fun d => d.1 == r.2.arena)

/-- R378: the export that object `n` names goes with its entry. -/
def State.dropExport (s : State) (p n : Nat) : State :=
  { s with fab := { s.fab with exports := s.fab.exports.filter fun x => !(x.part == p && x.lobj == n) } }

/-- R350: the trace buffer's reader sets RD to `x`, up to WR; what waited for room follows. -/
def State.traceRead (s : State) (p x : Nat) : State :=
  let rd := s.agentRead p (s.part p).trace.obj 8
  let wr := s.agentRead p (s.part p).trace.obj 0
  if rd.toNat ≤ x && x ≤ wr.toNat then (s.agentWrite p (s.part p).trace.obj 8 [BitVec.ofNat 64 x]).traceFlush p (s.part p).trace.waiting else s

/-- R320: Bamosh's table changes: 0 object entry `i`; 1 a leaf of object `i`; 2 lease entry `i` mod 16 of set `i` div 16;
3 HANGLIM of the context on core `i` (R269); 4 job `i` leaves its table (R252); 5 the export that object `i` names (R378);
6 the multicast group of die `i` (R230); 7 SHARE of unit `i` (R344); 8 the fields of record `i` that Bamosh writes (R249); 9 a
leaf of object `i` to which its prepared range migrates (R316); 10 a prepared range of object `i`, start and length, goes to
storage (R311); 11 the oldest residency request is done with (R154); 12 RD of the trace buffer (R350); 13 quad `i`, 14 frame
`i`, 15 queue `i`, 16 die barrier `i` and 17 package barrier `i` join the grant, or with 0 leave it (R341); 18 quad `i` takes the
spare quad of its die (R371). -/
def execTableChange (p kind i : Nat) (v : List DWord) (s : State) : Out :=
  let q := s.part p
  let x := ((v[0]?).getD 0).toNat
  if !q.bound then .next s
  else match kind with
    | 0 =>
      let o := Obj.ofWords v
      .next (if s.entryOk p i o then (if o.valid then s else s.dropExport p i).modPart p fun q => { q with objs := put q.objs i o } else s)
    | 1 => .next (if s.leafOk p i (.ofWords v) then s.mapLeaf p i (.ofWords v) else s)
    | 2 =>
      let e := Lease.ofWords v
      .next (if s.leaseOk p (i / 16) (i % 16) e then
        s.modPart p fun q => { q with sets := put q.sets (i / 16) (setLease ((look q.sets (i / 16)).getD []) (i % 16) e) }
      else s)
    | 3 => .next (if (s.coreAt i).holds p && x == 2 ^ Nat.log2 x && 24 ≤ Nat.log2 x && Nat.log2 x ≤ 40 then
        s.modAt i fun k => { k with ctx := { k.ctx with pipe := { k.ctx.pipe with hanglim := x } } }
      else s)
    | 4 => .next (match q.job (BitVec.ofNat 32 i) with
      | some j => if j.live = 0 && !q.arenasLeft j.id && !(s.cores.toList.any fun k => k.holds p && k.ctx.task.job == j.id) then
          s.modPart p fun q => (q.dropJob j.id).refresh
        else s
      | none => s)
    | 5 => .next (match q.obj i with
      | some o => if o.typ = 3 then s.setExport p i o v else s
      | none => s)
    | 6 =>
      let g : Grant := { q.grant with mcast := [(i, v.map fun (c : DWord) => c.toNat)] }
      .next (if mcastOk g then s.modPart p fun q => { q with mcast := put q.mcast i (v.map fun (c : DWord) => c.toNat) } else s)
    | 7 =>
      let g : Grant := { q.grant with shares := put q.grant.shares i x }
      .next (if s.sharesOk p g then s.modPart p fun q => { q with grant := g } else s)
    | 8 => .next (match q.getRec i with
      | some r => if q.recOk r (r.written v) then s.modPart p fun q => (q.modRec i fun r => r.written v).refresh else s
      | none => s)
    | 9 =>
      let l := Leaf.ofWords v
      .next (if s.leafFits p i l && s.freeOk p i (l.oframe * 2 ^ 21) (l.frames * 2 ^ 21) then s.migrate p i l else s)
    | 10 =>
      let z := ((v[1]?).getD 0).toNat
      .next (if s.freeOk p i x z then s.evict p i x z else s)
    | 11 => .next (s.modPart p fun q => { q with residency := q.residency.drop 1 })
    | 12 => .next (s.traceRead p x)
    | 13 => .next (s.regrantQuad p i (x != 0))
    | 14 => .next (s.regrantFrame p i (x != 0))
    | 15 => .next (s.regrantQueue p i (x != 0))
    | 16 => .next (s.regrantBar p 3 i (x != 0))
    | 17 => .next (s.regrantBar p 4 i (x != 0))
    | 18 => .next (if q.grant.quads.contains i then s.grantSpare i else s)
    | _ => .next s

end Sys2Proof.Machine
end

