-- ==== Sys2Proof/Machine/Admit.lean ====
section
/-! DEFINITION. The admission check of the Lemyen loader (R214, R215, R349, R396): the control graph of a code object
and the longest paths between its safe points. -/

namespace Sys2Proof.Machine

open Sys2Proof

/-! ## The control graph (R349) -/

/-- Where a bundle passes control. -/
inductive Flow where
  | next
  | jump (t : Nat) (falls : Bool)
  | jr
  | call (t : Nat)
  | ret
  | safept (n : Nat)
  | stop
  | leave
  deriving DecidableEq, Repr, Inhabited

/-- A bundle of the control graph: its offset, the next one's, and its flow. -/
structure Node where
  off  : Nat
  next : Nat
  flow : Flow
  deriving DecidableEq, Repr, Inhabited

/-- The words of the first bundle of a list (R5). -/
def bundleWords : Nat → List Word → List Word
  | 0, _ => []
  | _, [] => []
  | n + 1, w :: l => if w.msb then [w] else w :: bundleWords n l

/-- The bundles of a code object, from offset 0. -/
def bundles : Nat → Nat → List Word → List (Nat × List Word)
  | 0, _, _ => []
  | _, _, [] => []
  | n + 1, o, w :: l =>
    let b := bundleWords 8 (w :: l)
    (o, b) :: bundles n (o + 4 * b.length) ((w :: l).drop b.length)

/-- The slots of a bundle, in the first environment that decodes it; a bundle that traps falls through. -/
def bundleSlots (ws : List Word) : List Instr :=
  let envs : List Env := [⟨true, false, false⟩, ⟨true, true, true⟩, ⟨true, false, true⟩, ⟨true, true, false⟩]
  match envs.findSome? fun e => match decodeBundle e ws with
      | .ok l => some (l.map fun x => x.2)
      | .error _ => none with
  | some l => l
  | none => []

/-- A branch target: `x` words from offset `o`, modulo 2^48 (R56). -/
def target {k : Nat} (o : Nat) (x : BitVec k) : Nat := (BitVec.ofInt 48 (o + 4 * x.toInt)).toNat

/-- The flow of a slot at bundle `o`. -/
def slotFlow (o : Nat) : Instr → Option Flow
  | .br i => some (.jump (target o i) false)
  | .bc i _ _ _ => some (.jump (target o i) true)
  | .bz i _ => some (.jump (target o i) true)
  | .bnz i _ => some (.jump (target o i) true)
  | .loop i _ => some (.jump (target o i) true)
  | .jr _ => some .jr
  | .call i => some (.call (target o i))
  | .ret => some .ret
  | .safept n => some (.safept n.toNat)
  | .retire => some .stop
  | .eret => some .leave
  | _ => none

/-- The control graph of a code object. -/
def graphOf (code : List Word) : List Node :=
  (bundles code.length 0 code).map fun x =>
    { off := x.1, next := x.1 + 4 * x.2.length,
      flow := ((bundleSlots x.2).findSome? (slotFlow x.1)).getD .next }

/-- A code object as the check sees it: its bundles, its `.entry` labels and its `.bound` declarations, with the back edges to bounded
labels (R396), and edges that a count leaves out, each from bundle to bundle. -/
structure CodeGraph where
  ns     : List Node
  ents   : List Nat
  bounds : List (Nat × Nat)
  backs  : List (Nat × Nat) := []
  cuts   : List (Nat × Nat) := []
  deriving DecidableEq, Repr

/-- The bundle at an offset. -/
def CodeGraph.at (g : CodeGraph) (o : Nat) : Option Node := g.ns.find? fun v => v.off == o

/-- A path ends at the bundle: it is a safe point. -/
def Node.stop (v : Node) : Bool :=
  match v.flow with
  | .safept _ => true
  | .stop => true
  | _ => false

/-- The edges within a routine. A CALL's is its fall-through. -/
def CodeGraph.allSucc (g : CodeGraph) (v : Node) : List Nat :=
  let l := match v.flow with
    | .next => [v.next]
    | .safept _ => [v.next]
    | .call _ => [v.next]
    | .jump t f => t :: (if f then [v.next] else [])
    | .jr => g.ents
    | _ => []
  (l.filter fun o => (g.at o).isSome && !g.cuts.contains (v.off, o)).eraseDups

/-- The edges within a routine, bounded back edges left out. -/
def CodeGraph.succ (g : CodeGraph) (v : Node) : List Nat := (g.allSucc v).filter fun o => !g.backs.contains (v.off, o)

/-- The bundle has a back edge to bounded label `h`. -/
def CodeGraph.back (g : CodeGraph) (v : Node) (h : Nat) : Bool := g.backs.contains (v.off, h) && (g.allSucc v).contains h

/-- The routine that a bundle calls. -/
def Node.callee (v : Node) : Option Nat :=
  match v.flow with
  | .call t => some t
  | _ => none

/-- The routines: the targets of CALLs. -/
def CodeGraph.routines (g : CodeGraph) : List Nat :=
  (g.ns.filterMap fun v => v.callee.filter fun t => (g.at t).isSome).eraseDups

/-! ## Reach -/

/-- What `n` rounds of following edges reach. -/
def spread (f : Nat → List Nat) : Nat → List Nat → List Nat
  | 0, l => l
  | n + 1, l => spread f n (l ++ (l.flatMap f)).eraseDups

/-- What a set of offsets reaches along edges. -/
def CodeGraph.reach (g : CodeGraph) (f : Node → List Nat) (l : List Nat) : List Nat :=
  spread (fun o => match g.at o with
    | some v => f v
    | none => []) g.ns.length l

/-- R396: the graph with the back edges to its bounded labels: the edges to a label, a fall-through or a JR's among them, from bundles
that it reaches and that nothing reaches but through it. -/
def CodeGraph.withBacks (g : CodeGraph) : CodeGraph :=
  { g with backs := g.bounds.flatMap fun b =>
      let inside := g.reach g.allSucc [b.1]
      let outside := g.reach (fun v => (g.allSucc v).filter fun o => o != b.1) ((g.ents ++ g.routines).filter fun o => o != b.1)
      (g.ns.filter fun v => (g.allSucc v).contains b.1 && inside.contains v.off && !outside.contains v.off).map fun v => (v.off, b.1) }

/-- Edges of paths that meet no safe point, given the routines that have such a path to their RET. -/
def CodeGraph.free (g : CodeGraph) (thru : List Nat) (v : Node) : List Nat :=
  if v.stop then []
  else match v.callee with
    | some t => if thru.contains t then g.allSucc v else []
    | none => g.allSucc v

/-- Some RET that the offsets reach meeting no safe point. -/
def CodeGraph.freeRet (g : CodeGraph) (thru : List Nat) (l : List Nat) : Bool :=
  (g.reach (g.free thru) l).any fun o => match g.at o with
    | some v => v.flow == .ret
    | none => false

/-- The routines with a path to their RET that meets no safe point: `n` rounds. -/
def CodeGraph.thru (g : CodeGraph) : Nat → List Nat
  | 0 => []
  | n + 1 => let t := CodeGraph.thru g n; g.routines.filter fun r => g.freeRet t [r]

/-- The bundles of a routine. -/
def CodeGraph.body (g : CodeGraph) (r : Nat) : List Nat := g.reach g.allSucc [r]

/-- The CALLs of a routine. -/
def CodeGraph.calls (g : CodeGraph) (r : Nat) : List Node :=
  (g.body r).filterMap fun o => (g.at o).filter fun v => v.callee.isSome

/-- The routines that routine `r` calls, at any depth. -/
def CodeGraph.leads (g : CodeGraph) (r : Nat) : List Nat :=
  spread (fun x => (g.calls x).filterMap Node.callee) g.routines.length ((g.calls r).filterMap Node.callee)

/-- R349, Recursion: a CALL of a call cycle with no SAFEPT on the way in, or none on the way out. -/
def CodeGraph.badCall (g : CodeGraph) (thru : List Nat) (v : Node) : Bool :=
  match v.callee with
  | none => false
  | some t => g.routines.any fun r => (g.body r).contains v.off && (t == r || (g.leads t).contains r)
      && ((g.reach (g.free thru) [r]).contains v.off || g.freeRet thru [v.next])

/-- R349: some call cycle is refused. -/
def CodeGraph.badRecursion (g : CodeGraph) (thru : List Nat) : Bool := g.ns.any (g.badCall thru)

/-! ## Longest paths -/

/-- The larger of two lengths that may be absent. -/
def maxO : Option Nat → Option Nat → Option Nat
  | some a, some b => some (max a b)
  | none, b => b
  | a, none => a

/-- Rounds of a table of lengths by offset. -/
def relax (ns : List Node) (f : Node → List (Nat × Nat) → Option Nat) : Nat → List (Nat × Nat)
  | 0 => []
  | n + 1 => let t := relax ns f n; ns.filterMap fun v => (f v t).map fun x => (v.off, x)

/-- The greatest entry of a table among some offsets. -/
def best (t : List (Nat × Nat)) (l : List Nat) : Option Nat := l.foldl (fun b o => maxO b (look t o)) none

/-- What is known of a bounded loop: how often its body is counted, the longest path through the body, the body, and those of its
bundles that paths from the head reach meeting no safe point. -/
structure LoopLen where
  n    : Nat
  len  : Nat
  body : List Nat
  free : List Nat
  deriving DecidableEq, Repr, Inhabited

/-- What is known of routines and loops: the longest path of a routine to its RET, and the bounded loops by their heads. -/
structure Lengths where
  thru : List (Nat × Nat)
  more : List (Nat × LoopLen)
  deriving DecidableEq, Repr, Inhabited

/-- The bundles that passing bundle `v` counts: none where its callee never returns without a safe point. -/
def Lengths.weight (k : Lengths) (v : Node) : Option Nat :=
  match v.callee with
  | none => some 1
  | some t => (look k.thru t).map fun x => 1 + x

/-- R349: the length of a path from the head of a bounded loop: its body `n` times, and on from an exit; or one time fewer, and then
`plain`, a path that ends within the body. -/
def CodeGraph.loopPath (g : CodeGraph) (x : LoopLen) (goal : Node → Bool) (t : List (Nat × Nat)) (plain : Option Nat) : Option Nat :=
  let us := x.free.filterMap g.at
  let out := best t (us.flatMap fun u => (g.succ u).filter fun o => !x.body.contains o)
  maxO (plain.map fun y => (x.n - 1) * x.len + y)
    (maxO (if us.any goal then some (x.n * x.len) else none) (out.map fun y => x.n * x.len + y))

/-- The longest path, meeting no safe point, from each bundle to one that satisfies `goal`, within `region`. -/
def CodeGraph.far (g : CodeGraph) (k : Lengths) (region goal : Node → Bool) : List (Nat × Nat) :=
  relax g.ns (fun v t =>
    if v.stop || !region v then none
    else
      let plain := (k.weight v).bind fun n => maxO (if goal v then some n else none) ((best t (g.succ v)).map fun x => n + x)
      match look k.more v.off with
      | none => plain
      | some x => g.loopPath x goal t plain) (g.ns.length + 1)

/-- The natural loop of a bounded label (R396). -/
def CodeGraph.loopBody (g : CodeGraph) (h : Nat) : List Nat :=
  let pre := fun (o : Nat) => if o = h then [] else (g.ns.filter fun v => (g.allSucc v).contains o).map Node.off
  (h :: spread pre g.ns.length ((g.ns.filter fun v => g.back v h).map Node.off)).eraseDups

/-- The longest iteration of a loop, from each bundle of its body to one with a back edge. -/
def CodeGraph.iter (g : CodeGraph) (k : Lengths) (h : Nat) : List (Nat × Nat) :=
  let b := g.loopBody h
  g.far { k with more := k.more.filter fun x => x.1 != h } (fun v => b.contains v.off) fun v => g.back v h

/-- A bounded loop as far as the routines and the other loops are known. -/
def CodeGraph.loopLen (g : CodeGraph) (k : Lengths) (h n : Nat) : Option LoopLen :=
  let b := g.loopBody h
  let on := fun (v : Node) => if v.stop || (k.weight v).isNone then [] else (g.succ v).filter b.contains
  (look (g.iter k h) h).map fun x =>
    { n, len := x, body := b, free := (g.reach on [h]).filter fun o => (g.at o).any fun v => !v.stop && (k.weight v).isSome }

/-- Rounds over routines and loops, each from the last. -/
def CodeGraph.lengths (g : CodeGraph) : Nat → Lengths
  | 0 => { thru := [], more := [] }
  | n + 1 =>
    let k := CodeGraph.lengths g n
    let rets := g.far k (fun _ => true) fun v => v.flow == .ret
    { thru := g.routines.filterMap fun r => (look rets r).map fun x => (r, x),
      more := g.bounds.filterMap fun b => (g.loopLen k b.1 b.2).map fun x => (b.1, x) }

/-- The longest path from each bundle to a safe point or to its end. -/
def CodeGraph.toStop (g : CodeGraph) (k : Lengths) : List (Nat × Nat) :=
  relax g.ns (fun v t =>
    if v.stop then some 1
    else
      let inside := match v.callee with
        | some c => 1 + (look t c).getD 0
        | none => 1
      let plain := max inside (match k.weight v with
        | some w => w + (best t (g.succ v)).getD 0
        | none => 0)
      match look k.more v.off with
      | none => some plain
      | some x => g.loopPath x (fun _ => false) t (some plain)) (g.ns.length * (g.routines.length + 1) + 1)

/-- A bounded loop with what a path that starts inside it needs. -/
structure Around where
  head : Nat
  n    : Nat
  body : List Nat
  iter : List (Nat × Nat)
  deriving DecidableEq, Repr, Inhabited

/-- The loops, those of larger body first. -/
def insertLoop (x : Around) : List Around → List Around
  | [] => [x]
  | y :: l => if y.body.length < x.body.length then x :: y :: l else y :: insertLoop x l

/-- The loops of a graph, outermost first. -/
def CodeGraph.loops (g : CodeGraph) (k : Lengths) : List Around :=
  (g.bounds.map fun b => ({ head := b.1, n := b.2, body := g.loopBody b.1, iter := g.iter k b.1 } : Around)).foldl
    (fun l x => insertLoop x l) []

/-- The longest path of a table from bundle `s`, which may stand part-way through an iteration of the loops given, the
outermost first: the rest of that iteration, then the iterations left. -/
def fromInside : List Around → List (Nat × Nat) → Nat → Option Nat
  | [], t, s => look t s
  | a :: l, t, s =>
    maxO (fromInside l t s)
      (if 2 ≤ a.n && s != a.head then
        (match fromInside l a.iter s, look t a.head with
          | some x, some y => some (x + (y - (look a.iter a.head).getD 0))
          | _, _ => none)
       else none)

/-- The bundles that follow a SAFEPT, where paths start. -/
def CodeGraph.starts (g : CodeGraph) : List Nat :=
  (g.ns.filter fun v => match v.flow with
    | .safept _ => true
    | _ => false).flatMap g.succ

/-- The lengths of a graph's paths: the tables to a safe point and to a RET, and the loops. -/
structure Paths where
  stops : List (Nat × Nat)
  rets  : List (Nat × Nat)
  loops : List Around
  deriving DecidableEq, Repr

/-- The loops around a bundle. -/
def Paths.around (p : Paths) (s : Nat) : List Around := p.loops.filter fun a => a.body.contains s

/-- R349: the longest path that starts at bundle `s` and runs on through RETs into the callers, `n` deep. -/
def CodeGraph.pathFrom (g : CodeGraph) (p : Paths) : Nat → Nat → Nat
  | 0, s => (fromInside (p.around s) p.stops s).getD 0
  | n + 1, s =>
    let here := (fromInside (p.around s) p.stops s).getD 0
    match fromInside (p.around s) p.rets s with
    | none => here
    | some t =>
      ((g.routines.filter fun r => (g.body r).contains s).flatMap fun r =>
        (g.ns.filter fun v => v.callee == some r).flatMap g.succ).foldl
          (fun m u => max m (t + CodeGraph.pathFrom g p n u)) here

/-- Where paths that meet no safe point go on from a bundle, bounded back edges left out: into a CALL's routine, and past it where the
routine returns without one. -/
def CodeGraph.onward (g : CodeGraph) (thru : List Nat) (v : Node) : List Nat :=
  if v.stop then []
  else match v.callee with
    | some t => t :: (if thru.contains t then g.succ v else [])
    | none => g.succ v

/-- R349: a cycle of bundles that meets no safe point and has no `.bound`. -/
def CodeGraph.cyclic (g : CodeGraph) (thru : List Nat) : Bool :=
  let t := relax g.ns (fun v t => some (1 + (best t (g.onward thru v)).getD 0)) (g.ns.length + 1)
  t.any fun x => g.ns.length < x.2

/-- R349: the length of the longest path of the code object, from an entry or from behind a SAFEPT. -/
def CodeGraph.longest (g : CodeGraph) : Nat :=
  let k := g.lengths (g.routines.length + g.bounds.length + 2)
  let p : Paths := { stops := g.toStop k, rets := g.far k (fun _ => true) (fun v => v.flow == .ret), loops := g.loops k }
  (g.starts ++ g.ents).foldl (fun m s => max m (g.pathFrom p g.routines.length s)) 0

/-- R349: where a cycle has neither a SAFEPT nor a bound, or a recursion is refused, paths are counted without its closing edges, or its
CALLs, so that the check of status 1 still has a length to test (log entry 141). An edge closes such a cycle where it leads back, or to
its own bundle, and from where it leads paths come to it again. -/
def CodeGraph.acyclic (g : CodeGraph) (thru : List Nat) : CodeGraph :=
  let g := { g with ns := g.ns.map fun v => if g.badCall thru v then { v with flow := .next } else v }
  { g with cuts := g.ns.flatMap fun v => ((g.succ v).filter fun o => o ≤ v.off && (g.onward thru v).contains o
      && (g.reach (g.onward thru) [o]).contains v.off).map fun o => (v.off, o) }

/-- R349, R215: the lowest status among the checks of the code object that fail; 0 where none does. -/
def admission (code : List Word) (entries : List (Nat × Bool)) (lives : List Nat) (bounds : List (Nat × Nat)) : Nat :=
  let g := ({ ns := graphOf code, ents := entries.map fun e => e.1, bounds } : CodeGraph).withBacks
  let thru := g.thru (g.routines.length + 1)
  let endless := g.badRecursion thru || g.cyclic thru
  if 65536 < (if endless then g.acyclic thru else g).longest then 1
  else if endless then 2
  else if g.ns.any fun v => match v.flow with
      | .safept n => !lives.contains n
      | _ => false then 3
  else if entries.isEmpty && g.ns.any fun v => v.flow == .jr then 6
  else 0

end Sys2Proof.Machine
end

