-- ==== Sys2Proof/Machine/Loader.lean ====
section
/-! DEFINITION. The Lemyen loader (R248, R309, R311, R317, R348, R349, R393 to R403): a launch rebound, relocated, checked
and admitted. -/

namespace Sys2Proof.Machine

open Sys2Proof

/-! ## Rebinding (R348) -/

/-- The physical quad of logical quad `q`. -/
def reqQuad (r : LaunchReq) (q : Nat) : Option Nat := (r.quads[q]?).map fun x => x.2

/-- LID 4q + i is quad index i of quad q's physical quad. -/
def reqCore (r : LaunchReq) (l : Nat) : Option Nat := (reqQuad r (l / 4)).map fun q => 4 * q + l % 4

/-- The granted barrier of logical barrier `n` at a scope; a quad barrier is its own. -/
def reqBar (r : LaunchReq) (lv n : Nat) : Option Nat :=
  if lv = 2 then some n else (r.bars.find? fun b => b.1 == lv && b.2.1 == n).map fun b => b.2.2

/-- Numbers in ascending order, once each. -/
def insertNat (x : Nat) : List Nat → List Nat
  | [] => [x]
  | y :: l => if x < y then x :: y :: l else if x = y then y :: l else y :: insertNat x l

/-- The logical queues that a launch uses on a logical die, ascending. -/
def reqQueues (r : LaunchReq) (d : Nat) : List Nat :=
  let caps := r.tasks.flatMap fun t => t.caps.filterMap fun c => match c with
    | .queue _ e q _ => if e = d then some q else none
    | .obj _ _ _ => none
  let own := (r.tasks.filter fun t => t.die == d).map fun t => t.queue
  let rel := (r.relocs.filter fun x => x.kind == 8 && x.arg0 == d).map fun x => x.arg1
  let st := r.steals.flatMap fun x => (x.2.filter fun y => y.1 == d).map fun y => y.2
  (own ++ caps ++ rel ++ st).foldl (fun l q => insertNat q l) []

/-- The granted queues on a physical die, ascending. -/
def dieQueues (g : Grant) (die : Nat) : List Nat :=
  (g.queues.filter fun q => q / 64 == die).foldl (fun l q => insertNat q l) []

/-- The physical queue, die × 64 + queue, of logical queue `q` of logical die `d`. -/
def reqQueue (r : LaunchReq) (g : Grant) (d q : Nat) : Option Nat :=
  match r.dies[d]? with
  | none => none
  | some die => ((reqQueues r d).findIdx? fun x => x == q).bind fun i => (dieQueues g die)[i]?

/-- The logical cores that a launch names: by its tasks, its relocations and its steal sets. -/
def reqLids (r : LaunchReq) : List Nat :=
  r.tasks.filterMap (fun t => t.lid) ++ (r.relocs.filter fun x => x.kind == 1 || x.kind == 7).map (fun x => x.arg0)
    ++ r.steals.map fun x => x.1

/-- R348: the stacks that logical stacks take, and the frames of their objects: those of one logical stack in its one stack,
which the partition has. -/
def stacksOk (r : LaunchReq) (g : Grant) : Bool :=
  r.objs.all fun o => o.stack.all fun k => match r.stackMap[k]? with
    | some u => g.frames.any (fun f => frameUnit f == (0, u)) && o.frames.all fun f => frameUnit f == (0, u)
    | none => false

/-- R243, R348: the barrier that a task on core `c` names is granted to the partition. -/
def barGranted (r : LaunchReq) (g : Grant) (c : Nat) (b : Nat × Nat) : Bool :=
  match reqBar r b.1 b.2 with
  | none => false
  | some n => if b.1 = 3 then g.dieBars.contains (barIndex 3 c n) else true

/-- R348: the launch is met with the partition's resources. -/
def State.rebinds (s : State) (p : Nat) (r : LaunchReq) : Bool :=
  let g := (s.part p).grant
  let ds := (r.tasks.map fun t => t.die) ++ r.quads.map fun q => q.1
  decide r.dies.Nodup && r.dies.all (fun d => g.quads.any fun q => q / 20 == d)
    && ds.all (fun d => d < r.dies.length)
    && decide (r.quads.map fun q => q.2).Nodup
    && r.quads.all (fun q => g.quads.contains q.2 && r.dies[q.1]? == some (q.2 / 20))
    && (reqLids r).all (fun l => match reqCore r l with
      | some c => !(s.coreAt c).engmap.getLsbD 14
      | none => false)
    && r.tasks.all (fun t => match t.lid.bind (reqCore r) with
      | some c => r.dies[t.die]? == some (c / 80) && t.bars.all (barGranted r g c)
      | none => true)
    && (!(r.tasks.any fun t => t.contract) || r.quads.all fun q => (upTo 4).all fun i =>
      let e := (s.coreAt (4 * q.2 + i)).engmap
      e.getLsbD 14 || e.extractLsb' 8 6 == 0)
    && stacksOk r g
    && (upTo r.dies.length).all (fun d => (reqQueues r d).all fun q => (reqQueue r g d q).isSome)
    && r.tasks.all (fun t => t.bars.all fun b => (reqBar r b.1 b.2).isSome)
    && r.bars.all (fun b => match b.1 with
      | 3 => g.dieBars.any fun i => i % 64 == b.2.2
      | 4 => g.pkgBars.contains b.2.2
      | 5 => g.podBars.contains b.2.2
      | _ => false)
    && r.relocs.all fun x => match x.kind with
      | 1 => (reqCore r x.arg0).isSome
      | 2 => (r.dies[x.arg0]?).isSome
      | 3 => (reqQuad r x.arg0).isSome
      | 4 => (reqBar r 3 x.arg0).isSome
      | 5 => (reqBar r 4 x.arg0).isSome
      | 6 => (reqBar r 5 x.arg0).isSome
      | 7 => (match reqCore r x.arg0 with
        | some c => ((s.part p).members (c / 80)).contains c
        | none => false)
      | 8 => (reqQueue r g x.arg0 x.arg1).isSome
      | _ => false

/-! ## Relocation (R402, R403) -/

/-- R402: the relocated value of a record. -/
def State.relocValue (s : State) (p : Nat) (r : LaunchReq) (x : Reloc) : Nat :=
  match x.kind with
  | 1 => (reqCore r x.arg0).getD 0 % 80
  | 2 => (r.dies[x.arg0]?).getD 0
  | 3 => (reqQuad r x.arg0).getD 0 % 20
  | 4 => (reqBar r 3 x.arg0).getD 0
  | 5 => (reqBar r 4 x.arg0).getD 0
  | 6 => (reqBar r 5 x.arg0).getD 0
  | 7 => (((s.part p).members ((reqCore r x.arg0).getD 0 / 80)).findIdx? fun c => some c == reqCore r x.arg0).getD 0
  | _ => (reqQueue r (s.part p).grant x.arg0 x.arg1).getD 0

/-- R403: the value fits its field. -/
def relocFits (x : Reloc) (v : Nat) : Bool := if x.data then v < 2 ^ x.width else v < 2 ^ 34

/-- R403, FORM 0: the slot immediate b:q, with its extension in the next word. -/
def relocSlot (code : List Word) (x : Reloc) (v : Nat) : List Word :=
  let y : BitVec 35 := BitVec.ofNat 35 v
  changeAt (changeAt code (x.place / 4) fun w => (w &&& 0xFFFFFE00) ||| (y.extractLsb' 0 9).setWidth 32) (x.place / 4 + 1)
    fun w => (w &&& 0xFC000000) ||| (y.extractLsb' 9 26).setWidth 32

/-- R403, FORM 1: a field of the data of an object. -/
def relocData (b : List Byte) (x : Reloc) (v : Nat) : List Byte :=
  let n := (x.lsb + x.width + 7) / 8
  let old := ((b.drop x.place).take n).foldr (fun (y : Byte) r => y.toNat + 256 * r) 0
  let z := old % 2 ^ x.lsb + v * 2 ^ x.lsb + old / 2 ^ (x.lsb + x.width) * 2 ^ (x.lsb + x.width)
  b.take x.place ++ (upTo n).map (fun i => BitVec.ofNat 8 (z / 256 ^ i)) ++ b.drop (x.place + n)

/-- The launch with every relocation made. -/
def State.relocated (s : State) (p : Nat) (r : LaunchReq) : LaunchReq :=
  r.relocs.foldl (fun q x =>
    let v := s.relocValue p r x
    if !x.data then { q with code := relocSlot q.code x v }
    else { q with objs := changeAt q.objs (x.target - 1) fun o => { o with bytes := relocData o.bytes x v } }) r

/-- R349: the status of a launch. -/
def State.launchStatus (s : State) (p : Nat) (r : LaunchReq) : Nat :=
  let a := admission r.code r.entries (r.lives.map fun l => l.1) r.bounds
  let b := if !s.rebinds p r then 4
    else if !r.relocs.all fun x => relocFits x (s.relocValue p r x) then 5 else 0
  if a = 0 then b else if b = 0 then a else min a b

/-! ## Objects (R303, R304, R309, R393) -/

/-- The generation at which an object number returns to use (R303). -/
def Part.nextGen (q : Part) (n : Nat) : Nat :=
  match look q.objs n with
  | some o => o.gen + 1
  | none => 0

/-- The code object, and the objects of a launch. -/
def reqObjs (r : LaunchReq) : List ObjDecl :=
  { r.codeObj with typ := 5, bytes := r.code.flatMap fun w => (upTo 4).map fun i => w.extractLsb' (8 * i) 8 } :: r.objs

/-- An object number that a launch may take: no object has it, no range of it is still to be freed (R321), and no arena is still to be
born under it (R303, R317). -/
def Part.numFree (q : Part) (n : Nat) : Bool :=
  0 < n && n < 2 ^ 24 && (q.obj n).isNone && !q.prepared.any (fun r => r.obj == n) && !q.unmapped.any (fun l => l.1 == n) && q.nextGen n < 4096 && !q.recs.any fun r => r.2.state.live && r.2.arena == n

/-- The loader's choices for an object are the partition's to make: a free number, and free frames of its pool that cover
its size. -/
def State.objOk (s : State) (p : Nat) (o : ObjDecl) : Bool :=
  let q := s.part p
  q.numFree o.num
    && (if mapped o.typ then
      o.size == (o.bytes.length + 2 ^ 21 - 1) / 2 ^ 21 * 2 ^ 21 && o.frames.length == o.size / 2 ^ 21 && o.layout ≤ 4
        && decide o.frames.Nodup && o.frames.all fun f =>
          frameReal f && s.frameServed f && q.grant.frames.contains f && !q.usedFrames.contains f && f / 2 ^ 24 == o.cls
            && (o.cls == 2) == (o.typ == 2 || o.typ == 5 && s.reduced)
    else o.frames.isEmpty && !s.reduced && (o.typ == 3 || o.typ == 4))

/-- The object-table entry of a declaration. -/
def objOf (gen : Nat) (o : ObjDecl) : Obj :=
  { (default : Obj) with valid := true, typ := o.typ, gen, size := o.size, bound := o.typ == 4,
                         pkg := if o.typ = 3 then o.arg0 else 0, rmtobj := if o.typ = 3 then o.arg1 else 0,
                         hostva := if o.typ = 4 then o.arg0 else 0, hostlen := if o.typ = 4 then o.arg1 else 0 }

/-- An export as the loader makes it for an object of another package (R378): granted over all of it. Its home
is that of every export of the partition that names the object (R379). -/
def State.exportOf (s : State) (p : Nat) (o : ObjDecl) : Export :=
  let twin := s.fab.exports.find? fun e => e.part == p && e.pkg == o.arg0 && e.obj == o.arg1
  { pkg := o.arg0, obj := o.arg1, lobj := o.num, part := p, valid := true, gen := 0, ogen := 0, typ := 0, size := o.size, start := 0,
    len := o.size, ok := true, mem := Memory.setBytes ((twin.map fun e => e.mem).getD []) 0 o.bytes,
    tags := (twin.map fun e => e.tags).getD [], lost := (twin.map fun e => e.lost).getD [] }

/-- An object's bytes at its frames: what it emits, and zero beyond (R393). -/
def Home.loadFrames (h : Home) : List Nat → List Byte → Home
  | [], _ => h
  | f :: fs, b => Home.loadFrames ((h.zeroFrame f).place (f * 2 ^ 21) (b.take (2 ^ 21))) fs (b.drop (2 ^ 21))

/-- An object of a launch: its entry, its leaves and its bytes; a remote one's bytes stand at its homes on its package,
which its export names (R378). -/
def State.loadObj (s : State) (p : Nat) (o : ObjDecl) : State :=
  let gen := (s.part p).nextGen o.num
  let leaves := (upTo o.frames.length).map fun i => (o.num, frameLeaf i ((o.frames[i]?).getD 0) o.layout gen false)
  let s := (s.modHome fun h => h.loadFrames o.frames o.bytes).modPart p fun q =>
    { q with objs := put q.objs o.num (objOf gen o), leaves := q.leaves ++ leaves }
  if o.typ = 3 then
    let s := s.dropExport p o.num
    let x := s.exportOf p o
    let s := s.modExport x.sameHome fun e => { e with mem := x.mem }
    { s with fab := { s.fab with exports := s.fab.exports ++ [x] } }
  else s

/-! ## Records, capabilities and barriers (R248, R254, R398 to R400) -/

/-- A capability of a task's list: BASE 0, and a LENGTH that covers what the object emits (R393); a queue handle (R254); a read
capability for the trace buffer (R350); an arena's handle comes at its birth (R317). -/
def State.capOf (s : State) (p : Nat) (r : LaunchReq) (c : CapDecl) : CReg × Cap :=
  match c with
  | .obj d n rights =>
    match (reqObjs r).find? fun o => o.num == n with
    | some o =>
      let len := if o.typ = 3 || o.typ = 4 then o.size else o.bytes.length
      (d, Cap.mk n (((s.part p).obj n).map (fun x => x.gen) |>.getD 0) (rights % 256) o.typ 0 ((len + 63) / 64))
    | none =>
      -- R350: a read capability for the trace buffer
      let q := s.part p
      if n = q.trace.obj then (d, Cap.mk n ((q.obj n).map (fun x => x.gen) |>.getD 0) (rights &&& 1) (((q.obj n).map fun x => x.typ).getD 0) 0
        (2 ^ 21 / 64)) else (d, 0)
  | .queue d e q rights => (d, Cap.mk ((reqQueue r (s.part p).grant e q).getD 0) 0 (rights &&& 0x47) 6 0 0)

/-- The sixteen capabilities of a task's list. -/
def State.capList (s : State) (p : Nat) (r : LaunchReq) (t : TaskDecl) : List Cap :=
  let l := t.caps.map (s.capOf p r)
  (upTo 16).map fun i => match l.find? fun x => x.1.toNat == i with
    | some x => x.2
    | none => 0

/-- The record of a task (R249, R251, R398): bit 55 of LIDX is 0, and each field has its width. -/
def recOf (r : LaunchReq) (g : Grant) (l : Nat) (t : TaskDecl) : Rec :=
  let lid := t.lid.map fun x => BitVec.ofNat 22 x
  { entry := t.entry,
    state := if !t.armed then .idle else if t.pending > 0 then .waiting else if t.frame.isSome then .timed else .queued,
    prio := t.prio % 16, queue := (reqQueue r g t.die t.queue).getD 0, pending := t.pending % 2 ^ 32, job := t.job,
    lidx := (t.lidx.setWidth 55).setWidth 56, arena := t.arena % 2 ^ 24, lease := t.lease % 2 ^ 16, digest := t.digest % 2 ^ 16,
    capl := t.capl % 2 ^ 16, succ := (t.succ.take 6).map fun n => n % 2 ^ 20, tt := t.frame.isSome,
    release := (t.frame.map fun x => x.1).getD 0 % 2 ^ 32, deadline := (t.frame.map fun x => x.2).getD 0 % 2 ^ 32,
    parent := t.parent.map fun n => n % 2 ^ 20,
    opens := r.tasks.countP fun u => u.parent == some t.num, args := (t.args ++ List.replicate 8 0).take 8, launch := l,
    saved := none, abandoned := false, ran := false, rerun := false, repair := none, late := false, priv := t.priv, lid,
    cyc := r.tasks.any fun t => t.contract }

/-- A lease entry of a launch; a length of 0 covers the object's whole SIZE, from START 0 (R399), in units of 2 MiB (R310). -/
def Part.leaseOf (q : Part) (d : LeaseDecl) : Lease :=
  let size := ((look q.objs d.obj).map fun o => o.size).getD 0
  { obj := d.obj, valid := true, w := d.w, x := d.x, revoked := false, start := if d.len = 0 then 0 else d.start,
    len := if d.len = 0 then (size + 2 ^ 21 - 1) / 2 ^ 21 * 2 ^ 21 else d.len }

/-- The lease over the code object that a set of a launch has where it declares none: the code stands under lease while a
task that holds the set runs (R218, R311), and the sets of R323 do not name it (log entry 140). -/
def codeLease (r : LaunchReq) (l : List LeaseDecl) : List LeaseDecl :=
  if l.any (fun d => d.obj == r.codeObj.num && d.x) || 16 ≤ l.length then l
  else l ++ [{ obj := r.codeObj.num, start := 0, len := 0, w := false, x := true }]

/-- The lease sets of a launch: those it declares, and those that its tasks name without, each with its code lease. -/
def reqSets (r : LaunchReq) : List (Nat × List LeaseDecl) :=
  let named := (r.tasks.map fun t => t.lease % 2 ^ 16).eraseDups
  (r.sets ++ (named.filter fun n => (look r.sets n).isNone).map fun n => (n, [])).map fun (x : Nat × List LeaseDecl) =>
    (x.1, if named.contains x.1 then codeLease r x.2 else x.2)

/-- A lease of a launch is what R310 and R399 let it be, and no prepared range lies under it (R321). -/
def Part.leaseFree (q : Part) (d : LeaseDecl) : Bool :=
  d.start % 2 ^ 21 == 0 && d.len % 2 ^ 21 == 0
    && !prepMeets q.prepared d.obj (if d.len = 0 then 0 else d.start) (if d.len = 0 then 2 ^ 48 else d.len)

/-- A lease set that no record of the partition still runs under. -/
def State.setFree (s : State) (p n : Nat) : Bool :=
  !s.setHeld p n && !(s.part p).recs.any fun r => r.2.state.live && r.2.lease == n

/-- The barriers that the tasks of a launch name, by level and index, each with a core bound to such a task (R348). -/
def reqMembers (r : LaunchReq) : List ((Nat × Nat) × Nat) :=
  r.tasks.flatMap fun t => match t.lid.bind (reqCore r) with
    | none => []
    | some c => t.bars.filterMap fun b => (reqBar r b.1 b.2).map fun n => ((b.1, barIndex b.1 c n), c)

/-- R223, R348: the barriers of launch `l` are bound, their members the cores bound to the tasks that name them. -/
def State.setBars (s : State) (p l : Nat) (r : LaunchReq) : State :=
  let ms := reqMembers r
  ((ms.map fun x => x.1).eraseDups).foldl (fun s x => s.bindBar p l x.1 x.2
    ((ms.filter fun y => y.1 == x).map fun y => s.barMember x.1 y.2)) s

/-- The logical ids and steal sets of a launch's cores (R265, R348). A core whose context is of another launch keeps its id until a
context of this one is bound to it. -/
def State.setLids (s : State) (p : Nat) (r : LaunchReq) : State :=
  (upTo (4 * r.quads.length)).foldl (fun s l => match reqCore r l with
    | none => s
    | some c => s.modAt c fun k =>
        { k with lid := if k.holds p then k.lid else BitVec.ofNat 22 l, att := 0, steals := ((look r.steals l).getD []).filterMap fun x =>
            (reqQueue r (s.part p).grant x.1 x.2).map fun q => BitVec.ofNat 8 q }) s

/-- R401: the launch word, with DET and STRICT as the request overrides them; a replay that names no recorded run runs as
DET 2. -/
def reqWord (r : LaunchReq) : DWord :=
  let det := r.det.getD (r.word.extractLsb' 0 2)
  let det := if det = 3 && r.source.isNone then 2 else det
  let strict := r.strict.getD (r.word.getLsbD 2)
  (r.word &&& 0x7FF8) ||| det.setWidth 64 ||| (if strict then 4 else 0)

/-- R291, R401: the digest table of the recorded run that the request names, for DET 2 and 3. -/
def reqDigests (r : LaunchReq) : List (Nat × Digest) :=
  match r.source with
  | some (l, _, _) => if (reqWord r).extractLsb' 1 1 = 1 then
      l.map fun d => (d.1, { (default : Digest) with recorded := d.2, rvalid := true }) else []
  | none => []

/-- R294, R401: the writable leased ranges of a launch, by object and object frame. -/
def Part.writable (q : Part) (r : LaunchReq) : List (Nat × Nat) :=
  (((reqSets r).flatMap fun x => x.2.filter fun d => d.w).flatMap fun d =>
    let e := q.leaseOf d
    if (look q.objs e.obj).any fun o => mapped o.typ then (upTo (e.len / 2 ^ 21)).map fun i => (e.obj, e.start / 2 ^ 21 + i) else []).eraseDups

/-- R294: the writable leased ranges of a launch on other packages, with their bytes there: local object, start, length. -/
def State.writableFar (s : State) (p : Nat) (r : LaunchReq) : List (Nat × Nat × Nat × Memory) :=
  ((reqSets r).flatMap fun x => x.2.filter fun d => d.w).flatMap fun d =>
    let e := (s.part p).leaseOf d
    (s.fab.exports.filter fun x => x.part == p && x.lobj == e.obj).map fun x =>
      (e.obj, e.start, e.len, x.mem.filter fun c => e.start ≤ c.1 && c.1 < e.start + e.len)

/-- R317: the capability lists and registers that take an arena's handle: where a caps entry names it, and for the record that
names it by ARENA without one, the register of the declaration (log entry 135). -/
def arenaUses (r : LaunchReq) (t : TaskDecl) : List (Nat × Nat × Nat) :=
  let capl := t.capl % 2 ^ 16
  let own := t.caps.filterMap fun c => match c with
    | .obj d n _ => if r.arenas.any fun a => a.1 == n then some (n, capl, d.toNat) else none
    | .queue _ _ _ _ => none
  if t.arena = 0 || own.any (fun a => a.1 == t.arena) then own else own ++ [(t.arena, capl, t.arenaReg.toNat)]

/-- The launch as Bamosh keeps it. -/
def State.launchOf (s : State) (p : Nat) (r : LaunchReq) (jobs : List Job) (recs : List (Nat × Rec)) : Launch :=
  let q := s.part p
  let w := reqWord r
  let c := ((q.obj r.codeObj.num).map fun o => o.gen).getD 0
  { ctx := r.ctx, word := w, code := Cap.mk r.codeObj.num c 0x04 5 0 ((4 * r.code.length + 63) / 64),
    handler := (r.entries.find? fun e => e.2).map fun e => BitVec.ofNat 48 e.1, lives := r.lives, seed := 0,
    arenas := r.tasks.flatMap (arenaUses r),
    ringObj := r.ringObj, counts := [], unfed := if w.extractLsb' 0 2 = 3 then (r.source.map fun x => x.2.2).getD [] else [],
    supply := [], spent := false, log := [], digests := reqDigests r, kd := 0, recKd := (r.source.map fun x => x.2.1).getD 0,
    copy := if w.extractLsb' 1 1 = 1 then (q.writable r).map fun x => (x.1, x.2, s.objFrame p x.1 x.2) else [], start := recs, jobs0 := jobs,
    serial := false, failing := false, oldLog := [], held := 0,
    far := if w.extractLsb' 1 1 = 1 then s.writableFar p r else [],
    lids := (upTo (4 * r.quads.length)).filterMap fun l => (reqCore r l).map fun c => (c, BitVec.ofNat 22 l) }

/-- An admitted launch: everything that R349's admission lets the loader do. FRAMEBASE takes the FRC then current (R266, R366). -/
def State.admission (s : State) (p : Nat) (r : LaunchReq) : State :=
  let g := (s.part p).grant
  let l := (s.part p).launches.length
  let jobs := r.jobs.map fun j => ({ id := j.1, base := j.2 % 16, eff := j.2 % 16, cancelled := false, failed := false, live := 0 } : Job)
  let recs := r.tasks.map fun t => (t.num, recOf r g l t)
  let s := (reqObjs r).foldl (fun s o => s.loadObj p o) s
  let s := s.modPart p fun q =>
    let q := { q with
      objs := r.arenas.foldl (fun (o : List (Nat × Obj)) (a : Nat × Nat) => put o a.1 { ((look o a.1).getD default) with valid := false, typ := 1, size := a.2 }) q.objs }
    { q with sets := (reqSets r).foldl (fun (m : List (Nat × List Lease)) (x : Nat × List LeaseDecl) => put m x.1 ((x.2.map q.leaseOf).take 16)) q.sets,
             capls := r.tasks.foldl (fun (m : List (Nat × List Cap)) (t : TaskDecl) => put m (t.capl % 2 ^ 16) (s.capList p r t)) q.capls,
             recs := recs.foldl (fun (m : List (Nat × Rec)) (x : Nat × Rec) => put m x.1 x.2) q.recs, jobs := q.jobs ++ jobs,
             frameBase := s.frc, stalled := false }
  let s := s.modPart p fun q => (recs.foldl (fun q x => if x.2.state = .queued then q.enqueue x.1 else q) q).refresh
  let s := s.setLids p r
  let s := (s.modPart p fun q => { q with launches := q.launches ++ [s.launchOf p r jobs recs] }).setBars p l r
  -- R280: WR and RD count from the launch on
  let s := if (reqWord r).extractLsb' 0 2 = 0 then s else s.agentWrite p r.ringObj 0 [0, 0]
  let s := match s.launchAt p l with
    | some x => if x.replay then s.supply p l x.unfed.length x else s
    | none => s
  s.jobSeed p l

/-- R280, R401: a launch that keeps an order log brings a ring object of the size that its RINGLOG2 asks. -/
def ringOk (r : LaunchReq) : Bool :=
  (reqWord r).extractLsb' 0 2 = 0 || r.objs.any fun o =>
    o.num == r.ringObj && o.typ == 0 && 64 + 32 * 2 ^ ((reqWord r).extractLsb' 4 5).toNat ≤ o.size

/-- R395 to R401: an image that an assembler can emit: its limits in range, one trap handler at most, live lists of distinct
numbers with aligned ranges, bounds and tasks as their directives have them. -/
def imageOk (r : LaunchReq) : Bool :=
  let ring := ((reqWord r).extractLsb' 4 5).toNat
  let div := ((reqWord r).extractLsb' 9 6).toNat
  10 ≤ ring && ring ≤ 30 && 16 ≤ div && div ≤ 40
    && r.entries.countP (fun e => e.2) ≤ 1 && decide (r.lives.map fun l => l.1).Nodup
    && r.lives.all (fun l => l.1 < 2 ^ 34 && l.2.ranges.length ≤ 16
      && l.2.ranges.all fun x => x.1 % 64 == 0 && x.2 % 64 == 0)
    && r.bounds.all (fun b => 1 ≤ b.2 && b.2 ≤ 2 ^ 32) && r.steals.all (fun x => x.2.length ≤ 8)
    && r.tasks.all fun t => t.prio < 16 && t.succ.length ≤ 6 && t.args.length ≤ 8
      && (r.entries.any fun e => e.1 == t.entry.toNat) && t.frame.all fun x => x.1 < x.2

/-- The image is one, and the numbers that a launch gives its records, jobs, arenas and lease sets are free. -/
def State.launchFree (s : State) (p : Nat) (r : LaunchReq) : Bool :=
  let q := s.part p
  imageOk r && ringOk r
    && r.tasks.all (fun t => t.num < q.grant.recs && (q.getRec t.num).isNone && r.jobs.any fun j => j.1 == t.job)
    && decide (r.tasks.map fun t => t.num).Nodup && decide (r.jobs.map fun j => j.1).Nodup
    && r.jobs.all (fun j => (q.job j.1).isNone) && q.jobs.length + r.jobs.length ≤ 4096
    && decide (r.sets.map fun x => x.1).Nodup
    && r.sets.all (fun x => x.1 < 65536 && x.2.length ≤ 16 && x.2.all q.leaseFree)
    && (reqSets r).all (fun x => s.setFree p x.1)
    && r.arenas.all (fun a => q.numFree a.1 && a.2 % 2 ^ 21 == 0)
    && decide ((r.arenas.map fun a => a.1) ++ (reqObjs r).map fun o => o.num).Nodup
    && r.tasks.all fun t => t.arena == 0 || r.arenas.any fun a => a.1 == t.arena

/-- R349: the loader admits a launch that partition `p`'s virtual function requests, or refuses it; its status is reported
to the virtual function. Numbers and frames that are not free are no choice of the loader's, and leave the request
waiting. -/
def execLaunch (p : Nat) (r : LaunchReq) (s : State) : Out :=
  let q := s.part p
  let os := reqObjs r
  let st := s.launchStatus p r
  let s' := { s with dev := { s.dev with answers := s.dev.answers ++ [(p, st)] } }
  if !q.bound || !s.serving then .next s
  else if st ≠ 0 then .next s'
  else if !s.launchFree p r || !os.all (s.objOk p) || !decide (os.flatMap fun o => o.frames).Nodup then .next s
  else .next (s'.admission p (s.relocated p r))

end Sys2Proof.Machine
end

