-- ==== Sys2Proof/Machine/Service.lean ====
section
/-! DEFINITION. The device's service (R28, R360 to R372): boot, images and identity, reduced and full service, errors and
lost units. -/

namespace Sys2Proof.Machine

open Sys2Proof

/-! ## The status word (R364) -/

/-- The device with status bits set. -/
def Device.set (m : DWord) (d : Device) : Device := { d with status := d.status ||| m }

/-- BOOTSTAGE. -/
def Device.stage (d : Device) : Nat := (d.status.extractLsb' 40 8).toNat

/-- The device with BOOTSTAGE set. -/
def Device.atStage (n : Nat) (d : Device) : Device :=
  { d with status := (d.status &&& ~~~(0xFF <<< 40 : DWord)) ||| (BitVec.ofNat 64 (n % 256) <<< 40) }

/-- R360: the boot halts, with its ERRCODE. -/
def Device.halt (code : Nat) (d : Device) : Device :=
  { (d.atStage 0xFF).set (BitVec.ofNat 64 (code % 256) <<< 48) with halted := true }

/-- DEGRADED and REPLREQ (R363, R366, R372). -/
def replace : DWord := 0xC

/-- The state with its device changed. -/
def State.modDev (s : State) (f : Device → Device) : State := { s with dev := f s.dev }

/-! ## Units (R28, R363, R371) -/

/-- R28, R360: Bamosh, at BOOTSTAGE 4 or later, writes ENGMAP of core `c`, from the defect map, while no context is bound to it. -/
def execEngmapWrite (c : Nat) (v : DWord) (s : State) : Out :=
  let k := s.coreAt c
  if s.dev.stage < 4 || s.dev.halted || k.run ≠ .idle || k.spawnAt.isSome || v ≠ s.engmapDue c then .next s
  else
    let s := s.modAt c fun k => { k with engmap := v }
    .next (if v.extractLsb' 8 6 = 0 then s else s.modDev (Device.set replace))

/-- R363: the quads that a die enables: the first 20 that serve. -/
def enabledQuads (defects : List DevUnit) (die : Nat) : List Nat :=
  ((upTo 21).filter (quadServes defects die)).take 20

/-! ## Boot (R360 to R363) -/

/-- R360: power is good, and the boot starts; one that had started before starts anew, with what the secure element
keeps. -/
def execPowerGood (s : State) : Out :=
  let s := if s.dev.stage = 0 then s
    else { State.reset with script := s.script, eager := s.eager, fresh := s.fresh,
                            dev := { Device.reset with rollback := s.dev.rollback } }
  .next (s.modDev (Device.atStage 1))

/-- A field of an image header, little-endian (R361). -/
def hdrField (h : List Byte) (a n : Nat) : Nat := ((h.drop a).take n).foldr (fun (x : Byte) r => x.toNat + 256 * r) 0

/-- R361, R362: how an image copy misses: 0 it passes; 3 its version alone fails; 2 its signature or digest; 1 the rest. -/
def imageMiss (kind counter : Nat) (h b : List Byte) : Nat :=
  let named := h.length == 256 && hdrField h 0 8 == 0x4F56484C44494D47 && hdrField h 12 4 == kind
  let zero := hdrField h 89 7 == 0 && hdrField h 210 46 == 0
  let good := hdrField h 88 1 < 2 && Config.rootVerify (hdrField h 88 1) (h.take 96) ((h.drop 96).take 114)
    && b.length == hdrField h 16 8 && (Config.shake256 b).toNat == hdrField h 24 64
  if !named then 1 else if !good then 2 else if !zero then 1 else if hdrField h 8 4 < counter then 3 else 0

/-- The bytes of a 64-byte value. -/
def bytes64 (x : BitVec 512) : List Byte := (upTo 64).map fun i => x.extractLsb' (8 * i) 8

/-- R367: measurement register `i` extended with 64 bytes. -/
def Device.measure (i : Nat) (d : List Byte) (x : Device) : Device :=
  { x with meas := changeAt x.meas i fun m => Config.shake256 (bytes64 m ++ d) }

/-- R364, R371: the quads that each die serves: those it enables whose cores are all whole enough. -/
def Device.serves (d : Device) (die : Nat) : List Nat := ((d.enabled[die]?).getD []).filter (quadServes d.defects die)

/-- R372: what the defect map and the enabled quads give REPLREQ for: a die short of 20 quads, a DEAD bit of an enabled core, and a
stack, a CXL port or a link out of service. -/
def Device.replDue (d : Device) : Bool :=
  (upTo 4).any (fun i => (d.serves i).length < 20 || ((d.enabled[i]?).getD []).any fun q => (upTo 4).any fun x =>
    (engmapOf fun u => d.defects.contains (.core i q x u)).extractLsb' 8 6 != 0)
  || d.defects.any fun u => match u with
    | .stack _ => true
    | .port _ => true
    | .link _ => true
    | _ => false

/-- R363, R364, R372: self-test and the board configuration are done: the quads each die enables, DIEOK and LINKOK, DEGRADED where
some unit is disabled, and REPLREQ; a boot whose die 0 cannot serve halts. -/
def Device.mapped (d : Device) : Device :=
  let l := (upTo 4).map (enabledQuads d.defects)
  let d := { d with enabled := l }
  let ok := (upTo 4).filter fun i => !(d.serves i).isEmpty
  let links := (upTo 18).filter fun i => !d.defects.contains (.link i)
  let short := l.any fun q => q.length < 20
  let d := d.set (statusBits 16 ok ||| statusBits 20 links ||| (if short || !d.defects.isEmpty then 4 else 0)
    ||| (if d.replDue then 8 else 0))
  if ((l[0]?).getD []).isEmpty then d.halt 5 else d.atStage 3

/-- R364, R371, R372: a unit has failed at run time: DEGRADED, DIEOK of a die that serves no quad any more clears, and REPLREQ follows. -/
def Device.lostUnit (d : Device) : Device :=
  let gone := (upTo 4).filter fun i => (d.serves i).isEmpty
  let d := d.set (4 ||| (if d.replDue then 8 else 0))
  { d with status := d.status &&& ~~~statusBits 16 gone }

/-- The links in service after the boot found them so. -/
def State.raiseLinks (s : State) : State :=
  { s with fab := { s.fab with links := (upTo 18).map fun i =>
      { up := s.dev.status.getLsbD (20 + i), training := false, fails := 0 } } }

/-- Stage 2 ends once both its parts are done. -/
def State.stage2 (s : State) : State :=
  if s.dev.stage = 2 && s.dev.tested && (look s.dev.running 2).isSome then (s.modDev Device.mapped).raiseLinks else s

/-- R360: stage 3 ends once Bamosh and the Lemyen loader have passed. -/
def State.stage3 (s : State) : State :=
  if s.dev.stage = 3 && (look s.dev.running 3).isSome && (look s.dev.running 4).isSome then s.modDev (Device.atStage 4) else s

/-- R360 to R362: the next copy of the image of a KIND is fetched and checked; the first that passes is used, and with
four that miss the device halts. -/
def execImageFetch (kind : Nat) (hdr body : List Byte) (s : State) : Out :=
  let d := s.dev
  let due := !d.halted && (look d.running kind).isNone &&
    (match kind with
      | 1 => d.stage == 1
      | 2 => d.stage == 2
      | 3 => d.stage == 3
      | 4 => d.stage == 3
      | _ => false)
  if !due then .next s
  else
    let r := imageMiss kind ((look d.rollback kind).getD 0) hdr body
    if r = 0 then
      let s := s.modDev fun d => ({ d with running := put d.running kind (hdrField hdr 8 4) } : Device).measure (kind - 1)
        ((hdr.drop 24).take 64)
      match kind with
      | 1 => .next (s.modDev (Device.atStage 2))
      | 2 =>
        let w := Config.boardPlim body
        .next (if w < 1000 || 3200 < w then s.modDev (Device.halt 4)
          else (s.modDev fun d => { d with plim := w, defects := d.defects ++ Config.boardRemoves body }).stage2)
      | _ => .next s.stage3
    else
      let m := (d.missed.filter fun x => x.1 == kind).map fun x => x.2
      let s := s.modDev fun d => { d with missed := d.missed ++ [(kind, r)] }
      .next (if m.length < 3 then s else s.modDev (Device.halt ((r :: m).foldl max 0)))

/-- R363, R367: self-test finds the units `bad`; it leaves every scratchpad zero, and the defect map is measured. -/
def execSelfTest (bad : List DevUnit) (s : State) : Out :=
  if s.dev.halted || s.dev.stage ≠ 2 || s.dev.tested then .next s
  else
    let s := s.modAll fun k => { k with spad := [], lost := [], lastCtx := none, lastRet := false }
    .next (s.modDev fun d => ({ d with tested := true, defects := d.defects ++ bad } : Device).measure 4
      (bytes64 (Config.shake256 (Config.defectBytes bad)))).stage2

/-- R362: a counter of the secure element is raised on a signed request of the host's administrator, and never above the
version that runs. -/
def execAntiRollbackRaise (kind v : Nat) (sig : List Byte) (s : State) : Out :=
  match look s.dev.running kind with
  | some w =>
    if s.serving && Config.adminSigned kind v sig && (look s.dev.rollback kind).getD 0 < v && v ≤ w then
      .next (s.modDev fun d => { d with rollback := put d.rollback kind v })
    else .next s
  | none => .next s

/-- The `n` low bytes of a value, the lowest first. -/
def bytesOf {w : Nat} (n : Nat) (x : BitVec w) : List Byte := (upTo n).map fun i => x.extractLsb' (8 * i) 8

/-- R368: the signed report that the physical function, or partition `who`, asks for. -/
def execAttestationReport (who : Option Nat) (nonce : List Byte) (s : State) : Out :=
  if !s.serving || nonce.length ≠ 32 then .next s
  else
    let g := match who with
      | some p => bytes64 (Config.shake256 (Config.grantBytes (s.part p).grant))
      | none => List.replicate 64 0
    let b := nonce ++ bytesOf 16 Config.serial ++ (s.dev.meas.take 8).flatMap bytes64 ++ g ++ DWord.bytes s.dev.status
    .next (s.modDev fun d => { d with attests := d.attests ++ [b ++ bytesOf 114 (Config.identitySign b)] })

/-! ## Reduced and full service (R365, R366) -/

/-- R365, R366: Bamosh, with every ENGMAP written, opens reduced service on die 0, and CYC starts from zero. -/
def execReducedService (s : State) : Out :=
  let d := s.dev
  let ready := !d.halted && d.stage == 4 && !s.serving && (upTo 320).all fun c => (s.coreAt c).engmap == s.engmapDue c
  if !ready then .next s
  else .next ({ s with cyc := 0, ticked := 0 }.modDev (Device.set 2))

/-- R366: no context of reduced service is left. -/
def State.allEnded (s : State) : Bool :=
  s.cores.toList.all (fun k => k.run == .idle && k.spawnAt.isNone)
    && s.parts.toList.all fun q => q.saves.isEmpty

/-- R366: full service begins; the stacks `trained` come into service. -/
def execFullService (trained : List Nat) (s : State) : Out :=
  if s.dev.halted || !s.reduced || !s.allEnded then .next s
  else
    let ok := (upTo 12).filter fun i => trained.contains i && !s.dev.defects.contains (.stack i)
    let s := s.modDev fun d =>
      let d := (d.atStage 5).set (ok.foldl (fun m i => m ||| ((1 : DWord) <<< (4 + i))) 1)
      { d with status := d.status &&& ~~~(2 : DWord) }
    .next (if ok.length = 12 then s else s.modDev (Device.set replace))

/-! ## Errors (R369 to R372) -/

/-- R369: an error record goes to Bamosh and to the host. -/
def State.errorRecord (s : State) (cls : Nat) (p : Option Nat) (loc : Nat) : State :=
  s.modDev fun d => { d with errors := d.errors ++
    [[BitVec.ofNat 64 (cls % 16 + 16 + (p.getD 255) % 256 * 2 ^ 8 + loc % 2 ^ 48 * 2 ^ 16), BitVec.ofNat 64 s.cyc, 0, 0]] }

/-- R369: an error is corrected and counted. -/
def State.corrects (s : State) : State := s.modDev fun d => { d with corrected := d.corrected + 1 }

/-- A context that takes a terminal cause at its next bundle boundary. -/
def Ctx.causes (code : Byte) (info : DWord) (x : Ctx) : Ctx :=
  { x with pipe := { x.pipe with async := x.pipe.async ++ [(code, info)] } }

/-- R371, R369: a terminal cause with code 0x14 is pending for the context of core `c`, running or stopped, or, from number 320 on,
for a saved one, numbered as service steps number it. -/
def State.engineCause (s : State) (c : Nat) (info : DWord) : State :=
  if 320 ≤ c then s.onSvc c (Ctx.causes 0x14 info)
  else match (s.coreAt c).run with
    | .idle => if (s.coreAt c).spawnAt.isSome then s.modAt c fun k => { k with ctx := k.ctx.causes 0x14 info } else s
    | .ending _ _ => s
    | _ => s.modAt c fun k => { k with ctx := k.ctx.causes 0x14 info }

/-- R341, R369: LOC of an error of core `c`: its number within the partition that holds it. -/
def State.unitNo (s : State) (c : Nat) : Nat :=
  match s.partOf c with
  | some p => (s.part p).coreNo c
  | none => c

/-- TRAPINFO of an engine failure that no token reports: error kind 1, and for the rest what Config leaves open. -/
def failureInfo (n : Nat) : DWord := (Config.failInfo n &&& ~~~(0xF00 : DWord)) ||| 0x100

/-- R372: the lost lines of one stack stand in more than 1,024 frames. -/
def Home.tooLost (h : Home) (stack : Nat) : Bool :=
  1024 < ((h.lost.filter fun l => unitOf (l * 64) == some stack).map fun l => l / 2 ^ 15).eraseDups.length

/-- R369: a line is lost at its home. -/
def State.loseLine (s : State) (cls : Nat) (p : Option Nat) (a : Nat) : State :=
  let l := lineOf a
  let s := (s.modHome fun h =>
    { h with lost := if h.lost.contains l then h.lost else l :: h.lost, dirty := h.dirty.erase l }).errorRecord cls p a
  if (upTo 12).any s.home.tooLost then s.modDev (Device.set 8) else s

/-- R378: a line is lost at its home on another package, whose Bamosh has the record; the line stands here as R370's number for
it. -/
def State.loseFar (s : State) (l : Nat) : State :=
  let n := l % 2 ^ 48
  s.modExport (fun e => (s.fab.exports.any fun y => y.sameHome e && remoteLine y.part y.lobj n == l) && !e.lost.contains n) fun e => { e with lost := n :: e.lost }

/-- R369: an uncorrectable error of a CLASS is found: 1 word `a` of core `c`'s scratchpad; 2 line `a` of its L1G; 3 the
line at physical address `a` in a home slice; 4 to 6 that line in HBM, the weight store or the second tier, or with `a` from 2^80
on the line of another package that it numbers; 7 the context state of core `c`, or, from number 320 on, that of a saved
context. -/
def execUncorrectableError (kind c a : Nat) (p : Option Nat) (s : State) : Out :=
  match kind with
  | 1 => .next (if c < 320 && a < 2 ^ 18 then
      (s.modAt c fun k => { k with lost := if k.lost.contains a then k.lost else a :: k.lost }).errorRecord 1 p (s.unitNo c)
    else s)
  | 2 => .next ((s.modAt c fun k => { k with l1g := dropAt k.l1g a }).corrects)
  | 3 => .next (if s.home.dirty.contains (lineOf a) then s.loseLine 3 p a else s.corrects)
  | 4 => .next (if 2 ^ 80 ≤ a then s.loseFar a else if a / 2 ^ 45 = 0 then s.loseLine 4 p a else s)
  | 5 => .next (if a / 2 ^ 45 = 2 then s.loseLine 5 p a else s)
  | 6 => .next (if 2 ^ 80 ≤ a then s.loseFar a else if a / 2 ^ 45 = 1 then s.loseLine 6 p a else s)
  | 7 => .next ((s.newId.errorRecord 7 p (s.unitNo c)).engineCause c (failureInfo s.fresh))
  | _ => .next s

/-- R369: a corrected error changes no value and is only counted. -/
def execCorrectedError (_kind _c _a : Nat) (s : State) : Out := .next s.corrects

/-- A line of another package rewritten at its home there. -/
def State.repairFar (s : State) (line : Nat) (v : List Byte) : State :=
  let n := line % 2 ^ 48
  s.modExport (fun e => s.fab.exports.any fun y => y.sameHome e && remoteLine y.part y.lobj n == line) fun e =>
    { e with mem := e.mem.setBytes (n * 64) v, lost := e.lost.erase n }

/-- R369, R370: Bamosh rewrites a lost line, here or on another package, from a source copy; a record that waited for it alone
re-executes. -/
def execLostLineRepair (line : Nat) (v : List Byte) (s : State) : Out :=
  if !s.lineLost line || v.length ≠ 64 then .next s
  else
    let s : State := if line < 2 ^ 80 then (s.modHome fun h => { h.place (line * 64) v with lost := h.lost.erase line })
      else s.repairFar line v
    let f := fun (r : Nat × Rec) => (r.1, { r.2 with repair := r.2.repair.map fun l => l.filter fun x => x != line })
    .next { s with parts := s.parts.map fun (q : Part) => Part.rerunReady { q with recs := q.recs.map f } }

/-- The token instance (R123) of an engine instance as ENGMAP numbers it; a vector engine has no tokens. -/
def tokenInst (u : Nat) : Option (BitVec 3) :=
  if u = 2 then some 2 else if u = 3 then some 3 else if u = 4 then some 0 else if u = 5 then some 1 else none

/-- R122: the tokens of a failed instance resolve with kind 1; `n` bounds them. -/
def State.resolveFailed (s : State) (c : Nat) (i : BitVec 3) : Nat → State
  | 0 => s
  | n + 1 =>
    match (s.coreAt c).ctx.ops.findIdx? fun o => o.inst == i with
    | none => s
    | some k => match s.opAt c k with
      | some o => State.resolveFailed (s.resolveTok c k (o.fail 1 0)) c i n
      | none => s

/-- TRAPINFO of the engine failure of instance `i`: the lowest of its tokens (R123). -/
def State.instInfo (s : State) (c : Nat) (i : BitVec 3) : Option DWord :=
  ((upTo 32).find? fun t => (s.coreAt c).ctx.ops.any fun o => o.inst == i && o.tok.toNat == t).map fun t =>
    BitVec.ofNat 64 (t + 2 ^ 8 + i.toNat * 2 ^ 12)

/-- R371: instance `u` of core `c` fails at run time, or, with `u` = 6, its sequencer, scalar unit, coder or scratchpad:
its tokens resolve, and the context ends with an engine failure. -/
def execEngineFailure (c u : Nat) (s : State) : Out :=
  let x := s.physCore c u
  if 320 ≤ c || 7 ≤ u || s.dev.defects.contains x then .next s
  else
    let s := s.newId.modDev fun d => ({ d with defects := d.defects ++ [x] } : Device).lostUnit
    match tokenInst u with
    | none => .next (s.engineCause c (failureInfo s.fresh))
    | some i =>
      let info := (s.instInfo c i).getD (failureInfo s.fresh)
      .next ((s.resolveFailed c i (s.coreAt c).ctx.ops.length).engineCause c info)

end Sys2Proof.Machine
end

