-- ==== Sys2Proof/Machine/Fabric.lean ====
section
/-! DEFINITION. The fabric (R375 to R385): links, remote requests at their homes and back, reduce groups, and pod bind. -/

namespace Sys2Proof.Machine

open Sys2Proof

/-! ## Links (R376, R377) -/

/-- Link `l`, if the package has it. -/
def State.linkAt (s : State) (l : Nat) : Option Link := s.fab.links[l]?

/-- Link `l` changed. -/
def State.modLink (s : State) (l : Nat) (f : Link → Link) : State :=
  { s with fab := { s.fab with links := changeAt s.fab.links l f } }

/-- A link carries flits now. -/
def State.carries (s : State) (l : Nat) : Bool := (s.linkAt l).any fun x => x.up && !x.training

/-- R376: a replay of one flit on link `l`, which comes through or fails; after eight failures the link retrains. -/
def execFlitReplay (l : Nat) (good : Bool) (s : State) : Out :=
  if !s.carries l then .next s
  else .next (s.modLink l fun x =>
    if good then { x with fails := 0 }
    else if x.fails = 7 then { x with fails := 0, training := true }
    else { x with fails := x.fails + 1 })

/-- R376: a link has retrained, and the flits that waited go on. -/
def execLinkRetrained (l : Nat) (s : State) : Out := .next (s.modLink l fun x => { x with training := false })

/-- R376, R377: a link that has not retrained in time goes out of service; its requests are resent over another plane. -/
def execLinkOutOfService (l : Nat) (s : State) : Out :=
  if !(s.linkAt l).any fun x => x.up && x.training then .next s
  else
    let s := s.modLink l fun x => { x with up := false, training := false }
    let s := s.modDev fun d => { d with status := (d.status &&& ~~~((1 : DWord) <<< (20 + l))) ||| replace }
    let f := fun (r : Remote) => if r.link = l then { r with link := s.route } else r
    .next { s with fab := { s.fab with reqs := s.fab.reqs.map f } }

/-! ## Requests (R377 to R380) -/

/-- Request `k` changed. -/
def State.modReq (s : State) (k : Nat) (f : Remote → Remote) : State :=
  { s with fab := { s.fab with reqs := changeAt s.fab.reqs k f } }

/-- Request `k` leaves the fabric. -/
def State.dropReq (s : State) (k : Nat) : State := { s with fab := { s.fab with reqs := dropAt s.fab.reqs k } }

/-- The place among core `c`'s operations of the one numbered `id`. -/
def State.opIndex (s : State) (c id : Nat) : Option Nat := (s.coreAt c).ctx.ops.findIdx? fun o => o.id == id

/-- A request fails with an error kind: a core access takes its port fault, an engine's word fails its operation. -/
def State.failReq (s : State) (r : Remote) (e : BitVec 4) : State :=
  match r.op with
  | none => s.portFault r.core r.acc e
  | some (id, _) =>
    match s.opIndex r.core id with
    | none => s
    | some k => match s.opAt r.core k with
      | some _ => s.failOp r.core k e r.acc.off
      | none => s

/-- R377, R369: request `k` has found no route for 1 ms and is abandoned: it fails as a memory error of CLASS 8. -/
def execRequestAbandoned (k : Nat) (s : State) : Out :=
  match s.fab.reqs[k]? with
  | none => .next s
  | some r =>
    let s := (s.dropReq k).errorRecord 8 (some r.acc.via.part) r.link
    let note := fun (x : Ctx) => { x with task := { x.task with
      errs := x.task.errs ++ [(8, r.acc.via.obj, r.acc.line, 0)] } }
    .next ((s.onCtx r.core r.acc.uid note).failReq r 6)

/-- The items of an access as its home's bytes give them. -/
def Export.readItems (e : Export) (l : List Item) : List (Nat × DWord) :=
  l.map fun i => i.gives (e.mem.readLE i.off i.width)

/-- The home's bytes after the items of a store. -/
def Export.writeItems (e : Export) (l : List Item) : Export :=
  { e with mem := l.foldl (fun m i => m.writeLE i.off i.data.toNat i.width) e.mem }

/-- The line of an offset is a synchronisation line at its home. -/
def Export.sync (e : Export) (x : Nat) : Bool := ((look e.tags (x / 64)).getD 0).getLsbD 0

/-- The export names the object that a request reaches. -/
def Remote.reaches (r : Remote) (e : Export) : Bool :=
  e.part == r.acc.via.part && e.pkg == r.pkg && e.obj == r.robj

/-- R134: an engine's word that a higher row of its payload has overwritten: one written, or one that has performed at its
home and not yet come back. -/
def State.reqShadowed (s : State) (r : Remote) : Bool :=
  match r.op with
  | none => false
  | some (id, n) =>
    (s.coreAt r.core).ctx.ops.any fun o => o.id == id && (match o.payload with
      | some (_, _, h, _, g) => o.shadowed h (h.gAt g) n || s.fab.reqs.any fun q => match q.op with
        | some (j, m) => j == id && q.done && q.err == 0 && n < m && m / h.wpr != n / h.wpr && h.gAt g m == h.gAt g n
        | none => false
      | none => false)

/-- The mark, among the lines that an operation has reached, of a line of an object on another package: logged as a read or
as a write (R277). -/
def remoteMark (a : Acc) : Nat × Nat := (2 ^ 80 + a.line, if a.kind.writes then 11 else 10)

/-- R277, R379: the record of a remote access at its home, `e`, on a synchronisation line: an atomic's always, a core's load
or store, and an engine's first access to the line; XRED words are never logged (R140). -/
def State.remoteRec (s : State) (r : Remote) (e : Export) (x : Ctx) (old : DWord) (new : Option DWord) : Option LogRec :=
  let a := r.acc
  match a.kind, r.op with
  | .atomic op _ _, none => some (s.lineRec r.core x 1 op.no a.via.obj a.off (atomLogValue op a.len old new.isNone))
  | .atomic _ _ _, some _ => none
  | k, none => if e.sync a.off then some (s.lineRec r.core x 2 (if k.writes then 1 else 0) a.via.obj a.off 0) else none
  | k, some (id, n) =>
    match x.ops.find? fun o => o.id == id with
    | none => none
    | some o =>
      let first := match o.payload with
        | some (_, _, h, _, g) => h.first g n
        | none => a.off
      if e.sync a.off && !o.touched.contains (remoteMark a) then
        some (s.lineRec r.core x 2 (if k.writes then 3 else 2) a.via.obj first 0)
      else none

/-- An operation has logged the line of one of its remote words. -/
def State.markRemote (s : State) (r : Remote) : State :=
  match r.op with
  | none => s
  | some (id, _) => s.onCtx r.core r.acc.uid fun x => { x with ops := x.ops.map fun o =>
      if o.id = id then { o with touched := remoteMark r.acc :: o.touched } else o }

/-- R283, step 5: in replay, an access in the fabric, or an engine operation, that issued before request `r` in its task has still to
log the same record: it takes it first. -/
def State.reqTwinAhead (s : State) (r : Remote) (x : Ctx) (e : LogRec) : Bool :=
  let a := r.acc
  x.sys.replay && (match r.op with
    | none => s.fab.reqs.any fun q => q.core == r.core && q.op.isNone && !q.done && q.acc.twin a
    | some (id, _) => (x.ops.takeWhile fun o => o.id != id).any fun o => !o.touched.contains (remoteMark a)
        && (o.places a.kind.writes).any fun y => y.1.obj == a.via.obj && y.2 / 4 == e.off)

/-- A request performs at its home: its effect there, the value it sends back, and its digest items. -/
def State.performReq (s : State) (k : Nat) (r : Remote) (e : Export) : State :=
  let a := r.acc
  let x := s.ctxOf r.core a.uid
  match a.items with
  | [] => s
  | i :: _ =>
    let old := BitVec.ofNat 64 (e.mem.readLE i.off i.width)
    let new := match a.kind with
      | .atomic op nv _ => op.apply i.width old i.data nv
      | _ => none
    let turn : Turn := match s.remoteRec r e x old new with
      | some l => if s.reqTwinAhead r x l then .held s else (match s.turnOf x l none false with
        | .held s => .held s
        | .go s y => .go (s.markRemote r) y)
      | none => .go s none
    match turn with
    | .held s => s
    | .go s _ =>
      let write := fun (f : Export → Export) (s : State) => s.modExport r.reaches f
      let finish := fun (v : List (Nat × DWord)) (s : State) => s.modReq k fun r => { r with done := true, value := v }
      match a.kind with
      | .load => finish (e.readItems a.items) s
      | .store =>
        let s := if s.reqShadowed r then s else write (fun e => e.writeItems a.items) s
        finish [] (if r.op.isSome then s else s.onCtx r.core a.uid (Ctx.storeDone a.id a.fold))
      | .atomic _ _ _ =>
        let s := match new with
          | some v => write (fun e => { e with mem := e.mem.writeLE i.off v.toNat i.width }) s
          | none => s
        if r.op.isSome then finish [(0, new.getD 0)] s
        else finish [(0, old)] (s.onCtx r.core a.uid (Ctx.storeDone a.id (atomicFold a.via.obj a.sigma a.off i.width new)))

/-! ## Reduce groups (R382 to R384) -/

/-- R383: one level of the pairwise tree; an absent value changes nothing. -/
def pairWords (f : Word → Word → Word) : List (Option Word) → List (Option Word)
  | x :: y :: l =>
    (match x, y with
      | some a, some b => some (f a b)
      | some a, none => some a
      | none, b => b) :: pairWords f l
  | l => l

/-- R383: the tree over member indices, `n` levels deep. -/
def treeSum (f : Word → Word → Word) : Nat → List (Option Word) → Option Word
  | 0, l => (l.head?).join
  | n + 1, l => treeSum f n (pairWords f l)

/-- FP32 addition by RNE. -/
def addF32 (x y : Word) : Word :=
  BitVec.ofNat 32 (Fmt.f32.add .rne 0 (Fmt.f32.decode x.toNat) (Fmt.f32.decode y.toNat)).1

/-- R383: the combined word of the members' words, each present, in order. -/
def groupWord (fmt : Nat) (l : List Word) : Word :=
  let n := Nat.log2 (2 * l.length)
  match fmt with
  | 0 => (treeSum addF32 n (l.map some)).getD 0
  | 1 => (treeSum (· + ·) n (l.map some)).getD 0
  | _ =>
    let half := fun (o : Nat) =>
      let w := (treeSum addF32 n (l.map fun (x : Word) => some ((x.extractLsb' o 16).setWidth 32 <<< 16))).getD 0
      BitVec.ofNat 16 (Fmt.bf16.convert .rne 0 (Fmt.f32.decode w.toNat)).1
    half 16 ++ half 0

/-- The aligned 4-byte words of a store, or none where it does not cover whole ones. -/
def groupWords (l : List Item) : Option (List (Nat × Word)) :=
  l.foldr (fun (i : Item) (r : Option (List (Nat × Word))) => match r with
    | none => none
    | some r =>
      if i.width = 4 && i.off % 4 = 0 then some ((i.off, i.data.setWidth 32) :: r)
      else if i.width = 8 && i.off % 4 = 0 then
        some ((i.off, i.data.setWidth 32) :: (i.off + 4, (i.data >>> 32).setWidth 32) :: r)
      else none) (some [])

/-- R383: the combined value of a word's round, once every other member has contributed: `vals` are the other members' words, by
member index and offset, and `w` is this package's. -/
def groupSum (g : GroupDecl) (own : Nat) (vals : List (Nat × Nat × Word)) (x : Nat) (w : Word) : Option Word :=
  let ws := (upTo g.members.length).map fun m => if m = own then some w
    else (vals.find? fun v => v.1 == m && v.2.1 == x).map fun v => v.2.2
  if ws.all Option.isSome then some (groupWord g.fmt (ws.filterMap id)) else none

/-- R383: word `x` of request `k` waits for the next round: a request of this package that stands before it holds its
contribution to the round. -/
def State.roundHeld (s : State) (k : Nat) (r : Remote) (x : Nat) : Bool :=
  (s.fab.reqs.take k).any fun q => q.acc.via.part == r.acc.via.part && q.pkg == r.pkg && q.robj == r.robj
    && q.rest.any fun l => l.any fun y => y.1 == x

/-- R383: a combined word is written at offset `x` of the target object of the member on this package. -/
def State.groupWrite (s : State) (p target : Nat) (y : Nat × Word) : State :=
  match (s.part p).phys target y.1 with
  | some a => (s.modHome fun h => h.write a 4 y.2.toNat).enterWay p a
  | none => s

/-- R344: the write of a combined word at an offset of the target object is held. -/
def State.groupHeld (s : State) (p target x : Nat) : Bool :=
  match (s.part p).phys target x with
  | some a => s.lineHeld p a
  | none => false

/-- R383: the rounds of a contribution's words that are complete write their combined words; the others are left. -/
def State.rounds (s : State) (k : Nat) (r : Remote) (g : GroupDecl) (own : Nat) (vals : List (Nat × Nat × Word)) :
    List (Nat × Word) → State × List (Nat × Word)
  | [] => (s, [])
  | (x, w) :: l =>
    match if s.roundHeld k r x || s.groupHeld r.acc.via.part g.target x then none else groupSum g own vals x w with
    | some v => State.rounds (s.groupWrite r.acc.via.part g.target (x, v)) k r g own vals l
    | none => let y := State.rounds s k r g own vals l; (y.1, (x, w) :: y.2)

/-- R344: the line of a contribution is charged, at its first combined word, for the context that issued it. -/
def State.groupCharge (s : State) (r : Remote) (g : GroupDecl) : State :=
  match (s.part r.acc.via.part).phys g.target r.acc.off with
  | some a => s.charge r.acc.via.part r.core r.acc.uid a
  | none => s

/-- R382 to R384: a contribution to a reduce group reaches the switch, where each of its words joins a round of its own; it
performs once all of them are complete. Anything else there is refused. -/
def State.contribute (s : State) (k : Nat) (r : Remote) (g : GroupDecl) (vals : List (Nat × Nat × Word)) : State :=
  let bad := s.modReq k fun r => { r with done := true, err := 3 }
  match r.acc.kind, groupWords r.acc.items with
  | .store, some ws =>
    if ws.any fun w => g.size ≤ w.1 then bad
    else match (g.members.findIdx? fun m => m == s.fab.pod) with
      | none => bad
      | some own =>
        let y := s.rounds k r g own vals (r.rest.getD ws)
        let y := if (r.rest.getD ws).length = ws.length && y.2.length < ws.length then (y.1.groupCharge r g, y.2) else y
        match y.2 with
        | _ :: _ => y.1.modReq k fun r => { r with rest := some y.2 }
        | [] =>
          let s := y.1.modReq k fun r => { r with done := true, rest := none }
          if r.op.isSome then s else s.onCtx r.core r.acc.uid (Ctx.storeDone r.acc.id r.acc.fold)
  | _, _ => bad

/-- R378, R380: request `k` is checked at PKG and performs at its home there; at a group, with the other members' words. -/
def execRemotePerform (k : Nat) (vals : List (Nat × Nat × Word)) (s : State) : Out :=
  match s.fab.reqs[k]? with
  | none => .next s
  | some r =>
    if r.done then .next s
    else match s.exportAt r.acc.via.part r.acc.via.obj r.pkg r.robj with
      | none => .next (if s.carries r.link then s.modReq k fun r => { r with done := true, err := 3 } else s)
      | some e =>
        match s.groupAt e with
        | some g => .next (if s.carries g.plane then s.contribute k r g vals else s)
        | none =>
          if !s.carries r.link then .next s
          else match e.check (s.exportHeld e r.acc.off r.acc.len) r.acc.off r.acc.len with
          | some x => .next (s.modReq k fun r => { r with done := true, err := x })
          | none => .next (s.performReq k r e)

/-- A word of an operation has come back. -/
def State.wordBack (s : State) (c k n : Nat) (r : Remote) : State :=
  let v := match r.value with
    | (_, v) :: _ => v
    | [] => 0
  match r.acc.kind with
  | .load => s.modOp c k (Op.got n (v.setWidth 32))
  | .store => s.modOp c k (Op.put n ((match r.acc.items with
    | i :: _ => i.data
    | [] => 0)))
  | .atomic _ _ _ => s.modOp c k (Op.put n v)

/-- R380: request `k`, which has performed, returns to its issuer. -/
def execRemoteComplete (k : Nat) (s : State) : Out :=
  match s.fab.reqs[k]? with
  | none => .next s
  | some r =>
    if !r.done || !s.carries r.link then .next s
    else
      let s := s.dropReq k
      if r.err ≠ 0 then
        let lost := fun (x : Ctx) => { x with task := { x.task with errs := x.task.errs ++
          [(4, r.acc.via.obj, r.acc.line, remoteLine r.acc.via.part r.acc.via.obj r.acc.line)] } }
        .next ((if r.err = 6 then s.onCtx r.core r.acc.uid lost else s).failReq r r.err)
      else match r.op with
        | some (id, n) => .next (match s.opIndex r.core id with
          | some j => s.wordBack r.core j n r
          | none => s)
        | none =>
          let give := fun (x : Ctx) => { x with pipe := x.pipe.give (r.acc.wait.getD 0) r.value }
          .next (if r.acc.kind.loads then s.onCtx r.core r.acc.uid give else s)

/-- R382: Bamosh registers a reduce group of a partition in the switches of a plane; this package's member has an ordinary
target object for it. -/
def execReduceGroupRegister (g : GroupDecl) (s : State) : Out :=
  let target := ((s.part g.part).obj g.target).any fun o => o.typ == 0
  if 12 ≤ g.part || 18 ≤ g.plane || g.size % 64 ≠ 0 || g.members.length > 4096 || !decide g.members.Nodup || 2 < g.fmt
      || (g.members.contains s.fab.pod && !target)
      || (s.fab.groups.any fun x => x.id == g.id && x.pkg == g.pkg && x.part == g.part) then .next s
  else .next { s with fab := { s.fab with groups := s.fab.groups ++ [g] } }

/-! ## Pod bind (R375, R385) -/

/-- R375, R385: Bamosh gives the package its pod number, and partitions their pod barriers, by partition and number. -/
def execPodBind (n : Nat) (bars : List (Nat × Nat)) (s : State) : Out :=
  let ok := n < 4096 && bars.all (fun b => b.1 < 12 && b.2 < 16) && decide (bars.map fun b => b.2).Nodup
    && s.fab.reqs.isEmpty && s.cores.toList.all fun k => k.run == .idle
  if !ok then .next s
  else
    let s := bars.foldl (fun s b => s.modBar 5 b.2 fun _ => default) { s with fab := { s.fab with pod := n } }
    let f := fun (p : Nat) (q : Part) =>
      { q with grant := { q.grant with podBars := (bars.filter fun b => b.1 == p).map fun b => b.2 } }
    .next ((upTo 12).foldl (fun s p => s.modPart p (f p)) s)

end Sys2Proof.Machine
end

