-- ==== Sys2Proof/Machine/Words.lean ====
section
/-! DEFINITION. The word steps of every engine operation and its RESOLVE (R117), by what the operation does, and the end
of a refresh window (R246). -/

namespace Sys2Proof.Machine

open Sys2Proof

/-- Operation `k` of core `c` reads word `w` of its source. -/
def State.readWord (s : State) (c k w : Nat) (op : Op) : State :=
  match op.kind with
  | .copy _ _ _ _ _ _ _ => s.copyRead c k w op
  | .chain _ _ _ _ => s.copyRead c k w op
  | .sub _ => s.copyRead c k w op
  | .multi _ _ _ _ _ _ _ => s.multiRead c k w op
  | .prefetch _ _ _ _ => s.prefetchRead c k w op
  | .latch _ _ _ => s.matRead c k w op
  | .mma _ _ _ _ _ _ _ _ _ _ => s.matRead c k w op
  | .ldz _ _ _ => s.matRead c k w op
  | .bmv x => s.bmvRead c k w op x
  | .residency _ _ _ _ => s
  | .drain _ => s
  | .zero _ _ => s
  | .stz _ _ _ _ _ _ _ => s
  | .trn _ _ => s
  | .inv _ _ _ => s
  | .unsub _ => s
  | .bfen _ _ _ => s

/-- R117: ENGINE_READ of word `w`: a payload word (R140, R152, R329, R330), a source word of a multicast (R232), a line of
a prefetch (R154), a word of a matrix operand (R161), or of a bank product's x or scales (R336). -/
def execEngineRead (c k w : Nat) (s : State) : Out :=
  match s.opAt c k with
  | none => .next s
  | some op => .next (s.readWord c k w op)

/-- Operation `k` of core `c` writes word `w` of its destination. -/
def State.writeWord (s : State) (c k w : Nat) (op : Op) : State :=
  match op.kind with
  | .copy _ _ h _ _ _ _ => if w < h.words then s.copyWrite c k w op else s.copyFlag c k op
  | .chain _ _ _ (some r) => if w < r.sh.words then s.copyWrite c k w op else s.chainNext c k op
  | .chain _ _ _ none => s
  | .sub _ => s.copyWrite c k w op
  | .multi _ _ _ _ _ _ _ => s.multiWrite c k w op
  | .stz _ _ _ _ _ _ _ => s.matWrite c k w op
  | .bmv x => s.bmvWrite c k w op x
  | .prefetch _ _ _ _ => s
  | .residency _ _ _ _ => s
  | .drain _ => s
  | .latch _ _ _ => s
  | .mma _ _ _ _ _ _ _ _ _ _ => s
  | .zero _ _ => s
  | .ldz _ _ _ => s
  | .trn _ _ => s
  | .inv _ _ _ => s
  | .unsub _ => s
  | .bfen _ _ _ => s

/-- R117: ENGINE_WRITE of word `w`. After the payload's words, a copy's next word is its flag word (R141), and a chain's is
the OWN bit of its record (R152). -/
def execEngineWrite (c k w : Nat) (s : State) : Out :=
  match s.opAt c k with
  | none => .next s
  | some op => .next (s.writeWord c k w op)

/-- Operation `k` of core `c` resolves, if nothing of it is left. -/
def State.resolveOp (s : State) (c k : Nat) (op : Op) : State :=
  match op.kind with
  | .copy _ _ _ _ _ _ _ => s.resolveCopy c k op
  | .multi _ _ _ _ _ _ _ => s.resolveMulti c k op
  | .chain _ _ _ _ => s.resolveChain c k op
  | .prefetch _ _ _ _ => s.resolveHint c k op
  | .residency _ _ _ _ => s.resolveHint c k op
  | .drain _ => s.resolveMat c k op
  | .latch _ _ _ => s.resolveMat c k op
  | .mma _ _ _ _ _ _ _ _ _ _ => s.resolveMat c k op
  | .zero _ _ => s.resolveMat c k op
  | .ldz _ _ _ => s.resolveMat c k op
  | .stz _ _ _ _ _ _ _ => s.resolveMat c k op
  | .trn _ _ => s.resolveMat c k op
  | .sub x => s.resolveSub c k op x
  | .unsub n => s.resolveUnsub c k op n
  | .bmv x => s.resolveBmv c k op x
  | .inv p id _ => s.resolveInv p id
  | .bfen _ _ _ => s

/-- R117: RESOLVE. An XINV's token resolves in the last acknowledgement, or at once where nothing holds entries (R315); an XBFEN's in BANK_FENCE (R337). -/
def execResolve (c k : Nat) (s : State) : Out :=
  match s.opAt c k with
  | none => .next s
  | some op => .next (s.resolveOp c k op)

/-! ## Refresh windows (R246) -/

/-- The window of bank group `g` ended with the last cycle. -/
def State.windowEnds (s : State) (g : Nat) : Bool := g < 16 && s.cyc % 32768 == 2048 * g + 384

/-- The aligned words that an item covers. -/
def Item.words (i : Item) : Nat := (i.off + i.width - 1) / 4 - i.off / 4 + 1

/-- The delayed accesses of queue `q` of core `c` perform, one after another, each of their words counted (R352); the third
argument bounds their number. -/
def State.lateEntry (c q : Nat) : Nat → State → State
  | 0, s => s
  | n + 1, s =>
    let l := (s.coreAt c).queues.get (BitVec.ofNat 2 q)
    match l.findIdx? QEntry.isLate with
    | none => s
    | some k => match l[k]? with
      | some (.acc a) =>
        let s := s.countFor c a.uid 14 ((a.items.map Item.words).foldl (· + ·) 0)
        let f := fun (x : Core) => { x with
          queues := x.queues.put (BitVec.ofNat 2 q) (changeAt (x.queues.get (BitVec.ofNat 2 q)) k fun e => e.onTime) }
        State.lateEntry c q n ((s.modAt c f).queuePerform c q k (match a.kind with
          | .atomic _ _ _ => true
          | _ => false))
      | _ => s

/-- The delayed words of operation `id` of core `c` are read or written. -/
def State.lateWords (s : State) (c id : Nat) : State :=
  match s.opIndex c id with
  | none => s
  | some k =>
    match s.opAt c k with
    | none => s
    | some op =>
      let s := (s.countAt c 14 op.late.length).modOp c k fun o => { o with late := [] }
      op.late.foldl (fun s x =>
        match s.opAt c k with
        | some o => if x.1 then s.writeWord c k x.2 o else s.readWord c k x.2 o
        | none => s) s

/-- R246: the refresh window of bank group `g` has ended, and what it delayed performs. -/
def execRefreshWindowEnd (g : Nat) (s : State) : Out :=
  if !s.windowEnds g then .next s
  else
    let one := fun (s : State) (c : Nat) =>
      let s := (upTo 4).foldl (fun s q => s.lateEntry c q ((s.coreAt c).queues.get (BitVec.ofNat 2 q)).length) s
      ((s.coreAt c).ctx.ops.map fun o => o.id).foldl (fun s i => s.lateWords c i) s
    .next ((upTo 320).foldl one s)

end Sys2Proof.Machine
end

