-- ==== Sys2Proof/Machine/Slots.lean ====
section
/-! DEFINITION. The slots of a bundle: the meaning of each slot form, for the sequencer, and what a bundle asks of the
core before its slots may read (R46, R120, R222, R239, R282). -/

namespace Sys2Proof.Machine

open Sys2Proof

/-- The meaning of a slot; the steps of the machine and the device are no slots. -/
def execSlot (i : Instr) (s : State) : Out :=
  match i with
  | .add d a b => execAdd d a b s
  | .addi d a imm => execAddi d a imm s
  | .sub d a b => execSub d a b s
  | .mul d a b => execMul d a b s
  | .mulh d a b => execMulh d a b s
  | .mulhu d a b => execMulhu d a b s
  | .div d a b => execDiv d a b s
  | .divu d a b => execDivu d a b s
  | .rem d a b => execRem d a b s
  | .remu d a b => execRemu d a b s
  | .and d a b => execAnd d a b s
  | .andi d a imm => execAndi d a imm s
  | .or d a b => execOr d a b s
  | .ori d a imm => execOri d a imm s
  | .xor d a b => execXor d a b s
  | .xori d a imm => execXori d a imm s
  | .shl d a b => execShl d a b s
  | .shli d a sh => execShli d a sh s
  | .shr d a b => execShr d a b s
  | .shri d a sh => execShri d a sh s
  | .sra d a b => execSra d a b s
  | .srai d a sh => execSrai d a sh s
  | .slt d a b => execSlt d a b s
  | .sltu d a b => execSltu d a b s
  | .slti d a imm => execSlti d a imm s
  | .seq d a b => execSeq d a b s
  | .min d a b => execMin d a b s
  | .max d a b => execMax d a b s
  | .minu d a b => execMinu d a b s
  | .maxu d a b => execMaxu d a b s
  | .sel d a b => execSel d a b s
  | .clz d a => execClz d a s
  | .ctz d a => execCtz d a s
  | .popc d a => execPopc d a s
  | .li d imm => execLi d imm s
  | .mov d a => execMov d a s
  | .lds d a imm sz => execLds d a imm sz s
  | .sts d a imm sz => execSts d a imm sz s
  | .ldg d a cap imm sz => execLdg d a cap imm sz s
  | .stg d a cap imm sz => execStg d a cap imm sz s
  | .atadd d a b w => execAtadd d a b w s
  | .atmin d a b w => execAtmin d a b w s
  | .atmax d a b w => execAtmax d a b w s
  | .atand d a b w => execAtand d a b w s
  | .ator d a b w => execAtor d a b w s
  | .atxor d a b w => execAtxor d a b w s
  | .atxchg d a b w => execAtxchg d a b w s
  | .atcas d a b w => execAtcas d a b w s
  | .atfadd d a b w => execAtfadd d a b w s
  | .cnarrow d a b => execCnarrow d a b s
  | .crights d a mask => execCrights d a mask s
  | .cget d a sel => execCget d a sel s
  | .cmovc d a => execCmovc d a s
  | .sget d n => execSget d n s
  | .sset n a => execSset n a s
  | .seed d => execSeed d s
  | .dget d => execDget d s
  | .vadd t d a b m => execVadd t d a b m s
  | .vsub t d a b m => execVsub t d a b m s
  | .vmul t d a b m => execVmul t d a b m s
  | .vfma t d a b m => execVfma t d a b m s
  | .vfms t d a b m => execVfms t d a b m s
  | .vmin t d a b m => execVmin t d a b m s
  | .vmax t d a b m => execVmax t d a b m s
  | .vabs t d a m => execVabs t d a m s
  | .vneg t d a m => execVneg t d a m s
  | .vcmpEq t d a b m => execVcmpEq t d a b m s
  | .vcmpNe t d a b m => execVcmpNe t d a b m s
  | .vcmpLt t d a b m => execVcmpLt t d a b m s
  | .vcmpLe t d a b m => execVcmpLe t d a b m s
  | .vand d a b m => execVand d a b m s
  | .vor d a b m => execVor d a b m s
  | .vxor d a b m => execVxor d a b m s
  | .vshl d a b m => execVshl d a b m s
  | .vshr d a b m => execVshr d a b m s
  | .vsra d a b m => execVsra d a b m s
  | .vsel d a b m => execVsel d a b m s
  | .vmov d a m => execVmov d a m s
  | .vbcast d a w m => execVbcast d a w m s
  | .vidx d a b m => execVidx d a b m s
  | .vcvt d a src dst m => execVcvt d a src dst m s
  | .vpack d a pos w m => execVpack d a pos w m s
  | .vunpk d a sx pos w m => execVunpk d a sx pos w m s
  | .vpermb d a b m => execVpermb d a b m s
  | .vshuf d a b m => execVshuf d a b m s
  | .vrot d a b m => execVrot d a b m s
  | .vred d a op t m => execVred d a op t m s
  | .vscan d a op t m => execVscan d a op t m s
  | .vdot4 d a b m => execVdot4 d a b m s
  | .vresc d a out zpe qs m => execVresc d a out zpe qs m s
  | .vqnt d a b f => execVqnt d a b f s
  | .vdq d a b f => execVdq d a b f s
  | .vexp2 d a m => execVexp2 d a m s
  | .vlog2 d a m => execVlog2 d a m s
  | .vrcp d a m => execVrcp d a m s
  | .vrsq d a m => execVrsq d a m s
  | .vtanh d a m => execVtanh d a m s
  | .vrand d a m => execVrand d a m s
  | .vld d a imm m => execVld d a imm m s
  | .vst d a imm m => execVst d a imm m s
  | .vlds d a b m => execVlds d a b m s
  | .vsts d a b m => execVsts d a b m s
  | .vgth d a b m => execVgth d a b m s
  | .vsct d a b m => execVsct d a b m s
  | .vldg d a cap imm m => execVldg d a cap imm m s
  | .vstg d a cap imm m => execVstg d a cap imm m s
  | .vldq d a imm m => execVldq d a imm m s
  | .vmand d a b => execVmand d a b s
  | .vmor d a b => execVmor d a b s
  | .vmnot d a => execVmnot d a s
  | .vmpop d a => execVmpop d a s
  | .vmfst d a => execVmfst d a s
  | .vmset d a b => execVmset d a b s
  | .mcfg t n a toks => execMcfg t n a toks s
  | .mdrain t n toks => execMdrain t n toks s
  | .mlatch t l b sc vec toks => execMlatch t l b sc vec toks s
  | .mma t a b w toks => execMma t a b w toks s
  | .mmat t a b w toks => execMmat t a b w toks s
  | .mzero t z int toks => execMzero t z int toks s
  | .mldz t z b int toks => execMldz t z b int toks s
  | .mst t z b w toks => execMst t z b w toks s
  | .mtrn t a b toks => execMtrn t a b toks s
  | .mstat t a b clr toks => execMstat t a b clr toks s
  | .mnz t a n toks => execMnz t a n toks s
  | .xld t a b ring shape flag w toks => execXld t a b ring shape flag w toks s
  | .xst t a b shape flag w toks => execXst t a b shape flag w toks s
  | .xmc t a b ring shape flag w toks => execXmc t a b ring shape flag w toks s
  | .xred t a b int shape flag w toks => execXred t a b int shape flag w toks s
  | .xhost t a b out shape flag w toks => execXhost t a b out shape flag w toks s
  | .xchain t a ch toks => execXchain t a ch toks s
  | .xpf t b lvl w toks => execXpf t b lvl w toks s
  | .xres t b lvl w toks => execXres t b lvl w toks s
  | .xsub t r b out w toks => execXsub t r b out w toks s
  | .xunsub t r toks => execXunsub t r toks s
  | .xbmv t a b flag fmt w toks => execXbmv t a b flag fmt w toks s
  | .xbfen t b w toks => execXbfen t b w toks s
  | .xinv t mode flag n toks => execXinv t mode flag n toks s
  | .kbind d a b => execKbind d a b s
  | .kinitEnc d => execKinitEnc d s
  | .kinitDec d => execKinitDec d s
  | .kenc d a p w m => execKenc d a p w m s
  | .kdec d a p w m => execKdec d a p w m s
  | .kbypE d a n w m => execKbypE d a n w m s
  | .kbypD d a n w m => execKbypD d a n w m s
  | .ktgt d a w m => execKtgt d a w m s
  | .kflush d => execKflush d s
  | .ksave d a imm => execKsave d a imm s
  | .krest d a imm => execKrest d a imm s
  | .kstat d a sel => execKstat d a sel s
  | .pld d a alpha rows => execPld d a alpha rows s
  | .pqnt d a alpha rows => execPqnt d a alpha rows s
  | .pnrm d a alpha rows => execPnrm d a alpha rows s
  | .nop => execNop s
  | .br imm => execBr imm s
  | .bc imm a b c => execBc imm a b c s
  | .bz imm a => execBz imm a s
  | .bnz imm a => execBnz imm a s
  | .jr a => execJr a s
  | .call imm => execCall imm s
  | .ret => execRet s
  | .loop imm a => execLoop imm a s
  | .spawn d a b n => execSpawn d a b n s
  | .arrive d a b sc => execArrive d a b sc s
  | .waitb d a b sc => execWaitb d a b sc s
  | .waitw a b c => execWaitw a b c s
  | .awaitf d r => execAwaitf d r s
  | .relslot r => execRelslot r s
  | .twait t => execTwait t s
  | .yield tick => execYield tick s
  | .safept n => execSafept n s
  | .drain sc => execDrain sc s
  | .fence sc => execFence sc s
  | .trap n => execTrap n s
  | .svc n => execSvc n s
  | .eret => execEret s
  | .retire => execRetire s
  | .enq d a b n cap => execEnq d a b n cap s
  | .tdec d a => execTdec d a s
  | .cancel d a => execCancel d a s
  | .logmark a tag => execLogmark a tag s
  | .issue _ => .next s
  | .resultWrite _ => .next s
  | .divideResult _ => .next s
  | .valueArrives _ _ => .next s
  | .queuePerform _ _ _ => .next s
  | .fill _ _ => .next s
  | .evict _ _ => .next s
  | .engineRead _ _ _ => .next s
  | .engineWrite _ _ _ => .next s
  | .resolve _ _ => .next s
  | .claim _ _ => .next s
  | .ringFill _ _ => .next s
  | .chainRecordRead _ _ => .next s
  | .hostCompletion _ _ _ _ _ => .next s
  | .pkgBarrierComplete _ _ => .next s
  | .childEntry _ => .next s
  | .accept _ => .next s
  | .atomicPerform _ _ => .next s
  | .acquireDone _ => .next s
  | .refreshWindowEnd _ => .next s
  | .request _ _ => .next s
  | .bind _ _ _ _ => .next s
  | .dispatch _ => .next s
  | .stealAttempt _ => .next s
  | .timetableRelease _ _ => .next s
  | .deadlineMiss _ _ => .next s
  | .hangFault _ => .next s
  | .preEmption _ _ => .next s
  | .quickStop _ _ => .next s
  | .terminalCause _ _ _ => .next s
  | .svcAnswer _ _ => .next s
  | .unmapPreparation _ => .next s
  | .unmapFree _ => .next s
  | .walk _ _ => .next s
  | .tableChange _ _ _ _ => .next s
  | .invalidate _ _ => .next s
  | .ack _ _ => .next s
  | .leaseRevoke _ _ _ => .next s
  | .unmap _ _ _ _ => .next s
  | .hostHandleUnbind _ _ => .next s
  | .arenaBirth _ _ => .next s
  | .arenaDeath _ _ => .next s
  | .free _ _ => .next s
  | .push _ _ => .next s
  | .pull _ _ => .next s
  | .bankRead _ _ _ => .next s
  | .writeBack _ => .next s
  | .bankFence _ _ => .next s
  | .remotePerform _ _ => .next s
  | .remoteComplete _ => .next s
  | .replayDivergenceFault _ => .next s
  | .serialisedReExecution _ => .next s
  | .frcTick => .next s
  | .powerSample _ _ _ _ => .next s
  | .wayMaskChange _ _ _ _ _ => .next s
  | .partitionBind _ _ => .next s
  | .queueKill _ _ _ => .next s
  | .killClear _ _ => .next s
  | .launch _ _ => .next s
  | .powerGood => .next s
  | .imageFetch _ _ _ => .next s
  | .selfTest _ => .next s
  | .engmapWrite _ _ => .next s
  | .reducedService => .next s
  | .fullService _ => .next s
  | .antiRollbackRaise _ _ _ => .next s
  | .attestationReport _ _ => .next s
  | .uncorrectableError _ _ _ _ => .next s
  | .correctedError _ _ _ => .next s
  | .engineFailure _ _ => .next s
  | .flitReplay _ _ => .next s
  | .linkOutOfService _ => .next s
  | .requestAbandoned _ => .next s
  | .reduceGroupRegister _ => .next s
  | .logFullRelease _ _ _ => .next s
  | .replaySupply _ _ _ => .next s
  | .logExhausted _ _ => .next s
  | .flagsWrite _ => .next s
  | .hintdropWrite _ => .next s
  | .roundctlWrite _ => .next s
  | .fmtWrite _ _ => .next s
  | .wswinAccess _ => .next s
  | .logctlWrite _ => .next s
  | .evselWrite _ _ => .next s
  | .trapRegisterWrite _ _ => .next s
  | .lostLineRepair _ _ => .next s
  | .podBind _ _ => .next s
  | .partitionUnbind _ => .next s
  | .debugStopResume _ => .next s
  | .linkRetrained _ => .next s
  | .jobAbandon _ _ => .next s

/-- The instruction is a step of the machine or the device, not a slot of a bundle. -/
def isStep : Instr → Bool
  | .add _ _ _ => false
  | .addi _ _ _ => false
  | .sub _ _ _ => false
  | .mul _ _ _ => false
  | .mulh _ _ _ => false
  | .mulhu _ _ _ => false
  | .div _ _ _ => false
  | .divu _ _ _ => false
  | .rem _ _ _ => false
  | .remu _ _ _ => false
  | .and _ _ _ => false
  | .andi _ _ _ => false
  | .or _ _ _ => false
  | .ori _ _ _ => false
  | .xor _ _ _ => false
  | .xori _ _ _ => false
  | .shl _ _ _ => false
  | .shli _ _ _ => false
  | .shr _ _ _ => false
  | .shri _ _ _ => false
  | .sra _ _ _ => false
  | .srai _ _ _ => false
  | .slt _ _ _ => false
  | .sltu _ _ _ => false
  | .slti _ _ _ => false
  | .seq _ _ _ => false
  | .min _ _ _ => false
  | .max _ _ _ => false
  | .minu _ _ _ => false
  | .maxu _ _ _ => false
  | .sel _ _ _ => false
  | .clz _ _ => false
  | .ctz _ _ => false
  | .popc _ _ => false
  | .li _ _ => false
  | .mov _ _ => false
  | .lds _ _ _ _ => false
  | .sts _ _ _ _ => false
  | .ldg _ _ _ _ _ => false
  | .stg _ _ _ _ _ => false
  | .atadd _ _ _ _ => false
  | .atmin _ _ _ _ => false
  | .atmax _ _ _ _ => false
  | .atand _ _ _ _ => false
  | .ator _ _ _ _ => false
  | .atxor _ _ _ _ => false
  | .atxchg _ _ _ _ => false
  | .atcas _ _ _ _ => false
  | .atfadd _ _ _ _ => false
  | .cnarrow _ _ _ => false
  | .crights _ _ _ => false
  | .cget _ _ _ => false
  | .cmovc _ _ => false
  | .sget _ _ => false
  | .sset _ _ => false
  | .seed _ => false
  | .dget _ => false
  | .vadd _ _ _ _ _ => false
  | .vsub _ _ _ _ _ => false
  | .vmul _ _ _ _ _ => false
  | .vfma _ _ _ _ _ => false
  | .vfms _ _ _ _ _ => false
  | .vmin _ _ _ _ _ => false
  | .vmax _ _ _ _ _ => false
  | .vabs _ _ _ _ => false
  | .vneg _ _ _ _ => false
  | .vcmpEq _ _ _ _ _ => false
  | .vcmpNe _ _ _ _ _ => false
  | .vcmpLt _ _ _ _ _ => false
  | .vcmpLe _ _ _ _ _ => false
  | .vand _ _ _ _ => false
  | .vor _ _ _ _ => false
  | .vxor _ _ _ _ => false
  | .vshl _ _ _ _ => false
  | .vshr _ _ _ _ => false
  | .vsra _ _ _ _ => false
  | .vsel _ _ _ _ => false
  | .vmov _ _ _ => false
  | .vbcast _ _ _ _ => false
  | .vidx _ _ _ _ => false
  | .vcvt _ _ _ _ _ => false
  | .vpack _ _ _ _ _ => false
  | .vunpk _ _ _ _ _ _ => false
  | .vpermb _ _ _ _ => false
  | .vshuf _ _ _ _ => false
  | .vrot _ _ _ _ => false
  | .vred _ _ _ _ _ => false
  | .vscan _ _ _ _ _ => false
  | .vdot4 _ _ _ _ => false
  | .vresc _ _ _ _ _ _ => false
  | .vqnt _ _ _ _ => false
  | .vdq _ _ _ _ => false
  | .vexp2 _ _ _ => false
  | .vlog2 _ _ _ => false
  | .vrcp _ _ _ => false
  | .vrsq _ _ _ => false
  | .vtanh _ _ _ => false
  | .vrand _ _ _ => false
  | .vld _ _ _ _ => false
  | .vst _ _ _ _ => false
  | .vlds _ _ _ _ => false
  | .vsts _ _ _ _ => false
  | .vgth _ _ _ _ => false
  | .vsct _ _ _ _ => false
  | .vldg _ _ _ _ _ => false
  | .vstg _ _ _ _ _ => false
  | .vldq _ _ _ _ => false
  | .vmand _ _ _ => false
  | .vmor _ _ _ => false
  | .vmnot _ _ => false
  | .vmpop _ _ => false
  | .vmfst _ _ => false
  | .vmset _ _ _ => false
  | .mcfg _ _ _ _ => false
  | .mdrain _ _ _ => false
  | .mlatch _ _ _ _ _ _ => false
  | .mma _ _ _ _ _ => false
  | .mmat _ _ _ _ _ => false
  | .mzero _ _ _ _ => false
  | .mldz _ _ _ _ _ => false
  | .mst _ _ _ _ _ => false
  | .mtrn _ _ _ _ => false
  | .mstat _ _ _ _ _ => false
  | .mnz _ _ _ _ => false
  | .xld _ _ _ _ _ _ _ _ => false
  | .xst _ _ _ _ _ _ _ => false
  | .xmc _ _ _ _ _ _ _ _ => false
  | .xred _ _ _ _ _ _ _ _ => false
  | .xhost _ _ _ _ _ _ _ _ => false
  | .xchain _ _ _ _ => false
  | .xpf _ _ _ _ _ => false
  | .xres _ _ _ _ _ => false
  | .xsub _ _ _ _ _ _ => false
  | .xunsub _ _ _ => false
  | .xbmv _ _ _ _ _ _ _ => false
  | .xbfen _ _ _ _ => false
  | .xinv _ _ _ _ _ => false
  | .kbind _ _ _ => false
  | .kinitEnc _ => false
  | .kinitDec _ => false
  | .kenc _ _ _ _ _ => false
  | .kdec _ _ _ _ _ => false
  | .kbypE _ _ _ _ _ => false
  | .kbypD _ _ _ _ _ => false
  | .ktgt _ _ _ _ => false
  | .kflush _ => false
  | .ksave _ _ _ => false
  | .krest _ _ _ => false
  | .kstat _ _ _ => false
  | .pld _ _ _ _ => false
  | .pqnt _ _ _ _ => false
  | .pnrm _ _ _ _ => false
  | .nop => false
  | .br _ => false
  | .bc _ _ _ _ => false
  | .bz _ _ => false
  | .bnz _ _ => false
  | .jr _ => false
  | .call _ => false
  | .ret => false
  | .loop _ _ => false
  | .spawn _ _ _ _ => false
  | .arrive _ _ _ _ => false
  | .waitb _ _ _ _ => false
  | .waitw _ _ _ => false
  | .awaitf _ _ => false
  | .relslot _ => false
  | .twait _ => false
  | .yield _ => false
  | .safept _ => false
  | .drain _ => false
  | .fence _ => false
  | .trap _ => false
  | .svc _ => false
  | .eret => false
  | .retire => false
  | .enq _ _ _ _ _ => false
  | .tdec _ _ => false
  | .cancel _ _ => false
  | .logmark _ _ => false
  | .issue _ => true
  | .resultWrite _ => true
  | .divideResult _ => true
  | .valueArrives _ _ => true
  | .queuePerform _ _ _ => true
  | .fill _ _ => true
  | .evict _ _ => true
  | .engineRead _ _ _ => true
  | .engineWrite _ _ _ => true
  | .resolve _ _ => true
  | .claim _ _ => true
  | .ringFill _ _ => true
  | .chainRecordRead _ _ => true
  | .hostCompletion _ _ _ _ _ => true
  | .pkgBarrierComplete _ _ => true
  | .childEntry _ => true
  | .accept _ => true
  | .atomicPerform _ _ => true
  | .acquireDone _ => true
  | .refreshWindowEnd _ => true
  | .request _ _ => true
  | .bind _ _ _ _ => true
  | .dispatch _ => true
  | .stealAttempt _ => true
  | .timetableRelease _ _ => true
  | .deadlineMiss _ _ => true
  | .hangFault _ => true
  | .preEmption _ _ => true
  | .quickStop _ _ => true
  | .terminalCause _ _ _ => true
  | .svcAnswer _ _ => true
  | .unmapPreparation _ => true
  | .unmapFree _ => true
  | .walk _ _ => true
  | .tableChange _ _ _ _ => true
  | .invalidate _ _ => true
  | .ack _ _ => true
  | .leaseRevoke _ _ _ => true
  | .unmap _ _ _ _ => true
  | .hostHandleUnbind _ _ => true
  | .arenaBirth _ _ => true
  | .arenaDeath _ _ => true
  | .free _ _ => true
  | .push _ _ => true
  | .pull _ _ => true
  | .bankRead _ _ _ => true
  | .writeBack _ => true
  | .bankFence _ _ => true
  | .remotePerform _ _ => true
  | .remoteComplete _ => true
  | .replayDivergenceFault _ => true
  | .serialisedReExecution _ => true
  | .frcTick => true
  | .powerSample _ _ _ _ => true
  | .wayMaskChange _ _ _ _ _ => true
  | .partitionBind _ _ => true
  | .queueKill _ _ _ => true
  | .killClear _ _ => true
  | .launch _ _ => true
  | .powerGood => true
  | .imageFetch _ _ _ => true
  | .selfTest _ => true
  | .engmapWrite _ _ => true
  | .reducedService => true
  | .fullService _ => true
  | .antiRollbackRaise _ _ _ => true
  | .attestationReport _ _ => true
  | .uncorrectableError _ _ _ _ => true
  | .correctedError _ _ _ => true
  | .engineFailure _ _ => true
  | .flitReplay _ _ => true
  | .linkOutOfService _ => true
  | .requestAbandoned _ => true
  | .reduceGroupRegister _ => true
  | .logFullRelease _ _ _ => true
  | .replaySupply _ _ _ => true
  | .logExhausted _ _ => true
  | .flagsWrite _ => true
  | .hintdropWrite _ => true
  | .roundctlWrite _ => true
  | .fmtWrite _ _ => true
  | .wswinAccess _ => true
  | .logctlWrite _ => true
  | .evselWrite _ _ => true
  | .trapRegisterWrite _ _ => true
  | .lostLineRepair _ _ => true
  | .podBind _ _ => true
  | .partitionUnbind _ => true
  | .debugStopResume _ => true
  | .linkRetrained _ => true
  | .jobAbandon _ _ => true

/-! ## What a slot waits for (R46) -/

/-- The tokens that an engine slot or a TWAIT names, the one it produces first. -/
def slotToks (env : Env) (i : Instr) : List Tok :=
  ((i.writes ++ i.reads env).filter fun r => r.1 == 9).map fun r => BitVec.ofNat 5 r.2

/-- R46, condition 2; a TWAIT parks instead (R124). -/
def Core.awaitsTok (c : Core) (env : Env) (i : Instr) : Bool :=
  match i with
  | .twait _ => false
  | _ => c.tokPending (slotToks env i)

/-- R46, condition 3, R48, R108: a register that the slot reads or writes has an interlocked result pending. -/
def Core.interlocked (c : Core) (env : Env) (i : Instr) : Bool :=
  (i.reads env ++ i.writes).any fun r =>
    (r.1 == 0 && c.ctx.pipe.spend.get (BitVec.ofNat 6 r.2)) || (r.1 == 2 && c.ctx.pipe.vpend.get (BitVec.ofNat 6 r.2))

/-- R46, condition 4. -/
def Core.divides (c : Core) (i : Instr) : Bool :=
  (match i with
    | .div _ _ _ => true
    | .divu _ _ _ => true
    | .rem _ _ _ => true
    | .remu _ _ _ => true
    | _ => false) && c.ctx.pipe.inflight.any fun r => r.mark

/-- R46, condition 1, R164: a tile or latch that the slot names is busy. -/
def Core.matBusy (c : Core) (i : Instr) : Bool :=
  let mma := fun (b : Reg) (w : MmaWord) =>
    let l : LReg := b.setWidth 3
    let lat := w.bkind == 2
    (lat && c.latchBusy l) || c.tileBusy w.zt (some (if lat then l.getLsbD 2 else w.arr))
  match i with
  | .mlatch _ l _ _ _ _ => c.latchBusy l
  | .mma _ _ b w _ => mma b w
  | .mmat _ _ b w _ => mma b w
  | .mzero _ z _ _ => c.tileBusy z none
  | .mldz _ z _ _ _ => c.tileBusy z none
  | .mst _ z _ _ _ => c.tileBusy z none
  | .mtrn _ a b _ => c.tileBusy a none || c.tileBusy b none
  | .mstat _ z _ _ _ => c.tileBusy z none
  | _ => false

/-- A slot with a global access, or of the matrix, copy or hoist forms (R239). -/
def reachesOut (env : Env) (i : Instr) : Bool :=
  (match i with
    | .ldg _ _ _ _ _ => true
    | .stg _ _ _ _ _ => true
    | .vldg _ _ _ _ _ => true
    | .vstg _ _ _ _ _ => true
    | .twait _ => false
    | .atadd _ _ _ _ => true
    | .atmin _ _ _ _ => true
    | .atmax _ _ _ _ => true
    | .atand _ _ _ _ => true
    | .ator _ _ _ _ => true
    | .atxor _ _ _ _ => true
    | .atxchg _ _ _ _ => true
    | .atcas _ _ _ _ => true
    | .atfadd _ _ _ _ => true
    | _ => !(slotToks env i).isEmpty)

/-- A slot that stores to the scratchpad or writes a coder window (R116). -/
def storesSpad (i : Instr) : Bool :=
  match i with
  | .sts _ _ _ _ => true
  | .vst _ _ _ _ => true
  | .vsts _ _ _ _ => true
  | .vsct _ _ _ _ => true
  | .ksave _ _ _ => true
  | .kenc _ _ _ _ _ => true
  | .kbypE _ _ _ _ _ => true
  | .kflush _ => true
  | .relslot _ => true
  | _ => false

/-- R330: an AWAITF on a ring that feeds an xsub.out. -/
def State.claimsOut (s : State) (i : Instr) : Bool :=
  match i with
  | .awaitf _ r => s.core.feedsOut r
  | _ => false

/-- R120, R330: in strict order mode the slot's scratchpad store waits for the core's earlier loads; so does an AWAITF on a ring that
feeds an xsub.out, which writes INUSE. -/
def State.strictWaits (s : State) (i : Instr) : Bool :=
  s.core.ctx.sys.strict && (storesSpad i || s.claimsOut i) && s.loadsBefore s.cur.val s.fresh

/-- What stalls the bundle of a slot. -/
def State.slotStalls (s : State) (env : Env) (i : Instr) : Bool :=
  s.core.awaitsTok env i || s.core.interlocked env i || s.core.divides i || s.core.matBusy i
    || s.strictWaits i

/-- R239: the acquire hold on the bundle of a slot. -/
def State.acquireHolds (s : State) (env : Env) (i : Instr) : Bool := s.core.ctx.pipe.acquire && reachesOut env i

/-- R282: the records that a slot reserves at issue. -/
def Sys.reserves (y : Sys) (i : Instr) : Nat :=
  match i with
  | .atadd _ _ _ _ => 1
  | .atmin _ _ _ _ => 1
  | .atmax _ _ _ _ => 1
  | .atand _ _ _ _ => 1
  | .ator _ _ _ _ => 1
  | .atxor _ _ _ _ => 1
  | .atxchg _ _ _ _ => 1
  | .atcas _ _ _ _ => 1
  | .atfadd _ _ _ _ => 1
  | .enq _ _ _ _ _ => 1
  | .tdec _ _ => 1
  | .cancel _ _ => 1
  | .seed _ => 1
  | .logmark _ _ => if y.logctl.getLsbD 29 then 1 else 0
  | _ => 0

/-- R282: the ring has no room for the records that the slots of a bundle reserve, beside those reserved before and those of the
operations that the log-full stall holds before it. -/
def State.noRoom (s : State) (l : List Instr) : Bool :=
  let x := s.core.ctx
  let n := (l.map x.sys.reserves).foldl (· + ·) 0
  let held := match s.launchAt x.ring.part x.ring.lch with
    | some y => ((s.stalled x.ring.part x.ring.lch y).takeWhile fun y => y.1 != x.task.uid || y.2 != heldBundle).length
    | none => 0
  x.sys.record && n != 0 && decide (2 ^ x.ring.lg < s.ringCount x.ring + s.reserved x.ring + held + n)

/-- A SPAWN, which waits for the lower cores of its quad to attempt their bundles of the cycle (R222). -/
def State.spawnWaits (s : State) (i : Instr) : Bool :=
  match i with
  | .spawn _ _ _ _ => (upTo (s.cur.val % 4)).any fun j =>
      let k := s.coreAt (s.cur.val / 4 * 4 + j)
      k.run == .running && !k.issued
  | _ => false

/-- R123: the token for which a slot traps: the first that it names with an error, or a RETIRE's (R58). -/
def State.slotTokErr (s : State) (env : Env) (i : Instr) : Option Tok :=
  match i with
  | .retire => if s.retireWaits s.core then none else s.core.badToken
  | _ => s.core.tokErr (slotToks env i)

end Sys2Proof.Machine
end

