-- ==== Sys2Proof/Machine/Issue.lean ====
section
/-! DEFINITION. ISSUE (R117): what falls on a bundle boundary, in the order of R206; fetch and decode (R15, R16, R25); and
the issue of a bundle as a whole. -/

namespace Sys2Proof.Machine

open Sys2Proof

/-! ## Fetch (R15, R16, R310) -/

/-- What ends the fetch of a bundle before its last word: a handled trap; a lost line (R369); a range that nothing maps,
whose lease has gone (R310). -/
inductive FetchEnd where
  | trap (code : Byte) (info : DWord)
  | lost (off pa : Nat) (info : DWord)
  | unmapped
  deriving DecidableEq, Repr

/-- The words of a bundle as far as they were fetched, what ended the fetch, and whether the X lease failed. -/
structure Fetched where
  words   : List Word
  bad     : Option FetchEnd
  revoked : Bool
  deriving DecidableEq, Repr

/-- R218: the physical address of an offset of a code object; one whose leaves are unmapped is fetched on until its frames are
freed. -/
def Part.codeAt (q : Part) (o x : Nat) : Option Nat :=
  (q.phys o x).orElse fun _ =>
    (q.unmapped.find? fun y => y.1 == o && y.2.covers x).map fun y => (y.2.xlat default true).phys x

/-- R16, R310: the words of the bundle at offset `o` of the code capability, from word `i` on, `n` at most. -/
def State.fetchFrom (s : State) (p : Nat) (lease : Nat) (k : Cap) (o : Nat) : Nat → Nat → Fetched
  | 0, _ => ⟨[], none, false⟩
  | n + 1, i =>
    let a := o + 4 * i
    let info := fun (r : Nat) => memInfo i 0 0 r a
    if a + 4 > k.len then ⟨[], some (.trap 0x03 (info 1)), false⟩
    else if !k.has 2 then ⟨[], some (.trap 0x03 (info 2)), false⟩
    else
      let x := k.base + a
      match (s.part p).codeAt k.obj x with
      | none => ⟨[], some .unmapped, true⟩
      | some pa =>
        if s.home.lost.contains (lineOf pa) then ⟨[], some (.lost x pa (info 0)), false⟩
        else
          let w := s.home.word pa
          let r := !(s.part p).leased lease k.obj x 4 false true
          if w.msb then ⟨[w], none, r⟩
          else
            let f := s.fetchFrom p lease k o n (i + 1)
            { f with words := w :: f.words, revoked := r || f.revoked }

/-- R15, R16: the bundle at the PC of the current context is fetched. -/
def State.fetch (s : State) : Fetched :=
  let x := s.core.ctx
  if x.pc.extractLsb' 0 2 ≠ 0 then ⟨[], some (.trap 0x02 (trapInfo26 0 14 none 0 0)), false⟩
  else s.fetchFrom s.core.pid x.task.lease x.code x.pc.toNat 8 0

/-- The end of a fetch is taken at the bundle. -/
def State.takeFetchEnd (s : State) (e : FetchEnd) : State :=
  let pc := s.core.ctx.pc
  match e with
  | .trap code info => s.takeTrap code info pc
  | .lost x pa info => (s.modCtx (Ctx.memErr s.core.ctx.code.obj x pa)).takeTerminal 0x13 false pc info
  | .unmapped => s.takeTerminal 0x15 false pc 0

/-! ## Decode (R25) and safe points (R214, R216) -/

/-- What decode reads of a context: its privilege (R40) and its format pairs (R160, R170). -/
def Sys.env (y : Sys) : Env := { priv := y.priv, fp4a := fmtFp4 y.fmt0, fp4b := fmtFp4 y.fmt1 }

/-- The live-state list of a safe-point bundle: that of its SAFEPT, or none for a RETIRE. -/
def State.safeList (s : State) (env : Env) : List Word → Option Live
  | [] => none
  | w :: l =>
    let z := Slot.ofWord w
    if z.cls = 5 && z.op = 0x17 then some default
    else if z.cls = 5 && z.op = 0x11 then
      some (match decodeWords env (w :: l) with
        | .ok (.safept n) => s.liveList n.toNat
        | _ => default)
    else s.safeList env l

/-- R216: the list at a task's entry: S1 to S8 and the C registers. -/
def entryLive : Live := { (default : Live) with s := 0x1FE, c := 0xFFFF }

/-- The live-state list at the bundle, if it is a safe point. -/
def State.safeAt (s : State) (env : Env) (ws : List Word) : Option Live :=
  if s.core.ctx.pipe.safeDone then s.safeList env ws else some entryLive

/-- A slot of a bundle: its index, its ordinal in its class (R29) and its instruction. -/
structure Placed where
  slot  : Nat
  ord   : Nat
  instr : Instr
  deriving DecidableEq, Repr

/-- The slots of a decoded bundle with their ordinals. -/
def placed (ws : List Word) (l : List (Nat × Instr)) : List Placed :=
  let cls := fun (i : Nat) => (ws[i]?).map fun w => (Slot.ofWord w).cls
  l.map fun x => { slot := x.1, ord := (upTo x.1).countP fun j => cls j == cls x.1, instr := x.2 }

/-! ## Stops of issue -/

/-- The bundle of the current core could not issue, for a park or another stall, for one cycle more (R46, R352). -/
def State.stall (s : State) (p : Park) : State := (s.modPipe fun x => { x with park := p, stalled := true }).count 3

/-- The current core's registers, sticky flags and results under way as core `k` has them. -/
def State.withResultsOf (k : Core) (s : State) : State :=
  s.modCtx fun x => { x with
    regs := k.ctx.regs, sys := { x.sys with flags := k.ctx.sys.flags },
    pipe := { x.pipe with inflight := k.ctx.pipe.inflight, shadow := k.ctx.pipe.shadow } }

/-- A context is parked (R46, condition 6). -/
def Pipe.isParked (p : Pipe) : Bool := p.parked || p.retiring || p.park == .retire

/-- R294, step 4: in a serialised re-execution, a core issues only where no other of the launch has issued in the cycle, no idle
core waits to dispatch a bound record of lower index, and the contexts of lower index are parked. -/
def State.mayIssue (s : State) : Bool :=
  let k := s.core
  match s.launchAt k.pid k.ctx.task.launch with
  | some l =>
    !l.serial || (upTo 320).all fun c =>
      let o := s.coreAt c
      let waits := o.run == .idle && o.spawnAt.isNone && (s.part k.pid).cores.contains c && o.entry.any fun e =>
        ((s.part k.pid).getRec e.1).any fun r => r.launch == k.ctx.task.launch && decide (r.lidx.toNat < k.ctx.task.lidx.toNat)
      c == s.cur.val || !waits && (o.run != .running || o.pid != k.pid || o.ctx.task.launch != k.ctx.task.launch
        || !(o.issued && !o.ctx.pipe.stalled)
            && (decide (k.ctx.task.lidx.toNat < o.ctx.task.lidx.toNat) || o.ctx.pipe.isParked))
  | none => true

/-! ## Issue of a bundle (R46, R117, R206) -/

/-- A slot alone, on the bundle's reads. -/
def State.alone (s : State) (x : Placed) : State :=
  match execSlot x.instr { s with pre := some s.core, slot := x.slot, ord := x.ord, adv := 0 } with
  | .next t => { t with pre := none, slot := 0, ord := 0, adv := 0 }
  | _ => s

/-- A slot that ends its bundle and is left for last: TRAP or RETIRE. -/
def Placed.last (x : Placed) : Bool :=
  match x.instr with
  | .trap _ => true
  | .retire => true
  | _ => false

/-- The write of ROUNDCTL, which stands over the advances of SRSEQ in its bundle. -/
def Placed.setsRound (x : Placed) : Bool :=
  match x.instr with
  | .sset n _ => n == 1
  | _ => false

/-- A slot acts behind the slots before it, all of them on the bundle's reads. -/
def State.slotStep (s : State) (x : Placed) : State :=
  match execSlot x.instr { s with slot := x.slot, ord := x.ord } with
  | .next t => t
  | _ => s

/-- R30, R181: the bundle is split. -/
def Core.splits (c : Core) (l : List Placed) (ws : List Word) : Bool :=
  let two := fun (cls : BitVec 3) => decide (2 ≤ ws.countP fun w => (Slot.ofWord w).cls == cls)
  let same := fun (i : Nat) => c.engmap.getLsbD i == c.engmap.getLsbD (i + 1)
  (two 1 && same 0) || (two 3 && same 4) || l.any fun x => match x.instr with
    | .kenc _ _ _ w _ => w
    | .kdec _ _ _ w _ => w
    | .kbypE _ _ _ w _ => w
    | .kbypD _ _ _ w _ => w
    | .ktgt _ _ w _ => w
    | _ => false

/-- R352: the events of a bundle that issues. -/
def State.countIssue (s : State) (l : List Placed) (ws : List Word) : State :=
  let n := fun (cls : BitVec 3) => ws.countP fun w => (Slot.ofWord w).cls == cls
  let m := l.countP fun x => match x.instr with
    | .mma _ _ _ _ _ => true
    | .mmat _ _ _ _ _ => true
    | _ => false
  (((s.count 2).count 5 (n 1)).count 6 m).count 7 (n 3)

/-- The bundle has performed: the context goes on at the next one, unless a RETIRE waits in this one. -/
def State.bundleEnd (s : State) : State :=
  { s.modCtx fun x => if x.pipe.retiring then x else { x with pc := x.npc } with pre := none, slot := 0, ord := 0, adv := 0 }

/-- R30: the slots that the inserted cycle executes: the second vector and the second copy slot of a kind with one
instance left. -/
def Core.second (c : Core) (ws : List Word) (x : Placed) : Bool :=
  let same := fun (i : Nat) => c.engmap.getLsbD i == c.engmap.getLsbD (i + 1)
  let cls := (ws[x.slot]?).map fun w => (Slot.ofWord w).cls
  x.ord == 1 && ((cls == some 1 && same 0) || (cls == some 3 && same 4))

/-- The scratchpad words that a vector store writes, as its slot reads its sources (R105, R106). -/
def Core.storeWords (c : Core) (i : Instr) : List (Nat × Word × BitVec 4) :=
  let of := fun (m : Mask) (addr : Nat → Nat) (x : VReg) => (lanesOf m).map fun l => (addr l, x.lane l, (15 : BitVec 4))
  match i with
  | .vst d a imm m => of (c.G m) (rowAddr (c.S a) imm) (c.V d)
  | .vsts d a b m => of (c.G m) (strideAddr (c.S a) (c.S b)) (c.V d)
  | .vsct d a b m => of (c.G m) (indexAddr (c.S a) (c.V b)) (c.V d)
  | _ => []

/-- R30: entries and operations that the second half of a bundle adds stand in their queues and start in the inserted
cycle. -/
def Core.postpone (t : Nat) (old new : Core) : Core :=
  { new with
    spad := old.spad, lost := old.lost,
    queues := File.gen 2 fun q =>
      let n := (old.queues.get (BitVec.ofNat 2 q)).length
      let l := new.queues.get (BitVec.ofNat 2 q)
      l.take n ++ (l.drop n).map (QEntry.map fun a => { a with start := t }),
    ctx := { new.ctx with ops := new.ctx.ops.take old.ctx.ops.length
      ++ (new.ctx.ops.drop old.ctx.ops.length).map fun o => { o with start := t } } }

/-- R30, R31, R119: a slot of a split bundle, all of them in slot order. What the second half stores waits for the inserted
cycle; where a later slot of the first half covers one of its bytes, that slot's value stands. An access of the second half that
stands in a lower slot keeps its place in its queue, before those of later slots of the first half (log entry 156). -/
def State.splitStep (ws : List Word) (s : State) (x : Placed) : State :=
  let t := s.slotStep x
  let late := s.core.ctx.pipe.late
  if s.rd.second ws x then
    (t.modCore fun c => s.core.postpone (s.cyc + 1) c).modPipe fun p => { p with late := late ++ s.rd.storeWords x.instr }
  else if late.isEmpty then t
  else
    let u := ((s.modCore (Core.storeLate late)).slotStep x).core.spad
    let keep := fun (y : Nat × Word × BitVec 4) => BitVec.ofNat 4 (((upTo 4).map fun i =>
      if y.2.2.getLsbD i && u.read (y.1 + i) == y.2.1.extractLsb' (8 * i) 8 then 2 ^ i else 0).foldl (· + ·) 0)
    t.modPipe fun p => { p with late := late.map fun y => (y.1, y.2.1, keep y) }

/-- R117: every slot of the bundle acts, in slot order, on the values that the bundle read; TRAP and RETIRE come last. -/
def State.perform (s : State) (l : List Placed) (ws : List Word) : State :=
  let split := s.core.splits l ws
  let k := s.core
  let s := (s.countIssue l ws).modPipe fun p =>
    { p with split, stalled := false, logHeld := false, park := .none, safeDone := true }
  let first := l.filter fun x => !x.last && !x.setsRound
  let rest := (l.filter Placed.setsRound) ++ l.filter Placed.last
  ((first ++ rest).foldl (if split then State.splitStep ws else State.slotStep) { s with pre := some k, adv := 0 }).bundleEnd

/-- R282: the bundle of the current context is held for room in the ring: where it is held anew, behind the operations held before it. -/
def State.holdBundle (s : State) : State :=
  let x := s.core.ctx
  if x.pipe.logHeld then s
  else ((s.modLaunch x.ring.part x.ring.lch (Launch.unstalls x.task.uid heldBundle)).modPipe fun p => { p with logHeld := true }).joinStall
    x.ring.part x.ring.lch (x.task.uid, heldBundle)

/-- R46, R206: a decoded bundle stalls, traps, is held, or performs; one with a SPAWN tries again in the same cycle, after
the lower cores of its quad (R222). The check of an atomic is asked for last, when no other slot holds the bundle. `k` is the core without the results of its shadow
buffer, which stay there while nothing issues. -/
def State.bundle (s : State) (k : Core) (env : Env) (l : List Placed) (ws : List Word) : State :=
  let hold := fun (p : Park) (s : State) => (s.withResultsOf k).stall p
  let is := l.map fun x => x.instr
  if is.any s.spawnWaits then (s.withResultsOf k).modCore fun c => { c with issued := false }
  else if is.any fun i => s.slotStalls env i then hold .none s
  else if is.any (s.acquireHolds env) then hold .order s
  else if s.noRoom is then hold .none s.holdBundle
  else match is.findSome? fun i => s.slotTokErr env i with
    | some t => s.tokenError t
    | none =>
      let tried := (l.filter fun x => !x.last).map s.alone
      match tried.find? fun t => t.core.ctx.pipe.trapped with
      | some t => t
      | none =>
        let held := tried.filter fun t => t.core.ctx.pipe.park != .none
        match (held.find? fun t => t.core.ctx.pipe.accept.isNone).orElse fun _ => held.head? with
        | some t => hold t.core.ctx.pipe.park t
        | none =>
          if (is.contains .retire) && s.retireWaits s.core then hold .retire s
          else s.perform l ws

/-- The bundle at the PC of the current context. -/
def State.atBundle (s : State) : Out :=
  let k := s.core
  let s1 := s.modCore fun c => c.unshelve.landDue
  let f := s1.fetch
  let revoke := fun (s : State) => if f.revoked then s.modTask fun t => { t with revoked := true } else s
  let env := k.ctx.sys.env
  match (s.safeAt env f.words).bind fun l => (revoke s).safePoint l with
  | some t => .next t
  | none =>
    let s1 := revoke s1
    match f.bad with
    | some e => .next (s1.takeFetchEnd e)
    | none =>
      match decodeBundle env f.words with
      | .error r => .next (s1.takeTrap (if r.bundle then 0x02 else 0x01) r.info k.ctx.pc)
      | .ok l =>
        let s2 := s1.modCtx fun x => { x with npc := x.pc + BitVec.ofNat 48 (4 * f.words.length) }
        .next (s2.bundle k env (placed f.words l) f.words)

/-- The parks of a bundle already issued: a RETIRE that waits for its own bundle, an SVC without its answer, and a DRAIN;
then the next bundle. -/
def State.nextBundle (s : State) : Out :=
  let x := s.core.ctx
  if x.pipe.retiring then
    match execRetire s with
    | .next t => .next (if t.core.ctx.pipe.retiring then t.stall .retire else t)
    | o => o
  else if x.pipe.svc.isSome then .next (s.stall .svc)
  else match x.pipe.drain with
    | some sc =>
      if s.drainHeld s.cur.val sc then .next (s.stall .none)
      else (s.modPipe fun p => { p with drain := none }).atBundle
    | none => s.atBundle

/-- R206: what falls on the bundle boundary of the current core. A power limit holds issue there as a quick stop does: results not
yet written wait in the shadow result buffer (R211, R213, R345). A bundle whose atomic its home has accepted issues: nothing falls
between the acceptance and its issue (R241). -/
def State.boundary (s : State) : Out :=
  let x := s.core.ctx
  match (if x.pipe.accepted then [] else x.pipe.async) with
  | (code, info) :: r =>
    .next ((s.modPipe fun p => { p with async := r }).takeTerminal code true x.pc info)
  | [] =>
    match (if x.pipe.accepted then none else x.pipe.stopReq) with
    | some w => .next (s.modCore (Core.quickStop w))
    | none =>
      if (s.part s.core.pid).power > 0 then .next ((s.modCore Core.shelve).modPipe fun p => { p with stalled := true })
      else
        let s := s.modCore fun c => c.landDue
        if !s.mayIssue then .next (s.modPipe fun p => { p with stalled := true })
        else (s.modPipe fun p => { p with tried := s.cyc }).nextBundle

/-- R117: core `c` takes its step of the cycle, which in the inserted cycle of a split bundle issues no bundle (R46,
condition 7). -/
def execIssue (c : Nat) (s : State) : Out :=
  let k := s.coreAt c
  if 320 ≤ c || k.issued then .next s
  else if k.inserted then .next (s.modAt c fun k => { k.insertedCycle with issued := true })
  else if k.run ≠ .running then .next s
  else
    let s1 : State := { s.focus c with slot := 0, ord := 0, adv := 0 }
    (s1.modCore fun k => { k with issued := true, ctx := { k.ctx with
      pipe := { k.ctx.pipe with trapped := false, park := .none } } }).boundary

end Sys2Proof.Machine
end

