-- ==== Sys2Proof/Machine/Dispatch.lean ====
section
/-! DEFINITION. One arm for each instruction: a direct call of its meaning, or its rejection by name. -/

namespace Sys2Proof.Machine

/-- The meaning of an instruction. -/
def exec (i : Instr) (s : State) : Host.Outcome State Fault Refusal :=
  match i with
  | .add d a b => Sys2Proof.Machine.execAdd d a b s
  | .addi d a imm => Sys2Proof.Machine.execAddi d a imm s
  | .sub d a b => Sys2Proof.Machine.execSub d a b s
  | .mul d a b => Sys2Proof.Machine.execMul d a b s
  | .mulh d a b => Sys2Proof.Machine.execMulh d a b s
  | .mulhu d a b => Sys2Proof.Machine.execMulhu d a b s
  | .div d a b => Sys2Proof.Machine.execDiv d a b s
  | .divu d a b => Sys2Proof.Machine.execDivu d a b s
  | .rem d a b => Sys2Proof.Machine.execRem d a b s
  | .remu d a b => Sys2Proof.Machine.execRemu d a b s
  | .and d a b => Sys2Proof.Machine.execAnd d a b s
  | .andi d a imm => Sys2Proof.Machine.execAndi d a imm s
  | .or d a b => Sys2Proof.Machine.execOr d a b s
  | .ori d a imm => Sys2Proof.Machine.execOri d a imm s
  | .xor d a b => Sys2Proof.Machine.execXor d a b s
  | .xori d a imm => Sys2Proof.Machine.execXori d a imm s
  | .shl d a b => Sys2Proof.Machine.execShl d a b s
  | .shli d a sh => Sys2Proof.Machine.execShli d a sh s
  | .shr d a b => Sys2Proof.Machine.execShr d a b s
  | .shri d a sh => Sys2Proof.Machine.execShri d a sh s
  | .sra d a b => Sys2Proof.Machine.execSra d a b s
  | .srai d a sh => Sys2Proof.Machine.execSrai d a sh s
  | .slt d a b => Sys2Proof.Machine.execSlt d a b s
  | .sltu d a b => Sys2Proof.Machine.execSltu d a b s
  | .slti d a imm => Sys2Proof.Machine.execSlti d a imm s
  | .seq d a b => Sys2Proof.Machine.execSeq d a b s
  | .min d a b => Sys2Proof.Machine.execMin d a b s
  | .max d a b => Sys2Proof.Machine.execMax d a b s
  | .minu d a b => Sys2Proof.Machine.execMinu d a b s
  | .maxu d a b => Sys2Proof.Machine.execMaxu d a b s
  | .sel d a b => Sys2Proof.Machine.execSel d a b s
  | .clz d a => Sys2Proof.Machine.execClz d a s
  | .ctz d a => Sys2Proof.Machine.execCtz d a s
  | .popc d a => Sys2Proof.Machine.execPopc d a s
  | .li d imm => Sys2Proof.Machine.execLi d imm s
  | .mov d a => Sys2Proof.Machine.execMov d a s
  | .lds d a imm sz => Sys2Proof.Machine.execLds d a imm sz s
  | .sts d a imm sz => Sys2Proof.Machine.execSts d a imm sz s
  | .ldg d a cap imm sz => Sys2Proof.Machine.execLdg d a cap imm sz s
  | .stg d a cap imm sz => Sys2Proof.Machine.execStg d a cap imm sz s
  | .atadd d a b w => Sys2Proof.Machine.execAtadd d a b w s
  | .atmin d a b w => Sys2Proof.Machine.execAtmin d a b w s
  | .atmax d a b w => Sys2Proof.Machine.execAtmax d a b w s
  | .atand d a b w => Sys2Proof.Machine.execAtand d a b w s
  | .ator d a b w => Sys2Proof.Machine.execAtor d a b w s
  | .atxor d a b w => Sys2Proof.Machine.execAtxor d a b w s
  | .atxchg d a b w => Sys2Proof.Machine.execAtxchg d a b w s
  | .atcas d a b w => Sys2Proof.Machine.execAtcas d a b w s
  | .atfadd d a b w => Sys2Proof.Machine.execAtfadd d a b w s
  | .cnarrow d a b => Sys2Proof.Machine.execCnarrow d a b s
  | .crights d a mask => Sys2Proof.Machine.execCrights d a mask s
  | .cget d a sel => Sys2Proof.Machine.execCget d a sel s
  | .cmovc d a => Sys2Proof.Machine.execCmovc d a s
  | .sget d n => Sys2Proof.Machine.execSget d n s
  | .sset n a => Sys2Proof.Machine.execSset n a s
  | .seed d => Sys2Proof.Machine.execSeed d s
  | .dget d => Sys2Proof.Machine.execDget d s
  | .vadd t d a b m => Sys2Proof.Machine.execVadd t d a b m s
  | .vsub t d a b m => Sys2Proof.Machine.execVsub t d a b m s
  | .vmul t d a b m => Sys2Proof.Machine.execVmul t d a b m s
  | .vfma t d a b m => Sys2Proof.Machine.execVfma t d a b m s
  | .vfms t d a b m => Sys2Proof.Machine.execVfms t d a b m s
  | .vmin t d a b m => Sys2Proof.Machine.execVmin t d a b m s
  | .vmax t d a b m => Sys2Proof.Machine.execVmax t d a b m s
  | .vabs t d a m => Sys2Proof.Machine.execVabs t d a m s
  | .vneg t d a m => Sys2Proof.Machine.execVneg t d a m s
  | .vcmpEq t d a b m => Sys2Proof.Machine.execVcmpEq t d a b m s
  | .vcmpNe t d a b m => Sys2Proof.Machine.execVcmpNe t d a b m s
  | .vcmpLt t d a b m => Sys2Proof.Machine.execVcmpLt t d a b m s
  | .vcmpLe t d a b m => Sys2Proof.Machine.execVcmpLe t d a b m s
  | .vand d a b m => Sys2Proof.Machine.execVand d a b m s
  | .vor d a b m => Sys2Proof.Machine.execVor d a b m s
  | .vxor d a b m => Sys2Proof.Machine.execVxor d a b m s
  | .vshl d a b m => Sys2Proof.Machine.execVshl d a b m s
  | .vshr d a b m => Sys2Proof.Machine.execVshr d a b m s
  | .vsra d a b m => Sys2Proof.Machine.execVsra d a b m s
  | .vsel d a b m => Sys2Proof.Machine.execVsel d a b m s
  | .vmov d a m => Sys2Proof.Machine.execVmov d a m s
  | .vbcast d a w m => Sys2Proof.Machine.execVbcast d a w m s
  | .vidx d a b m => Sys2Proof.Machine.execVidx d a b m s
  | .vcvt d a src dst m => Sys2Proof.Machine.execVcvt d a src dst m s
  | .vpack d a pos w m => Sys2Proof.Machine.execVpack d a pos w m s
  | .vunpk d a sx pos w m => Sys2Proof.Machine.execVunpk d a sx pos w m s
  | .vpermb d a b m => Sys2Proof.Machine.execVpermb d a b m s
  | .vshuf d a b m => Sys2Proof.Machine.execVshuf d a b m s
  | .vrot d a b m => Sys2Proof.Machine.execVrot d a b m s
  | .vred d a op t m => Sys2Proof.Machine.execVred d a op t m s
  | .vscan d a op t m => Sys2Proof.Machine.execVscan d a op t m s
  | .vdot4 d a b m => Sys2Proof.Machine.execVdot4 d a b m s
  | .vresc d a out zpe qs m => Sys2Proof.Machine.execVresc d a out zpe qs m s
  | .vqnt d a b f => Sys2Proof.Machine.execVqnt d a b f s
  | .vdq d a b f => Sys2Proof.Machine.execVdq d a b f s
  | .vexp2 d a m => Sys2Proof.Machine.execVexp2 d a m s
  | .vlog2 d a m => Sys2Proof.Machine.execVlog2 d a m s
  | .vrcp d a m => Sys2Proof.Machine.execVrcp d a m s
  | .vrsq d a m => Sys2Proof.Machine.execVrsq d a m s
  | .vtanh d a m => Sys2Proof.Machine.execVtanh d a m s
  | .vrand d a m => Sys2Proof.Machine.execVrand d a m s
  | .vld d a imm m => Sys2Proof.Machine.execVld d a imm m s
  | .vst d a imm m => Sys2Proof.Machine.execVst d a imm m s
  | .vlds d a b m => Sys2Proof.Machine.execVlds d a b m s
  | .vsts d a b m => Sys2Proof.Machine.execVsts d a b m s
  | .vgth d a b m => Sys2Proof.Machine.execVgth d a b m s
  | .vsct d a b m => Sys2Proof.Machine.execVsct d a b m s
  | .vldg d a cap imm m => Sys2Proof.Machine.execVldg d a cap imm m s
  | .vstg d a cap imm m => Sys2Proof.Machine.execVstg d a cap imm m s
  | .vldq d a imm m => Sys2Proof.Machine.execVldq d a imm m s
  | .vmand d a b => Sys2Proof.Machine.execVmand d a b s
  | .vmor d a b => Sys2Proof.Machine.execVmor d a b s
  | .vmnot d a => Sys2Proof.Machine.execVmnot d a s
  | .vmpop d a => Sys2Proof.Machine.execVmpop d a s
  | .vmfst d a => Sys2Proof.Machine.execVmfst d a s
  | .vmset d a b => Sys2Proof.Machine.execVmset d a b s
  | .mcfg t n a toks => Sys2Proof.Machine.execMcfg t n a toks s
  | .mdrain t n toks => Sys2Proof.Machine.execMdrain t n toks s
  | .mlatch t l b sc vec toks => Sys2Proof.Machine.execMlatch t l b sc vec toks s
  | .mma t a b w toks => Sys2Proof.Machine.execMma t a b w toks s
  | .mmat t a b w toks => Sys2Proof.Machine.execMmat t a b w toks s
  | .mzero t z int toks => Sys2Proof.Machine.execMzero t z int toks s
  | .mldz t z b int toks => Sys2Proof.Machine.execMldz t z b int toks s
  | .mst t z b w toks => Sys2Proof.Machine.execMst t z b w toks s
  | .mtrn t a b toks => Sys2Proof.Machine.execMtrn t a b toks s
  | .mstat t a b clr toks => Sys2Proof.Machine.execMstat t a b clr toks s
  | .mnz t a n toks => Sys2Proof.Machine.execMnz t a n toks s
  | .xld t a b ring shape flag w toks => Sys2Proof.Machine.execXld t a b ring shape flag w toks s
  | .xst t a b shape flag w toks => Sys2Proof.Machine.execXst t a b shape flag w toks s
  | .xmc t a b ring shape flag w toks => Sys2Proof.Machine.execXmc t a b ring shape flag w toks s
  | .xred t a b int shape flag w toks => Sys2Proof.Machine.execXred t a b int shape flag w toks s
  | .xhost t a b out shape flag w toks => Sys2Proof.Machine.execXhost t a b out shape flag w toks s
  | .xchain t a ch toks => Sys2Proof.Machine.execXchain t a ch toks s
  | .xpf t b lvl w toks => Sys2Proof.Machine.execXpf t b lvl w toks s
  | .xres t b lvl w toks => Sys2Proof.Machine.execXres t b lvl w toks s
  | .xsub t r b out w toks => Sys2Proof.Machine.execXsub t r b out w toks s
  | .xunsub t r toks => Sys2Proof.Machine.execXunsub t r toks s
  | .xbmv t a b flag fmt w toks => Sys2Proof.Machine.execXbmv t a b flag fmt w toks s
  | .xbfen t b w toks => Sys2Proof.Machine.execXbfen t b w toks s
  | .xinv t mode flag n toks => Sys2Proof.Machine.execXinv t mode flag n toks s
  | .kbind d a b => Sys2Proof.Machine.execKbind d a b s
  | .kinitEnc d => Sys2Proof.Machine.execKinitEnc d s
  | .kinitDec d => Sys2Proof.Machine.execKinitDec d s
  | .kenc d a p w m => Sys2Proof.Machine.execKenc d a p w m s
  | .kdec d a p w m => Sys2Proof.Machine.execKdec d a p w m s
  | .kbypE d a n w m => Sys2Proof.Machine.execKbypE d a n w m s
  | .kbypD d a n w m => Sys2Proof.Machine.execKbypD d a n w m s
  | .ktgt d a w m => Sys2Proof.Machine.execKtgt d a w m s
  | .kflush d => Sys2Proof.Machine.execKflush d s
  | .ksave d a imm => Sys2Proof.Machine.execKsave d a imm s
  | .krest d a imm => Sys2Proof.Machine.execKrest d a imm s
  | .kstat d a sel => Sys2Proof.Machine.execKstat d a sel s
  | .pld d a alpha rows => Sys2Proof.Machine.execPld d a alpha rows s
  | .pqnt d a alpha rows => Sys2Proof.Machine.execPqnt d a alpha rows s
  | .pnrm d a alpha rows => Sys2Proof.Machine.execPnrm d a alpha rows s
  | .nop => Sys2Proof.Machine.execNop s
  | .br imm => Sys2Proof.Machine.execBr imm s
  | .bc imm a b c => Sys2Proof.Machine.execBc imm a b c s
  | .bz imm a => Sys2Proof.Machine.execBz imm a s
  | .bnz imm a => Sys2Proof.Machine.execBnz imm a s
  | .jr a => Sys2Proof.Machine.execJr a s
  | .call imm => Sys2Proof.Machine.execCall imm s
  | .ret => Sys2Proof.Machine.execRet s
  | .loop imm a => Sys2Proof.Machine.execLoop imm a s
  | .spawn d a b n => Sys2Proof.Machine.execSpawn d a b n s
  | .arrive d a b sc => Sys2Proof.Machine.execArrive d a b sc s
  | .waitb d a b sc => Sys2Proof.Machine.execWaitb d a b sc s
  | .waitw a b c => Sys2Proof.Machine.execWaitw a b c s
  | .awaitf d r => Sys2Proof.Machine.execAwaitf d r s
  | .relslot r => Sys2Proof.Machine.execRelslot r s
  | .twait t => Sys2Proof.Machine.execTwait t s
  | .yield tick => Sys2Proof.Machine.execYield tick s
  | .safept n => Sys2Proof.Machine.execSafept n s
  | .drain sc => Sys2Proof.Machine.execDrain sc s
  | .fence sc => Sys2Proof.Machine.execFence sc s
  | .trap n => Sys2Proof.Machine.execTrap n s
  | .svc n => Sys2Proof.Machine.execSvc n s
  | .eret => Sys2Proof.Machine.execEret s
  | .retire => Sys2Proof.Machine.execRetire s
  | .enq d a b n cap => Sys2Proof.Machine.execEnq d a b n cap s
  | .tdec d a => Sys2Proof.Machine.execTdec d a s
  | .cancel d a => Sys2Proof.Machine.execCancel d a s
  | .logmark a tag => Sys2Proof.Machine.execLogmark a tag s
  | .issue c => Sys2Proof.Machine.execIssue c s
  | .resultWrite c => Sys2Proof.Machine.execResultWrite c s
  | .divideResult c => Sys2Proof.Machine.execDivideResult c s
  | .valueArrives c k => Sys2Proof.Machine.execValueArrives c k s
  | .queuePerform c q k => Sys2Proof.Machine.execQueuePerform c q k s
  | .fill c k => Sys2Proof.Machine.execFill c k s
  | .evict c k => Sys2Proof.Machine.execEvict c k s
  | .engineRead c k w => Sys2Proof.Machine.execEngineRead c k w s
  | .engineWrite c k w => Sys2Proof.Machine.execEngineWrite c k w s
  | .resolve c k => Sys2Proof.Machine.execResolve c k s
  | .claim c k => Sys2Proof.Machine.execClaim c k s
  | .ringFill c k => Sys2Proof.Machine.execRingFill c k s
  | .chainRecordRead c k => Sys2Proof.Machine.execChainRecordRead c k s
  | .hostCompletion c k w err v => Sys2Proof.Machine.execHostCompletion c k w err v s
  | .pkgBarrierComplete level ix => Sys2Proof.Machine.execPkgBarrierComplete level ix s
  | .childEntry c => Sys2Proof.Machine.execChildEntry c s
  | .accept c => Sys2Proof.Machine.execAccept c s
  | .atomicPerform c q => Sys2Proof.Machine.execAtomicPerform c q s
  | .acquireDone c => Sys2Proof.Machine.execAcquireDone c s
  | .refreshWindowEnd g => Sys2Proof.Machine.execRefreshWindowEnd g s
  | .request c k => Sys2Proof.Machine.execRequest c k s
  | .bind p q c rec => Sys2Proof.Machine.execBind p q c rec s
  | .dispatch c => Sys2Proof.Machine.execDispatch c s
  | .stealAttempt c => Sys2Proof.Machine.execStealAttempt c s
  | .timetableRelease p rec => Sys2Proof.Machine.execTimetableRelease p rec s
  | .deadlineMiss p rec => Sys2Proof.Machine.execDeadlineMiss p rec s
  | .hangFault c => Sys2Proof.Machine.execHangFault c s
  | .preEmption c why => Sys2Proof.Machine.execPreEmption c why s
  | .quickStop c why => Sys2Proof.Machine.execQuickStop c why s
  | .terminalCause c code info => Sys2Proof.Machine.execTerminalCause c code info s
  | .svcAnswer c v => Sys2Proof.Machine.execSvcAnswer c v s
  | .unmapPreparation c => Sys2Proof.Machine.execUnmapPreparation c s
  | .unmapFree c => Sys2Proof.Machine.execUnmapFree c s
  | .walk c k => Sys2Proof.Machine.execWalk c k s
  | .tableChange p kind ix v => Sys2Proof.Machine.execTableChange p kind ix v s
  | .invalidate h k => Sys2Proof.Machine.execInvalidate h k s
  | .ack h k => Sys2Proof.Machine.execAck h k s
  | .leaseRevoke p set ix => Sys2Proof.Machine.execLeaseRevoke p set ix s
  | .unmap p obj start len => Sys2Proof.Machine.execUnmap p obj start len s
  | .hostHandleUnbind p obj => Sys2Proof.Machine.execHostHandleUnbind p obj s
  | .arenaBirth p rec => Sys2Proof.Machine.execArenaBirth p rec s
  | .arenaDeath p rec => Sys2Proof.Machine.execArenaDeath p rec s
  | .free p rec => Sys2Proof.Machine.execFree p rec s
  | .push c k => Sys2Proof.Machine.execPush c k s
  | .pull c k => Sys2Proof.Machine.execPull c k s
  | .bankRead c k w => Sys2Proof.Machine.execBankRead c k w s
  | .writeBack line => Sys2Proof.Machine.execWriteBack line s
  | .bankFence c k => Sys2Proof.Machine.execBankFence c k s
  | .remotePerform k vals => Sys2Proof.Machine.execRemotePerform k vals s
  | .remoteComplete k => Sys2Proof.Machine.execRemoteComplete k s
  | .replayDivergenceFault c => Sys2Proof.Machine.execReplayDivergenceFault c s
  | .serialisedReExecution p => Sys2Proof.Machine.execSerialisedReExecution p s
  | .frcTick => Sys2Proof.Machine.execFrcTick s
  | .powerSample watts dies hbms hold => Sys2Proof.Machine.execPowerSample watts dies hbms hold s
  | .wayMaskChange p q die mask lines => Sys2Proof.Machine.execWayMaskChange p q die mask lines s
  | .partitionBind p g => Sys2Proof.Machine.execPartitionBind p g s
  | .queueKill p q code => Sys2Proof.Machine.execQueueKill p q code s
  | .killClear p q => Sys2Proof.Machine.execKillClear p q s
  | .launch p r => Sys2Proof.Machine.execLaunch p r s
  | .powerGood => Sys2Proof.Machine.execPowerGood s
  | .imageFetch kind hdr body => Sys2Proof.Machine.execImageFetch kind hdr body s
  | .selfTest bad => Sys2Proof.Machine.execSelfTest bad s
  | .engmapWrite c v => Sys2Proof.Machine.execEngmapWrite c v s
  | .reducedService => Sys2Proof.Machine.execReducedService s
  | .fullService trained => Sys2Proof.Machine.execFullService trained s
  | .antiRollbackRaise kind v sig => Sys2Proof.Machine.execAntiRollbackRaise kind v sig s
  | .attestationReport who nonce => Sys2Proof.Machine.execAttestationReport who nonce s
  | .uncorrectableError kind c a p => Sys2Proof.Machine.execUncorrectableError kind c a p s
  | .correctedError kind c a => Sys2Proof.Machine.execCorrectedError kind c a s
  | .engineFailure c u => Sys2Proof.Machine.execEngineFailure c u s
  | .flitReplay l good => Sys2Proof.Machine.execFlitReplay l good s
  | .linkOutOfService l => Sys2Proof.Machine.execLinkOutOfService l s
  | .requestAbandoned k => Sys2Proof.Machine.execRequestAbandoned k s
  | .reduceGroupRegister g => Sys2Proof.Machine.execReduceGroupRegister g s
  | .logFullRelease p r n => Sys2Proof.Machine.execLogFullRelease p r n s
  | .replaySupply p r n => Sys2Proof.Machine.execReplaySupply p r n s
  | .logExhausted p r => Sys2Proof.Machine.execLogExhausted p r s
  | .flagsWrite v => Sys2Proof.Machine.execFlagsWrite v s
  | .hintdropWrite v => Sys2Proof.Machine.execHintdropWrite v s
  | .roundctlWrite v => Sys2Proof.Machine.execRoundctlWrite v s
  | .fmtWrite n v => Sys2Proof.Machine.execFmtWrite n v s
  | .wswinAccess set => Sys2Proof.Machine.execWswinAccess set s
  | .logctlWrite v => Sys2Proof.Machine.execLogctlWrite v s
  | .evselWrite n v => Sys2Proof.Machine.execEvselWrite n v s
  | .trapRegisterWrite n v => Sys2Proof.Machine.execTrapRegisterWrite n v s
  | .lostLineRepair line v => Sys2Proof.Machine.execLostLineRepair line v s
  | .podBind n bars => Sys2Proof.Machine.execPodBind n bars s
  | .partitionUnbind p => Sys2Proof.Machine.execPartitionUnbind p s
  | .debugStopResume c => Sys2Proof.Machine.execDebugStopResume c s
  | .linkRetrained l => Sys2Proof.Machine.execLinkRetrained l s
  | .jobAbandon p rec => Sys2Proof.Machine.execJobAbandon p rec s

end Sys2Proof.Machine
end

