-- ==== Sys2Proof/Machine/Schedule.lean ====
section
/-! DEFINITION. The schedule (log entry 1): the steps that the model takes unasked where `eager` is set, the core that
issues next, and the end of a cycle. The order machine allows any order of these steps (R117, R118); a script gives
another one. -/

namespace Sys2Proof.Machine

open Sys2Proof

/-! ## Steps on trial -/

/-- A step on trial: its row and its meaning. -/
structure Trial where
  row : Instr
  act : State → Out

/-- What the steps of a core change of it, compared. -/
def Core.same (a b : Core) : Bool :=
  a.run == b.run && a.ctx.ops == b.ctx.ops && a.ctx.pipe == b.ctx.pipe && a.queues == b.queues
    && a.fills.length == b.fills.length && a.orphans.length == b.orphans.length && a.entry == b.entry && a.stealDue == b.stealDue && a.spawnAt == b.spawnAt

/-- A step changes something of core `c`, or of the requests in the fabric. -/
def State.moves (s : State) (c : Nat) (x : Trial) : Bool :=
  match x.act s with
  | .next t => !(s.coreAt c).same (t.coreAt c) || s.fab.reqs.length != t.fab.reqs.length
      || s.home.dirty.length != t.home.dirty.length
  | _ => false

/-- What the steps of a partition change of it. -/
def Part.print (q : Part) : List (Nat × RecState × Bool) × List Bool × List (Nat × Nat)
    × List (Nat × Nat × Nat) × List (Bool × Bool) × List Inv :=
  (q.recs.map fun r => (r.1, r.2.state, r.2.late), q.objs.map fun o => o.2.valid, q.dying, q.killDue,
    q.launches.map fun l => (l.failing, l.serial), q.invs)

/-- A step changes something of partition `p`. -/
def State.turns (s : State) (p : Nat) (x : Trial) : Bool :=
  match x.act s with
  | .next t => (s.part p).print != (t.part p).print || s.home.dirty.length != t.home.dirty.length
  | _ => false

/-! ## The steps of a core -/

/-- The word steps of an operation that stand first. -/
def wordTrials (c k : Nat) (o : Op) : List Trial :=
  (match o.toRead with
    | n :: _ => [⟨.engineRead c k n, execEngineRead c k n⟩]
    | [] => [])
  ++ (match o.toWrite with
    | n :: _ => [⟨.engineWrite c k n, execEngineWrite c k n⟩]
    | [] => [])

/-- The steps of an operation. -/
def opTrials (c k : Nat) (o : Op) : List Trial :=
  let claim : Trial := ⟨.claim c k, execClaim c k⟩
  let fill : Trial := ⟨.ringFill c k, execRingFill c k⟩
  let write := fun (n : Nat) => (⟨.engineWrite c k n, execEngineWrite c k n⟩ : Trial)
  let words := wordTrials c k o
  (match o.kind with
    | .copy _ _ _ _ _ _ _ => claim :: (words ++ [fill])
    | .multi h _ _ _ _ ds _ => claim :: (words ++ (upTo ds.length).flatMap (fun i =>
        match ds[i]? with
        | some d => ((d.left.head?).toList ++ [h.words]).map fun n => write (i * (h.words + 1) + n)
        | none => []) ++ [fill])
    | .chain _ _ _ none => [⟨.chainRecordRead c k, execChainRecordRead c k⟩]
    | .chain _ _ _ (some r) => words ++ [write r.sh.words]
    | .sub x => (if x.out then ⟨.pull c k, execPull c k⟩ else ⟨.push c k, execPush c k⟩) :: words
    | .bmv _ => claim :: ⟨.bankRead c k (o.toRead.headD 0), execBankRead c k (o.toRead.headD 0)⟩ :: (words ++ [fill])
    | .bfen _ _ _ => [⟨.bankFence c k, execBankFence c k⟩]
    | _ => words) ++ [⟨.resolve c k, execResolve c k⟩]

/-- The steps of entry `k` of queue `q`. -/
def entryTrials (c q k : Nat) (a : Acc) : List Trial :=
  if a.xl.isNone then [⟨.walk c (q + 4 * k), execWalk c (q + 4 * k)⟩]
  else match a.kind with
    | .atomic _ _ _ => [⟨.atomicPerform c q, execAtomicPerform c q⟩]
    | _ => [⟨.queuePerform c q k, execQueuePerform c q k⟩]

/-- The steps of a queue: those of its head, and of every remote access. -/
def queueTrials (c q : Nat) (l : List QEntry) : List Trial :=
  (upTo l.length).flatMap fun k =>
    let e : Option QEntry := l[k]?
    match e with
    | some (.acc a) => if k = 0 || a.via.kind = 3 then entryTrials c q k a else []
    | _ => []

/-- The steps that a context's bookkeeping asks for. -/
def pipeTrials (c : Nat) (k : Core) : List Trial :=
  let p := k.ctx.pipe
  (if p.hang ≥ p.hanglim then [⟨.hangFault c, execHangFault c⟩] else [])
  ++ (if p.accept.isSome then [⟨.accept c, execAccept c⟩] else [])
  ++ (if p.requests.isEmpty && k.orphans.isEmpty then [] else [⟨.request c 0, execRequest c 0⟩])
  ++ ((upTo p.waits.length).filter fun i => (p.waits[i]?).any fun w => w.need == 0).flatMap (fun i =>
      [⟨.acquireDone c, execAcquireDone c⟩, ⟨.valueArrives c i, execValueArrives c i⟩])
  ++ (match p.svc with
    | some _ => [⟨.unmapPreparation c, execUnmapPreparation c⟩, ⟨.unmapFree c, execUnmapFree c⟩,
        ⟨.svcAnswer c (BitVec.allOnes 64), execSvcAnswer c (BitVec.allOnes 64)⟩]
    | none => [])
  ++ (if p.heldOps.isEmpty || !k.ctx.sys.replay then [] else
      [⟨.replayDivergenceFault c, execReplayDivergenceFault c⟩])

/-- The steps that what a core does asks for. -/
def runTrials (c : Nat) (k : Core) : List Trial :=
  (match k.run with
    | .idle => []
    | .running => []
    | .stopped why _ => [⟨.resultWrite c, execResultWrite c⟩, ⟨.divideResult c, execDivideResult c⟩]
        ++ (if why == 3 then [] else [⟨.preEmption c 0, execPreEmption c 0⟩])
    | .ending _ _ => [⟨.divideResult c, execDivideResult c⟩, ⟨.terminalCause c 0 0, execTerminalCause c 0 0⟩])
  ++ (if k.spawnAt.isSome then [⟨.childEntry c, execChildEntry c⟩] else [])
  ++ (if k.entry.isSome then [⟨.dispatch c, execDispatch c⟩] else [])
  ++ (if k.stealDue then [⟨.stealAttempt c, execStealAttempt c⟩] else [])
  ++ (if k.fills.isEmpty then [] else [⟨.fill c 0, execFill c 0⟩])

/-- Nothing is under way at a core. -/
def Core.quiet (k : Core) : Bool :=
  k.run == .idle && k.spawnAt.isNone && k.entry.isNone && !k.stealDue && k.fills.isEmpty && k.ctx.ops.isEmpty
    && k.ctx.pipe.waits.isEmpty && k.ctx.pipe.requests.isEmpty && k.orphans.isEmpty && k.queues.toList.all fun l => l.isEmpty

/-- The steps of a core, in the order in which they are tried. -/
def coreTrials (c : Nat) (k : Core) : List Trial :=
  if k.quiet then []
  else runTrials c k ++ pipeTrials c k
    ++ (upTo 4).flatMap (fun q => queueTrials c q (k.queues.get (BitVec.ofNat 2 q)))
    ++ (upTo k.ctx.ops.length).flatMap fun i => match k.ctx.ops[i]? with
      | some o => opTrials c i o
      | none => []

/-- The first step that core `c` can take. -/
def State.coreStep (s : State) (c : Nat) : Option Instr :=
  ((coreTrials c (s.coreAt c)).find? fun x => s.moves c x).map fun x => x.row

/-! ## The steps of barriers, of the fabric and of a partition -/

/-- The first barrier of a level that is ready and completes. -/
def State.levelStep (s : State) (lv n : Nat) : Option Instr :=
  (upTo n).findSome? fun i =>
    if (s.bar lv i).ready && ((s.completeBar lv i).bar lv i).phase != (s.bar lv i).phase then some (.pkgBarrierComplete lv i)
    else none

/-- The first barrier that completes. -/
def State.barStep (s : State) : Option Instr :=
  (s.levelStep 2 1280).orElse fun _ => (s.levelStep 3 256).orElse fun _ =>
    (s.levelStep 4 16).orElse fun _ => s.levelStep 5 16

/-- The first request of the fabric that can perform or return. -/
def State.fabricStep (s : State) : Option Instr :=
  (upTo s.fab.reqs.length).findSome? fun k =>
    let l : List Trial := [⟨.remotePerform k [], execRemotePerform k []⟩, ⟨.remoteComplete k, execRemoteComplete k⟩]
    (l.find? fun x => match x.act s with
      | .next t => s.fab.reqs != t.fab.reqs
      | _ => false).map fun x => x.row

/-- The steps of an XINV at its holders; the last one's acknowledgement stands for what is left once all have acknowledged. -/
def invTrials (q : Part) (i : Inv) : List Trial :=
  (let h := q.holders.headD 0
   if q.holders.all i.acked.contains then [⟨.ack h i.id, execAck h i.id⟩] else [])
  ++ q.holders.flatMap fun h =>
    if i.acked.contains h then []
    else if i.dropped.contains h then [⟨.ack h i.id, execAck h i.id⟩]
    else [⟨.invalidate h i.id, execInvalidate h i.id⟩]

/-- The steps of a record. -/
def recTrials (p n : Nat) (r : Rec) : List Trial :=
  (if r.state = .timed then [⟨.timetableRelease p n, execTimetableRelease p n⟩] else [])
  ++ (if r.tt then [⟨.deadlineMiss p n, execDeadlineMiss p n⟩] else [])
  ++ (if r.arena = 0 then [] else [⟨.arenaBirth p n, execArenaBirth p n⟩, ⟨.arenaDeath p n, execArenaDeath p n⟩,
    ⟨.free p n, execFree p n⟩])

/-- The steps of partition `p`. -/
def partTrials (p : Nat) (q : Part) : List Trial :=
  (match q.killDue with
    | (k, code, _) :: _ => [⟨.queueKill p k code, execQueueKill p k code⟩]
    | [] => [])
  ++ q.invs.flatMap (invTrials q)
  ++ q.recs.flatMap (fun r => recTrials p r.1 r.2)
  ++ (if q.launches.isEmpty then [] else [⟨.serialisedReExecution p, execSerialisedReExecution p⟩])

/-- The bind that an idle core of partition `p` takes (R263). -/
def State.bindStep (s : State) (p : Nat) : Option Instr :=
  let q := s.part p
  q.cores.findSome? fun c =>
    if !s.idleCore c || (s.coreAt c).entry.isSome || (s.coreAt c).stealDue then none
    else match q.topQueue (c / 80) (s.mayResume p c) with
      | some k => match (q.queue k).head? with
        | some n => if s.moves c ⟨.bind p k c n, execBind p k c n⟩ then some (.bind p k c n) else none
        | none => none
      | none => none

/-- The first step that partition `p` can take. -/
def State.partStep (s : State) (p : Nat) : Option Instr :=
  let q := s.part p
  if !q.bound then none
  else (((partTrials p q).find? fun x => s.turns p x).map fun x => x.row).orElse fun _ => s.bindStep p

/-! ## The default step -/

/-- Something waits for the end of a refresh window. -/
def State.anyLate (s : State) : Bool :=
  s.cores.toList.any fun k => k.ctx.ops.any (fun o => !o.late.isEmpty)
    || k.queues.toList.any fun l => l.any QEntry.isLate

/-- The step taken unasked, if there is one. -/
def State.pick (s : State) : Option Instr :=
  if s.ticked ≠ s.frc then some .frcTick
  else if s.windowEnds (s.cyc % 32768 / 2048) && s.anyLate then some (.refreshWindowEnd (s.cyc % 32768 / 2048))
  else ((upTo 320).findSome? s.coreStep).orElse fun _ =>
    s.barStep.orElse fun _ => s.fabricStep.orElse fun _ => (upTo 12).findSome? s.partStep

/-- The core that issues next in the cycle, or takes its inserted cycle: the lowest that has not taken its step. -/
def State.nextCore (s : State) : Option Nat := s.cores.toList.findIdx? fun k => (k.run == .running || k.inserted) && !k.issued

/-! ## The end of a cycle -/

/-- The offset of the next word or line that an operation is to read or write in memory (R344). -/
def Op.nextAt (o : Op) : Option (Via × Nat) :=
  match o.kind with
  | .copy f _ h v g _ _ => if f = .ld then o.toRead.head?.map fun n => (v, h.gAt g n)
      else if f.writes then o.toWrite.head?.map fun n => (v, h.gAt g n) else none
  | .chain _ _ _ (some x) => if x.form = .ld then o.toRead.head?.map fun n => (x.via, x.sh.gAt x.g n)
      else if x.form.writes then o.toWrite.head?.map fun n => (x.via, x.sh.gAt x.g n) else none
  | .multi h v g _ _ _ _ => o.toRead.head?.map fun n => (v, h.gAt g n)
  | .prefetch _ v _ _ => o.toRead.head?.map fun n => (v, n * 64)
  | .bmv x => o.toRead.head?.bind x.wordAt
  | .sub x => (if x.out then o.toWrite.head? else o.toRead.head?).map fun n => (x.via, x.sh.gAt x.at n)
  | _ => none

/-- R344: the budget is spent at the unit of an offset of an object. -/
def State.spentAt (s : State) (v : Via) (x : Nat) : Bool :=
  match (s.part v.part).phys v.obj x with
  | some a => s.lineHeld v.part a
  | none => false

/-- R344: a subscription of core `k` waits before its next tile. -/
def State.tileHeld (s : State) (k : Core) (o : Op) : Bool :=
  match o.kind with
  | .sub x => !o.claimed && o.err == 0 && decide (x.tile < x.last) && !(k.pauses && x.stop.isNone) && s.tileSpent x
  | _ => false

/-- R344: a bank fence waits for the budget of a line that it writes back. -/
def State.fenceHeld (s : State) (o : Op) : Bool :=
  match o.kind with
  | .bfen v g n => (linesOf g n).any fun l => match (s.part v.part).phys v.obj (l * 64) with
      | some a => s.home.dirty.contains (lineOf a) && s.spent v.part a
      | none => false
  | _ => false

/-- R344: an access of partition `p` at the head of a queue of core `k` is held, whichever context issued it. -/
def State.queueHeld (s : State) (p : Nat) (k : Core) : Bool :=
  k.queues.toList.any fun l => match l with
    | .acc a :: _ => a.via.part == p && a.via.kind != 3 && (match a.xl with
      | some t => s.lineHeld p (t.phys a.off)
      | none => false)
    | _ => false

/-- R344: an engine or a hoist of core `k` is held. -/
def State.opsHeld (s : State) (k : Core) : Bool :=
  k.ctx.ops.any fun o => (match o.nextAt with
    | some (v, x) => v.kind != 3 && v.kind != 4 && s.spentAt v x
    | none => false) || s.fenceHeld o || s.tileHeld k o

/-- R344: a write-back of partition `p` waits in its home slice: for an XINV.wb that every holder has acknowledged, or for a change
of ways. -/
def State.writeBackHeld (s : State) (p : Nat) : Bool :=
  let q := s.part p
  let held := fun (l : Nat) => s.home.dirty.contains l && s.spent p (l * 64)
  (q.invs.any fun i => i.mode == 1 && q.holders.all i.acked.contains && s.home.dirty.any fun l => q.invLine i l && held l)
    || q.shift.any fun x => x.2.2.2.any held

/-- R345: partition `p` is throttled in the cycle. -/
def State.throttled (s : State) (p : Nat) : Bool :=
  (s.part p).power > 0 || s.writeBackHeld p || s.cores.toList.any fun k =>
    s.queueHeld p k || (k.pid == p && k.run != .idle && s.opsHeld k)

/-- R269: the core is bound to a context that no quick stop has taken: one that runs, or that a pre-emption or a cancel has
stopped and that waits for its tokens. -/
def Core.granted (k : Core) : Bool :=
  match k.run with
  | .running => true
  | .stopped w _ => w ≤ 1
  | _ => false

/-- A cycle of a context passes (R269, R284, R352). -/
def State.passCycle (s : State) (c : Nat) : State :=
  let k := s.coreAt c
  if !k.granted then
    (match k.run with
    | .ending _ _ => if k.ctx.pipe.heldOps.isEmpty then s else s.modAt c fun k =>
        { k with ctx := { k.ctx with pipe := { k.ctx.pipe with heldFor := k.ctx.pipe.heldFor + 1 } } }
    | _ => s)
  else
    let s := if k.inserted then s.countAt c 4 1 else s
    let late := s.throttled k.pid
    let full := s.logStall k.ctx
    let s := if late then s.countAt c 12 1 else s
    let s := if full then s.countAt c 13 1 else s
    if late || full then s
    else (s.countAt c 1 1).modAt c fun k => { k with ctx := { k.ctx with pipe := { k.ctx.pipe with
      hang := k.ctx.pipe.hang + 1,
      heldFor := if k.ctx.pipe.heldOps.isEmpty then 0 else k.ctx.pipe.heldFor + 1 } } }

/-- R30: a core after a cycle; the cycle that a split bundle inserts is no cycle of its results. -/
def Core.nextCycle (c : Core) : Core :=
  let split := c.ctx.pipe.split
  { c with lcyc := if c.inserted then c.lcyc else c.lcyc + 1, inserted := split, issued := false,
           ctx := { c.ctx with pipe := { c.ctx.pipe with split := false } } }

/-- CYC advances. -/
def State.endCycle (s : State) : State :=
  let bound := (upTo 320).filter fun c => (s.coreAt c).run != .idle
  let s := bound.foldl State.passCycle s
  { s with cyc := s.cyc + 1, cores := s.cores.map Core.nextCycle,
           parts := s.parts.map fun (q : Part) => { q with power := q.power - 1 } }

end Sys2Proof.Machine
end

