-- ==== Sys2Proof/Machine/Step.lean ====
section
/-! DEFINITION. One step of the machine: the next step of the script whose cycle has come, or the schedule's own choice;
and how a single instruction is placed so that the next step runs it (log entries 1 and 4). -/

namespace Sys2Proof.Machine

open Sys2Proof

/-- The schedule's own choice: a step taken unasked, the bundle of the next core of the cycle, or the end of the cycle. -/
def State.unasked (s : State) : Host.Outcome State Fault Refusal :=
  match (if s.eager then s.pick else none) with
  | some i => exec i s
  | none =>
    match s.nextCore with
    | some c => exec (.issue c) s
    | none => if s.dev.halted && s.script.isEmpty then .fault .halted else .next s.endCycle

/-- One step. A script holds steps of the machine and the device alone; a slot runs only in a bundle. -/
def step (s : State) : Host.Outcome State Fault Refusal :=
  match s.script with
  | (t, i) :: r =>
    if t ≤ s.cyc then (if isStep i then exec i { s with script := r } else .next { s with script := r })
    else s.unasked
  | [] => s.unasked

/-- The words of a bundle that holds the table's instruction and NOPs. -/
def fetchWords (w : Nat) : List Word :=
  let l := tableWords w
  l ++ (List.replicate (3 - l.length) 0x50000000 ++ [0xD0000000])

/-- The capability of the code object of `withFetchWord`: object 1, code, with the execute right. -/
def fetchCap : Cap := Cap.mk 1 0 0x04 5 0 (2 ^ 15)

/-- The launch of `withFetchWord`: no order log, no handler. -/
def fetchLaunch : Launch :=
  { ctx := 0, word := 0, code := fetchCap, handler := none, lives := [], seed := 0, arenas := [], ringObj := 0, counts := [],
    unfed := [], supply := [], spent := false, log := [], digests := [], kd := 0, recKd := 0, copy := [],
    start := [], jobs0 := [], serial := false, failing := false, oldLog := [], held := 0 }

/-- The partition of `withFetchWord`: quad 0, the code object in HBM frame 0, and a lease to fetch from it. -/
def fetchPart : Part :=
  { Part.reset with
    bound := true, grant := { (default : Grant) with quads := [0], shares := [(0, 64)] },
    objs := [(1, { (default : Obj) with valid := true, typ := 5, size := 2 ^ 21 })],
    leaves := [(1, default)],
    sets := [(0, [{ (default : Lease) with obj := 1, valid := true, x := true, len := 2 ^ 21 }])],
    launches := [fetchLaunch] }

/-- The context of `withFetchWord`: privileged, at offset 0 of its code object. -/
def fetchCtx : Ctx :=
  { Ctx.entry with code := fetchCap, sys := { Sys.entry with mode := 1 }, task := { (default : Task) with uid := 1 } }

/-- Words placed one after another. -/
def placeWords (m : Memory) (a : Nat) : List Word → Memory
  | [] => m
  | w :: l => placeWords (m.setWord a w) (a + 4) l

/-- The state with the table's instruction in the bundle that the next step issues, on core 0. -/
def State.withFetchWord (s : State) (_nbits w : Nat) : State :=
  { s with
    script := [], eager := false, cur := 0, pre := none,
    cores := (s.cores.map fun k => { k with issued := true }).set 0
      { s.cores[0] with run := .running, ctx := fetchCtx, issued := false, inserted := false },
    home := { s.home with mem := placeWords s.home.mem 0 (fetchWords w), lost := [] },
    parts := s.parts.set 0 fetchPart }

end Sys2Proof.Machine
end

