-- ==== Sys2Proof/Safety.lean ====
section
/-! DEFINITION. What counts as a safe run. -/

namespace Sys2Proof

/-- A run from `s` that never stops within `k` steps. -/
def Safe (k : Nat) (s : Machine.State) : Prop :=
  match core.run k s with
  | .next _ => True
  | _ => False

end Sys2Proof
end

