-- ==== Sys2Proof/Certificates/Slice0/Obligations.lean ====
section
/-! DEFINITION. The statements about the machine, for the provers. Each docstring names the rules of the spec that its
statement formalises; a statement that rests on a choice of the model names the log entry. -/

namespace Sys2Proof.Claims

open Sys2Proof Sys2Proof.Machine

/-! ## What an instruction gives -/

/-- Instruction `i` completes at `s` and gives one result of latency `lat`: nothing else of the state changes. -/
def Gives (i : Instr) (s : State) (lat : Nat) (l : Landing) (g : BitVec 6 := 0) : Prop :=
  exec i s = .next (s.result lat l g)

/-- The result goes to a scalar register. -/
def GivesS (i : Instr) (s : State) (lat : Nat) (d : Reg) (v : DWord) : Prop := Gives i s lat (.s d v)

/-- Instruction `i` completes at `s` with next state `t`. -/
def Completes (i : Instr) (s t : State) : Prop := exec i s = .next t

/-- A truth value as the compares of R49 give it. -/
def bool01 (p : Prop) [Decidable p] : DWord := if p then 1 else 0

/-! ## What an instruction leaves -/

/-- `t` is `s` but for its current core. -/
def OnlyCore (s t : State) : Prop :=
  t = { s with cores := t.cores } ∧ ∀ c, c ≠ s.cur.val → t.coreAt c = s.coreAt c

/-- `t` is `s` but for core `c`. -/
def OnlyAt (s t : State) (c : Nat) : Prop :=
  t = { s with cores := t.cores } ∧ ∀ k, k ≠ c → t.coreAt k = s.coreAt k

/-- The cycle of a core as it counts them: an inserted one stands beside the cycle before it (R30). -/
def ownCycle (x : Core) : Nat := if x.inserted then x.lcyc - 1 else x.lcyc

/-- The current core is as before but for the results it has in flight. -/
def OnlyFlight (s t : State) : Prop :=
  t.core = { s.core with ctx := { s.core.ctx with pipe := { s.core.ctx.pipe with
    inflight := t.core.ctx.pipe.inflight } } }

/-- Every byte of global memory and of its bank image, and every tag, is as before. -/
def SameMemory (s t : State) : Prop :=
  (∀ a, t.home.mem.read a = s.home.mem.read a) ∧ (∀ a, t.home.bank.read a = s.home.bank.read a)
    ∧ t.home.tags = s.home.tags

/-- Every register of every file of the current context is as before. -/
def SameRegs (s t : State) : Prop := t.core.ctx.regs = s.core.ctx.regs

/-- Every byte of the current core's scratchpad is as before. -/
def SameSpad (s t : State) : Prop := ∀ a, t.core.spad.read a = s.core.spad.read a

/-- The system registers of the current context, the accumulators of its task and its tokens are as before. -/
def SameSystem (s t : State) : Prop :=
  t.core.ctx.sys = s.core.ctx.sys ∧ t.core.ctx.task = s.core.ctx.task ∧ t.core.ctx.toks = s.core.ctx.toks
    ∧ t.core.ctx.code = s.core.ctx.code ∧ t.core.ctx.ops = s.core.ctx.ops

/-- Sa read as signed. -/
def sI (s : State) (a : Reg) : Int := (s.rd.S a).toInt

/-- Sa read as unsigned. -/
def sN (s : State) (a : Reg) : Nat := (s.rd.S a).toNat

/-- Instruction `i` completes at `s` and gives a divide result: `v` is due for Sd 16 cycles later, and Sd is marked
pending, S0 excepted (R48). -/
def Divides (i : Instr) (s : State) (d : Reg) (v : DWord) : Prop :=
  exec i s = .next (s.modPipe fun p =>
    { p with inflight := p.inflight ++ [{ land := .s d v, flags := 0, due := s.core.lcyc + 16, mark := true }],
             spend := if d = 0 then p.spend else p.spend.put d true })

/-- A global access of `w` bytes at offset `o` passes the checks of R53: it needs `right` and refuses the kinds `bad`. -/
def GlobOk (k : Cap) (o : Int) (w right : Nat) (bad : List Nat) : Prop :=
  0 ≤ o ∧ o + w ≤ k.len ∧ k.has right = true ∧ k.kind ∉ bad ∧ o % w = 0

/-- One more interlocked value is outstanding, for `dest`; the others are as before. -/
def Awaits (s t : State) (dest : WaitDest) (kind : WaitKind) : Prop :=
  (t.core.ctx.pipe.waits.map fun w => (w.dest, w.kind))
    = (s.core.ctx.pipe.waits.map fun w => (w.dest, w.kind)) ++ [(dest, kind)]

/-- Access `a` has joined the tail of queue `q` of the current core, and no other queue has grown. -/
def Queued (s t : State) (q : BitVec 2) (a : Acc) : Prop :=
  (t.core.queues.get q).getLast? = some (.acc a) ∧ (t.core.queues.get q).length = (s.core.queues.get q).length + 1
    ∧ ∀ r, r ≠ q → (t.core.queues.get r).length = (s.core.queues.get r).length

/-- No atomic of the current core on line `l` of the object of `v` is queued (R238). -/
def NoAtomicOn (s : State) (v : Via) (l : Nat) : Prop :=
  ∀ q, ∀ e ∈ s.core.queues.get q, e.atomicAt v.part v.obj l = false

/-- R159: the pair of format codes that a word for FMT names is one of those that are valid. -/
def PairValid (v : DWord) : Prop :=
  ((v.extractLsb' 0 4).toNat, (v.extractLsb' 4 4).toNat)
    ∈ [(2, 2), (1, 1), (3, 3), (3, 4), (4, 3), (4, 4), (5, 5), (7, 7), (7, 8), (8, 8)]

/-- R166: a write of `v` to FMTn changes no format of an array that is not drained. -/
def PairKept (x : Ctx) (n : Bool) (v : DWord) : Prop :=
  v.extractLsb' 0 8 = (if n then x.sys.fmt1 else x.sys.fmt0).extractLsb' 0 8 ∨ (if n then x.drained1 else x.drained0) = true

/-- Byte `j` of lane `l`'s value at offset `x` is of an access of a queue of the current core: of a store it is that byte of
`data`. -/
def InQueue (t : State) (kind : AccKind) (v : Via) (wait : Option Nat) (l x j : Nat) (data : DWord) : Prop :=
  ∃ r acc i, QEntry.acc acc ∈ t.core.queues.get r ∧ acc.kind = kind ∧ acc.via = v ∧ acc.wait = wait ∧ i ∈ acc.items
  ∧ i.lane = l ∧ i.off = x + i.sh ∧ i.off ≤ x + j ∧ x + j < i.off + i.width
  ∧ i.data.extractLsb' (8 * (x + j - i.off)) 8 = data.extractLsb' (8 * j) 8

/-- The lines `p` of the object of `v` have left the current core's L1G, and every other line stands there as before
(R115). -/
def LinesLeave (s t : State) (v : Via) (p : Nat → Prop) : Prop :=
  ∀ y, y ∈ t.core.l1g ↔ y ∈ s.core.l1g ∧ ¬ (y.part = v.part ∧ y.obj = v.obj ∧ p y.line)

/-- Instruction `i` completes at `s` and changes the system registers of the current context alone, as `f` says. -/
def SetsSys (i : Instr) (s : State) (f : Sys → Sys) : Prop := exec i s = .next (s.modSys f)

/-- `x` holds what `f` gives in every lane of mask `m`, and `g` the FLAGS bits of those lanes: an inactive lane sets none
(R86). -/
def Lanes (m : Mask) (f : Nat → Word × BitVec 6) (x : VReg) (g : BitVec 6) : Prop :=
  (∀ k, k < 256 → m.getLsbD k = true → x.lane k = (f k).1)
    ∧ ∀ b, g.getLsbD b = true ↔ ∃ k, k < 256 ∧ m.getLsbD k = true ∧ (f k).2.getLsbD b = true

/-- Instruction `i` completes at `s` and gives a vector result of latency `lat` under mask `m`, with no FLAGS bit. -/
def GivesV (i : Instr) (s : State) (lat : Nat) (d : Reg) (m : Mask) (f : Nat → Word) : Prop :=
  ∃ x : VReg, Gives i s lat (.v d x m) ∧ ∀ k, k < 256 → m.getLsbD k = true → x.lane k = f k

/-- The same with the FLAGS bits of the active lanes. -/
def GivesVF (i : Instr) (s : State) (lat : Nat) (d : Reg) (m : Mask) (f : Nat → Word × BitVec 6) : Prop :=
  ∃ x g, Lanes m f x g ∧ Gives i s lat (.v d x m) g

/-- The same of a form that rounds under ROUNDCTL: SRSEQ advances (R72). -/
def RoundsV (i : Instr) (s : State) (lat : Nat) (d : Reg) (m : Mask) (f : Nat → Word × BitVec 6) : Prop :=
  ∃ x g, Lanes m f x g ∧ exec i s = .next (s.result lat (.v d x m) g).advance

/-- Instruction `i` completes at `s` and gives a mask result of latency 2 under mask `m`, bit by bit. -/
def GivesM (i : Instr) (s : State) (d : MReg) (m : Mask) (f : Nat → Bool × BitVec 6) : Prop :=
  ∃ (x : Mask) (g : BitVec 6), Gives i s 2 (.m d x m) g
    ∧ (∀ k, k < 256 → m.getLsbD k = true → x.getLsbD k = (f k).1)
    ∧ ∀ b, g.getLsbD b = true ↔ ∃ k, k < 256 ∧ m.getLsbD k = true ∧ (f k).2.getLsbD b = true

/-- Byte `j` of a vector, four to a lane (R60). -/
def byteOf (x : VReg) (j : Nat) : Byte := (x.lane (j / 4)).extractLsb' (8 * (j % 4)) 8

/-- Element `j` of width `w` of a vector (R60). -/
def elemAt (x : VReg) (w j : Nat) : Nat := (x.lane (j * w / 32)).toNat / 2 ^ (w * (j % (32 / w))) % 2 ^ w

/-- R71: the index of the one element of type `t` that a conversion makes in lane `k`: lane × (32 / width), position 0. -/
def elemIndex (t : Elem) (k : Nat) : Nat := match t with
  | .fl f => if f = .f32 then k else if f = .f16 ∨ f = .bf16 then 2 * k else 4 * k
  | .fp4 => 8 * k
  | .int w => k * (32 / w)

/-- Value `v` converted once to type `t`, in lane `k` (R73, R74). -/
def converted (t : Elem) (r : Rnd) (k : Nat) (v : Val) : Word × BitVec 6 :=
  let e := elemIndex t k
  match t with
  | .fl f => (BitVec.ofNat 32 (f.convert r e v).1, (f.convert r e v).2)
  | .fp4 => (BitVec.ofNat 32 (Fmt.e2m1.convert r e v).1, (Fmt.e2m1.convert r e v).2)
  | .int w => (BitVec.ofInt 32 (toInt w r e v).1, (toInt w r e v).2)

/-- Every active lane of `m` addresses four bytes of the scratchpad, aligned (R105). -/
def SpadLanes (m : Mask) (addr : Nat → Nat) : Prop :=
  ∀ k, k < 256 → m.getLsbD k = true → addr k + 4 ≤ 0x100000 ∧ addr k % 4 = 0

/-- No active lane reads a lost word (R369). -/
def NoLostLane (c : Core) (m : Mask) (addr : Nat → Nat) : Prop :=
  ∀ k, k < 256 → m.getLsbD k = true → c.lostIn (addr k) 4 = false

/-- Lane `k` is the lowest active lane that `ok` fails. -/
def LowestFailing (m : Mask) (ok : Nat → Prop) (k : Nat) : Prop :=
  k < 256 ∧ m.getLsbD k = true ∧ ¬ ok k ∧ ∀ j, j < k → m.getLsbD j = true → ok j

/-- No event counter of the current context samples (R353), so that no event writes to a trace buffer. -/
def NoSamples (s : State) : Prop := ∀ i, (s.core.ctx.sys.evsel.get i).getLsbD 9 = false

/-- No event counter of the context on core `c` samples. -/
def NoSamplesAt (s : State) (c : Nat) : Prop := ∀ i, ((s.coreAt c).ctx.sys.evsel.get i).getLsbD 9 = false

/-- Every token that an engine slot names is Resolved, with no error (R122). -/
def Clear (s : State) (t : Tok) (l : List Tok) : Prop :=
  ∀ k ∈ t :: l, (s.rd.ctx.toks.get k).pending = false ∧ (s.rd.ctx.toks.get k).err = 0

/-- Operation `op` has joined the operations of the current core with nothing of it done, and its token is Pending (R122);
every other token, every register, the scratchpad, the queues, the results under way and global memory are as before. -/
def Started (s t : State) (op : Op) : Prop :=
  t.core.ctx.ops = s.core.ctx.ops ++ [op] ∧ op.err = 0 ∧ op.wrote = [] ∧ op.buf = [] ∧ op.part = 0 ∧ op.id = s.fresh
  ∧ (t.core.ctx.toks.get op.tok).pending = true ∧ (t.core.ctx.toks.get op.tok).err = 0
  ∧ (∀ r, r ≠ op.tok → t.core.ctx.toks.get r = s.core.ctx.toks.get r)
  ∧ SameRegs s t ∧ t.core.spad = s.core.spad ∧ t.core.queues = s.core.queues ∧ t.core.ctx.pipe = s.core.ctx.pipe
  ∧ OnlyCore { s with fresh := t.fresh, adv := t.adv } t

/-- The slot's token resolves at its issue, with no error, and the event bit is set (R122, R259); no operation joins, and
the scratchpad, the queues and global memory are as before. -/
def ResolvedAtIssue (s t : State) (k : Tok) : Prop :=
  t.core.ctx.ops = s.core.ctx.ops ∧ (t.core.ctx.toks.get k).pending = false ∧ (t.core.ctx.toks.get k).err = 0
  ∧ (∀ r, r ≠ k → t.core.ctx.toks.get r = s.core.ctx.toks.get r) ∧ t.core.ctx.pipe.event = true
  ∧ t.core.spad = s.core.spad ∧ t.core.queues = s.core.queues ∧ OnlyCore s t

/-- One result is in flight more than before (R9, R47). -/
def InFlight (s t : State) (lat : Nat) (l : Landing) : Prop :=
  t.core.ctx.pipe.inflight
    = s.core.ctx.pipe.inflight ++ [{ land := l, flags := 0, due := s.core.lcyc + lat, mark := false }]

/-- A scratchpad operand of `lines` lines of `lb` bytes, with its scale tile or without, at the pair of registers `n`
passes the checks of R161. -/
def PairFits (s : State) (n : Reg) (lines lb : Nat) (sc : Bool) : Prop :=
  let base := ((s.rd.S n).extractLsb' 0 20).toNat
  let pitch := ((s.rd.S n).extractLsb' 20 16).toNat
  let tpitch := ((s.rd.S (n + 1)).extractLsb' 0 20).toNat
  (∀ l, l < lines → base + l / 64 * tpitch + l % 64 * (16 * pitch) + lb ≤ 0x100000)
  ∧ (sc = true → base + lines / 64 * tpitch + 2048 ≤ 0x100000) ∧ base % 16 = 0 ∧ tpitch % 16 = 0

/-- The payload `h` at offset `o` of a capability, at scratchpad address `sp` where the form has one, and its flag word
pass the checks of R139. A payload with no rows or no bytes has no address to check. -/
def PayloadFits (k : Cap) (need kinds : List Nat) (sp : Option Nat) (h : Shape) (o : Int) (flag : Option (Nat × DWord)) :
    Prop :=
  (h.rows ≠ 0 → h.rowb ≠ 0 →
    (∀ x, sp = some x → x + ((h.rows - 1) * h.spitch + h.rowb) ≤ 0x100000 ∧ x % 4 = 0)
    ∧ o % 4 = 0 ∧ h.rowb % 4 = 0 ∧ h.spitch % 4 = 0 ∧ h.gpitch % 4 = 0
    ∧ 0 ≤ o ∧ o + ((h.rows - 1) * h.gpitch + h.rowb : Nat) ≤ k.len ∧ (∀ i ∈ need, k.has i = true) ∧ k.kind ∈ kinds)
  ∧ ∀ a v, flag = some (a, v) → a + 8 ≤ 0x100000 ∧ a % 8 = 0

/-- R138: the shape of an operand group, and the words of its payload. -/
def shapeOf (s : State) (n : Reg) (shape : Bool) : Shape :=
  if shape then
    { rows := ((s.rd.S n).extractLsb' 24 16).toNat, rowb := ((s.rd.S n).extractLsb' 0 24).toNat,
      spitch := ((s.rd.S (n + 1)).extractLsb' 0 20).toNat, gpitch := ((s.rd.S (n + 1)).extractLsb' 20 44).toNat }
  else { rows := 1, rowb := sN s n, spitch := 0, gpitch := 0 }

/-- The accesses among the entries of a queue. -/
def accsOf (l : List QEntry) : List Acc := l.filterMap fun e => match e with
  | .acc a => some a
  | .fence _ _ => none

/-- An entry of a queue but for the mark that keeps its line out of the L1G (R115). -/
def unmarked : QEntry → QEntry
  | .acc a => .acc { a with dead := false }
  | e => e

/-- The homes are as before but for the ways that lines stand in: a line that makes room for another is written back to its
memory, so a byte of the bank image may take what memory holds (R336, R346). -/
def KeepsHome (s t : State) : Prop :=
  t.home.mem = s.home.mem ∧ t.home.tags = s.home.tags ∧ t.home.lost = s.home.lost ∧ t.home.gens = s.home.gens
  ∧ ∀ b, t.home.bank.read b = s.home.bank.read b ∨ t.home.bank.read b = s.home.mem.read b

/-- Access `a`, with translation `t`, stands at the head of queue `q` of core `c`, `rest` behind it, and may perform at
its home: it has entered its queue, and no window, budget, full way, lost line, arena generation, strict order or log holds
it; no load of the core stands behind a FENCE (R127). -/
def MayPerform (s : State) (c : Nat) (q : BitVec 2) (a : Acc) (t : Xlat) (rest : List QEntry) : Prop :=
  let pa := t.phys a.off
  let x := (s.coreAt c).ctx
  (s.coreAt c).queues.get q = .acc a :: rest ∧ a.xl = some t ∧ a.via.kind ≠ 3 ∧ a.uid = x.task.uid ∧ a.start ≤ s.cyc
  ∧ refreshing s.cyc pa = false ∧ s.lineHeld a.via.part pa = false ∧ (s.coreAt c).hits = [] ∧ lineOf pa ∉ s.home.lost ∧ s.home.genOk t pa = true
  ∧ (x.sys.strict = true → s.loadsBefore c a.id = false) ∧ x.sys.record = false ∧ x.sys.replay = false
  ∧ NoSamplesAt s c

/-- Core `c` alone has changed of the cores, and the homes' memory has changed in the `n` bytes from `pa` alone: they hold
`v`, little-endian. A byte of the bank image is as before, or takes what memory then holds (R336). -/
def Stores (s t : State) (c pa n : Nat) (v : DWord) : Prop :=
  (∀ j, j < n → t.home.mem.read (pa + j) = v.extractLsb' (8 * j) 8)
  ∧ (∀ y, y < pa ∨ pa + n ≤ y → t.home.mem.read y = s.home.mem.read y)
  ∧ (∀ y, t.home.bank.read y = s.home.bank.read y ∨ t.home.bank.read y = t.home.mem.read y)
  ∧ t.home.tags = s.home.tags ∧ t.home.mem.wf = true
  ∧ ∀ k, k ≠ c → t.coreAt k = s.coreAt k

/-- The active lanes of a coder group of 16 or 8 from stream `f` (R180). -/
def GroupLane (s : State) (w : Bool) (m : BitVec 2) (f : Reg) (j : Nat) : Prop :=
  j < (if w then 16 else 8) ∧ (s.rd.M (m.setWidth 4)).getLsbD j = true ∧ f.toNat + j ≤ 63

/-- Coder group `i` completes at `s` when `step` succeeds on each of its lanes: each active stream becomes what its step
leaves, a decode's vector takes the lanes' values six cycles later, and every other stream, every other register, and every
scratchpad byte that no step writes are as before. -/
def GroupRuns (i : Instr) (s : State) (w : Bool) (m : BitVec 2) (f : Reg) (dst : Option Reg)
    (step : Nat → Nat → Stream → Except CFault (Stream × Nat × List (Nat × Byte))) : Prop :=
  let no := fun (j : Nat) => BitVec.ofNat 6 (f.toNat + j)
  ∀ (y : Nat → Stream) (r : Nat → Nat) (o : Nat → List (Nat × Byte)), s.core.spad.wf = true →
    (∀ j, GroupLane s w m f j → step j (f.toNat + j) (s.rd.ctx.regs.k.get (no j)) = .ok (y j, r j, o j)) →
    ∃ t, exec i s = .next t
    ∧ (∀ j, GroupLane s w m f j → t.core.ctx.regs.k.get (no j) = y j)
    ∧ (∀ k, (∀ j, GroupLane s w m f j → k ≠ no j) → t.core.ctx.regs.k.get k = s.rd.ctx.regs.k.get k)
    ∧ t.core.ctx.regs = { s.core.ctx.regs with k := t.core.ctx.regs.k }
    ∧ (∀ d, dst = some d → ∃ (x : VReg) (g : Mask), InFlight s t 6 (.v d x g)
        ∧ (∀ j, j < 256 → (g.getLsbD j = true ↔ GroupLane s w m f j))
        ∧ ∀ j, GroupLane s w m f j → x.lane j = BitVec.ofNat 32 (r j))
    ∧ (dst = none → t.core.ctx.pipe.inflight = s.core.ctx.pipe.inflight)
    ∧ (∀ a, (∀ j, GroupLane s w m f j → a ∉ (o j).map Prod.fst) → t.core.spad.read a = s.core.spad.read a)
    ∧ (NoSamples s → SameMemory s t ∧ OnlyCore s t)

end Sys2Proof.Claims

open Sys2Proof Sys2Proof.Machine Sys2Proof.Claims

/-! ## Reset -/

/-- What reset leaves, as R28, R233, R336, R364, R367 and R373 state it; that no memory, no tag and no scratchpad holds
anything, so that each byte reads zero, is the model's choice (log entry 2, unsafe). And what every core's context holds before its
first dispatch: the values that the spec gives for task entry, taken for the time before it by the model's choice (log
entry 3): S0 to S63 zero, M0 all ones and M1 to M15 zero, V and Q zero, tiles, latches and status zero, FMT0 and FMT1
0x22, MODE.STRICT set and MODE.PRIV clear, TRAPVEC and the trap registers zero (R41, R43, R85, R156, R203). -/
def Obligations.ResetAndTaskEntry : Prop :=
  (let s := core.reset;
    s = State.reset ∧ s.dev.status = 0 ∧ s.dev.meas = List.replicate 8 0 ∧ s.dev.plim = 2800 ∧ s.home.mem = [] ∧ s.home.dirty = []
      ∧ s.home.tags = []
      ∧ (∀ c, c < 320 → (s.coreAt c).engmap = 0x2A ∧ (s.coreAt c).run = .idle ∧ (s.coreAt c).spad = [])
      ∧ ∀ p, p < 12 → (s.part p).bound = false)
  ∧ (let c := Core.reset;
    (∀ r, c.S r = 0) ∧ (∀ r, c.C r = 0) ∧ (∀ r i, (c.V r).lane i = 0) ∧ c.M 0 = BitVec.allOnes 256
      ∧ (∀ r, r ≠ 0 → c.M r = 0) ∧ (∀ r, c.ctx.regs.q.get r = File.all 8 0)
      ∧ (∀ r, (c.ctx.regs.z.get r).status = 0 ∧ (c.ctx.regs.z.get r).elem = File.all 12 0)
      ∧ (∀ r, (c.ctx.regs.l.get r).lines = File.all 13 0) ∧ (∀ r, c.ctx.regs.nz.get r = 0)
      ∧ c.ctx.sys.flags = 0 ∧ c.ctx.sys.roundctl = 0 ∧ c.ctx.sys.fmt0 = 0x22 ∧ c.ctx.sys.fmt1 = 0x22
      ∧ c.ctx.sys.trapcause = 0 ∧ c.ctx.sys.trappc = 0 ∧ c.ctx.sys.trapinfo = 0 ∧ c.ctx.sys.trapvec = 0
      ∧ c.ctx.sys.priv = false ∧ c.ctx.sys.strict = true ∧ ∀ t, (c.ctx.toks.get t).pending = false ∧ (c.ctx.toks.get t).err = 0)

/-! ## Encodings -/

/-- Words written out bit by bit from the encodings of the spec, one or more of each class, with what they stand for:
R7, R49, R53, R91, R110, R135, R168, R179, R208, R235, R314. -/
def Obligations.DecodesSpecWords : Prop :=
  ∀ env : Env, env.priv = true →
    decodeWords env [0x00018210] = .ok (.add 3 1 2)
    ∧ decodeWords env [0x50000000] = .ok .nop
    ∧ decodeWords env [0b0_000_0100100_001001_000001_000000_011#32] = .ok (.lds 9 1 0 3)
    ∧ decodeWords env [0b0_000_0100110_000110_000111_000010_011#32] = .ok (.ldg 6 7 2 0 3)
    ∧ decodeWords env [0b0_000_0101000_000100_000101_000110_001#32, 0b0_110_00_0010_011_000_0000000000001000#32]
        = .ok (.atadd 4 5 6 ⟨1, false, 8, 3, 2⟩)
    ∧ decodeWords env [0b0_001_0000000_000010_000000_000001_000#32] = .ok (.vadd 0 2 0 1 0)
    ∧ decodeWords env [0b0_001_1011001_000001_000010_000011_000#32] = .ok (.vmand 1 2 3)
    ∧ decodeWords env [0b0_010_0000000_000011_000100_000001_000#32] = .ok (.mcfg 3 true 4 [])
    ∧ decodeWords env [0b0_011_0000000_000001_000010_000011_001#32, 0b0_110_00_000111_0001_0000000000010000#32]
        = .ok (.xld 1 2 3 false false true ⟨7, 1, 16⟩ [])
    ∧ decodeWords env [0b0_100_0000000_000010_000011_000100_000#32] = .ok (.kbind 2 3 4)
    ∧ decodeWords env [0x52800005] = .ok (.trap 5)
    ∧ decodeWords env [0x52A00001] = .ok (.svc 1)
    ∧ decodeWords env [0x52C00000] = .ok .eret
    ∧ decodeWords env [0x31818001, 0x61400000] = .ok (.xinv 3 0 true 20 [])
    ∧ decodeWords env [0x31818003, 0x61400000] = .ok (.xinv 3 1 true 20 [])

/-- Decoding the encoding of a well-formed instruction gives it back, with every operand at every value that its
encoding admits (R14, R18 to R22 and each form's description). -/
def Obligations.DecodeOfEncode : Prop :=
  ∀ (env : Env) (i : Instr), i.wf env = true → decodeWords env (encode i) = .ok i

/-- A privileged form, and a write of a P register, traps with reason 7 where the context is not privileged: ERET,
XINV and SSET of TRAPCAUSE, TRAPPC, TRAPINFO, TRAPVEC and LOGCTL (R40, R43, R202). A bundle of fewer than four words,
one without a stop bit, one that begins with an extension, and two slots of the scalar class are refused with the
reasons of R25 to R27. -/
def Obligations.RefusedEncodings : Prop :=
  (∀ env : Env, env.priv = false →
      decodeWords env (encode .eret) = .error 7
      ∧ (∀ (t : Tok) (m : BitVec 2) (f : Bool) (n : Reg), m ≠ 3 → n ≠ 0 → n.toNat + Wf.invLen f ≤ 64 →
          decodeWords env (encode (.xinv t m f n [])) = .error 7)
      ∧ ∀ (n : BitVec 12) (a : Reg), n ∈ [0x008, 0x009, 0x00A, 0x00B, 0x01A] → decodeWords env (encode (.sset n a)) = .error 7)
  ∧ (∀ (env : Env) (ws : List Word),
      ((∀ w ∈ ws, w.msb = false) → decodeBundle env ws = .error ⟨true, trapInfo26 7 8 none 0 0⟩)
      ∧ ((∃ w ∈ ws, w.msb = true) → ws.length < 4 →
          decodeBundle env ws = .error ⟨true, trapInfo26 (ws.length - 1) 9 none 0 0⟩)
      ∧ ((∃ w ∈ ws, w.msb = true) → 4 ≤ ws.length → (∀ w ∈ ws.head?, (Slot.ofWord w).cls = 6) →
          decodeBundle env ws = .error ⟨true, trapInfo26 0 13 none 0 0⟩))
  ∧ ∀ (env : Env) (d a b e f g : Reg),
      decodeBundle env [(⟨false, 0, 0x00, d, a, b, 0⟩ : Slot).toWord, (⟨false, 0, 0x00, e, f, g, 0⟩ : Slot).toWord,
          0x50000000, 0xD0000000] = .error ⟨true, trapInfo26 1 10 none 0 0⟩

/-! ## Scalar forms (R49 to R51) -/

/-- R49: sums, differences and products of signed and unsigned 64-bit values, with the latencies of R47. R49: the
shifts as powers of two; a shift by register takes the low six bits of Sb. R49: CLZ, CTZ and POPC count bits: the
value is below 2 to the 64 - n but no smaller power for n leading zeros; 2 to the n divides it and no larger power
does; and n of its 64 bits are set. -/
def Obligations.ScalarArithmetic : Prop :=
  (∀ (s : State) (d a b : Reg),
      GivesS (.add d a b) s 1 d (BitVec.ofInt 64 (sI s a + sI s b))
      ∧ GivesS (.sub d a b) s 1 d (BitVec.ofInt 64 (sI s a - sI s b))
      ∧ GivesS (.mul d a b) s 3 d (BitVec.ofInt 64 (sI s a * sI s b))
      ∧ GivesS (.mulh d a b) s 3 d (BitVec.ofInt 64 (sI s a * sI s b / 2 ^ 64))
      ∧ GivesS (.mulhu d a b) s 3 d (BitVec.ofNat 64 (sN s a * sN s b / 2 ^ 64)))
  ∧ (∀ (s : State) (d a b : Reg) (k : BitVec 6),
      GivesS (.shl d a b) s 1 d (BitVec.ofNat 64 (sN s a * 2 ^ (sN s b % 64)))
      ∧ GivesS (.shr d a b) s 1 d (BitVec.ofNat 64 (sN s a / 2 ^ (sN s b % 64)))
      ∧ GivesS (.sra d a b) s 1 d (BitVec.ofInt 64 (sI s a / 2 ^ (sN s b % 64)))
      ∧ GivesS (.shli d a k) s 1 d (BitVec.ofNat 64 (sN s a * 2 ^ k.toNat))
      ∧ GivesS (.shri d a k) s 1 d (BitVec.ofNat 64 (sN s a / 2 ^ k.toNat))
      ∧ GivesS (.srai d a k) s 1 d (BitVec.ofInt 64 (sI s a / 2 ^ k.toNat)))
  ∧ (∀ (s : State) (d a : Reg), ∃ z t p : Nat,
      GivesS (.clz d a) s 1 d (BitVec.ofNat 64 z) ∧ GivesS (.ctz d a) s 1 d (BitVec.ofNat 64 t)
      ∧ GivesS (.popc d a) s 1 d (BitVec.ofNat 64 p)
      ∧ z ≤ 64 ∧ sN s a < 2 ^ (64 - z) ∧ (sN s a ≠ 0 → 2 ^ (63 - z) ≤ sN s a) ∧ (sN s a = 0 → z = 64)
      ∧ 2 ^ t ∣ sN s a ∧ (sN s a ≠ 0 → ¬ 2 ^ (t + 1) ∣ sN s a) ∧ (sN s a = 0 → t = 64)
      ∧ p = (List.range 64).countP fun i => (s.rd.S a).getLsbD i)

/-- R49: compares, minima and maxima, and SEL on the old Sd. R49: bitwise forms, immediates sign-extended, LI and MOV.
-/
def Obligations.ScalarLogicAndCompares : Prop :=
  (∀ (s : State) (d a b : Reg) (imm : BitVec 35),
      GivesS (.slt d a b) s 1 d (bool01 (sI s a < sI s b))
      ∧ GivesS (.sltu d a b) s 1 d (bool01 (sN s a < sN s b))
      ∧ GivesS (.slti d a imm) s 1 d (bool01 (sI s a < imm.toInt))
      ∧ GivesS (.seq d a b) s 1 d (bool01 (s.rd.S a = s.rd.S b))
      ∧ GivesS (.min d a b) s 1 d (BitVec.ofInt 64 (Min.min (sI s a) (sI s b)))
      ∧ GivesS (.max d a b) s 1 d (BitVec.ofInt 64 (Max.max (sI s a) (sI s b)))
      ∧ GivesS (.minu d a b) s 1 d (BitVec.ofNat 64 (Min.min (sN s a) (sN s b)))
      ∧ GivesS (.maxu d a b) s 1 d (BitVec.ofNat 64 (Max.max (sN s a) (sN s b)))
      ∧ GivesS (.sel d a b) s 1 d (if s.rd.S d ≠ 0 then s.rd.S a else s.rd.S b))
  ∧ (∀ (s : State) (d a b : Reg) (imm : BitVec 35),
      GivesS (.and d a b) s 1 d (s.rd.S a &&& s.rd.S b)
      ∧ GivesS (.or d a b) s 1 d (s.rd.S a ||| s.rd.S b)
      ∧ GivesS (.xor d a b) s 1 d (s.rd.S a ^^^ s.rd.S b)
      ∧ GivesS (.andi d a imm) s 1 d (s.rd.S a &&& BitVec.ofInt 64 imm.toInt)
      ∧ GivesS (.ori d a imm) s 1 d (s.rd.S a ||| BitVec.ofInt 64 imm.toInt)
      ∧ GivesS (.xori d a imm) s 1 d (s.rd.S a ^^^ BitVec.ofInt 64 imm.toInt)
      ∧ GivesS (.addi d a imm) s 1 d (BitVec.ofInt 64 (sI s a + imm.toInt))
      ∧ GivesS (.li d imm) s 1 d (BitVec.ofInt 64 imm.toInt)
      ∧ GivesS (.mov d a) s 1 d (s.rd.S a))

/-- R50, whole: the encodings of the four forms, their quotients and remainders in every case, and the interlock of R48:
the result is due 16 cycles after issue with its register marked, S0 excepted. They never trap. -/
def Obligations.DivisionForms : Prop :=
  ∀ (s : State) (env : Env) (d a b : Reg),
    decodeWords env [(⟨false, 0, 0x06, d, a, b, 0⟩ : Slot).toWord] = .ok (.div d a b)
    ∧ decodeWords env [(⟨false, 0, 0x07, d, a, b, 0⟩ : Slot).toWord] = .ok (.divu d a b)
    ∧ decodeWords env [(⟨false, 0, 0x08, d, a, b, 0⟩ : Slot).toWord] = .ok (.rem d a b)
    ∧ decodeWords env [(⟨false, 0, 0x09, d, a, b, 0⟩ : Slot).toWord] = .ok (.remu d a b)
    ∧ (s.rd.S b = 0 →
        Divides (.div d a b) s d (BitVec.allOnes 64) ∧ Divides (.divu d a b) s d (BitVec.allOnes 64)
        ∧ Divides (.rem d a b) s d (s.rd.S a) ∧ Divides (.remu d a b) s d (s.rd.S a))
    ∧ (sI s a = -2 ^ 63 → sI s b = -1 →
        Divides (.div d a b) s d (s.rd.S a) ∧ Divides (.rem d a b) s d 0)
    ∧ (s.rd.S b ≠ 0 → ¬ (sI s a = -2 ^ 63 ∧ sI s b = -1) →
        ∃ q r : DWord, Divides (.div d a b) s d q ∧ Divides (.rem d a b) s d r
          ∧ q.toInt = (sI s a).tdiv (sI s b) ∧ sI s a = q.toInt * sI s b + r.toInt)
    ∧ (s.rd.S b ≠ 0 →
        Divides (.divu d a b) s d (BitVec.ofNat 64 (sN s a / sN s b))
        ∧ Divides (.remu d a b) s d (BitVec.ofNat 64 (sN s a % sN s b)))

/-! ## Results landing (R9, R41, R44, R48, R86) -/

/-- What a scalar result writes when it lands: its register, but for S0, which reads zero whatever is written to it
(R41); its FLAGS bits are added to the sticky ones, and a marked result clears its mark (R44, R48). No other register
changes. What a vector or mask result writes when it lands: a lane or a bit under its mask takes the result, and every
other one keeps what the register holds; M0 reads ones in every lane whatever is written to it (R85, R86). R9, R48:
the step RESULT_WRITE lands every due result of the core that no divide gives, in the order of the cycles in which they are
due, and leaves every other one in flight with its cycle; DIVIDE_RESULT lands those of divides. -/
def Obligations.ResultsLand : Prop :=
  ((∀ (x : Ctx) (d : Reg) (v : DWord) (f : BitVec 6) (due : Nat) (mk : Bool),
        let y := x.land { land := .s d v, flags := f, due, mark := mk }
        (∀ (c : Core) (r : Reg), { c with ctx := y }.S r
            = if r = d ∧ d ≠ 0 then v else { c with ctx := x }.S r)
        ∧ (∀ c : Core, { c with ctx := y }.S 0 = 0)
        ∧ y.sys = { x.sys with flags := x.sys.flags ||| f }
        ∧ y.regs = { x.regs with s := y.regs.s } ∧ y.toks = x.toks ∧ y.task = x.task ∧ y.pc = x.pc
        ∧ (mk = true → d ≠ 0 → y.pipe.spend.get d = false) ∧ (mk = false → y.pipe = x.pipe))
    ∧ (∀ (x : Ctx) (f : BitVec 6) (due : Nat),
        (∀ (d : Reg) (v : VReg) (m : Mask),
          let y := x.land { land := .v d v m, flags := f, due, mark := false }
          (∀ i, i < 256 → (y.regs.v.get d).lane i = if m.getLsbD i then v.lane i else (x.regs.v.get d).lane i)
          ∧ (∀ r, r ≠ d → y.regs.v.get r = x.regs.v.get r) ∧ y.regs = { x.regs with v := y.regs.v })
        ∧ ∀ (d : MReg) (v m : Mask),
          let y := x.land { land := .m d v m, flags := f, due, mark := false }
          (∀ c : Core, { c with ctx := y }.M 0 = BitVec.allOnes 256)
          ∧ (d ≠ 0 → ∀ i, i < 256 → (y.regs.m.get d).getLsbD i = if m.getLsbD i then v.getLsbD i else (x.regs.m.get d).getLsbD i)
          ∧ (∀ r, r ≠ d → y.regs.m.get r = x.regs.m.get r) ∧ y.regs = { x.regs with m := y.regs.m }))
  ∧ (∀ (s : State) (c : Nat), c < 320 →
      let x := (s.coreAt c).ctx
      let lands := fun (i : Instr) (due : Result → Bool) => ∃ (u : State) (l : List Result), exec i s = .next u ∧ OnlyAt s u c
        ∧ l.Perm (x.pipe.inflight.filter due) ∧ l.Pairwise (fun a b => a.due ≤ b.due)
        ∧ (let y : Ctx := { x with pipe := { x.pipe with inflight := x.pipe.inflight.filter fun r => !due r } }
           u.coreAt c = { s.coreAt c with ctx := l.foldl Ctx.land y })
      lands (.resultWrite c) (fun r => decide (r.due ≤ ownCycle (s.coreAt c)) && !r.mark)
      ∧ lands (.divideResult c) (fun r => decide (r.due ≤ ownCycle (s.coreAt c)) && r.mark))

/-! ## Scratchpad and global accesses of the scalar class (R51 to R53) -/

/-- R52: a load whose address is in range and aligned, none of its words lost, gives the little-endian bytes there as
the size says (R51), six cycles later (R47). R52: a store writes the low bytes of its source, little-endian, in its
issue cycle. FRAME: every other byte of the scratchpad is as before, global memory, its tags, the registers and the
system registers are as before, and of the task only its digest and its store number have moved (R289). -/
def Obligations.ScratchpadAccesses : Prop :=
  (∀ (s : State) (d a : Reg) (imm : BitVec 32) (sz : BitVec 3),
      let x := (s.rd.S a + BitVec.ofInt 64 imm.toInt).toNat
      let w := 2 ^ (sz.toNat % 4)
      x + w ≤ 0x100000 → x % w = 0 → s.rd.lostIn x w = false →
        ∃ v : DWord, GivesS (.lds d a imm sz) s 6 d v
        ∧ (∀ i, i < 8 * w → v.getLsbD i = (s.rd.spad.read (x + i / 8)).getLsbD (i % 8))
        ∧ (∀ i, 8 * w ≤ i → i < 64 → v.getLsbD i = (decide (4 ≤ sz.toNat ∧ sz.toNat ≤ 6) && v.getLsbD (8 * w - 1))))
  ∧ (∀ (s : State) (d a : Reg) (imm : BitVec 32) (sz : BitVec 3),
      let x := (s.rd.S a + BitVec.ofInt 64 imm.toInt).toNat
      let w := 2 ^ (sz.toNat % 4)
      s.core.spad.wf = true → x + w ≤ 0x100000 → x % w = 0 →
        ∃ t, exec (.sts d a imm sz) s = .next t
        ∧ (∀ i, i < w → t.core.spad.read (x + i) = (s.rd.S d).extractLsb' (8 * i) 8)
        ∧ (∀ y, y < x ∨ x + w ≤ y → t.core.spad.read y = s.core.spad.read y)
        ∧ t.core.spad.wf = true
        ∧ SameMemory s t ∧ SameRegs s t ∧ t.core.ctx.sys = s.core.ctx.sys ∧ t.core.ctx.toks = s.core.ctx.toks
        ∧ t.core.ctx.pipe = s.core.ctx.pipe
        ∧ t.core.ctx.task = { s.core.ctx.task with digest := t.core.ctx.task.digest, sigma := (s.core.ctx.task.sigma + 1) % 2 ^ 24 }
        ∧ OnlyCore s t)

/-- R52: the range is checked before the alignment, for loads and stores alike; both faults are taken at the bundle
with the address in TRAPINFO and nothing loaded or stored (R204). R105: the fault of a vector access is that of the
lowest active lane that fails, its own first failing check, range before alignment, and TRAPINFO names the lane;
nothing is loaded or stored. -/
def Obligations.ScratchpadFaults : Prop :=
  (∀ (s : State) (d a : Reg) (imm : BitVec 32) (sz : BitVec 3),
      let x := (s.rd.S a + BitVec.ofInt 64 imm.toInt).toNat
      let w := 2 ^ (sz.toNat % 4)
      let info := BitVec.ofNat 64 (s.slot % 8 + x % 2 ^ 32 * 2 ^ 32)
      (0x100000 < x + w →
        exec (.lds d a imm sz) s = .next (s.takeTrap 0x05 info s.rd.ctx.pc)
        ∧ exec (.sts d a imm sz) s = .next (s.takeTrap 0x05 info s.rd.ctx.pc))
      ∧ (x + w ≤ 0x100000 → x % w ≠ 0 →
        exec (.lds d a imm sz) s = .next (s.takeTrap 0x04 info s.rd.ctx.pc)
        ∧ exec (.sts d a imm sz) s = .next (s.takeTrap 0x04 info s.rd.ctx.pc)))
  ∧ (∀ (s : State) (d a b : Reg) (e : QReg) (imm : BitVec 32) (q : Gov) (k : Nat),
      let m := s.rd.G q
      let row := fun k => (s.rd.S a + BitVec.ofInt 64 imm.toInt).toNat + 4 * k
      let stride := fun k => (s.rd.S a + BitVec.ofNat 64 k * s.rd.S b).toNat
      let index := fun k => (s.rd.S a + ((s.rd.V b).lane k).setWidth 64).toNat
      let faults := fun (i : Instr) (addr : Nat → Nat) =>
        LowestFailing m (fun j => addr j + 4 ≤ 0x100000 ∧ addr j % 4 = 0) k →
          exec i s = .next (s.takeTrap (if 0x100000 < addr k + 4 then 0x05 else 0x04) (memInfo s.slot k 0 0 (addr k))
            s.rd.ctx.pc)
      faults (.vld d a imm q) row ∧ faults (.vldq e a imm q) row ∧ faults (.vst d a imm q) row
      ∧ faults (.vlds d a b q) stride ∧ faults (.vsts d a b q) stride
      ∧ faults (.vgth d a b q) index ∧ faults (.vsct d a b q) index)

/-- R53: an LDG that passes the checks completes: it marks its register and begins one interlocked value. Of bytes of one
line, a line that the L1G holds gives the value at once (R115), unless a FENCE stands ahead (R127); any other load enters an
off-core queue, that of Cb mod 4 where no atomic of the core on its line is queued (R238), as an access to Cb.base + o. A
value of two lines is read by line: each byte whose line the L1G does not hold is of an access of a queue. An STG that passes
the checks completes: it enters its queue with the low bytes of its source, by line, and its lines leave the core's L1G
(R115). R107, R108: a VLDG whose lanes all pass completes: it marks Vd pending and begins one interlocked value, and each byte
of an active lane whose line the L1G does not hold is of an access of an off-core queue; a VSTG whose lanes all pass
completes: it puts each active lane's word, at its offset, into accesses of the off-core queues, and its lines leave the L1G.
Nothing performs at a home: global memory, the scratchpad, every register and every other core stay as they are. R53: the
order of the checks of a global access: bounds, right, kind, then alignment, each with its cause and REASON (R204); the first
that fails is taken at the bundle, of a vector access that of the lowest active lane that fails (R107). -/
def Obligations.GlobalLoadsAndStores : Prop :=
  (∀ (s : State) (d a : Reg) (cap : CReg) (imm : BitVec 26) (sz : BitVec 3),
      let k := s.rd.C cap
      let v := s.rd.via k
      let o := sI s a + imm.toInt
      let w : Nat := 2 ^ (sz.toNat % 4)
      let x := k.base + o.toNat
      (GlobOk k o w 0 [4, 5] →
        ∃ t, exec (.ldg d a cap imm sz) s = .next t
        ∧ (d ≠ 0 → t.core.ctx.pipe.spend.get d = true)
        ∧ (∀ r, r ≠ d → t.core.ctx.pipe.spend.get r = s.core.ctx.pipe.spend.get r)
        ∧ Awaits s t (.s d) (.load sz)
        ∧ (NoSamples s → SameMemory s t ∧ OnlyCore { s with fresh := t.fresh } t) ∧ SameRegs s t ∧ t.core.spad = s.core.spad
        ∧ (x % 64 + w ≤ 64 →
          (v.kind ≠ 3 → NoAtomicOn s v (x / 64) → s.core.fenced = false → ∀ l, s.rd.hit v (x / 64) = some l →
            ∃ y, t.core.ctx.pipe.waits.getLast? = some y ∧ y.need = 0
            ∧ y.got = [(0, BitVec.ofNat 64 (lineValue l.bytes (x % 64) w))] ∧ t.core.queues = s.core.queues)
          ∧ (v.kind = 3 ∨ s.rd.hit v (x / 64) = none → ∃ q acc, Queued s t q acc
            ∧ acc.kind = .load ∧ acc.via = v ∧ acc.wait = some s.fresh
            ∧ acc.items = [{ lane := 0, off := x, width := w, data := 0 }]
            ∧ (NoAtomicOn s v (x / 64) → q = cap.setWidth 2)
            ∧ ∃ y, t.core.ctx.pipe.waits.getLast? = some y ∧ y.id = s.fresh ∧ y.need = 1 ∧ y.got = []))
        ∧ ∀ j, j < w → v.kind = 3 ∨ s.rd.hit v ((x + j) / 64) = none ∨ ¬ NoAtomicOn s v ((x + j) / 64) →
            InQueue t .load v (some s.fresh) 0 x j 0)
      ∧ (GlobOk k o w 1 [2, 4, 5] →
        ∃ t, exec (.stg d a cap imm sz) s = .next t
        ∧ (x % 64 + w ≤ 64 → ∃ q acc, Queued s t q acc ∧ (NoAtomicOn s v (x / 64) → q = cap.setWidth 2)
          ∧ acc.kind = .store ∧ acc.via = v ∧ acc.items = [{ lane := 0, off := x, width := w, data := s.rd.S d }])
        ∧ (∀ j, j < w → InQueue t .store v none 0 x j (s.rd.S d))
        ∧ LinesLeave s t v (fun n => ∃ j, j < w ∧ n = (x + j) / 64)
        ∧ SameMemory s t ∧ SameRegs s t ∧ t.core.spad = s.core.spad ∧ t.core.ctx.pipe.waits = s.core.ctx.pipe.waits
        ∧ OnlyCore { s with fresh := t.fresh } t))
  ∧ (∀ (s : State) (d a : Reg) (cap : CReg) (imm : BitVec 26) (q : Gov),
      let k := s.rd.C cap
      let v := s.rd.via k
      let m := s.rd.G q
      let o := sI s a + imm.toInt
      let x := fun (l : Nat) => k.base + (o + 4 * l).toNat
      ((∀ l : Nat, l < 256 → m.getLsbD l = true → GlobOk k (o + 4 * l) 4 0 [4, 5]) →
        ∃ t, exec (.vldg d a cap imm q) s = .next t
        ∧ t.core.ctx.pipe.vpend.get d = true ∧ (∀ r, r ≠ d → t.core.ctx.pipe.vpend.get r = s.core.ctx.pipe.vpend.get r)
        ∧ Awaits s t (.v d m) .vload
        ∧ (∀ l j : Nat, l < 256 → j < 4 → m.getLsbD l = true → v.kind = 3 ∨ s.rd.hit v ((x l + j) / 64) = none ∨ ¬ NoAtomicOn s v ((x l + j) / 64) →
          InQueue t .load v (some s.fresh) l (x l) j 0)
        ∧ (NoSamples s → SameMemory s t ∧ OnlyCore { s with fresh := t.fresh } t) ∧ SameRegs s t ∧ t.core.spad = s.core.spad)
      ∧ ((∀ l : Nat, l < 256 → m.getLsbD l = true → GlobOk k (o + 4 * l) 4 1 [2, 4, 5]) →
        ∃ t, exec (.vstg d a cap imm q) s = .next t
        ∧ (∀ l j : Nat, l < 256 → j < 4 → m.getLsbD l = true → InQueue t .store v none l (x l) j (((s.rd.V d).lane l).setWidth 64))
        ∧ LinesLeave s t v (fun n => ∃ l j : Nat, l < 256 ∧ j < 4 ∧ m.getLsbD l = true ∧ n = (x l + j) / 64)
        ∧ SameMemory s t ∧ SameRegs s t ∧ t.core.spad = s.core.spad ∧ t.core.ctx.pipe.waits = s.core.ctx.pipe.waits
        ∧ OnlyCore { s with fresh := t.fresh } t))
  ∧ (∀ (s : State) (d a : Reg) (cap : CReg) (imm : BitVec 26) (sz : BitVec 3) (q : Gov) (l : Nat),
      let k := s.rd.C cap
      let o := sI s a + imm.toInt
      let w : Nat := 2 ^ (sz.toNat % 4)
      let m := s.rd.G q
      let traps := fun (i : Instr) (lane : Nat) (o : Int) (w right : Nat) (bad : List Nat) =>
        let trap := fun (code : Byte) (reason : Nat) =>
          exec i s = .next (s.takeTrap code (memInfo s.slot lane cap.toNat reason (o % 2 ^ 32).toNat) s.rd.ctx.pc)
        (o < 0 ∨ o + w > k.len → trap 0x03 1)
        ∧ (0 ≤ o → o + w ≤ k.len → (k.has right = false → trap 0x03 2)
          ∧ (k.has right = true → (k.kind ∈ bad → trap 0x03 3) ∧ (k.kind ∉ bad → o % w ≠ 0 → trap 0x04 0)))
      traps (.ldg d a cap imm sz) 0 o w 0 [4, 5] ∧ traps (.stg d a cap imm sz) 0 o w 1 [2, 4, 5]
      ∧ (LowestFailing m (fun j => GlobOk k (o + 4 * j) 4 0 [4, 5]) l → traps (.vldg d a cap imm q) l (o + 4 * l) 4 0 [4, 5])
      ∧ (LowestFailing m (fun j => GlobOk k (o + 4 * j) 4 1 [2, 4, 5]) l →
          traps (.vstg d a cap imm q) l (o + 4 * l) 4 1 [2, 4, 5]))

/-- R54: CNARROW, CRIGHTS, CGET and CMOVC, field by field, with the capability fault of CNARROW. -/
def Obligations.CapabilityForms : Prop :=
  ∀ (s : State) (d a : CReg) (e b : Reg) (mask : BitVec 8),
    let k := s.rd.C a
    (0 ≤ sI s b → sI s b + 64 * sN s (b + 1) ≤ k.len →
      ∃ v : Cap, Gives (.cnarrow d a b) s 1 (.c d v)
      ∧ (k.base + sN s b < 2 ^ 48 → v.base = k.base + sN s b) ∧ v.len = 64 * sN s (b + 1) ∧ v.obj = k.obj ∧ v.gen = k.gen ∧ v.kind = k.kind
      ∧ v.rights = k.rights)
    ∧ ((sI s b < 0 ∨ k.len < sI s b + 64 * sN s (b + 1)) →
        exec (.cnarrow d a b) s
          = .next (s.takeTrap 0x03 (memInfo s.slot 0 a.toNat 1 (sN s b % 2 ^ 32)) s.rd.ctx.pc))
    ∧ (∃ v : Cap, Gives (.crights d a mask) s 1 (.c d v)
      ∧ v.rights = k.rights &&& mask ∧ v.base = k.base ∧ v.len = k.len ∧ v.obj = k.obj ∧ v.gen = k.gen ∧ v.kind = k.kind)
    ∧ Gives (.cmovc d a) s 1 (.c d k)
    ∧ GivesS (.cget e a 0) s 1 e (BitVec.ofNat 64 k.obj) ∧ GivesS (.cget e a 1) s 1 e (BitVec.ofNat 64 k.gen)
    ∧ GivesS (.cget e a 2) s 1 e (k.rights.setWidth 64) ∧ GivesS (.cget e a 3) s 1 e (BitVec.ofNat 64 k.kind)
    ∧ GivesS (.cget e a 4) s 1 e (BitVec.ofNat 64 k.base) ∧ GivesS (.cget e a 5) s 1 e (BitVec.ofNat 64 (k.len / 64))

/-! ## System registers (R43, R44, R55, R69, R203, R247, R276, R351) -/

/-- R43, R55, R247: what SGET reads of every assigned register, one cycle later; CYC and FRC are those of the issue cycle,
as one count of the whole package, which is the model's choice (log entry 119, unsafe),
and WSWIN's fields are computed from CYC. -/
def Obligations.SystemRegisterReads : Prop :=
  ∀ (s : State) (d : Reg) (n : BitVec 3),
    let y := s.rd.ctx.sys
    let w := 2048 * y.group.toNat
    let x := s.cyc % 32768
    GivesS (.sget d 0x000) s 1 d (y.flags.setWidth 64) ∧ GivesS (.sget d 0x001) s 1 d y.roundctl
    ∧ GivesS (.sget d 0x002) s 1 d y.fmt0 ∧ GivesS (.sget d 0x003) s 1 d y.fmt1
    ∧ GivesS (.sget d 0x008) s 1 d y.trapcause ∧ GivesS (.sget d 0x009) s 1 d y.trappc
    ∧ GivesS (.sget d 0x00A) s 1 d y.trapinfo ∧ GivesS (.sget d 0x00B) s 1 d y.trapvec
    ∧ GivesS (.sget d 0x010) s 1 d (BitVec.ofNat 64 s.cyc) ∧ GivesS (.sget d 0x011) s 1 d (BitVec.ofNat 64 (s.cyc / 1024))
    ∧ GivesS (.sget d 0x018) s 1 d (y.partid.setWidth 64) ∧ GivesS (.sget d 0x019) s 1 d (y.ctxid.setWidth 64)
    ∧ GivesS (.sget d 0x01B) s 1 d s.rd.engmap ∧ GivesS (.sget d 0x01C) s 1 d (y.mode.setWidth 64)
    ∧ GivesS (.sget d 0x01D) s 1 d y.hintdrop
    ∧ GivesS (.sget d (0x020 + n.setWidth 12)) s 1 d (y.evsel.get n)
    ∧ GivesS (.sget d (0x028 + n.setWidth 12)) s 1 d (y.evcnt.get n)
    ∧ (∃ v : DWord, GivesS (.sget d 0x01A) s 1 d v ∧ v.extractLsb' 0 38 = (y.logctl &&& 0x3F3FFFFFFF).extractLsb' 0 38
        ∧ v.extractLsb' 40 24 = 0)
    ∧ ∃ v : DWord, GivesS (.sget d 0x012) s 1 d v
      ∧ v.extractLsb' 0 4 = y.group ∧ v.extractLsb' 4 12 = 0 ∧ v.extractLsb' 42 22 = 0
      ∧ (v.extractLsb' 16 16).toNat = (if x = w then 32768 else (w + 32768 - x) % 32768)
      ∧ (w ≤ x ∧ x < w + 384 → (v.extractLsb' 32 9).toNat = w + 384 - x ∧ v.getLsbD 41 = true)
      ∧ (¬ (w ≤ x ∧ x < w + 384) → v.extractLsb' 32 9 = 0 ∧ v.getLsbD 41 = false)

/-- R43, R44, R55, R69, R158, R166, R203, R247, R276, R351: what an accepted SSET leaves in each register that a
context can write, reserved bits zero; a 1 clears a FLAGS or OVF bit, and any value but zero clears HINTDROP. Nothing
else of the state changes. The rows that write a system register of their own: FLAGS (R44), HINTDROP (R43), ROUNDCTL
(R69), FMT (R158), WSWIN (R247), LOGCTL (R276), EVSEL (R351) and the trap registers (R203) take an accepted value as
SSET does; LOGCTL and the trap registers from a privileged context alone, any other trapping with reason 7 (R43). R55,
R69, R159, R203, R276, R351: a value with a reserved encoding in a writable field traps with the illegal-encoding
trap, reason 4, and writes nothing; a write that changes the format pair of an array not drained raises the
format-change fault (R166). -/
def Obligations.SystemRegisterWrites : Prop :=
  ((∀ (s : State) (a : Reg) (n : BitVec 3),
        let v := s.rd.S a
        let x := s.rd.ctx
        SetsSys (.sset 0x000 a) s (fun y => { y with flags := y.flags &&& ~~~(v.setWidth 6) })
        ∧ (v.extractLsb' 0 3 ≠ 6 → v.extractLsb' 0 3 ≠ 7 → SetsSys (.sset 0x001 a) s fun y =>
            { y with roundctl := v.extractLsb' 32 32 ++ (v.extractLsb' 0 4).setWidth 32 })
        ∧ (PairValid v → PairKept x false v →
            SetsSys (.sset 0x002 a) s fun y => { y with fmt0 := (v.extractLsb' 0 9).setWidth 64 })
        ∧ (PairValid v → PairKept x true v →
            SetsSys (.sset 0x003 a) s fun y => { y with fmt1 := (v.extractLsb' 0 9).setWidth 64 })
        ∧ (v.extractLsb' 10 54 = 0 → SetsSys (.sset 0x008 a) s fun y => { y with trapcause := v })
        ∧ (v.extractLsb' 48 16 = 0 → SetsSys (.sset 0x009 a) s fun y => { y with trappc := v })
        ∧ SetsSys (.sset 0x00A a) s (fun y => { y with trapinfo := v })
        ∧ (v.extractLsb' 49 15 = 0 → v.extractLsb' 0 2 = 0 → SetsSys (.sset 0x00B a) s fun y => { y with trapvec := v })
        ∧ SetsSys (.sset 0x012 a) s (fun y => { y with group := v.extractLsb' 0 4 })
        ∧ (10 ≤ (v.extractLsb' 24 5).toNat → (v.extractLsb' 24 5).toNat ≤ 30 → 16 ≤ (v.extractLsb' 32 6).toNat →
            (v.extractLsb' 32 6).toNat ≤ 40 → SetsSys (.sset 0x01A a) s fun y =>
              { y with logctl := (v.extractLsb' 32 6 ++ (v.extractLsb' 0 30).setWidth 32).setWidth 64 })
        ∧ SetsSys (.sset 0x01D a) s (fun y => { y with hintdrop := if v = 0 then y.hintdrop else 0 })
        ∧ ((v.extractLsb' 0 8).toNat ≤ 15 → SetsSys (.sset (0x020 + n.setWidth 12) a) s fun y =>
            { y with evsel := y.evsel.put n ((v.extractLsb' 0 10).setWidth 64
                ||| (if (y.evsel.get n).getLsbD 10 && !v.getLsbD 10 then 0x400 else 0)) })
        ∧ SetsSys (.sset (0x028 + n.setWidth 12) a) s (fun y => { y with evcnt := y.evcnt.put n v }))
    ∧ (∀ (s : State) (v : DWord) (n : BitVec 3) (b : Bool),
        SetsSys (.flagsWrite v) s (fun y => { y with flags := y.flags &&& ~~~(v.setWidth 6) })
        ∧ SetsSys (.hintdropWrite v) s (fun y => { y with hintdrop := if v = 0 then y.hintdrop else 0 })
        ∧ (v.extractLsb' 0 3 ≠ 6 → v.extractLsb' 0 3 ≠ 7 → SetsSys (.roundctlWrite v) s fun y =>
            { y with roundctl := v.extractLsb' 32 32 ++ (v.extractLsb' 0 4).setWidth 32 })
        ∧ (PairValid v → PairKept s.rd.ctx b v → SetsSys (.fmtWrite b v) s fun y =>
            if b then { y with fmt1 := (v.extractLsb' 0 9).setWidth 64 } else { y with fmt0 := (v.extractLsb' 0 9).setWidth 64 })
        ∧ Completes (.wswinAccess none) s s
        ∧ SetsSys (.wswinAccess (some v)) s (fun y => { y with group := v.extractLsb' 0 4 })
        ∧ ((v.extractLsb' 0 8).toNat ≤ 15 → SetsSys (.evselWrite n v) s fun y =>
            { y with evsel := y.evsel.put n ((v.extractLsb' 0 10).setWidth 64
                ||| (if (y.evsel.get n).getLsbD 10 && !v.getLsbD 10 then 0x400 else 0)) })
        ∧ (s.rd.ctx.sys.priv = true → 10 ≤ (v.extractLsb' 24 5).toNat → (v.extractLsb' 24 5).toNat ≤ 30 →
            16 ≤ (v.extractLsb' 32 6).toNat → (v.extractLsb' 32 6).toNat ≤ 40 → SetsSys (.logctlWrite v) s fun y =>
              { y with logctl := (v.extractLsb' 32 6 ++ (v.extractLsb' 0 30).setWidth 32).setWidth 64 })
        ∧ (s.rd.ctx.sys.priv = true → v.extractLsb' 10 54 = 0 →
            SetsSys (.trapRegisterWrite 0 v) s fun y => { y with trapcause := v })
        ∧ (s.rd.ctx.sys.priv = true → v.extractLsb' 48 16 = 0 →
            SetsSys (.trapRegisterWrite 1 v) s fun y => { y with trappc := v })
        ∧ (s.rd.ctx.sys.priv = true → SetsSys (.trapRegisterWrite 2 v) s fun y => { y with trapinfo := v })
        ∧ (s.rd.ctx.sys.priv = true → v.extractLsb' 49 15 = 0 → v.extractLsb' 0 2 = 0 →
            SetsSys (.trapRegisterWrite 3 v) s fun y => { y with trapvec := v })
        ∧ (s.rd.ctx.sys.priv = false → ∀ r : BitVec 2,
            exec (.logctlWrite v) s = .next (s.takeTrap 0x01 (trapInfo26 s.slot 7 none 0 0) s.rd.ctx.pc)
            ∧ exec (.trapRegisterWrite r v) s = .next (s.takeTrap 0x01 (trapInfo26 s.slot 7 none 0 0) s.rd.ctx.pc))))
  ∧ (∀ (s : State) (a : Reg) (n : BitVec 3),
      let v := s.rd.S a
      let x := s.rd.ctx
      let refused := fun (r : BitVec 12) => exec (.sset r a) s = .next (s.takeTrap 0x01 (trapInfo26 s.slot 4 none 0 0) x.pc)
      (6 ≤ (v.extractLsb' 0 3).toNat → refused 0x001)
      ∧ (¬ PairValid v → refused 0x002 ∧ refused 0x003)
      ∧ (v.extractLsb' 10 54 ≠ 0 → refused 0x008) ∧ (v.extractLsb' 48 16 ≠ 0 → refused 0x009)
      ∧ (v.extractLsb' 49 15 ≠ 0 ∨ v.extractLsb' 0 2 ≠ 0 → refused 0x00B)
      ∧ ((v.extractLsb' 24 5).toNat < 10 ∨ 30 < (v.extractLsb' 24 5).toNat ∨ (v.extractLsb' 32 6).toNat < 16
          ∨ 40 < (v.extractLsb' 32 6).toNat → refused 0x01A)
      ∧ (15 < (v.extractLsb' 0 8).toNat → refused (0x020 + n.setWidth 12))
      ∧ (PairValid v → ¬ PairKept x false v →
          exec (.sset 0x002 a) s = .next (s.takeTrap 0x07 (memInfo s.slot 0 0 0 0) x.pc))
      ∧ (PairValid v → ¬ PairKept x true v →
          exec (.sset 0x003 a) s = .next (s.takeTrap 0x07 (memInfo s.slot 1 0 0 0) x.pc)))

/-- R55, R286, R290: SEED and DGET mark their register and begin an interlocked value, in a context that neither records
nor replays: SEED's word is a draw from the entropy source, a free value (log entry 9), and is there at once; DGET's is
the digest so far, and waits for every store of the context that has not performed. -/
def Obligations.SeedAndDigest : Prop :=
  ∀ (s : State) (d : Reg),
    (s.core.ctx.sys.record = false → s.core.ctx.sys.replay = false →
      (∀ l, s.launchAt s.core.ctx.sys.partid.toNat s.core.ctx.task.launch = some l → l.serial = false) →
      ∃ t, exec (.seed d) s = .next t ∧ Awaits s t (.s d) .seed
      ∧ (∃ w, t.core.ctx.pipe.waits.getLast? = some w ∧ w.need = 0 ∧ w.got = [(0, Config.entropy s.fresh)])
      ∧ (d ≠ 0 → t.core.ctx.pipe.spend.get d = true) ∧ t.core.ctx.task.seeds = s.core.ctx.task.seeds + 1
      ∧ SameMemory s t ∧ SameRegs s t ∧ SameSpad s t ∧ OnlyCore { s with fresh := t.fresh } t)
    ∧ ∃ t, exec (.dget d) s = .next t ∧ Awaits s t (.s d) .digest
      ∧ (∃ w, t.core.ctx.pipe.waits.getLast? = some w ∧ w.need = s.storesPending s.core.ctx.task.uid
          ∧ w.got = [(0, s.core.ctx.task.digest)])
      ∧ (d ≠ 0 → t.core.ctx.pipe.spend.get d = true)
      ∧ SameMemory s t ∧ SameRegs s t ∧ SameSpad s t ∧ OnlyCore { s with fresh := t.fresh } t

/-! ## Traps and returns (R202 to R210) -/

/-- R207: taking a handled cause. A privileged context takes the double trap, 0x19, as a terminal cause with the
code in TRAPINFO (its bits 63:8 zero, by the model's choice of log entry 17); one without a handler takes the cause as terminal; any other has its trap registers written, PRIV set and
its PC at the handler, and nothing else of it changes: results in flight, interlocked values, engine operations, rounding
state, FLAGS, tokens and every other register stay as they stand. -/
def Obligations.HandledTrapTaken : Prop :=
  ∀ (s : State) (code : Byte) (info : DWord) (pc : BitVec 48),
    let x := s.core.ctx
    let t := s.takeTrap code info pc
    (x.sys.priv = true → t = s.takeTerminal 0x19 false pc (code.setWidth 64))
    ∧ (x.sys.priv = false → x.sys.trapvec.getLsbD 48 = false → t = s.takeTerminal code false pc info)
    ∧ (x.sys.priv = false → x.sys.trapvec.getLsbD 48 = true →
        t.core.ctx.sys = { x.sys with trapcause := code.setWidth 64, trappc := pc.setWidth 64, trapinfo := info,
                                      mode := x.sys.mode ||| 1 }
        ∧ t.core.ctx.sys.priv = true ∧ t.core.ctx.pc = x.sys.trapvec.extractLsb' 0 48
        ∧ t.core.ctx.regs = x.regs ∧ t.core.ctx.toks = x.toks ∧ t.core.ctx.ops = x.ops ∧ t.core.ctx.task = x.task
        ∧ t.core.ctx.pipe.inflight = x.pipe.inflight ∧ t.core.ctx.pipe.waits = x.pipe.waits
        ∧ t.core.ctx.pipe.spend = x.pipe.spend ∧ t.core.ctx.pipe.vpend = x.pipe.vpend
        ∧ t.core.run = s.core.run ∧ t.core.spad = s.core.spad ∧ t.core.queues = s.core.queues ∧ OnlyCore s t)

/-- R209, step 1, and R210: a terminal cause stops the context with a fault record that holds the cause, ASYNC, the
privilege and strictness, the core and task, the bundle, TRAPINFO and CYC; results on their way go to the shadow
result buffer (R211), and nothing else of the state changes. R122, R123, R205: an engine slot that consumes a token
Resolved with an error takes the token's cause at its bundle, handled for buffer-busy, accumulator overflow and layout
mismatch and terminal for every other kind; the token holds no error any more. TRAPINFO holds the token, the kind, the
instance and DETAIL. So for every matrix, copy and hoist form, a matrix form that names a tile or a latch once no operation
under way names one (R46), and for TWAIT (R124). -/
def Obligations.TerminalCausesAndTokenErrors : Prop :=
  (∀ (s : State) (code : Byte) (async : Bool) (pc : BitVec 48) (info : DWord),
      let x := s.core.ctx
      let t := s.takeTerminal code async pc info
      ∃ w : DWord,
      t.core.run = .ending code [w, pc.setWidth 64, info, BitVec.ofNat 64 s.cyc]
      ∧ w.extractLsb' 0 8 = code ∧ w.getLsbD 8 = async ∧ w.getLsbD 9 = x.sys.priv ∧ w.getLsbD 10 = x.sys.strict
      ∧ w.extractLsb' 11 5 = 0 ∧ (w.extractLsb' 16 16).toNat = (s.part s.core.pid).coreNo s.cur.val % 2 ^ 16
      ∧ w.extractLsb' 32 32 = x.task.lidx.extractLsb' 0 32
      ∧ t.core.ctx.regs = x.regs ∧ t.core.ctx.sys = x.sys ∧ t.core.ctx.toks = x.toks ∧ t.core.ctx.ops = x.ops
      ∧ t.core.ctx.pc = x.pc ∧ t.core.spad = s.core.spad ∧ t.core.ctx.pipe.inflight = x.pipe.inflight.filter Result.mark
      ∧ t.core.ctx.pipe.shadow.length = x.pipe.shadow.length + (x.pipe.inflight.filter fun r => !r.mark).length
      ∧ OnlyCore s t)
  ∧ (∀ (s : State) (t e : Tok) (l : List Tok),
      (∀ k ∈ t :: l, (s.rd.ctx.toks.get k).pending = false) → (t :: l).find? (fun k => (s.rd.ctx.toks.get k).err != 0) = some e →
        let y := s.core.ctx.toks.get e
        let info := BitVec.ofNat 64 (e.toNat + y.err.toNat * 2 ^ 8 + y.inst.toNat * 2 ^ 12 + y.detail.toNat * 2 ^ 16)
        let s1 := s.modCtx fun c => { c with toks := c.toks.put e { y with pending := false, err := 0 } }
        let u := if y.err = 2 ∨ y.err = 7 ∨ y.err = 8 then s1.takeTrap (kindCause y.err) info s.rd.ctx.pc
          else s1.takeTerminal (kindCause y.err) false s.rd.ctx.pc info
        (∀ (a b : Reg) (n shape flag : Bool) (r : Ring) (nz : NzReg) (w : XWord) (mode : BitVec 2) (i : Instr),
          i ∈ [.mcfg t n a l, .mdrain t n l, .mnz t a nz l, .xld t a b n shape flag w l, .xst t a b shape flag w l,
            .xmc t a b n shape flag w l, .xred t a b n shape flag w l, .xhost t a b n shape flag w l, .xchain t a n l,
            .xpf t b n w l, .xres t b n w l, .xsub t r b n w l, .xunsub t r l, .xbmv t a b flag mode w l, .xbfen t b w l,
            .xinv t mode flag a l] → exec i s = .next u)
        ∧ ((∀ z, s.rd.tileBusy z none = false) → (∀ x, s.rd.latchBusy x = false) →
          ∀ (a b : Reg) (n m : Bool) (z y : ZReg) (x : LReg) (w : MmaWord) (v : MstWord) (i : Instr),
          i ∈ [.mlatch t x b n m l, .mma t a b w l, .mmat t a b w l, .mzero t z n l, .mldz t z b n l, .mst t z b v l,
            .mtrn t z y l, .mstat t z b n l] → exec i s = .next u)
        ∧ (l = [] → exec (.twait t) s = .next u)
        ∧ (∀ k, k ≠ e → u.core.ctx.toks.get k = s.core.ctx.toks.get k) ∧ (u.core.ctx.toks.get e).err = 0)

/-- R208: TRAP takes the software trap, with TRAPINFO n and TRAPPC at the next bundle in sequence; SVC sends n and S1 to
S8 to Bamosh, and the bundle after it waits for the answer; ERET sets the PC to TRAPPC.PC and PRIV to PPRIV, as the bundle
found them, and traps with reason 7 in a context that is not privileged (R202). -/
def Obligations.TrapServiceAndReturn : Prop :=
  ∀ (s : State) (n : BitVec 9),
    let y := s.rd.ctx.sys
    exec (.trap n) s = .next (s.takeTrap 0x10 (n.setWidth 64) s.rd.ctx.npc)
    ∧ (∃ t, exec (.svc n) s = .next t
      ∧ t.core.ctx.pipe.svc = some (n.setWidth 64
          :: [s.rd.S 1, s.rd.S 2, s.rd.S 3, s.rd.S 4, s.rd.S 5, s.rd.S 6, s.rd.S 7, s.rd.S 8])
      ∧ t.core.ctx.regs = s.core.ctx.regs ∧ t.core.ctx.sys = s.core.ctx.sys ∧ t.core.ctx.npc = s.core.ctx.npc
      ∧ SameMemory s t ∧ SameSpad s t ∧ OnlyCore s t)
    ∧ (y.priv = true → ∃ t, exec .eret s = .next t
      ∧ t.core.ctx.npc = y.trappc.extractLsb' 0 48 ∧ t.core.ctx.sys.priv = y.trapcause.getLsbD 8
      ∧ t.core.ctx.sys = { s.core.ctx.sys with mode := t.core.ctx.sys.mode }
      ∧ (∀ i, 1 ≤ i → i < 6 → t.core.ctx.sys.mode.getLsbD i = s.core.ctx.sys.mode.getLsbD i)
      ∧ t.core.ctx.regs = s.core.ctx.regs ∧ t.core.ctx.toks = s.core.ctx.toks ∧ t.core.ctx.pipe = s.core.ctx.pipe
      ∧ SameMemory s t ∧ SameSpad s t ∧ OnlyCore s t)
    ∧ (y.priv = false → exec .eret s = .next (s.takeTrap 0x01 (trapInfo26 s.slot 7 none 0 0) s.rd.ctx.pc))

/-! ## Control flow (R56, R57) -/

/-- R56: the branches. A target is `bundle start + 4 × imm` modulo 2^48; a conditional branch that is not taken changes
nothing; CALL's link and LOOP's count are results of latency 1. -/
def Obligations.Branches : Prop :=
  ∀ (s : State) (i47 : BitVec 47) (i41 : BitVec 41) (i32 : BitVec 32) (a b : Reg) (c : BitVec 3),
    let jump := fun (k : Int) => s.modCtx fun x => { x with npc := BitVec.ofInt 48 (s.rd.ctx.pc.toNat + 4 * k) }
    let holds : Bool := match c.toNat with
      | 0 => s.rd.S a == s.rd.S b
      | 1 => s.rd.S a != s.rd.S b
      | 2 => sI s a < sI s b
      | 3 => sI s b ≤ sI s a
      | 4 => sN s a < sN s b
      | _ => sN s b ≤ sN s a
    Completes .nop s s
    ∧ Completes (.br i47) s (jump i47.toInt)
    ∧ Completes (.bc i32 a b c) s (if holds then jump i32.toInt else s)
    ∧ Completes (.bz i41 a) s (if s.rd.S a = 0 then jump i41.toInt else s)
    ∧ Completes (.bnz i41 a) s (if s.rd.S a = 0 then s else jump i41.toInt)
    ∧ Completes (.jr a) s (s.modCtx fun x => { x with npc := (s.rd.S a).extractLsb' 0 48 })
    ∧ Completes .ret s (s.modCtx fun x => { x with npc := (s.rd.S 63).extractLsb' 0 48 })
    ∧ Completes (.call i47) s ((jump i47.toInt).resS 1 63 (s.rd.ctx.npc.setWidth 64))
    ∧ Completes (.loop i41 a) s ((if s.rd.S a = 1 then s else jump i41.toInt).resS 1 a (BitVec.ofInt 64 (sI s a - 1)))

/-- R142, R124, R259, R126, R127, R215: the waits and ordering forms of one core. A WAITW whose word meets its condition, a
TWAIT on a token Resolved without error and a YIELD whose bit is set complete, the last clearing its bit; a held one
parks, as does a task's first YIELD, which clears both bits. A DRAIN holds what follows it at every scope but .lane; a FENCE
at .lane does nothing, and at any other scope puts
a marker at the tail of all four queues, which is passed at once where they are empty. A SAFEPT with nothing pending starts the hang count again (R269). -/
def Obligations.WaitsAndOrdering : Prop :=
  ∀ (s : State) (a b : Reg) (c : BitVec 3) (t : Tok) (sc : Scope) (n : BitVec 35),
    let x := sN s a
    let w := s.rd.spad.readLE x 8
    let e := s.rd.ctx.toks.get t
    let met : Prop := if c = 0 then w = sN s b else if c = 1 then w ≠ sN s b else sN s b ≤ w
    (x + 8 ≤ 0x100000 → x % 8 = 0 → s.rd.lostIn x 8 = false → met → Completes (.waitw a b c) s s)
    ∧ (x + 8 ≤ 0x100000 → x % 8 = 0 → s.rd.lostIn x 8 = false → ¬ met → Completes (.waitw a b c) s (s.park .waitw))
    ∧ (e.pending = false → e.err = 0 → Completes (.twait t) s s)
    ∧ (e.pending = true → Completes (.twait t) s (s.park .twait))
    ∧ (s.rd.ctx.pipe.yielded = true →
        (s.rd.ctx.pipe.event = true → Completes (.yield false) s (s.modPipe fun p => { p with event := false }))
        ∧ (s.rd.ctx.pipe.tick = true → Completes (.yield true) s (s.modPipe fun p => { p with tick := false }))
        ∧ (s.rd.ctx.pipe.event = false → Completes (.yield false) s (s.park .yield))
        ∧ (s.rd.ctx.pipe.tick = false → Completes (.yield true) s (s.park .yield)))
    ∧ (s.rd.ctx.pipe.yielded = false → ∀ tick, Completes (.yield tick) s
        ((s.modPipe fun p => { p with yielded := true, event := false, tick := false }).park .yield))
    ∧ Completes (.drain 0) s s
    ∧ (sc ≠ 0 → Completes (.drain sc) s (s.modPipe fun p => { p with drain := some sc }))
    ∧ Completes (.fence 0) s s
    ∧ (sc ≠ 0 → s.core.queues = File.all 2 [] → s.core.hits = [] → ∃ u, exec (.fence sc) s = .next u ∧ u.core = s.core)
    ∧ (sc ≠ 0 → (∀ q, ∀ y ∈ s.core.queues.get q, ∃ a, y = .acc a) →
        (∃ q acc, QEntry.acc acc ∈ s.core.queues.get q ∧ acc.via.kind ≠ 3) →
        ∃ u, exec (.fence sc) s = .next u ∧ (∀ q, u.core.queues.get q = s.core.queues.get q ++ [.fence s.fresh sc])
          ∧ u.core = { s.core with queues := u.core.queues } ∧ OnlyCore { s with fresh := u.fresh } u)
    ∧ (s.core.ctx.task.revoked = false → s.core.ctx.pipe.safeReq = none →
        Completes (.safept n) s (s.modPipe fun p => { p with hang := 0 }))

/-! ## Rounding (R62, R70, R74, R83) -/

/-- R70 on magnitudes: `m` units cut at `d` units to a quantum. A value on a quantum is exact in every mode; between
two quanta, RNE takes the nearer and the even one at a tie, RTZ the lower, RDN and RUP by the sign, RNA the nearer and
the upper one at a tie; the rest is what makes a result inexact. R71: the stochastic mode moves up when the draw is
below floor(d × 2^24), d being the rest's part of the quantum, taken from the lower neighbour: of a negative value
that is the larger magnitude, but where R73 takes magnitudes. R61 and R62 on sums: the exact sum of two finite numbers
rounded once; a zero sum of opposite signs is -0 under RDN alone; ∞ - ∞ is invalid, any other sum with an infinity is
that infinity; a NaN gives the canonical NaN, and a signalling one sets NV. -/
def Obligations.RoundingAndSums : Prop :=
  ((∀ (rm : Nat) (neg mag : Bool) (u m k : Nat), rm ≤ 4 →
        let d := 2 ^ k
        let r := quantise rm neg mag u m 0 k false
        r.2 = decide (m % d ≠ 0)
        ∧ (m % d = 0 → r.1 * d = m)
        ∧ (m % d ≠ 0 → r.1 = m / d ∨ r.1 = m / d + 1)
        ∧ (rm = 0 → 2 * (r.1 * d) ≤ 2 * m + d ∧ 2 * m ≤ 2 * (r.1 * d) + d
            ∧ (2 * (r.1 * d) = 2 * m + d ∨ 2 * m = 2 * (r.1 * d) + d → r.1 % 2 = 0))
        ∧ (rm = 1 → r.1 = m / d)
        ∧ (rm = 2 → r.1 = if neg ∧ m % d ≠ 0 then m / d + 1 else m / d)
        ∧ (rm = 3 → r.1 = if ¬ neg ∧ m % d ≠ 0 then m / d + 1 else m / d)
        ∧ (rm = 4 → 2 * (r.1 * d) ≤ 2 * m + d ∧ 2 * m < 2 * (r.1 * d) + d))
    ∧ (∀ (neg mag : Bool) (u m k : Nat),
        let d := 2 ^ k
        let n := m / d
        let r := m % d
        (quantise 5 neg mag u m 0 k false).1
          = if r = 0 then n
            else if neg ∧ ¬ mag then (if u < (d - r) * 2 ^ 24 / d then n else n + 1)
            else if u < r * 2 ^ 24 / d then n + 1 else n))
  ∧ (∀ (f : Fmt) (r : Rnd) (e : Nat),
      (∀ (a b : Bool) (m n : Nat) (x y : Int), ∃ z : Dy,
        let lo := Min.min x y
        f.add r e (.num a m x) (.num b n y)
          = f.convert r e (.num (if z.m = 0 then (if a = b then a else decide (r.rm = 2)) else decide (z.m < 0)) z.m.natAbs z.e)
        ∧ lo ≤ z.e
        ∧ z.m * 2 ^ (z.e - lo).toNat = (if a then -(m : Int) else m) * 2 ^ (x - lo).toNat
            + (if b then -(n : Int) else n) * 2 ^ (y - lo).toNat)
      ∧ (∀ (a b : Bool) (m : Nat) (x : Int),
        f.add r e (.inf a) (.num b m x) = (f.infCode a, 0) ∧ f.add r e (.num b m x) (.inf a) = (f.infCode a, 0)
        ∧ f.add r e (.inf a) (.inf b) = if a = b then (f.infCode a, 0) else (f.nanCode, fNV))
      ∧ ∀ (g : Bool) (v : Val), f.add r e (.nan g) v = (f.nanCode, if g ∨ v.sig then fNV else 0)
        ∧ f.add r e v (.nan g) = (f.nanCode, if g ∨ v.sig then fNV else 0))

/-- R83 with R82: the rescale of an accumulator: the exact product by MULT, divided by 2^SHIFT to the nearest integer
with ties to even, plus the zero point; then clamped, SAT being set where that changes it, or wrapped. R98, R99: VDOT4
adds four products of signed bytes to each lane; VRESC rescales each signed lane by its entry of the scale table, and
of the zero-point table where one is named. -/
def Obligations.DotAndRescale : Prop :=
  (∀ (acc zp : Int) (q : Word) (w : Nat), w = 4 ∨ w = 8 ∨ w = 16 ∨ w = 32 →
      ∃ n : Int,
        let p := acc * (q.extractLsb' 8 24).toNat
        let d : Int := 2 ^ (q.extractLsb' 2 6).toNat
        let y := n + zp
        let lo : Int := -2 ^ (w - 1)
        let hi : Int := 2 ^ (w - 1) - 1
        2 * (n * d) ≤ 2 * p + d ∧ 2 * p ≤ 2 * (n * d) + d
        ∧ (2 * (n * d) = 2 * p + d ∨ 2 * p = 2 * (n * d) + d → n % 2 = 0)
        ∧ (q.getLsbD 1 = true → rescale acc q zp w = (if y < lo then (lo, fSAT) else if hi < y then (hi, fSAT) else (y, 0)))
        ∧ (q.getLsbD 1 = false → ∃ r : Int, rescale acc q zp w = (r, 0) ∧ lo ≤ r ∧ r ≤ hi ∧ (r - y) % 2 ^ w = 0))
  ∧ (∀ (s : State) (d a b : Reg) (q : Gov) (out : BitVec 2) (zpe : Bool) (qs : QReg),
      let m := s.rd.G q
      let w := if out = 0 then 32 else if out = 1 then 16 else if out = 2 then 8 else 4
      let p := fun (k j : Nat) => (byteOf (s.rd.V a) (4 * k + j)).toInt * (byteOf (s.rd.V b) (4 * k + j)).toInt
      GivesV (.vdot4 d a b q) s 4 d m (fun k =>
        BitVec.ofInt 32 (((s.rd.V d).lane k).toInt + (p k 0 + p k 1 + p k 2 + p k 3)))
      ∧ (zpe = false ∨ qs ≠ 7 → GivesVF (.vresc d a out zpe qs q) s 4 d m fun k =>
          let r := rescale ((s.rd.V a).lane k).toInt ((s.rd.ctx.regs.q.get qs).lane k)
            (if zpe then ((s.rd.ctx.regs.q.get (qs + 1)).lane k).toInt else 0) w
          (BitVec.ofInt 32 r.1, r.2)))

/-! ## Vector forms (R87 to R104) -/

/-- R91 on integers (.s32 and .u32): wrapping sums, differences, products and fused forms; minima and maxima by the type;
VABS and VNEG of .s32, which saturate at the most negative number with SAT (R87, R90). -/
def Obligations.VectorIntegers : Prop :=
  ∀ (s : State) (t : BitVec 2) (d a b : Reg) (q : Gov), 2 ≤ t.toNat →
    let m := s.rd.G q
    let A := fun k => (s.rd.V a).lane k
    let B := fun k => (s.rd.V b).lane k
    let D := fun k => (s.rd.V d).lane k
    let less := fun (x y : Word) => if t = 2 then decide (x.toInt < y.toInt) else decide (x.toNat < y.toNat)
    GivesVF (.vadd t d a b q) s 2 d m (fun k => (A k + B k, 0))
    ∧ GivesVF (.vsub t d a b q) s 2 d m (fun k => (A k - B k, 0))
    ∧ GivesVF (.vmul t d a b q) s 2 d m (fun k => (A k * B k, 0))
    ∧ GivesVF (.vfma t d a b q) s 4 d m (fun k => (D k + A k * B k, 0))
    ∧ GivesVF (.vfms t d a b q) s 4 d m (fun k => (D k - A k * B k, 0))
    ∧ GivesVF (.vmin t d a b q) s 2 d m (fun k => (if less (A k) (B k) then A k else B k, 0))
    ∧ GivesVF (.vmax t d a b q) s 2 d m (fun k => (if less (A k) (B k) then B k else A k, 0))
    ∧ (t = 2 → GivesVF (.vabs t d a q) s 2 d m fun k =>
        if (A k).toInt = -2 ^ 31 then (BitVec.ofInt 32 (2 ^ 31 - 1), fSAT) else (BitVec.ofInt 32 (A k).toInt.natAbs, 0))
    ∧ (t = 2 → GivesVF (.vneg t d a q) s 2 d m fun k =>
        if (A k).toInt = -2 ^ 31 then (BitVec.ofInt 32 (2 ^ 31 - 1), fSAT) else (BitVec.ofInt 32 (-(A k).toInt), 0))

/-- R91 on .f32 and .bf16: each form's operation on the elements of a lane, rounded once under ROUNDCTL with the element
indices of R87; SRSEQ advances (R72); VABS and VNEG set the sign of a number and give the canonical NaN of a NaN. -/
def Obligations.VectorFloats : Prop :=
  ∀ (s : State) (t : BitVec 2) (d a b : Reg) (q : Gov), t.toNat < 2 →
    let m := s.rd.G q
    let r := s.rnd
    let on := fun (op : Fmt → Nat → Nat → Nat → Nat → Nat × BitVec 6) (k : Nat) =>
      flLane t op k ((s.rd.V a).lane k) ((s.rd.V b).lane k) ((s.rd.V d).lane k)
    let one := fun (op : Fmt → Nat → Nat × BitVec 6) (k : Nat) =>
      flLane t (fun f _ x _ _ => op f x) k ((s.rd.V a).lane k) ((s.rd.V a).lane k) ((s.rd.V d).lane k)
    let signed := fun (sign : Bool → Bool) (f : Fmt) (x : Nat) => match f.decode x with
      | .nan g => (f.nanCode, if g then fNV else 0)
      | v => (x % 2 ^ (f.eb + f.mb) + (if sign v.neg then 2 ^ (f.eb + f.mb) else 0), 0)
    RoundsV (.vadd t d a b q) s 2 d m (on fun f e x y _ => f.add r e (f.decode x) (f.decode y))
    ∧ RoundsV (.vsub t d a b q) s 2 d m (on fun f e x y _ => f.add r e (f.decode x) (f.decode y).flip)
    ∧ RoundsV (.vmul t d a b q) s 2 d m (on fun f e x y _ => f.mul r e (f.decode x) (f.decode y))
    ∧ RoundsV (.vfma t d a b q) s 4 d m (on fun f e x y z => f.add r e ((f.decode x).mul (f.decode y)) (f.decode z))
    ∧ RoundsV (.vfms t d a b q) s 4 d m (on fun f e x y z => f.add r e ((f.decode x).flip.mul (f.decode y)) (f.decode z))
    ∧ RoundsV (.vmin t d a b q) s 2 d m (on fun f _ x y _ => f.minMax false x y)
    ∧ RoundsV (.vmax t d a b q) s 2 d m (on fun f _ x y _ => f.minMax true x y)
    ∧ RoundsV (.vabs t d a q) s 2 d m (one (signed fun _ => false))
    ∧ RoundsV (.vneg t d a q) s 2 d m (one (signed not))

/-- R92, whole: the compares set bit i of a mask for each active lane, and the field names M1 to M15 alone; both halves of a
BF16 lane must hold; integers compare by their type. Of floating codes, NaN makes every condition but .ne false, a signalling
one alone sets NV, and zeros of both signs are equal. -/
def Obligations.VectorCompares : Prop :=
  (∀ (s : State) (t : BitVec 2) (d : MReg) (a b : Reg) (q : Gov),
    let m := s.rd.G q
    let A := fun k => (s.rd.V a).lane k
    let B := fun k => (s.rd.V b).lane k
    let less := fun (x y : Word) => if t = 2 then decide (x.toInt < y.toInt) else decide (x.toNat < y.toNat)
    let fl := fun (c k : Nat) => if t = 0 then flCmp .f32 c (A k).toNat (B k).toNat
      else
        let lo := flCmp .bf16 c ((A k).toNat % 2 ^ 16) ((B k).toNat % 2 ^ 16)
        let hi := flCmp .bf16 c ((A k).toNat / 2 ^ 16) ((B k).toNat / 2 ^ 16)
        (lo.1 && hi.1, lo.2 ||| hi.2)
    GivesM (.vcmpEq t d a b q) s d m (fun k => if t.toNat < 2 then fl 0 k else (A k == B k, 0))
    ∧ GivesM (.vcmpNe t d a b q) s d m (fun k => if t.toNat < 2 then fl 1 k else (A k != B k, 0))
    ∧ GivesM (.vcmpLt t d a b q) s d m (fun k => if t.toNat < 2 then fl 2 k else (less (A k) (B k), 0))
    ∧ GivesM (.vcmpLe t d a b q) s d m (fun k => if t.toNat < 2 then fl 3 k else (!less (B k) (A k), 0)))
  ∧ (∀ (f : Fmt) (x y : Nat),
    let u := f.decode x
    let v := f.decode y
    (∀ c, c < 4 → (flCmp f c x y).2 = if u.sig ∨ v.sig then fNV else 0)
    ∧ (u.isNan = true ∨ v.isNan = true → ∀ c, c < 4 → (flCmp f c x y).1 = decide (c = 1))
    ∧ (u.isZero = true → v.isZero = true → (flCmp f 0 x y).1 = true ∧ (flCmp f 1 x y).1 = false
        ∧ (flCmp f 2 x y).1 = false ∧ (flCmp f 3 x y).1 = true)
    ∧ ∀ (a b : Bool) (m n : Nat) (g h : Int), u = .num a m g → v = .num b n h →
        let lo := Min.min g h
        let X := (if a then -(m : Int) else m) * 2 ^ (g - lo).toNat
        let Y := (if b then -(n : Int) else n) * 2 ^ (h - lo).toNat
        (flCmp f 0 x y).1 = decide (X = Y) ∧ (flCmp f 1 x y).1 = decide (X ≠ Y)
        ∧ (flCmp f 2 x y).1 = decide (X < Y) ∧ (flCmp f 3 x y).1 = decide (X ≤ Y))
  ∧ ∀ (env : Env) (t : BitVec 2) (d a b : Reg) (q : Gov),
    let names := fun (op : BitVec 5) (i : Instr) =>
      let r := decodeWords env [(⟨false, 1, op ++ t, d, a, b, q⟩ : Slot).toWord]
      (1 ≤ d.toNat → d.toNat ≤ 15 → r = .ok i) ∧ (d = 0 ∨ 15 < d.toNat → ∃ e, r = .error e)
    names 0x09 (.vcmpEq t (d.setWidth 4) a b q) ∧ names 0x0A (.vcmpNe t (d.setWidth 4) a b q)
    ∧ names 0x0B (.vcmpLt t (d.setWidth 4) a b q) ∧ names 0x0C (.vcmpLe t (d.setWidth 4) a b q)

/-- R93: bitwise forms, shifts by the low five bits of each lane of Vb, VSEL on every lane by the mask, VMOV, VBCAST
at its three widths, and VIDX. R96: VPERMB within groups of 32 bytes, VSHUF by index, VROT by a scalar. R95: VPACK
leaves with the low bits of its lanes, which land as the elements `pos × 256 + i` of the active lanes and leave every
other element as it is (R86); VUNPK takes such an element into each active lane, extended. -/
def Obligations.VectorLogicAndPermutes : Prop :=
  ((∀ (s : State) (d a b : Reg) (q : Gov),
        let m := s.rd.G q
        let A := fun k => (s.rd.V a).lane k
        let B := fun k => (s.rd.V b).lane k
        let x := sN s a
        GivesV (.vand d a b q) s 2 d m (fun k => A k &&& B k)
        ∧ GivesV (.vor d a b q) s 2 d m (fun k => A k ||| B k)
        ∧ GivesV (.vxor d a b q) s 2 d m (fun k => A k ^^^ B k)
        ∧ GivesV (.vshl d a b q) s 2 d m (fun k => BitVec.ofNat 32 ((A k).toNat * 2 ^ ((B k).toNat % 32)))
        ∧ GivesV (.vshr d a b q) s 2 d m (fun k => BitVec.ofNat 32 ((A k).toNat / 2 ^ ((B k).toNat % 32)))
        ∧ GivesV (.vsra d a b q) s 2 d m (fun k => BitVec.ofInt 32 ((A k).toInt / 2 ^ ((B k).toNat % 32)))
        ∧ GivesV (.vsel d a b q) s 2 d (BitVec.allOnes 256) (fun k => if m.getLsbD k then A k else B k)
        ∧ GivesV (.vmov d a q) s 2 d m A
        ∧ GivesV (.vbcast d a 0 q) s 2 d m (fun _ => BitVec.ofNat 32 x)
        ∧ GivesV (.vbcast d a 1 q) s 2 d m (fun _ => BitVec.ofNat 32 (x % 2 ^ 16 * (2 ^ 16 + 1)))
        ∧ GivesV (.vbcast d a 2 q) s 2 d m (fun _ => BitVec.ofNat 32 (x % 2 ^ 8 * (2 ^ 24 + 2 ^ 16 + 2 ^ 8 + 1)))
        ∧ GivesV (.vidx d a b q) s 2 d m (fun k => BitVec.ofInt 32 (sI s a + k * sI s b)))
    ∧ (∀ (s : State) (d a b : Reg) (q : Gov),
        let m := s.rd.G q
        (∃ x : VReg, Gives (.vpermb d a b q) s 3 (.v d x m)
          ∧ ∀ k j, k < 256 → j < 4 → m.getLsbD k = true →
            let p := byteOf (s.rd.V b) (4 * k + j)
            byteOf x (4 * k + j) = if p.getLsbD 7 then 0 else byteOf (s.rd.V a) (32 * (k / 8) + p.toNat % 32))
        ∧ GivesV (.vshuf d a b q) s 3 d m (fun k => (s.rd.V a).lane (((s.rd.V b).lane k).toNat % 256))
        ∧ GivesV (.vrot d a b q) s 3 d m (fun k => (s.rd.V a).lane ((k + sN s b) % 256))))
  ∧ (∀ (s : State) (x : Ctx) (d a : Reg) (pos : BitVec 3) (w : BitVec 2) (sx : Bool) (q : Gov),
      let m := s.rd.G q
      let n := if w = 0 then 16 else if w = 1 then 8 else 4
      w ≠ 3 → pos.toNat < 32 / n →
        Gives (.vpack d a pos w q) s 3 (.vp d n pos.toNat (s.rd.V a) m)
        ∧ GivesV (.vunpk d a sx pos w q) s 3 d m (fun k =>
            let e := BitVec.ofNat n (elemAt (s.rd.V a) n (pos.toNat * 256 + k))
            if sx then e.signExtend 32 else e.setWidth 32)
        ∧ ∀ due,
          let y := x.land { land := .vp d n pos.toNat (s.rd.V a) m, flags := 0, due, mark := false }
          (∀ k, k < 256 → m.getLsbD k = true →
            elemAt (y.regs.v.get d) n (pos.toNat * 256 + k) = ((s.rd.V a).lane k).toNat % 2 ^ n)
          ∧ (∀ j, j < 256 * (32 / n) → ¬ (pos.toNat * 256 ≤ j ∧ j < pos.toNat * 256 + 256 ∧ m.getLsbD (j - pos.toNat * 256) = true) →
            elemAt (y.regs.v.get d) n j = elemAt (x.regs.v.get d) n j)
          ∧ ∀ r, r ≠ d → y.regs.v.get r = x.regs.v.get r)

/-- R94, R100: conversions, quantisation and dequantisation complete in every state: each lane's element is converted once,
with its index of R71 (that of the element that is rounded, by the model's choice of log entry 32, unsafe), with FLAGS and the advance of SRSEQ where a floating format takes part (R72). VQNT converts the
exact product of its two operands, and VDQ rounds the product of the narrow element and a BF16 scale to FP32. VQNT and VDQ
have no governing mask. -/
def Obligations.VectorConversions : Prop :=
  ∀ (s : State) (d a b : Reg) (q : Gov) (src dst f : BitVec 3) (x y : Elem),
    let m := s.rd.G q
    let A := fun k => (s.rd.V a).lane k
    let B := fun k => (s.rd.V b).lane k
    let nz := s.rd.ctx.regs.nz.get 0
    let r := s.rnd
    elemOf src.toNat = some x → elemOf dst.toNat = some y →
      (x.floating = true ∨ y.floating = true →
        RoundsV (.vcvt d a src dst q) s 2 d m (fun k => converted y r k (x.decode (A k).toNat nz)))
      ∧ (x.floating = false → y.floating = false →
        GivesVF (.vcvt d a src dst q) s 2 d m (fun k => converted y r k (x.decode (A k).toNat nz)))
      ∧ (f.toNat ≤ 5 → RoundsV (.vqnt d a b f) s 4 d (BitVec.allOnes 256) fun k =>
        converted (narrow f) r k ((Fmt.f32.decode (A k).toNat).mul (Fmt.f32.decode (B k).toNat)))
      ∧ (f.toNat ≤ 4 → RoundsV (.vdq d a b f) s 4 d (BitVec.allOnes 256) fun k =>
        let z := Fmt.f32.mul r k ((narrow f).decode (A k).toNat nz) (Fmt.bf16.decode ((B k).toNat % 2 ^ 16))
        (BitVec.ofNat 32 z.1, z.2))

/-- R97: VRED combines the present lanes in a pairwise tree and gives its root, or the identity of an empty reduction, to
every lane; VSCAN combines each lane with the one 2^s below it, s from 0 to 7, and writes the active
lanes; a FLAGS bit is set by a combine whose result stands at an active lane alone (read from R84 and R86 by inference:
log entry 34, unsafe). -/
def Obligations.ReductionAndScan : Prop :=
  ∀ (s : State) (d a : Reg) (op t : BitVec 2) (q : Gov), op ≠ 3 → t ≠ 1 →
    let m := s.rd.G q
    let v0 := fun k => if m.getLsbD k then some ((s.rd.V a).lane k) else none
    let id : Word := match op.toNat, t.toNat with
      | 0, _ => 0
      | 1, 0 => 0x7F800000
      | 1, 2 => 0x7FFFFFFF
      | 1, _ => 0xFFFFFFFF
      | _, 0 => 0xFF800000
      | _, 2 => 0x80000000
      | _, _ => 0
    (∃ (v : Nat → Nat → Option Word) (g : BitVec 6),
      (∀ k, k < 256 → v 0 k = v0 k)
      ∧ (∀ l j, l < 8 → j < 128 / 2 ^ l → v (l + 1) j = (combine op t (v l (2 * j)) (v l (2 * j + 1))).1)
      ∧ (∀ b, g.getLsbD b = true
          ↔ ∃ l j, l < 8 ∧ j < 128 / 2 ^ l ∧ (combine op t (v l (2 * j)) (v l (2 * j + 1))).2.getLsbD b = true)
      ∧ ∃ x : VReg, (∀ k, k < 256 → x.lane k = (v 8 0).getD id)
        ∧ Gives (.vred d a op t q) s 3 (.v d x (BitVec.allOnes 256)) g)
    ∧ ∃ (v : Nat → Nat → Option Word) (g : BitVec 6) (x : VReg),
      (∀ k, k < 256 → v 0 k = v0 k)
      ∧ (∀ l k, l < 8 → k < 256 →
          v (l + 1) k = if 2 ^ l ≤ k then (combine op t (v l (k - 2 ^ l)) (v l k)).1 else v l k)
      ∧ (∀ k, k < 256 → m.getLsbD k = true → some (x.lane k) = v 8 k)
      ∧ (∀ b, g.getLsbD b = true ↔ ∃ l k, l < 8 ∧ 2 ^ l ≤ k ∧ k < 256 ∧ m.getLsbD k = true
          ∧ (combine op t (v l (k - 2 ^ l)) (v l k)).2.getLsbD b = true)
      ∧ Gives (.vscan d a op t q) s 3 (.v d x m) g

/-- R90, R101, R102: the transcendental forms complete at latency 8 lane by lane, whatever the inputs, with the values
and FLAGS of R102 at the special inputs: NaN, both infinities, both zeros and, for VLOG2 and VRSQ, numbers below zero.
R103, R104: VRAND's lanes are the low halves of G(key, task, Sa, i) in domain 1, each mix being the three steps of
R103; nothing else of the state changes. -/
def Obligations.TranscendentalsAndRandom : Prop :=
  ((∀ (s : State) (d a : Reg) (q : Gov),
      let m := s.rd.G q
      let on := fun (op k : Nat) => transcend op ((s.rd.V a).lane k)
      GivesVF (.vexp2 d a q) s 8 d m (on 0) ∧ GivesVF (.vlog2 d a q) s 8 d m (on 1) ∧ GivesVF (.vrcp d a q) s 8 d m (on 2)
      ∧ GivesVF (.vrsq d a q) s 8 d m (on 3) ∧ GivesVF (.vtanh d a q) s 8 d m (on 4))
    ∧ (∀ x : Word, x.extractLsb' 23 8 = 0xFF → x.extractLsb' 0 23 ≠ 0 → ∀ op, op < 5 →
        transcend op x = (0x7FC00000, if x.getLsbD 22 then 0 else fNV))
    ∧ (transcend 0 0x7F800000 = (0x7F800000, 0) ∧ transcend 0 0xFF800000 = (0, 0)
      ∧ transcend 0 0 = (0x3F800000, 0) ∧ transcend 0 0x80000000 = (0x3F800000, 0))
    ∧ (transcend 1 0x7F800000 = (0x7F800000, 0) ∧ transcend 1 0xFF800000 = (0x7FC00000, fNV)
      ∧ transcend 1 0 = (0xFF800000, fDZ) ∧ transcend 1 0x80000000 = (0xFF800000, fDZ))
    ∧ (transcend 2 0x7F800000 = (0, 0) ∧ transcend 2 0xFF800000 = (0x80000000, 0)
      ∧ transcend 2 0 = (0x7F800000, fDZ) ∧ transcend 2 0x80000000 = (0xFF800000, fDZ))
    ∧ (transcend 3 0x7F800000 = (0, 0) ∧ transcend 3 0xFF800000 = (0x7FC00000, fNV)
      ∧ transcend 3 0 = (0x7F800000, fDZ) ∧ transcend 3 0x80000000 = (0xFF800000, fDZ))
    ∧ (transcend 4 0x7F800000 = (0x3F800000, 0) ∧ transcend 4 0xFF800000 = (0xBF800000, 0)
      ∧ transcend 4 0 = (0, 0) ∧ transcend 4 0x80000000 = (0x80000000, 0))
    ∧ ∀ x : Word, x.msb = true → x ≠ 0x80000000 → x.extractLsb' 23 8 ≠ 0xFF →
        transcend 1 x = (0x7FC00000, fNV) ∧ transcend 3 x = (0x7FC00000, fNV))
  ∧ (∀ (s : State) (d a : Reg) (q : Gov),
      let mix := fun (x : DWord) =>
        let x := x ^^^ BitVec.ofNat 64 (x.toNat / 2 ^ 32)
        let x := x * 0xB5D31A6FE27C4D39
        let x := x ^^^ BitVec.ofNat 64 (x.toNat / 2 ^ 29)
        let x := x * 0x8F41C3A259E60B17
        x ^^^ BitVec.ofNat 64 (x.toNat / 2 ^ 32)
      let t := s.rd.ctx.task
      (∀ env : Env, decodeWords env [(⟨false, 1, 0x4F, d, a, 0, q⟩ : Slot).toWord] = .ok (.vrand d a q))
      ∧ GivesV (.vrand d a q) s 8 d (s.rd.G q) fun k =>
        (mix (mix (mix (t.genKey ^^^ BitVec.ofNat 64 (2 ^ 56) ^^^ t.lidx.setWidth 64) ^^^ s.rd.S a)
          ^^^ BitVec.ofNat 64 k)).setWidth 32)

/-! ## Vector accesses (R105 to R109) -/

/-- R105, R106, R109: a scratchpad load whose active lanes are all in range, aligned and unlost gives each of them the
four bytes at its address, little-endian, six cycles later; a mask without an active lane makes no access. R105, R106:
a scratchpad store whose active lanes are all in range and aligned writes each lane's four bytes in its issue cycle;
of lanes that name one word the highest stands. FRAME: every byte that no active lane names, global memory, the
registers and the system registers are as before; of the task only its digest and its store number move (R289). -/
def Obligations.VectorLoadsAndStores : Prop :=
  (∀ (s : State) (d a b : Reg) (e : QReg) (imm : BitVec 32) (q : Gov),
      let m := s.rd.G q
      let row := fun k => (s.rd.S a + BitVec.ofInt 64 imm.toInt).toNat + 4 * k
      let stride := fun k => (s.rd.S a + BitVec.ofNat 64 k * s.rd.S b).toNat
      let index := fun k => (s.rd.S a + ((s.rd.V b).lane k).setWidth 64).toNat
      let gives := fun (i : Instr) (addr : Nat → Nat) (land : VReg → Landing) =>
        SpadLanes m addr → NoLostLane s.rd m addr →
          ∃ x : VReg, Gives i s 6 (land x) ∧ ∀ k j, k < 256 → j < 4 → m.getLsbD k = true →
            byteOf x (4 * k + j) = s.rd.spad.read (addr k + j)
      gives (.vld d a imm q) row (fun x => .v d x m)
      ∧ gives (.vlds d a b q) stride (fun x => .v d x m)
      ∧ gives (.vgth d a b q) index (fun x => .v d x m)
      ∧ gives (.vldq e a imm q) row (fun x => .q e x m))
  ∧ (∀ (s : State) (d a b : Reg) (imm : BitVec 32) (q : Gov),
      let m := s.rd.G q
      let row := fun k => (s.rd.S a + BitVec.ofInt 64 imm.toInt).toNat + 4 * k
      let stride := fun k => (s.rd.S a + BitVec.ofNat 64 k * s.rd.S b).toNat
      let index := fun k => (s.rd.S a + ((s.rd.V b).lane k).setWidth 64).toNat
      let stores := fun (i : Instr) (addr : Nat → Nat) =>
        s.core.spad.wf = true → SpadLanes m addr →
          ∃ t, exec i s = .next t
          ∧ (∀ k j, k < 256 → j < 4 → m.getLsbD k = true →
              (∀ l, k < l → l < 256 → m.getLsbD l = true → addr l ≠ addr k) →
              t.core.spad.read (addr k + j) = byteOf (s.rd.V d) (4 * k + j))
          ∧ (∀ y, (∀ k, k < 256 → m.getLsbD k = true → y < addr k ∨ addr k + 4 ≤ y) →
              t.core.spad.read y = s.core.spad.read y)
          ∧ t.core.spad.wf = true ∧ SameMemory s t ∧ SameRegs s t ∧ t.core.ctx.sys = s.core.ctx.sys
          ∧ t.core.ctx.toks = s.core.ctx.toks ∧ t.core.ctx.pipe = s.core.ctx.pipe
          ∧ t.core.ctx.task = { s.core.ctx.task with digest := t.core.ctx.task.digest, sigma := (s.core.ctx.task.sigma + 1) % 2 ^ 24 }
          ∧ OnlyCore s t
      stores (.vst d a imm q) row ∧ stores (.vsts d a b q) stride ∧ stores (.vsct d a b q) index)

/-! ## Mask forms (R110) -/

/-- R110, whole: the mask forms, with no governing mask, at latency 2; their encodings; reason 4 for a q field that is not
zero or an M0 destination, and reason 1 for the ops from 0x5F on. -/
def Obligations.MaskForms : Prop :=
  (∀ (s : State) (d a b : MReg) (e x y : Reg),
    let all := BitVec.allOnes 256
    Gives (.vmand d a b) s 2 (.m d (s.rd.M a &&& s.rd.M b) all)
    ∧ Gives (.vmor d a b) s 2 (.m d (s.rd.M a ||| s.rd.M b) all)
    ∧ Gives (.vmnot d a) s 2 (.m d (~~~ s.rd.M a) all)
    ∧ GivesS (.vmpop e a) s 2 e (BitVec.ofNat 64 ((List.range 256).countP fun i => (s.rd.M a).getLsbD i))
    ∧ (∃ n : Nat, GivesS (.vmfst e a) s 2 e (BitVec.ofNat 64 n) ∧ n ≤ 256
      ∧ (∀ i, i < n → (s.rd.M a).getLsbD i = false) ∧ (n < 256 → (s.rd.M a).getLsbD n = true))
    ∧ ∃ v : Mask, Gives (.vmset d x y) s 2 (.m d v all)
      ∧ ∀ i, i < 256 → v.getLsbD i = decide (sN s x ≤ i ∧ i < sN s y))
  ∧ ∀ (env : Env) (d a b : MReg) (e x y : Reg) (q : BitVec 3) (op : BitVec 7),
    let w := fun (op : BitVec 7) (d a b : Reg) => decodeWords env [(⟨false, 1, op, d, a, b, q⟩ : Slot).toWord]
    let m := fun (r : MReg) => (r.setWidth 6 : Reg)
    (q = 0 → w 0x5C e (m a) 0 = .ok (.vmpop e a) ∧ w 0x5D e (m a) 0 = .ok (.vmfst e a)
      ∧ (d ≠ 0 → w 0x59 (m d) (m a) (m b) = .ok (.vmand d a b) ∧ w 0x5A (m d) (m a) (m b) = .ok (.vmor d a b)
        ∧ w 0x5B (m d) (m a) 0 = .ok (.vmnot d a) ∧ w 0x5E (m d) x y = .ok (.vmset d x y)))
    ∧ (q ≠ 0 → w 0x5C e (m a) 0 = .error 4 ∧ w 0x5D e (m a) 0 = .error 4)
    ∧ (q ≠ 0 ∨ d = 0 → w 0x59 (m d) (m a) (m b) = .error 4 ∧ w 0x5A (m d) (m a) (m b) = .error 4
      ∧ w 0x5B (m d) (m a) 0 = .error 4 ∧ w 0x5E (m d) x y = .error 4)
    ∧ (0x5F ≤ op.toNat → w op e x y = .error 1)


/-! ## Atomics and accesses at their homes (R115 to R118, R233 to R246) -/

/-- R236, R239, R241: an atomic whose checks pass is parked under its release hold, then waits for the check at its
home, its line gone from the L1G (R238), and issues once the home has accepted it: its register is marked, its old value is awaited, and the access
enters a queue. Nothing performs at the bundle: global memory, the registers and the scratchpad are as before. R237:
the new value of each atomic, from an old value of its width; a compare that fails writes nothing. -/
def Obligations.AtomicForms : Prop :=
  (∀ (s : State) (d a b : Reg) (w : AtWord) (f : Instr × AtOp × DWord),
      f ∈ [(Instr.atadd d a b w, .add, 0), (.atmin d a b w, .min, 0), (.atmax d a b w, .max, 0), (.atand d a b w, .and, 0),
        (.ator d a b w, .or, 0), (.atxor d a b w, .xor, 0), (.atxchg d a b w, .xchg, 0),
        (.atcas d a b w, .cas, s.rd.S (b + 1)), (.atfadd d a b w, .fadd, 0)] →
      let k := s.rd.C w.cap
      let o := sI s a + w.off.toInt
      let n := if w.wide then 8 else 4
      let is := fun (x : Acc) => x.kind = .atomic f.2.1 f.2.2 w.scope ∧ x.via.obj = k.obj ∧ x.via.gen = k.gen
        ∧ x.via.part = s.rd.pid ∧ x.items = [{ lane := 0, off := k.base + o.toNat, width := n, data := s.rd.S b }]
      GlobOk k o n 3 [2, 4, 5] → s.core.ctx.pipe.refused = none →
        (s.releaseHeld w = true → Completes f.1 s (s.park .order))
        ∧ (s.releaseHeld w = false → s.core.ctx.pipe.accepted = false →
            ∃ t x, exec f.1 s = .next t ∧ is x ∧ t.core.ctx.pipe = { s.core.ctx.pipe with accept := some x, park := .accept }
            ∧ LinesLeave s t x.via (fun n => n = x.off / 64)
            ∧ t.core.ctx.regs = s.core.ctx.regs ∧ t.core.spad = s.core.spad
            ∧ (∀ q, (t.core.queues.get q).map unmarked = (s.core.queues.get q).map unmarked) ∧ OnlyCore s t)
        ∧ (s.releaseHeld w = false → s.core.ctx.pipe.accepted = true →
            ∃ t q x, exec f.1 s = .next t ∧ is x ∧ Queued s t q x
            ∧ Awaits s t (.s d) (.atomic (w.ord.getLsbD 0) w.scope) ∧ t.core.ctx.pipe.accepted = false
            ∧ t.core.ctx.pipe.acquire = (s.core.ctx.pipe.acquire || w.ord.getLsbD 0)
            ∧ (d ≠ 0 → t.core.ctx.pipe.spend.get d = true)
            ∧ (∀ r, r ≠ d → t.core.ctx.pipe.spend.get r = s.core.ctx.pipe.spend.get r)
            ∧ t.core.ctx.task
                = { s.core.ctx.task with tied := true, sigma := (s.core.ctx.task.sigma + 1) % 2 ^ 24 }
            ∧ t.core.ctx.sys = s.core.ctx.sys ∧ SameRegs s t ∧ t.core.spad = s.core.spad
            ∧ OnlyCore { s with fresh := t.fresh } t))
  ∧ (∀ (w : Nat) (old b nv : DWord), w = 4 ∨ w = 8 → old.toNat < 2 ^ (8 * w) →
      let m := 2 ^ (8 * w)
      let v := b.toNat % m
      let sg := fun (x : Nat) => (x : Int).bmod m
      let gives := fun (op : AtOp) (p : Nat → Prop) => ∃ x : DWord, op.apply w old b nv = some x ∧ p x.toNat
      gives .add (fun x => x = (old.toNat + v) % m)
      ∧ gives .min (fun x => x = if sg old.toNat ≤ sg v then old.toNat else v)
      ∧ gives .max (fun x => x = if sg v ≤ sg old.toNat then old.toNat else v)
      ∧ gives .and (fun x => x = old.toNat &&& v) ∧ gives .or (fun x => x = old.toNat ||| v)
      ∧ gives .xor (fun x => x = old.toNat ^^^ v) ∧ gives .xchg (fun x => x = v)
      ∧ (old.toNat = v → gives .cas fun x => x = nv.toNat % m)
      ∧ (old.toNat ≠ v → AtOp.cas.apply w old b nv = none)
      ∧ (w = 4 → gives .fadd fun x => x = (Fmt.f32.add .rne 0 (Fmt.f32.decode old.toNat) (Fmt.f32.decode v)).1 % 2 ^ 64))

/-- R117, R233, R237: what performs at a home. A load reads its bytes and sends them to the value that waits for it; a
store writes its bytes; an atomic reads the old value, writes the new one and sends the old, in one step. The entry leaves
its queue. FRAME: every other byte of global memory, every tag and every other core is as before, a byte of the bank image changes
only to what memory holds (a line written back to make room, R346), and so
are the registers and the scratchpad of the core itself. -/
def Obligations.AccessesPerform : Prop :=
  ∀ (s : State) (c : Nat) (q : BitVec 2) (a : Acc) (t : Xlat) (rest : List QEntry) (i : Item),
    let pa := t.phys a.off
    let old := BitVec.ofNat 64 (s.home.mem.readLE pa i.width)
    let given := fun (u : State) => (u.coreAt c).ctx.pipe.waits = (s.coreAt c).ctx.pipe.waits.map fun w =>
      if w.id = a.wait.getD 0 then { w with got := w.got ++ [(i.lane, old)], need := w.need - 1 } else w
    let left := fun (u : State) => accsOf ((u.coreAt c).queues.get q) = accsOf rest
      ∧ (u.coreAt c).ctx.regs = (s.coreAt c).ctx.regs ∧ (u.coreAt c).spad = (s.coreAt c).spad
    c < 320 → MayPerform s c q a t rest → a.items = [i] → i.width ≤ 8 → s.home.mem.wf = true → s.home.bank.wf = true →
      (a.kind = .load → ∃ u, exec (.queuePerform c q.toNat 0) s = .next u
        ∧ given u ∧ left u ∧ KeepsHome s u ∧ (∀ k, k ≠ c → u.coreAt k = s.coreAt k)
        ∧ (a.dead = false → (u.coreAt c).fills = (s.coreAt c).fills ++ [fillOf s.home a t]))
      ∧ (a.kind = .store → ∃ u, exec (.queuePerform c q.toNat 0) s = .next u
        ∧ Stores s u c pa i.width i.data ∧ left u)
      ∧ ∀ op nv sc, a.kind = .atomic op nv sc → i.lane = 0 → ∃ u, exec (.atomicPerform c q.toNat) s = .next u
        ∧ ((∀ w ∈ (s.coreAt c).ctx.pipe.waits, w.kind ≠ .digest) → given u) ∧ left u
        ∧ (∀ v, op.apply i.width old i.data nv = some v → Stores s u c pa i.width v)
        ∧ (op.apply i.width old i.data nv = none → KeepsHome s u ∧ ∀ k, k ≠ c → u.coreAt k = s.coreAt k)

/-- R48, R108, R115, R239: VALUE_ARRIVES and ACQUIRE_DONE write the register of a value that has all its words and clear
its mark, over every result that is due in that cycle, which lands first (R9); a value read from two lines is joined from
its parts; the value of an acquire at .quad or wider
empties the L1G; FILL installs a live line in place of any other
copy of it, and EVICT drops a line. -/
def Obligations.ValuesArrive : Prop :=
  ∀ (s : State) (c : Nat), c < 320 →
    let x := s.coreAt c
    let landed : Core := { x with ctx := x.ctx.landDue (ownCycle x) fun _ => true }
    (∀ (w : Wait) (r : Reg) (v : DWord) (l : List (Nat × DWord)), (s.coreAt c).ctx.pipe.waits = [w] → w.need = 0 → w.dest = .s r →
      w.got = (0, v) :: l →
      (w.kind = .seed ∨ (∃ acq sc, w.kind = .atomic acq sc) → ∃ t, exec (.valueArrives c 0) s = .next t
        ∧ (t.coreAt c).S r = (if r = 0 then 0 else v) ∧ (∀ k, k ≠ r → (t.coreAt c).S k = landed.S k)
        ∧ (t.coreAt c).ctx.pipe.waits = [] ∧ (t.coreAt c).ctx.pipe.spend.get r = false ∧ t.home = s.home
        ∧ ∀ k, k ≠ c → t.coreAt k = s.coreAt k)
      ∧ (∀ sz : BitVec 3, w.kind = .load sz → ∃ t, exec (.valueArrives c 0) s = .next t
        ∧ (r ≠ 0 → (t.coreAt c).S r = szExtend sz (l.foldl (fun (x : DWord) (y : Nat × DWord) => if y.1 = 0 then x ||| y.2 else x) v).toNat)
        ∧ (∀ k, k ≠ r → (t.coreAt c).S k = landed.S k))
      ∧ (∀ sc : Scope, w.kind = .atomic true sc → ∃ t, exec (.acquireDone c) s = .next t
        ∧ (r ≠ 0 → (t.coreAt c).S r = v) ∧ (t.coreAt c).ctx.pipe.acquire = false
        ∧ (2 ≤ sc.toNat → (t.coreAt c).l1g = []) ∧ (sc.toNat < 2 → (t.coreAt c).l1g = (s.coreAt c).l1g)))
    ∧ (∀ (w : Wait) (r : Reg) (m : Mask), (s.coreAt c).ctx.pipe.waits = [w] → w.need = 0 → w.dest = .v r m → w.kind = .vload →
      ∃ t, exec (.valueArrives c 0) s = .next t ∧ (t.coreAt c).ctx.pipe.waits = [] ∧ (t.coreAt c).ctx.pipe.vpend.get r = false
      ∧ (∀ i, i < 256 → ((t.coreAt c).V r).lane i = if m.getLsbD i
          then (w.got.foldl (fun (x : DWord) (y : Nat × DWord) => if y.1 = i then x ||| y.2 else x) 0).setWidth 32 else (landed.V r).lane i)
      ∧ (∀ k, k ≠ r → (t.coreAt c).V k = landed.V k) ∧ t.home = s.home ∧ ∀ k, k ≠ c → t.coreAt k = s.coreAt k)
    ∧ (∀ (f : Fill) (l : List Fill), (s.coreAt c).fills = f :: l → ∃ t, exec (.fill c 0) s = .next t
      ∧ (t.coreAt c).fills = l ∧ (f.live = true → (t.coreAt c).l1g.head? = some f.line)
      ∧ (f.live = false → (t.coreAt c).l1g = (s.coreAt c).l1g) ∧ (t.coreAt c).ctx = (s.coreAt c).ctx ∧ t.home = s.home)
    ∧ ∀ (x : L1Line) (l : List L1Line), (s.coreAt c).l1g = x :: l → ∃ t, exec (.evict c 0) s = .next t
      ∧ (t.coreAt c).l1g = l ∧ (t.coreAt c).ctx = (s.coreAt c).ctx ∧ (t.coreAt c).spad = (s.coreAt c).spad
      ∧ t.home = s.home

/-- R234, R236, R241, R242: the home's answer to the check of an atomic whose port checks pass. A line with no tag accepts
any scope; a tagged one refuses where the scope excludes the last party, REASON 1, or else the last scope excludes the
issuing core, REASON 2, with the tag unchanged; on acceptance the tag names the scope and the issuing core. -/
def Obligations.AtomicAcceptance : Prop :=
  ∀ (s : State) (c : Nat) (a : Acc) (op : AtOp) (nv : DWord) (sc : Scope) (t : Xlat),
    let l := lineOf (t.phys a.off)
    let tag := s.home.tag l
    let ls := (tag.extractLsb' 1 3).toNat
    let lc := (tag.extractLsb' 4 9).toNat
    let lp := (tag.extractLsb' 13 12).toNat
    let first : Prop := scopeIncludes sc.toNat s.fab.pod c lp lc = true
    let second : Prop := scopeIncludes ls lp lc s.fab.pod c = true
    let refusal := fun (r : Nat) => some ((0x0E : Byte), scopeInfo a.slot sc.toNat tag r a.addr)
    c < 320 → (s.coreAt c).ctx.pipe.accept = some a → a.kind = .atomic op nv sc → a.via.kind ≠ 3 →
    (s.coreAt c).cached a.via a.off true = some t → l ∉ s.home.lost →
      (tag.getLsbD 0 = false ∨ (first ∧ second) → ∃ u, exec (.accept c) s = .next u
        ∧ u.home = { s.home with tags := put s.home.tags l (tagOf sc.toNat c s.fab.pod) }
        ∧ (u.coreAt c).ctx.pipe = { (s.coreAt c).ctx.pipe with accept := none, accepted := true, refused := none }
        ∧ ∀ k, k ≠ c → u.coreAt k = s.coreAt k)
      ∧ (tag.getLsbD 0 = true → ¬ (first ∧ second) → ∃ u r, exec (.accept c) s = .next u ∧ u.home = s.home
        ∧ (first → r = 2) ∧ (¬ first → r = 1)
        ∧ (u.coreAt c).ctx.pipe = { (s.coreAt c).ctx.pipe with accept := none, accepted := false, refused := refusal r }
        ∧ ∀ k, k ≠ c → u.coreAt k = s.coreAt k)

/-! ## Matrix, copy and hoist forms at issue (R116, R122, R136 to R175, R327 to R337) -/

/-- R122, R166, R168 to R175: the matrix forms whose tokens are Resolved without error and whose tile or latch is not
busy. MCFG writes its format pair, MSTAT and MNZ give their results and MDRAIN of an array with nothing under way sets
DRAINED, each resolving its token at issue; every other form starts an operation with its operands as read at issue, and
nothing of a tile, a latch or the scratchpad changes before it resolves. -/
def Obligations.MatrixForms : Prop :=
  ∀ (s : State) (t : Tok) (l : List Tok), Clear s t l →
    let starts := fun (i : Instr) (p : State → Op → Prop) => ∃ u op, exec i s = .next u ∧ Started s u op ∧ op.tok = t ∧ p u op
    let now := fun (i : Instr) (p : State → Prop) => ∃ u, exec i s = .next u ∧ ResolvedAtIssue s u t ∧ p u
    let nz := s.rd.ctx.regs.nz
    let q := s.rd.ctx.regs.q
    (∀ (n : Bool) (a : Reg), PairValid (s.rd.S a) → PairKept s.rd.ctx n (s.rd.S a) →
      now (.mcfg t n a l) fun u => SameRegs s u ∧ u.core.ctx.sys =
        let x := ((s.rd.S a).extractLsb' 0 9).setWidth 64
        if n then { s.core.ctx.sys with fmt1 := x } else { s.core.ctx.sys with fmt0 := x })
    ∧ (∀ n : Bool, (∀ o ∈ s.rd.ctx.ops, o.array ≠ some n) →
      now (.mdrain t n l) fun u => SameRegs s u ∧ u.core.ctx.sys = s.core.ctx.sys
        ∧ (if n then u.core.ctx.drained1 else u.core.ctx.drained0) = true)
    ∧ (∀ n : Bool, (∃ o ∈ s.rd.ctx.ops, o.array = some n) → starts (.mdrain t n l) fun _ op => op.kind = .drain n)
    ∧ (∀ (z : ZReg) (b : Reg) (clr : Bool), s.rd.tileBusy z none = false →
      now (.mstat t z b clr l) fun u => InFlight s u 1 (.s b (s.rd.ctx.regs.z.get z).status)
        ∧ (clr = false → SameRegs s u)
        ∧ (clr = true → (u.core.ctx.regs.z.get z).elem = (s.rd.ctx.regs.z.get z).elem
          ∧ (u.core.ctx.regs.z.get z).status = (s.rd.ctx.regs.z.get z).status &&& ~~~0x3F
          ∧ (∀ y, y ≠ z → u.core.ctx.regs.z.get y = s.core.ctx.regs.z.get y)
          ∧ u.core.ctx.regs = { s.core.ctx.regs with z := u.core.ctx.regs.z }))
    ∧ (∀ (a : Reg) (n : NzReg), now (.mnz t a n l) fun u => SameRegs s u ∧ InFlight s u 1 (.nz n ((s.rd.S a).setWidth 8)))
    ∧ (∀ (z : ZReg) (int : Bool), s.rd.tileBusy z none = false →
      starts (.mzero t z int l) fun _ op => op.kind = .zero z int ∧ op.toRead = [])
    ∧ (∀ a b : ZReg, s.rd.tileBusy a none = false → s.rd.tileBusy b none = false →
      starts (.mtrn t a b l) fun _ op => op.kind = .trn a b)
    ∧ (∀ (z : ZReg) (b : Reg) (int : Bool), s.rd.tileBusy z none = false → PairFits s b 64 256 false →
      starts (.mldz t z b int l) fun _ op => op.kind = .ldz z (s.rd.pair b) int ∧ op.toRead = List.range 4096)
    ∧ (∀ (x : LReg) (b : Reg) (sc vec : Bool), s.rd.latchBusy x = false → vec = true ∨ PairFits s b 64 128 sc →
      starts (.mlatch t x b sc vec l) fun u op => op.kind = .latch x (s.rd.matSrc vec sc b) sc
        ∧ op.toRead = List.range (if vec then 0 else if sc then 2560 else 2048)
        ∧ (if x.getLsbD 2 then u.core.ctx.drained1 else u.core.ctx.drained0) = false)
    ∧ (∀ (tri : Bool) (a b : Reg) (w : MmaWord),
      let x : LReg := b.setWidth 3
      let n := if w.bkind = 2 then x.getLsbD 2 else w.arr
      let v := if n then s.rd.ctx.sys.fmt1 else s.rd.ctx.sys.fmt0
      (w.bkind = 2 → s.rd.latchBusy x = false) → s.rd.tileBusy w.zt (some n) = false →
      w.avec = true ∨ PairFits s a 64 128 (fmtFp4 v) →
      w.bkind = 1 ∨ w.bkind = 2 ∨ PairFits s b (fmtK v) (8 * codeWidth (fmtB v)) (fmtFp4 v) →
      starts (if tri then .mmat t a b w l else .mma t a b w l) fun u op =>
        op.kind = .mma tri w.strict n w.zt (s.rd.matSrc w.avec (fmtFp4 v) a)
          (if w.bkind = 2 then .latch x else s.rd.matSrc (w.bkind = 1) (fmtFp4 v) b) v (nz.get w.nza) (nz.get w.nzb) w.fresh
        ∧ (if n then u.core.ctx.drained1 else u.core.ctx.drained0) = false)
    ∧ ∀ (z : ZReg) (b : Reg) (w : MstWord), s.rd.tileBusy z none = false →
      PairFits s b 64 (8 * codeWidth w.out.toNat) false →
      starts (.mst t z b w l) fun _ op =>
        op.kind = .stz z (s.rd.pair b) w ((s.rd.S w.bsr).setWidth 16) (q.get w.qs) (q.get (w.qs + 1)) s.takeRound
        ∧ op.toWrite = List.range (128 * codeWidth w.out.toNat)

/-- R136 to R141, R150, R154, R155, R230: the copy forms whose tokens are Resolved without error and whose checks pass
start an operation on their payload, `base + o` of the capability's object and the scratchpad address or the ring; a hint
that fails a check starts one that only resolves; that a hint's check takes the kinds 0, 1 and 2 is the model's choice (log
entry 43, unsafe). An XMC with an empty mask resolves at issue. Nothing moves at issue. -/
def Obligations.CopyForms : Prop :=
  ∀ (s : State) (t : Tok) (a b : Reg) (shape flag : Bool) (w : XWord) (l : List Tok), Clear s t l →
    let h := shapeOf s w.n shape
    let k := s.rd.C w.cap
    let o := sI s b + w.off.toInt
    let g := k.base + o.toNat
    let v := s.rd.via k
    let x := sN s a
    let fl := fun (i : Reg) => if flag then some (sN s (w.n + i), s.rd.S (w.n + i + 1)) else none
    let f := fl (if shape then 2 else 1)
    let words := if h.rows = 0 ∨ h.rowb = 0 then 0 else h.rows * (h.rowb / 4)
    let starts := fun (i : Instr) (p : State → Op → Prop) => ∃ u op, exec i s = .next u ∧ Started s u op ∧ op.tok = t ∧ p u op
    let copies := fun (i : Instr) (form : CopyForm) (sp : Nat) (ring : Option Nat) => starts i fun _ op =>
      op.kind = .copy form sp h v g f ring ∧ op.toRead = List.range words ∧ op.toWrite = List.range words
    (PayloadFits k [4] [0, 1, 2, 3] (some x) h o f → copies (.xld t a b false shape flag w l) .ld x none)
    ∧ (∀ r : Ring, a.setWidth 3 = r → s.rd.lostIn (ringAddr r.toNat) 32 = false → (s.rd.ringD r.toNat).valid = true →
        let d := s.rd.ringD r.toNat
        PayloadFits k [4] [0, 1, 2, 3] (some (d.base + d.wp * d.slotsz)) h o f →
        (h.rows ≠ 0 → h.rowb ≠ 0 → (h.rows - 1) * h.spitch + h.rowb ≤ d.slotsz) →
          copies (.xld t a b true shape flag w l) .ld (d.base + d.wp * d.slotsz) (some r.toNat))
    ∧ (PayloadFits k [5] [0, 1, 2, 3] (some x) h o f → copies (.xst t a b shape flag w l) .st x none)
    ∧ (∀ int, PayloadFits k [5, 3] [0, 1, 3] (some x) h o f → copies (.xred t a b int shape flag w l) (.red int) x none)
    ∧ (PayloadFits k [4] [4] (some x) h o f → copies (.xhost t a b false shape flag w l) .hostIn x none)
    ∧ (PayloadFits k [5] [4] (some x) h o f → copies (.xhost t a b true shape flag w l) .hostOut x none)
    ∧ (∀ ch, x % 64 = 0 → x + 64 ≤ 0x100000 → starts (.xchain t a ch l) fun _ op =>
        op.kind = .chain ch.toNat x ((List.range 16).map fun i => s.rd.C (BitVec.ofNat 4 i)) none)
    ∧ (∀ lvl, starts (.xpf t b lvl w l) fun _ op => op.kind = .prefetch lvl v g (sN s w.n) ∧ op.toWrite = []
        ∧ (op.drop = false ↔ PayloadFits k [4] [0, 1, 2] none ⟨1, sN s w.n, 0, 0⟩ o none ∧ sN s w.n ≤ 0x1000000))
    ∧ (∀ lvl, starts (.xres t b lvl w l) fun _ op => op.kind = .residency lvl v g (sN s w.n) ∧ op.toRead = []
        ∧ op.toWrite = [] ∧ (op.drop = false ↔ PayloadFits k [4] [0, 1, 2] none ⟨1, sN s w.n, 0, 0⟩ o none))
    ∧ ∀ ring : Bool,
        let i : Reg := if shape then 2 else 1
        let mask := s.rd.S (w.n + i)
        let grp := (s.part s.rd.pid).members (s.cur.val / 80)
        let r : Ring := a.setWidth 3
        PayloadFits k [4] [0, 1, 2] (if ring then none else some x) h o (fl (i + 2)) →
        (∀ j, j < 64 → mask.getLsbD j = true → j < grp.length) →
        (ring = true → s.rd.lostIn (ringAddr r.toNat) 32 = false ∧ (s.rd.ringD r.toNat).valid = true) →
          (mask = 0 → ∃ u, exec (.xmc t a b ring shape flag w l) s = .next u ∧ ResolvedAtIssue s u t ∧ SameRegs s u)
          ∧ (mask ≠ 0 → starts (.xmc t a b ring shape flag w l) fun _ op => ∃ ds bar,
            op.kind = .multi h v g (fl (i + 2)) (if ring then some r.toNat else none) ds bar
            ∧ op.toRead = List.range words
            ∧ (∀ d ∈ ds, mask.getLsbD d.member = true ∧ grp[d.member]? = some d.core ∧ d.left = List.range words)
            ∧ ∀ j, j < 64 → mask.getLsbD j = true → ∃ d ∈ ds, d.member = j)

/-- R315, R327, R328, R331 to R333, R337: the forms of the hoists whose tokens are Resolved without error and whose checks
pass. XSUB of no tile, XUNSUB of a ring that nothing feeds and XBFEN of no bytes resolve at issue; XUNSUB of a
subscription sets where that one stops; every other starts an operation, and nothing moves at issue. -/
def Obligations.HoistForms : Prop :=
  ∀ (s : State) (t : Tok) (a b : Reg) (r : Ring) (w : XWord) (l : List Tok), Clear s t l →
    let k := s.rd.C w.cap
    let o := sI s b + w.off.toInt
    let v := s.rd.via k
    let starts := fun (i : Instr) (p : State → Op → Prop) => ∃ u op, exec i s = .next u ∧ Started s u op ∧ op.tok = t ∧ p u op
    let now := fun (i : Instr) => ∃ u, exec i s = .next u ∧ ResolvedAtIssue s u t ∧ SameRegs s u
    (∀ out : Bool,
      let h := shapeOf s w.n true
      let n0 := ((s.rd.S (w.n + 2)).extractLsb' 0 16).toNat
      let n1 := ((s.rd.S (w.n + 2)).extractLsb' 16 16).toNat
      let t0 := sI s (w.n + 3)
      let t1 := sI s (w.n + 4)
      let d := s.rd.ringD r.toNat
      let ext := fun (p : Nat) => if h.rows = 0 ∨ h.rowb = 0 then 0 else (h.rows - 1) * p + h.rowb
      s.rd.lostIn (ringAddr r.toNat) 32 = false → d.valid = true →
      ((h.rows : Int) - 1) * h.spitch + h.rowb ≤ d.slotsz → s.rd.subOf r = none →
      h.rowb % 4 = 0 → h.spitch % 4 = 0 → h.gpitch % 4 = 0 → o % 4 = 0 → t0 % 4 = 0 → t1 % 4 = 0 →
      k.kind = 0 ∨ k.kind = 1 → k.has 7 = true → k.has (if out then 5 else 4) = true →
      (∀ i j : Nat, i < n0 → j < n1 → h.rows ≠ 0 → h.rowb ≠ 0 →
        0 ≤ o + i * t0 + j * t1 ∧ o + i * t0 + j * t1 + ext h.gpitch ≤ k.len) →
        (n0 * n1 = 0 → now (.xsub t r b out w l))
        ∧ (n0 * n1 ≠ 0 → starts (.xsub t r b out w l) fun _ op => op.kind =
            .sub { ring := r.toNat, out, via := v, sh := h, g := k.base + o, nt0 := n0, nt1 := n1, ts0 := t0, ts1 := t1,
                   tile := 0, sp := 0, stop := none }))
    ∧ (s.rd.subOf r = none → now (.xunsub t r l))
    ∧ (∀ (op : Op) (x : Sub) (ops : List Op), s.rd = s.core → s.core.ctx.ops = op :: ops → op.kind = .sub x → x.ring = r.toNat →
        x.stop = none → ∃ u y op', exec (.xunsub t r l) s = .next u
          ∧ u.core.ctx.ops = { op with kind := .sub { x with stop := some y } } :: (ops ++ [op']) ∧ op'.kind = .unsub op.id
          ∧ op'.tok = t ∧ (u.core.ctx.toks.get t).pending = true ∧ u.core.spad = s.core.spad ∧ SameRegs s u
          ∧ y = x.tile + (if x.out then (s.core.ringD r.toNat).filled else if op.claimed then 1 else 0)
          ∧ OnlyCore { s with fresh := u.fresh } u)
    ∧ (∀ (flag : Bool) (fmt : BitVec 2), fmt ≠ 3 →
      let r0 := s.rd.S w.n
      let n := (r0.extractLsb' 0 20).toNat
      let m := (r0.extractLsb' 20 24).toNat
      let ctl := s.rd.S (w.n + 2)
      let y := sN s (w.n + 4)
      let x := sN s a
      let cs := s.rd.C (ctl.extractLsb' 0 4)
      let cb := s.rd.C (ctl.extractLsb' 4 4)
      let q := (ctl.extractLsb' 9 3).toNat
      let may := fun (c : Cap) (o : Int) (bytes : Nat) => 0 ≤ o ∧ o + bytes ≤ c.len ∧ c.has 4 = true ∧ (c.kind = 0 ∨ c.kind = 1)
      1 ≤ m → m ≤ 65536 → m % 8 = 0 → 1 ≤ n → n ≤ 16384 → n % (if fmt = 1 then 128 else if fmt = 2 then 64 else 8) = 0 →
      x + 2 * n ≤ 0x100000 → x % 4 = 0 → (ctl.getLsbD 8 = false → y + 4 * m ≤ 0x100000 ∧ y % 4 = 0) →
      (flag = true → sN s (w.n + 5) + 8 ≤ 0x100000 ∧ sN s (w.n + 5) % 8 = 0) →
      o % (if fmt = 0 then 4 else 256) = 0 → k.has 7 = true → may k o (if fmt = 0 then 2 * m * n else m * n / 2) →
      (fmt ≠ 0 → may cs (sI s (w.n + 1)) (if fmt = 1 then m * n / 64 else m * n / 8)) →
      (fmt = 2 → may cb (sI s (w.n + 3)) (2 * ((m + 63) / 64))) →
      (ctl.getLsbD 8 = true → s.rd.lostIn (ringAddr q) 32 = false ∧ (s.rd.ringD q).valid = true
        ∧ 4 * m ≤ (s.rd.ringD q).slotsz) →
        starts (.xbmv t a b flag fmt w l) fun _ op => ∃ z, op.kind = .bmv z ∧ z.n = n ∧ z.m = m ∧ z.x = x ∧ z.y = y
          ∧ z.fmt = fmt ∧ z.via = v ∧ (z.g : Int) = k.base + o ∧ z.ring = (if ctl.getLsbD 8 then some q else none)
          ∧ z.nz = s.rd.ctx.regs.nz.get (ctl.extractLsb' 12 2) ∧ op.toWrite = List.range m)
    ∧ (sI s w.n ≤ 0 → now (.xbfen t b w l))
    ∧ (0 < sI s w.n → PayloadFits k [7] [0, 1, 2] none ⟨1, sN s w.n, 0, 0⟩ o none →
        starts (.xbfen t b w l) fun _ op => op.kind = .bfen v (k.base + o.toNat) (sN s w.n))

/-! ## The range coder (R176 to R198) -/

/-- R180, R185, R188 to R190: the group forms step each active stream once. R185, R187 to R190: one stream's step
where it needs no renormalisation. Encoding symbol x adds RANGE / 4096 times the cumulative frequency to LOW and makes
RANGE that quotient times the frequency, with no byte emitted; decoding subtracts the same from CODE and gives the
symbol whose interval holds CODE / (RANGE / 4096); a bypass of n bits narrows to one of 2^n equal parts; KTGT changes
nothing and gives the target. -/
def Obligations.CoderGroups : Prop :=
  (∀ (s : State) (d a : Reg) (p : PReg) (n : BitVec 4) (w : Bool) (m : BitVec 2),
      let pr := s.rd.ctx.regs.p.get p
      let x := fun (j : Nat) => ((s.rd.V a).lane j).toNat
      GroupRuns (.kenc d a p w m) s w m d none (fun j => encStep pr (x j))
      ∧ GroupRuns (.kdec d a p w m) s w m a (some d) (fun _ => decStep s.rd pr)
      ∧ GroupRuns (.kbypE d a n w m) s w m d none (fun j => bypEStep (n.toNat + 1) (x j))
      ∧ GroupRuns (.kbypD d a n w m) s w m a (some d) (fun _ => bypDStep s.rd (n.toNat + 1))
      ∧ GroupRuns (.ktgt d a w m) s w m a (some d) (fun _ => tgtStep))
  ∧ (∀ (c : Core) (p : Prob) (k x n : Nat) (y : Stream),
      let f := fun (i : Nat) => ((p.rows.get (BitVec.ofNat 6 k)).get (BitVec.ofNat 4 i)).toNat
      let cum := ((List.range x).map f).sum
      let r := y.range.toNat / 2 ^ 12
      let b := y.range.toNat / 2 ^ n
      let code := y.low.toNat % 2 ^ 32
      2 ^ 24 ≤ y.range.toNat →
        (y.mode = 1 → y.cursor.toNat + y.pend.toNat ≤ y.limit.toNat →
          (p.wellFormed k = true → x ≤ p.alpha.toNat → f x ≠ 0 → 2 ^ 24 ≤ r * f x →
            encStep p x k y = .ok ({ y with low := BitVec.ofNat 33 (y.low.toNat + r * cum), range := BitVec.ofNat 32 (r * f x) }, 0, []))
          ∧ (2 ^ 24 ≤ b → bypEStep n x k y
              = .ok ({ y with low := BitVec.ofNat 33 (y.low.toNat + b * (x % 2 ^ n)), range := BitVec.ofNat 32 b }, 0, [])))
        ∧ (y.mode = 2 →
          (p.wellFormed k = true → x < 16 → code / r < 4096 → r * cum ≤ code → code < r * (cum + f x) → 2 ^ 24 ≤ r * f x →
            decStep c p k y = .ok ({ y with low := BitVec.ofNat 33 (code - r * cum), range := BitVec.ofNat 32 (r * f x) }, x, []))
          ∧ (code / b < 2 ^ n → 2 ^ 24 ≤ b → bypDStep c n k y
              = .ok ({ y with low := BitVec.ofNat 33 (code - b * (code / b)), range := BitVec.ofNat 32 b }, code / b, []))
          ∧ tgtStep k y = .ok (y, code / r, [])))

/-- R183, R184, R186, R193, R194: the single-stream forms. KBIND sets a window and makes the stream unused; KINIT.e and
KINIT.d make it ready; KFLUSH emits what five SHIFTLOWs give and leaves it unused; KSAVE writes the 32-byte image and KREST
reads a valid one back; KSTAT reads a field, six cycles later. -/
def Obligations.CoderStreams : Prop :=
  ∀ (s : State) (d a b : Reg) (imm : BitVec 32),
    let y := s.rd.ctx.regs.k.get d
    let x := (s.rd.S a + BitVec.ofInt 64 imm.toInt).toNat
    let sets := fun (i : Instr) (z : Stream) =>
      exec i s = .next (s.modCtx fun c => { c with regs := { c.regs with k := c.regs.k.put d z } })
    let byte := fun (i : Nat) => (s.rd.spad.read (y.cursor.toNat + i)).toNat
    (sN s b ≤ 0x100000 → sN s a ≤ sN s b → sets (.kbind d a b)
        { y with cursor := (s.rd.S a).setWidth 32, limit := (s.rd.S b).setWidth 32, mode := 0, exh := false })
    ∧ (y.cursor.toNat < y.limit.toNat → sets (.kinitEnc d)
        { y with mode := 1, low := 0, range := BitVec.allOnes 32, cache := 0, pend := 1, exh := false })
    ∧ (y.cursor.toNat + 5 ≤ y.limit.toNat → s.rd.lostIn y.cursor.toNat 5 = false → byte 0 = 0 → sets (.kinitDec d)
        { y with mode := 2, low := BitVec.ofNat 33 (byte 1 * 2 ^ 24 + byte 2 * 2 ^ 16 + byte 3 * 2 ^ 8 + byte 4),
                 range := BitVec.allOnes 32, cache := 0, pend := 0, exh := false, cursor := y.cursor + 5 })
    ∧ (y.mode = 1 → ∀ e, Enc.flush d.toNat 5 y.enc = .ok e → ∃ t, exec (.kflush d) s = .next t
        ∧ t.core.ctx.regs.k.get d = { y.setEnc e with mode := 0 }
        ∧ (∀ k, k ≠ d → t.core.ctx.regs.k.get k = s.rd.ctx.regs.k.get k) ∧ OnlyCore s t
        ∧ t.core.spad = e.out.reverse.foldl (fun m p => m.write p.1 p.2) s.core.spad)
    ∧ (x + 32 ≤ 0x100000 → x % 8 = 0 → s.core.spad.wf = true → ∃ t, exec (.ksave d a imm) s = .next t
        ∧ t.core.spad.readLE x 32 = y.image ∧ Stream.ofImage y.image = y ∧ SameRegs s t
        ∧ (∀ z, z < x ∨ x + 32 ≤ z → t.core.spad.read z = s.core.spad.read z) ∧ OnlyCore s t)
    ∧ (x + 32 ≤ 0x100000 → x % 8 = 0 → s.rd.lostIn x 32 = false → validImage (s.rd.spad.readLE x 32) = true →
        sets (.krest d a imm) (Stream.ofImage (s.rd.spad.readLE x 32)))
    ∧ ∀ e : Reg,
        GivesS (.kstat e d 0) s 6 e (BitVec.ofNat 64 (y.mode.toNat + if y.exh then 4 else 0))
        ∧ GivesS (.kstat e d 1) s 6 e (y.low.setWidth 64) ∧ GivesS (.kstat e d 2) s 6 e (y.range.setWidth 64)
        ∧ GivesS (.kstat e d 3) s 6 e (y.cache.setWidth 64) ∧ GivesS (.kstat e d 4) s 6 e (y.pend.setWidth 64)
        ∧ GivesS (.kstat e d 5) s 6 e (y.cursor.setWidth 64) ∧ GivesS (.kstat e d 6) s 6 e (y.limit.setWidth 64)

/-- R178, R195 to R197: PLD, PQNT and PNRM set the alphabet size and the rows that their field selects and leave the other
rows of the register; a row takes its source lanes, 16 to a row, or every row's own where all are selected. PLD takes
their low 12 bits. PNRM's frequency is zero exactly where the count is, and fewer than two positive counts give a zero row
and set NV. Of PQNT, an infinite probability gives a zero row and sets NV, and a NaN or a negative one sets NV. No other register changes. -/
def Obligations.ProbabilityForms : Prop :=
  ∀ (s : State) (d : PReg) (a alpha : Reg) (rows : BitVec 3), alpha.toNat ≤ 16 → 2 ≤ alpha.toNat → rows.toNat ≤ 4 →
    let src := fun (k n : Nat) =>
      (s.rd.V (if rows = 0 then a + BitVec.ofNat 6 (k / 16) else a)).lane (16 * (k % 16) + n)
    let selected := fun (k : Nat) => k < 64 ∧ (rows = 0 ∨ k / 16 + 1 = rows.toNat)
    let fills := fun (i : Instr) (p : State → (Nat → Nat → Nat) → Prop) =>
      ∃ t, exec i s = .next t
      ∧ (t.core.ctx.regs.p.get d).alpha = BitVec.ofNat 4 (alpha.toNat - 1)
      ∧ (∀ k, k < 64 → ¬ selected k → (t.core.ctx.regs.p.get d).rows.get (BitVec.ofNat 6 k)
          = (s.rd.ctx.regs.p.get d).rows.get (BitVec.ofNat 6 k))
      ∧ (∀ e, e ≠ d → t.core.ctx.regs.p.get e = s.core.ctx.regs.p.get e)
      ∧ t.core.ctx.regs = { s.core.ctx.regs with p := t.core.ctx.regs.p } ∧ OnlyCore s t ∧ t.core.spad = s.core.spad
      ∧ p t (fun k n => (((t.core.ctx.regs.p.get d).rows.get (BitVec.ofNat 6 k)).get (BitVec.ofNat 4 n)).toNat)
    fills (.pld d a alpha rows) (fun t f => t.core.ctx.sys = s.core.ctx.sys
      ∧ ∀ k n, selected k → n < 16 → f k n = if n < alpha.toNat then (src k n).toNat % 2 ^ 12 else 0)
    ∧ fills (.pnrm d a alpha rows) (fun t f => ∀ k, selected k →
        let positive := (List.range alpha.toNat).countP fun n => src k n != 0
        (2 ≤ positive → ∀ n, n < 16 → (f k n = 0 ↔ alpha.toNat ≤ n ∨ src k n = 0))
        ∧ (positive < 2 → (∀ n, n < 16 → f k n = 0) ∧ t.core.ctx.sys.flags.getLsbD 0 = true))
    ∧ fills (.pqnt d a alpha rows) (fun t f => ∀ k, selected k →
        let v := fun (n : Nat) => Fmt.f32.decode (src k n).toNat
        ((∃ n, n < alpha.toNat ∧ v n = .inf false) → (∀ n, n < 16 → f k n = 0) ∧ t.core.ctx.sys.flags.getLsbD 0 = true)
        ∧ ((∃ n, n < alpha.toNat ∧ ((v n).isNan = true ∨ ((v n).neg = true ∧ (v n).isZero = false))) →
            t.core.ctx.sys.flags.getLsbD 0 = true))

/-! ## Rings, barriers and tasks at issue (R58, R143 to R147, R219 to R229, R243, R255 to R260, R287) -/

/-- R144, R146, R147, R330: AWAITF and RELSLOT on a valid descriptor of which no word is lost. AWAITF gives the address of
the slot at RP once it is filled, and parks before that; RELSLOT empties it and advances RP. While an xsub.out feeds the
ring they act on the slot at WP: AWAITF waits until it is not filled and takes it, RELSLOT fills it and advances WP. FRAME:
no scratchpad byte outside the descriptor changes. -/
def Obligations.RingForms : Prop :=
  ∀ (s : State) (d : Reg) (r : Ring),
    let x := s.rd.ringD r.toNat
    let y := ringAddr r.toNat
    let framed := fun (t : State) => (∀ z, z < y ∨ y + 32 ≤ z → t.core.spad.read z = s.core.spad.read z) ∧ SameRegs s t
      ∧ t.core.queues = s.core.queues ∧ OnlyCore s t
    s.rd.lostIn y 32 = false → x.valid = true → s.core.spad.wf = true →
      (s.rd.feedsOut r = false →
        (x.full.testBit x.rp = true → GivesS (.awaitf d r) s 1 d (BitVec.ofNat 64 (x.base + x.rp * x.slotsz)))
        ∧ (x.full.testBit x.rp = false → Completes (.awaitf d r) s (s.park .awaitf)
          ∧ exec (.relslot r) s = .next (s.takeTrap 0x06 (BitVec.ofNat 64 (r.toNat + 32)) s.rd.ctx.pc))
        ∧ (x.full.testBit x.rp = true → ∃ t, exec (.relslot r) s = .next t ∧ framed t
          ∧ (t.core.ringD r.toNat).rp = (x.rp + 1) % x.count ∧ (t.core.ringD r.toNat).full.testBit x.rp = false
          ∧ (t.core.ringD r.toNat).inuse.testBit x.rp = false
          ∧ (∀ i, i < 64 → i ≠ x.rp → (t.core.ringD r.toNat).full.testBit i = x.full.testBit i)))
      ∧ (s.rd.feedsOut r = true →
        (x.full.testBit x.wp = true → Completes (.awaitf d r) s (s.park .awaitf))
        ∧ (x.full.testBit x.wp = false → ∃ t, exec (.awaitf d r) s = .next t ∧ framed t
          ∧ InFlight s t 1 (.s d (BitVec.ofNat 64 (x.base + x.wp * x.slotsz)))
          ∧ (t.core.ringD r.toNat).inuse.testBit x.wp = true)
        ∧ (x.inuse.testBit x.wp = true → x.full.testBit x.wp = false → ∃ t, exec (.relslot r) s = .next t ∧ framed t
          ∧ (t.core.ringD r.toNat).wp = (x.wp + 1) % x.count ∧ (t.core.ringD r.toNat).full.testBit x.wp = true))

/-- R225 to R228, R243: an ARRIVE waits for the core's earlier accesses, and a second one in a phase for the phase's end (the
model's reading, log entry 74, unsafe); one that is not held gives PHASE and the member index, sets the core's ARRIVED bit where it is a
member, and adds its expectation at the quad; a quad barrier whose precondition then holds completes in the same step. The barrier keeps the core of its last step as the
source of its log record (the model's reading, log entry 84). A
WAITB on a phase that has completed gives LASTDEP and the phase and empties the L1G; on one that has not, it parks. At
.lane and .core both complete at once. A number that the partition does not hold takes the scope trap. -/
def Obligations.BarrierForms : Prop :=
  ∀ (s : State) (d a b : Reg) (sc : Scope), sc.toNat ≤ 5 →
    let lv := sc.toNat
    let i := s.barOf a sc
    let m := s.barMember lv s.cur.val
    let x := s.bar lv i
    let e : Nat := if sc = 2 then sN s b % 2 ^ 32 else 0
    let arrived := if x.members.testBit m then slotSet x.arrived m else x.arrived
    let y : Bar := { x with arrived, act := true, pending := x.pending + e, armed := x.armed || e != 0, src := s.core.lid,
                            part := s.core.pid, lch := s.core.ctx.task.launch, gone := false }
    let n := (x.phase.toNat + 2 ^ 32 - sN s b % 2 ^ 32) % 2 ^ 32
    (sc.toNat < 2 → GivesS (.arrive d a b sc) s 1 d (BitVec.ofNat 64 (s.cur.val % 4 * 2 ^ 32))
      ∧ GivesS (.waitb d a b sc) s 1 d 0)
    ∧ (2 ≤ sc.toNat → s.barRefused a sc = true →
        let t := s.takeTrap 0x0E (BitVec.ofNat 64 (s.slot % 8 + lv * 2 ^ 4 + 3 * 2 ^ 12 + barNumber sc (s.rd.S a) * 2 ^ 32)) s.rd.ctx.pc
        (s.outstanding s.cur.val true = false → Completes (.arrive d a b sc) s t) ∧ Completes (.waitb d a b sc) s t)
    ∧ (2 ≤ sc.toNat → s.arriveHeld a sc = true → Completes (.arrive d a b sc) s (s.park .arrive))
    ∧ (2 ≤ sc.toNat → s.arriveHeld a sc = false → s.barRefused a sc = false → ∃ t, exec (.arrive d a b sc) s = .next t
        ∧ InFlight s t 1 (.s d (BitVec.ofNat 64 (x.phase.toNat + m * 2 ^ 32))) ∧ SameRegs s t ∧ t.core.spad = s.core.spad
        ∧ (sc ≠ 2 ∨ y.ready = false → t.bar lv i = y ∧ t.home = s.home)
        ∧ (sc = 2 → y.ready = true → (∀ l, s.launchAt y.part y.lch = some l → l.record = false ∧ l.replay = false) →
            t.bar lv i = { y with lastdep := y.departed, phase := x.phase + 1, arrived := 0, armed := false, deliv := false,
                                  act := false }
            ∧ t.home = s.home ∧ t.core.ctx.pipe.event = true))
    ∧ (2 ≤ sc.toNat → s.barRefused a sc = false →
        (n = 0 ∨ 2 ^ 31 < n → Completes (.waitb d a b sc) s (s.park .waitb))
        ∧ (0 < n → n ≤ 2 ^ 31 → ∃ t v, exec (.waitb d a b sc) s = .next t ∧ InFlight s t 1 (.s d v)
          ∧ (sc = 2 → (v.extractLsb' 0 4).toNat = x.lastdep % 16) ∧ (sc ≠ 2 → v.extractLsb' 0 4 = 0)
          ∧ v.getLsbD 4 = decide (x.lastdep ≠ 0) ∧ v.extractLsb' 5 27 = 0 ∧ v.extractLsb' 32 32 = x.phase - 1
          ∧ t.core.l1g = [] ∧ SameRegs s t ∧ t.core.spad = s.core.spad ∧ OnlyCore s t))

/-- R255 to R258: ENQ through a handle of a queue that its partition holds (R342; that a queue of a die in use which is not
granted gives REASON 1 is the model's reading, log entry 131), TDEC and CANCEL wait for the core's earlier accesses and
then issue: their register is marked, and a request with the record or the job that Sa names goes to the controllers.
R219 to R222, R262, R268: SPAWN on an idle sibling: Sd takes 0, and the sibling is taken for a child that enters two
cycles later, at Sa[47:0] of the same code object, with its arguments from S1 on, the capabilities that carry the
grant right, and a logical index of its own; nothing of the parent changes but its count of SPAWNs. A cancelled job's
SPAWN gives 1 and starts nothing; a sibling that cannot be taken, being busy, taken, held for a saved child or without its
ENGMAP as its units stand (R28, R371), gives the busy-sibling trap. -/
def Obligations.RequestAndSpawnForms : Prop :=
  (∀ (s : State) (d a b : Reg) (n : BitVec 3) (cap : CReg),
      let k := s.rd.C cap
      let sends := fun (i : Instr) (kind num : Nat) (args : List DWord) (queue : Nat) =>
        (s.outstanding s.cur.val true = true → Completes i s (s.park .order))
        ∧ (s.outstanding s.cur.val true = false → ∃ t q, exec i s = .next t ∧ Awaits s t (.s d) .request
          ∧ t.core.ctx.pipe.requests = s.core.ctx.pipe.requests ++ [q] ∧ q.kind = kind ∧ q.num = num ∧ q.args = args
          ∧ q.queue = queue ∧ t.core.ctx.task = { s.core.ctx.task with tied := true }
          ∧ (d ≠ 0 → t.core.ctx.pipe.spend.get d = true) ∧ SameRegs s t ∧ t.core.spad = s.core.spad
          ∧ OnlyCore { s with fresh := t.fresh } t)
      let trap := fun (reason : Nat) => exec (.enq d a b n cap) s
        = .next (s.takeTrap 0x03 (memInfo s.slot 0 cap.toNat reason 0) s.rd.ctx.pc)
      let uses : Prop := (∃ q ∈ (s.part s.rd.pid).grant.quads, q / 20 = k.obj % 256 / 64)
        ∧ k.obj % 256 ∈ (s.part s.rd.pid).grant.queues
      (k.kind = 6 → k.has 1 = true → uses → sends (.enq d a b n cap) 0 (sN s a % 2 ^ 20)
          ((List.range (n.toNat + 1)).map fun i => s.rd.S (b + BitVec.ofNat 6 i)) (k.obj % 256))
      ∧ (k.kind ≠ 6 → trap 3) ∧ (k.kind = 6 → k.has 1 = false → trap 2) ∧ (k.kind = 6 → k.has 1 = true → ¬ uses → trap 1)
      ∧ sends (.tdec d a) 1 (sN s a % 2 ^ 20) [] 0
      ∧ sends (.cancel d a) 2 (sN s a % 2 ^ 32) [] 0)
  ∧ (∀ (s : State) (d a b : Reg) (n : BitVec 3),
      let k := ((s.rd.S a).extractLsb' 48 2).toNat
      let c := sibling s.cur.val k
      let off := (s.coreAt c).engmap.getLsbD 14
      let free : Prop := s.idleCore c = true ∧ s.offered c = true ∧ ∀ v ∈ (s.part s.rd.pid).kids, v.core ≠ c
      let trap := fun (r : Nat) => exec (.spawn d a b n) s
        = .next (s.takeTrap 0x0F (BitVec.ofNat 64 (c % 4 + k * 4 + r * 16)) s.rd.ctx.pc)
      (s.spawnCancelled = true → GivesS (.spawn d a b n) s 1 d 1)
      ∧ (s.spawnCancelled = false →
        (k = 0 → trap 3) ∧ (k ≠ 0 → off = true → trap 2)
        ∧ (k ≠ 0 → off = false → (s.coreAt c).spawnAt = some (s.cyc + 2) → trap 4)
        ∧ (k ≠ 0 → off = false → (s.coreAt c).spawnAt ≠ some (s.cyc + 2) → ¬ free → trap 1)
        ∧ (k ≠ 0 → off = false → (s.coreAt c).spawnAt ≠ some (s.cyc + 2) → free →
            ∀ l, s.launchAt s.rd.pid s.rd.ctx.task.launch = some l →
            ∃ t, exec (.spawn d a b n) s = .next t ∧ InFlight s t 1 (.s d 0)
            ∧ t.core.ctx.task = { s.core.ctx.task with spawns := s.rd.ctx.task.spawns + 1 }
            ∧ SameRegs s t ∧ t.core.spad = s.core.spad ∧ t.home = s.home
            ∧ (∀ e, e ≠ c → e ≠ s.cur.val → t.coreAt e = s.coreAt e)
            ∧ let x := t.coreAt c
              x.spawnAt = some (s.cyc + 2) ∧ x.run = .idle ∧ x.spad = (s.coreAt c).spad
              ∧ x.ctx.pc = (s.rd.S a).extractLsb' 0 48 ∧ x.ctx.code = s.rd.ctx.code
              ∧ (∀ r : Reg, x.S r = if 1 ≤ r.toNat ∧ r.toNat ≤ n.toNat + 1 then s.rd.S (b + (r - 1)) else 0)
              ∧ (∀ r : CReg, x.C r = if (s.rd.C r).has 6 then s.rd.C r else 0)
              ∧ x.ctx.sys.priv = false ∧ x.ctx.sys.flags = 0 ∧ x.ctx.task.child = true
              ∧ x.ctx.task.job = s.rd.ctx.task.job ∧ x.ctx.task.lease = s.rd.ctx.task.lease
              ∧ x.ctx.task.lidx = childIndex s.rd.ctx.task.lidx (s.rd.ctx.task.spawns + 1))))

/-- R58, R260, R291: a RETIRE parks while something that the task started has not ended. After that, in a task that no log
or verification holds and whose record has no successor, no open child and no parent, it retires: the core is idle from the
next cycle, the record is RETIRED, and its digest slot closes with the task's digest. LOGMARK does nothing where LOGCTL does
not ask for it or the context neither records nor replays (R287). In one that records it counts a mark; in one that replays
it does so once the launch's next record of its agent is its own, with its value (R283), and is held before that. -/
def Obligations.RetireAndLogmark : Prop :=
  (∀ s : State, let x := s.core.ctx
    let p := s.core.pid
    (s.rd.ctx.pipe.retiring = false → s.retireWaits s.rd = true → Completes .retire s (s.park .retire))
    ∧ (s.retireWaits s.rd = false → s.retireWaits s.core = false → s.rd.badToken = none → s.core.badToken = none →
      x.sys.record = false → x.sys.replay = false → x.sys.verify = false → x.task.child = false →
      ∀ l n r, s.launchAt p x.task.launch = some l → l.record = false → l.replay = false → x.task.record = some n →
        (s.part p).getRec n = some r → r.succ = [] → r.opens = 0 → r.parent = none → r.late = false →
        ∃ t, exec .retire s = .next t ∧ t.core.run = .idle ∧ t.core.freeAt = s.cyc + 1
        ∧ t.core.spad = s.core.spad
        ∧ ((∀ lv i, 2 ≤ lv → lv ≤ 5 → (s.bar lv i).live.testBit (s.barMember lv s.cur.val) = false) →
          ((t.part p).getRec n).map (fun y => y.state) = some .retired ∧ t.home = s.home
          ∧ ∃ l' d, t.launchAt p x.task.launch = some l' ∧ look l'.digests x.task.slot = some d ∧ d.done = true
            ∧ d.current = x.task.digest)))
  ∧ ∀ (s : State) (a : Reg) (tag : BitVec 3),
    let x := s.core.ctx
    (x.sys.logctl.getLsbD 29 = false ∨ (x.sys.record = false ∧ x.sys.replay = false) → Completes (.logmark a tag) s s)
    ∧ (x.sys.logctl.getLsbD 29 = true → x.sys.record = true → (∀ l, s.launchAt x.ring.part x.ring.lch = some l →
        s.ringFull x.ring = false) → ∃ t, exec (.logmark a tag) s = .next t ∧ t.core.ctx.task.marks = x.task.marks + 1
        ∧ t.core.ctx.regs = x.regs ∧ t.core.spad = s.core.spad)
    ∧ (x.sys.logctl.getLsbD 29 = true → x.sys.record = false → x.sys.replay = true →
      ∀ l, s.launchAt x.ring.part x.ring.lch = some l → l.failing = false →
        let e := LogRec.of 9 tag.toNat s.core.lid.toNat x.task.lidx 0 0 0 (s.rd.S a)
        let due := l.supply.find? fun r => s.keyOf x.ring.part r == s.keyOf x.ring.part e
        let turn : Prop := ∃ r, due = some r ∧ r.matches e = true ∧ r.w3 = e.w3
        (turn → ∃ t, exec (.logmark a tag) s = .next t ∧ t.core.ctx.task.marks = x.task.marks + 1
          ∧ t.core.ctx.regs = x.regs ∧ t.core.spad = s.core.spad)
        ∧ (¬ turn → ∃ t, exec (.logmark a tag) s = .next t ∧ t.core.ctx.pipe.park = .replay ∧ t.core.ctx.task = x.task
          ∧ t.core.ctx.regs = x.regs ∧ t.core.spad = s.core.spad))

namespace Sys2Proof.Claims

open Sys2Proof Sys2Proof.Machine

/-- Operation `k` of core `c` is now `op`, and every other operation of the core is as before. -/
def OpIs (s t : State) (c k : Nat) (op : Op) : Prop :=
  t.opAt c k = some op ∧ ∀ j, j ≠ k → t.opAt c j = s.opAt c j

/-- Word `w`, of value `v`, is in the buffer of operation `k`, which was `op`. -/
def GotWord (s t : State) (c k w : Nat) (op : Op) (v : Word) : Prop :=
  ∃ o, OpIs s t c k o ∧ o.buf = op.buf ++ [(w, v)] ∧ o.toRead = op.toRead.erase w ∧ o.toWrite = op.toWrite ∧ o.kind = op.kind

/-- Word `w`, of value `v`, of operation `k`, which was `op`, is written. -/
def PutWord (s t : State) (c k w : Nat) (op : Op) (v : DWord) : Prop :=
  ∃ o, OpIs s t c k o ∧ o.wrote = op.wrote ++ [(w, v)] ∧ o.toWrite = op.toWrite.erase w ∧ o.toRead = op.toRead

/-- Offset `x` translates to `t` for operation `op` of core `c`, and no window, budget, full way, lost line, arena generation or log
holds the word there. -/
def Reaches (s : State) (c : Nat) (op : Op) (v : Via) (x : Nat) (w : Bool) (t : Xlat) : Prop :=
  let y := (s.coreAt c).ctx.sys
  s.opXlat op v x w = .ok t ∧ refreshing s.cyc (t.phys x) = false ∧ s.lineHeld v.part (t.phys x) = false
  ∧ lineOf (t.phys x) ∉ s.home.lost ∧ s.home.genOk t (t.phys x) = true ∧ y.record = false ∧ y.replay = false
  ∧ NoSamplesAt s c

/-- Core `c` alone has changed, and of its scratchpad the `n` bytes from `a` alone: they hold `v`, little-endian. -/
def SpadStores (s t : State) (c a n : Nat) (v : DWord) : Prop :=
  (∀ j, j < n → (t.coreAt c).spad.read (a + j) = v.extractLsb' (8 * j) 8)
  ∧ (∀ y, y < a ∨ a + n ≤ y → (t.coreAt c).spad.read y = (s.coreAt c).spad.read y)
  ∧ (t.coreAt c).ctx.regs = (s.coreAt c).ctx.regs ∧ (t.coreAt c).queues = (s.coreAt c).queues ∧ OnlyAt s t c

/-- Operation `k` of core `c`, which was `op`, has left, its token Resolved with error `e` and the event bit set (R122,
R259); every other token of the core is as before. -/
def TokenResolves (s t : State) (c k : Nat) (op : Op) (e : BitVec 4) : Prop :=
  let y := (t.coreAt c).ctx
  (y.toks.get op.tok).pending = false ∧ (y.toks.get op.tok).err = e ∧ y.pipe.event = true
  ∧ y.ops.length + 1 = (s.coreAt c).ctx.ops.length
  ∧ (∀ j, t.opAt c j = none ↔ s.opAt c (if j < k then j else j + 1) = none)
  ∧ (∀ r, r ≠ op.tok → y.toks.get r = (s.coreAt c).ctx.toks.get r) ∧ OnlyAt s t c

/-- The exact product of two values (R61, R76): 0 × ∞ is an invalid operation. -/
def product : Val → Val → Val
  | .num a m e, .num b n g => .num (a != b) (m * n) (e + g)
  | .nan a, y => .nan (a || y.sig)
  | x, .nan b => .nan (x.sig || b)
  | .inf a, .num b n _ => if n = 0 then .nan true else .inf (a != b)
  | .num a m _, .inf b => if m = 0 then .nan true else .inf (a != b)
  | .inf a, .inf b => .inf (a != b)

/-- R76, R77: `p` is the exact sum of the products of the pairs `l`, and `nv` says whether they set NV. -/
def BlockSum (l : List (Val × Val)) (p : Val) (nv : Bool) : Prop :=
  let ps := l.map fun x => product x.1 x.2
  let nan : Prop := (∃ x ∈ ps, x.isNan = true) ∨ (Val.inf false ∈ ps ∧ Val.inf true ∈ ps)
  (nv = true ↔ (∃ x ∈ ps, x.isNan = true) ∨ ∃ x ∈ l, x.1.sig = true ∨ x.2.sig = true)
  ∧ (nan → p = .nan false) ∧ (¬ nan → ∀ b, Val.inf b ∈ ps → p = .inf b)
  ∧ ((∀ x ∈ ps, ∃ a m e, x = .num a m e) → ∃ b n g, p = .num b n g ∧ (n = 0 → b = false)
    ∧ ∀ lo : Int, lo ≤ g → (∀ a m e, Val.num a m e ∈ ps → lo ≤ e) →
      (ps.map fun x => match x with
        | .num a m e => (if a then -(m : Int) else m) * 2 ^ (e - lo).toNat
        | _ => 0).sum = (if b then -(n : Int) else n) * 2 ^ (g - lo).toNat)

/-- R76 to R78: a floating element goes from code `old` to code `new` over `kk` products, and `g` gathers what its steps
set: block after block of eight in ascending k, the exact block sum scaled exactly for FP4, one rounding to the nearest, ties
to even, for each block, and no step for a sum of zero. -/
def FloatElem (kk : Nat) (masked : Nat → Bool) (term : Nat → Val × Val) (scale : Option (Nat → Val × Val)) (old new : Nat)
    (g : BitVec 6) : Prop :=
  ∃ (acc : Nat → Nat) (fl : Nat → BitVec 6), acc 0 = old ∧ acc (kk / 8) = new
  ∧ (∀ b, g.getLsbD b = true ↔ ∃ q, q < kk / 8 ∧ (fl q).getLsbD b = true)
  ∧ ∀ q, q < kk / 8 → ∃ p nv,
    BlockSum ((((List.range 8).map fun n => 8 * q + n).filter fun k => !masked k).map term) p nv
    ∧ (let y := match scale with
        | none => p
        | some z => product (product p (z q).1) (z q).2
       let v : BitVec 6 := if nv then fNV else 0
       (y.isZero = true → acc (q + 1) = acc q ∧ fl q = v)
       ∧ (y.isZero = false → let r := Fmt.f32.add .rne 0 (Fmt.f32.decode (acc q)) y
          acc (q + 1) = r.1 ∧ fl q = v ||| r.2))

/-- R76, R79, R80: the same of an integer element, whose every block step clamps to 40 bits; `sat` says that one did. -/
def IntElem (kk : Nat) (masked : Nat → Bool) (term : Nat → Int) (old new : Int) (sat : Bool) : Prop :=
  ∃ acc : Nat → Int,
    let sum := fun (q : Nat) => acc q + (((List.range 8).map fun n => 8 * q + n).map fun k => if masked k then 0 else term k).sum
    acc 0 = old ∧ acc (kk / 8) = new
    ∧ (∀ q, q < kk / 8 → acc (q + 1) = max (-2 ^ 39) (min (2 ^ 39 - 1) (sum q)))
    ∧ (sat = true ↔ ∃ q, q < kk / 8 ∧ acc (q + 1) ≠ sum q)

/-- R159: K, and the bits of an element of A and of B, under a pair. -/
def pairShape (v : DWord) : Nat × Nat × Nat :=
  match (v.extractLsb' 0 4).toNat, (v.extractLsb' 4 4).toNat with
  | 7, 8 => (128, 8, 4)
  | 8, _ => (256, 4, 4)
  | 5, _ => (256, 4, 4)
  | 1, _ => (64, 16, 16)
  | 2, _ => (64, 16, 16)
  | _, _ => (128, 8, 8)

/-- R60: element `p`, of `w` bits, of the bytes `f`. -/
def packed (f : Nat → Byte) (w p : Nat) : Nat :=
  if w = 4 then (f (p / 2)).toNat / 16 ^ (p % 2) % 16 else if w = 8 then (f p).toNat else (f (2 * p)).toNat + 256 * (f (2 * p + 1)).toNat

/-- R160, R161: byte `p` of an operand of `n` bytes, its scale bytes behind its lines: from the vectors read at issue, from a
latch of the core, or from the words `wd` read from the scratchpad, from word `o` on. -/
def operandByte (x : Core) (src : MatSrc) (wd : Nat → Word) (o n p : Nat) : Byte :=
  match src with
  | .vec l => byteOf ((l[(if p < n then p else 8192 + (p - n)) / 1024]?).getD (File.all 8 0)) (p % 1024)
  | .latch r => if p < n then (x.ctx.regs.l.get r).lines.get (BitVec.ofNat 13 p)
      else (x.ctx.regs.l.get r).scales.get (BitVec.ofNat 11 (p - n))
  | .spad _ _ _ _ => (wd (o + p / 4)).extractLsb' (8 * (p % 4)) 8

/-- The bytes of an operand that come through the scratchpad: none, or all of its `n` and its scales. -/
def spadBytes (src : MatSrc) (n : Nat) : Nat := match src with
  | .spad _ _ _ _ => n
  | _ => 0

/-- R171: element (i, j) of a tile goes from `old` to `new` by the operands' elements `a`, `b` and scales `sa`, `sb` under pair
`v`, and its steps set `g`. -/
def MmaElem (v : DWord) (tri strict fresh : Bool) (a b : Nat → Nat) (sa sb : Nat → Byte) (nza nzb : Byte) (i j : Nat)
    (old new : BitVec 40) (g : BitVec 6) : Prop :=
  let k := (pairShape v).1
  let masked := fun (n : Nat) => tri && (decide (i < n) || (decide (n = i) && strict))
  let af := (v.extractLsb' 0 4).toNat
  let bf := (v.extractLsb' 4 4).toNat
  if 7 ≤ af then
    ∃ y sat, IntElem k masked (fun n => (BitVec.ofNat (pairShape v).2.1 (a (i * k + n))).toInt
        * (BitVec.ofNat (pairShape v).2.2 (b (64 * n + j))).toInt) (if fresh then 0 else old.toInt) y sat
      ∧ new = BitVec.ofInt 40 y ∧ g = if sat then fSAT else 0
  else
    ∃ y, FloatElem k masked (fun n => (codeVal af (a (i * k + n)) nza, codeVal bf (b (64 * n + j)) nzb))
        (if af = 5 then some fun q => (Fmt.e3m5.decode (sa (32 * i + q)).toNat, Fmt.e3m5.decode (sb (32 * j + q)).toNat)
          else none) (if fresh then 0 else old.toNat % 2 ^ 32) y g
      ∧ new = BitVec.ofNat 40 y

/-- R174: element `n` of an MST's output as a number of its code, and the FLAGS bits of its conversion. -/
def MstElem (z : Tile) (e : MstWord) (bs : BitVec 16) (qs zps : VReg) (r : Rnd) (n : Nat) (y : Int × BitVec 6) : Prop :=
  let cell := z.elem.get (BitVec.ofNat 12 n)
  let int := z.status.getLsbD 8
  let v : Val := if int then .num (decide (cell.toInt < 0)) cell.toInt.natAbs 0 else Fmt.f32.decode (cell.toNat % 2 ^ 32)
  let c := n % 64 + 64 * e.qoff.toNat
  (e.resc = true →
    let a : Int × BitVec 6 := if int then (cell.toInt, 0) else toInt 32 r n v
    let x := rescale a.1 (qs.lane c) (if e.zpe then (zps.lane c).toInt else 0) (codeWidth e.out.toNat)
    y = (x.1, a.2 ||| x.2))
  ∧ (e.resc = false →
    let x := product v (if e.bse then Fmt.bf16.decode bs.toNat else .num false 1 0)
    (∀ k, elemOf e.out.toNat = some (.int k) → y = ((toInt k r n x).1, (toInt k r n x).2 ||| if x.sig then fNV else 0))
    ∧ ∀ f, elemOf e.out.toNat = some (.fl f) → y = (((f.convert r n x).1 : Int), (f.convert r n x).2))

end Sys2Proof.Claims

/-! ## The steps of the engines (R117) -/

/-- R117, R133 to R141, R153: the word steps of a copy. A landing reads a word at its home and writes it to the scratchpad; a
store reads the scratchpad and writes the home; XRED adds the word to what the home holds; the host completes the words of
an XHOST.in. What goes to a scratchpad follows the core's own ISSUE of the cycle (R119). RESOLVE, with nothing left, writes the flag word where the form has one and the copy met no error, and resolves
the token. FRAME: no other byte of the scratchpad or of global memory changes, no register, and no other core. -/
def Obligations.CopySteps : Prop :=
  ∀ (s : State) (c k w : Nat) (op : Op) (form : CopyForm) (sp : Nat) (h : Shape) (v : Via) (g : Nat)
    (f : Option (Nat × DWord)) (r : Option Nat),
    let x := s.coreAt c
    let a := h.sAt sp w
    let o := h.gAt g w
    let same := fun (u : State) => KeepsHome s u ∧ (u.coreAt c).ctx.regs = x.ctx.regs ∧ ∀ j, j ≠ c → u.coreAt j = s.coreAt j
    c < 320 → s.opAt c k = some op → op.kind = .copy form sp h v g f r → x.spad.wf = true → s.home.mem.wf = true →
    s.home.bank.wf = true → s.opStrict c op = false →
      (op.claimed = true → w ∈ op.toRead →
        (∀ t, form = .ld → v.kind ≠ 3 → Reaches s c op v o false t → ∃ u, exec (.engineRead c k w) s = .next u
          ∧ GotWord s u c k w op (s.home.mem.word (t.phys o)) ∧ same u ∧ (u.coreAt c).spad = x.spad)
        ∧ (form ≠ .ld → form ≠ .hostIn → x.lostIn a 4 = false → ∃ u, exec (.engineRead c k w) s = .next u
          ∧ GotWord s u c k w op (x.spad.word a) ∧ same u ∧ OnlyAt s u c ∧ (u.coreAt c).spad = x.spad))
      ∧ (∀ val, w < h.words → w ∈ op.toWrite → look op.buf w = some val →
        (form.lands = true → s.spadTurn c = true → op.shadowed h (h.sAt sp) w = false → ∃ u, exec (.engineWrite c k w) s = .next u
          ∧ PutWord s u c k w op (val.setWidth 64) ∧ SpadStores s u c a 4 (val.setWidth 64))
        ∧ (∀ t, v.kind ≠ 3 → Reaches s c op v o true t →
          (form = .st → t.cls ≠ 2 → op.shadowed h (h.gAt g) w = false → ∃ u, exec (.engineWrite c k w) s = .next u
            ∧ PutWord s u c k w op (val.setWidth 64) ∧ Stores s u c (t.phys o) 4 (val.setWidth 64)
            ∧ (u.coreAt c).spad = x.spad ∧ (u.coreAt c).ctx.regs = x.ctx.regs)
          ∧ ∀ int, form = .red int →
            let old := s.home.mem.word (t.phys o)
            let sum : Word := if int then old + val
              else BitVec.ofNat 32 (Fmt.f32.add .rne 0 (Fmt.f32.decode old.toNat) (Fmt.f32.decode val.toNat)).1
            ∃ u, exec (.engineWrite c k w) s = .next u ∧ PutWord s u c k w op (sum.setWidth 64)
              ∧ Stores s u c (t.phys o) 4 (sum.setWidth 64) ∧ (u.coreAt c).spad = x.spad
              ∧ (u.coreAt c).ctx.regs = x.ctx.regs))
      ∧ (∀ y z, form = .hostIn → op.drop = false → w ∈ op.toRead → (s.part v.part).check v = .ok y → o + 4 ≤ y.hostlen →
        ∃ u, exec (.hostCompletion c k w 0 z) s = .next u ∧ GotWord s u c k w op z ∧ same u ∧ OnlyAt s u c
          ∧ (u.coreAt c).spad = x.spad)
      ∧ (op.toRead = [] → op.toWrite = [] → op.sent = [] → op.claimed = true → op.filled = true → op.err = 0 →
        op.flagged = true ∨ s.spadTurn c = true → ∃ u, exec (.resolve c k) s = .next u ∧ TokenResolves s u c k op 0 ∧ same u
        ∧ (f = none ∨ op.flagged = true → (u.coreAt c).spad = x.spad)
        ∧ ∀ b z, f = some (b, z) → op.flagged = false → SpadStores s u c b 8 z)
      ∧ (op.toRead = [] → op.toWrite = [] → op.sent = [] → op.err ≠ 0 → ∃ u, exec (.resolve c k) s = .next u
        ∧ TokenResolves s u c k op op.err ∧ same u ∧ (u.coreAt c).spad = x.spad)

/-- R163, R166, R169 to R175: the steps of the matrix operations. A word of an operand is read from the scratchpad at the
address of R161; a word of an MST is written there, each element of it the tile's, rescaled by table or times the band scale
and rounded once (R174, R83). Once everything is read and the time that it occupies its array or the tile port has passed,
RESOLVE writes the tile: MZERO zeros, MLDZ the words extended to 40 bits, MTRN the transpose, and an MMA or MMAT the tile
that the sum order of R76 to R80 gives from the operands, its status with the bits that the steps set (R157), its token with
the accumulator-overflow error where the pair asks for it and a block step clamped (R81); MLATCH fills its latch; an MST's
flags and its tile's sticky bits are added to FLAGS. FRAME: every other tile, every other register, the scratchpad and global
memory are as before. -/
def Obligations.MatrixSteps : Prop :=
  ∀ (s : State) (c k w : Nat) (op : Op),
    let x := s.coreAt c
    let z := x.ctx.regs.z
    let quiet : Prop := op.toRead = [] ∧ op.toWrite = [] ∧ op.err = 0 ∧ op.upto ≤ s.cyc
    let tile := fun (y : ZReg) (p : State → Tile → Prop) => ∃ u, exec (.resolve c k) s = .next u
      ∧ (∀ r, r ≠ y → (u.coreAt c).ctx.regs.z.get r = z.get r)
      ∧ (u.coreAt c).ctx.regs = { x.ctx.regs with z := (u.coreAt c).ctx.regs.z } ∧ (u.coreAt c).spad = x.spad ∧ OnlyAt s u c
      ∧ p u ((u.coreAt c).ctx.regs.z.get y)
    let elem := fun (t : Tile) (n : Nat) => t.elem.get (BitVec.ofNat 12 n)
    c < 320 → s.opAt c k = some op → x.spad.wf = true →
      (∀ a, op.matAddr w = some a → op.array.isSome = true ∨ (∃ y src int, op.kind = .ldz y src int) → w ∈ op.toRead →
        s.arrayBehind c k op = false → x.lostIn a 4 = false → ∃ u, exec (.engineRead c k w) s = .next u
          ∧ GotWord s u c k w op (x.spad.word a) ∧ (u.coreAt c).spad = x.spad ∧ (u.coreAt c).ctx.regs = x.ctx.regs
          ∧ OnlyAt s u c)
      ∧ (∀ a y dst e bs qs zps rm, op.matAddr w = some a → op.kind = .stz y dst e bs qs zps rm → w ∈ op.toWrite →
        s.opStrict c op = false → s.spadTurn c = true →
          let n := codeWidth e.out.toNat
          ∃ (u : State) (v : DWord) (f : Nat → Int × BitVec 6), exec (.engineWrite c k w) s = .next u ∧ PutWord s u c k w op v ∧ SpadStores s u c a 4 v
          ∧ (∀ p, p < 32 / n → MstElem (z.get y) e bs qs zps (x.ctx.tookRound rm) (32 / n * w + p) (f p)
            ∧ v.extractLsb' (n * p) n = BitVec.ofInt n (f p).1)
          ∧ ∀ o, u.opAt c k = some o → ∀ b, o.sticky.getLsbD b = true
            ↔ op.sticky.getLsbD b = true ∨ ∃ p, p < 32 / n ∧ (f p).2.getLsbD b = true)
      ∧ (quiet →
        (∀ y int, op.kind = .zero y int → tile y fun u t => (∀ n, elem t n = 0)
          ∧ t.status = (if int then 0x100 else 0) ∧ TokenResolves s u c k op 0)
        ∧ (∀ a b, op.kind = .trn a b → tile b fun u t => (∀ i j, i < 64 → j < 64 →
          elem t (64 * i + j) = elem (z.get a) (64 * j + i)) ∧ t.status = (z.get a).status ∧ TokenResolves s u c k op 0)
        ∧ (∀ y src int (v : Nat → Word), op.kind = .ldz y src int → (∀ n b, (n, b) ∈ op.buf → b = v n) →
          (∀ n, n < 4096 → (n, v n) ∈ op.buf) → tile y fun u t =>
            (∀ n, n < 4096 → elem t n = if int then (v n).signExtend 40 else (v n).setWidth 40)
            ∧ t.status = (if int then 0x100 else 0) ∧ TokenResolves s u c k op 0)
        ∧ (∀ tri strict n y a b (v : DWord) nza nzb fresh (wd : Nat → Word), op.kind = .mma tri strict n y a b v nza nzb fresh →
          s.arrayBehind c k op = false → PairValid v →
          let sc := if (v.extractLsb' 0 4).toNat = 5 then 2048 else 0
          let bn := (pairShape v).1 * (8 * (pairShape v).2.2)
          let o := spadBytes a (8192 + sc) / 4
          (∀ l, a = .vec l ∨ b = .vec l → l.length = if sc = 0 then 8 else 10) →
          (∀ m u, (m, u) ∈ op.buf → u = wd m) → (∀ m, m < o + spadBytes b (bn + sc) / 4 → (m, wd m) ∈ op.buf) →
            let ab := operandByte x a wd 0 8192
            let bb := operandByte x b wd o bn
            ∃ g : Nat → BitVec 6, tile y fun u t =>
              (∀ i j, i < 64 → j < 64 → MmaElem v tri strict fresh (packed ab (pairShape v).2.1) (packed bb (pairShape v).2.2)
                (fun p => ab (8192 + p)) (fun p => bb (bn + p)) nza nzb i j (elem (z.get y) (64 * i + j)) (elem t (64 * i + j))
                (g (64 * i + j)))
              ∧ (∀ b, b < 6 → (t.status.getLsbD b = true
                ↔ (∃ m, m < 4096 ∧ (g m).getLsbD b = true) ∨ (fresh = false ∧ (z.get y).status.getLsbD b = true)))
              ∧ t.status.extractLsb' 6 58 = (if 7 ≤ (v.extractLsb' 0 4).toNat then 4 else 0)
              ∧ ((u.coreAt c).ctx.toks.get op.tok).pending = false
              ∧ ((v.getLsbD 8 = true ∧ ∃ m, m < 4096 ∧ (g m).getLsbD 5 = true) → ((u.coreAt c).ctx.toks.get op.tok).err = 7)
              ∧ (¬ (v.getLsbD 8 = true ∧ ∃ m, m < 4096 ∧ (g m).getLsbD 5 = true) →
                ((u.coreAt c).ctx.toks.get op.tok).err = 0))
        ∧ (∀ r src sc (wd : Nat → Word), op.kind = .latch r src sc → s.arrayBehind c k op = false →
          let n := if sc then 10240 else 8192
          (∀ l, src = .vec l → l.length = n / 1024) →
          (∀ m u, (m, u) ∈ op.buf → u = wd m) → (∀ m, m < spadBytes src n / 4 → (m, wd m) ∈ op.buf) →
            ∃ u, exec (.resolve c k) s = .next u ∧ TokenResolves s u c k op 0 ∧ (u.coreAt c).spad = x.spad
            ∧ (u.coreAt c).ctx.regs = { x.ctx.regs with l := (u.coreAt c).ctx.regs.l }
            ∧ (∀ y, y ≠ r → (u.coreAt c).ctx.regs.l.get y = x.ctx.regs.l.get y)
            ∧ (∀ p, p < 8192 → ((u.coreAt c).ctx.regs.l.get r).lines.get (BitVec.ofNat 13 p) = operandByte x src wd 0 8192 p)
            ∧ (∀ p, p < 2048 → ((u.coreAt c).ctx.regs.l.get r).scales.get (BitVec.ofNat 11 p)
              = if sc then operandByte x src wd 0 8192 (8192 + p) else (x.ctx.regs.l.get r).scales.get (BitVec.ofNat 11 p)))
        ∧ (∀ y dst e bs qs zps rm, op.kind = .stz y dst e bs qs zps rm → ∃ u, exec (.resolve c k) s = .next u
          ∧ TokenResolves s u c k op 0 ∧ (u.coreAt c).ctx.regs = x.ctx.regs ∧ (u.coreAt c).spad = x.spad
          ∧ (u.coreAt c).ctx.sys.flags = x.ctx.sys.flags ||| op.sticky ||| (z.get y).status.setWidth 6)
        ∧ (∀ n, op.kind = .drain n → (∀ o ∈ x.ctx.ops.take k, o.array ≠ some n) → ∃ u, exec (.resolve c k) s = .next u
          ∧ TokenResolves s u c k op 0 ∧ (u.coreAt c).ctx.regs = x.ctx.regs ∧ (u.coreAt c).spad = x.spad))

/-- R145, R150 to R152, R154, R155: claims, fills, chain walks and hints. A claim of a landing takes slot WP of a valid
descriptor that is not in use, sets its INUSE bit and advances WP; the fill, after the last word, sets its FULL bit. A chain
record whose OWN bit is 0 ends the walk, and one that the engine owns gives the payload it names, with a shape or without, to or
from global memory or the host; one of another DIR, or that fails a check of R139, ends the walk with the capability fault, its
ERR set and its OWN cleared. The last step of a record clears OWN and ends the walk, goes on at NEXT, or fails where NEXT is
misaligned; a walk that failed in a payload sets ERR and clears OWN as it resolves. A hint that is dropped resolves with no
error. -/
def Obligations.RingAndChainSteps : Prop :=
  ∀ (s : State) (c k : Nat) (op : Op),
    let x := s.coreAt c
    let same := fun (u : State) => u.home = s.home ∧ (u.coreAt c).ctx.regs = x.ctx.regs ∧ OnlyAt s u c
    let recordEnds := fun (u : State) (a : Nat) (bad : Bool) =>
      ((u.coreAt c).spad.read (a + 4)).extractLsb' 0 2 = (if bad then 2 else ((x.spad.read (a + 4)).extractLsb' 1 1 ++ 0#1))
      ∧ ((u.coreAt c).spad.read (a + 4)).extractLsb' 2 6 = (x.spad.read (a + 4)).extractLsb' 2 6
      ∧ ∀ b, b ≠ a + 4 → (u.coreAt c).spad.read b = x.spad.read b
    c < 320 → s.opAt c k = some op → x.spad.wf = true → s.spadTurn c = true → s.opStrict c op = false →
      (∀ form sp h v g f r, op.kind = .copy form sp h v g f (some r) → r < 8 → op.drop = false →
        let d := x.ringD r
        let y := ringAddr r
        (op.claimed = false → (∀ o ∈ x.ctx.ops.take k, (c, r) ∉ o.ringsDue c) → x.lostIn y 32 = false → d.valid = true →
          d.base % 4 = 0 → d.inuse.testBit d.wp = false → h.ext h.spitch ≤ d.slotsz → ∃ u, exec (.claim c k) s = .next u
          ∧ (∃ o, OpIs s u c k o ∧ o.claimed = true ∧ o.slot = d.wp
            ∧ o.kind = .copy form (d.base + d.wp * d.slotsz) h v g f (some r))
          ∧ ((u.coreAt c).ringD r).wp = (d.wp + 1) % d.count ∧ ((u.coreAt c).ringD r).inuse.testBit d.wp = true
          ∧ ((u.coreAt c).ringD r).full = d.full ∧ (∀ a, a < y ∨ y + 32 ≤ a → (u.coreAt c).spad.read a = x.spad.read a)
          ∧ same u)
        ∧ (op.claimed = true → op.filled = false → op.toRead = [] → op.toWrite = [] → op.slot < 64 →
          ∃ u, exec (.ringFill c k) s = .next u
          ∧ (∃ o, OpIs s u c k o ∧ o.filled = true) ∧ ((u.coreAt c).ringD r).full.testBit op.slot = true
          ∧ (∀ i, i < 64 → i ≠ op.slot → ((u.coreAt c).ringD r).full.testBit i = d.full.testBit i)
          ∧ (∀ a, a < y + 24 ∨ y + 32 ≤ a → (u.coreAt c).spad.read a = x.spad.read a) ∧ same u))
      ∧ (∀ ch a caps, op.kind = .chain ch a caps none → op.flagged = false → op.err = 0 →
        s.chainBehind c k ch op.inst = false → x.lostIn a 64 = false →
          let bit := fun (p n : Nat) => x.spad.readLE (a + p / 64 * 8) 8 / 2 ^ (p % 64) % 2 ^ n
          let cap := caps[bit 48 4]?.getD 0
          let off := (BitVec.ofNat 64 (bit 64 64)).toInt
          let h : Shape := if bit 52 1 = 1 then ⟨bit 216 16, bit 192 24, bit 256 20, bit 320 64⟩ else ⟨1, bit 192 24, 0, 0⟩
          let dir := bit 40 3
          let form : CopyForm := if dir = 0 then .ld else if dir = 1 then .st else if dir = 2 then .hostIn else .hostOut
          let fits : Prop := dir ≤ 3 ∧ PayloadFits cap [if dir % 2 = 0 then 4 else 5] (if dir < 2 then [0, 1, 2, 3] else [4])
            (some (bit 128 20)) h off none
          (bit 32 1 = 0 → ∃ u, exec (.chainRecordRead c k) s = .next u ∧ (u.coreAt c).spad = x.spad ∧ same u
            ∧ OpIs s u c k { op with flagged := true })
          ∧ (bit 32 1 = 1 → fits → ∃ u o, exec (.chainRecordRead c k) s = .next u ∧ OpIs s u c k o
              ∧ (u.coreAt c).spad = x.spad ∧ same u
              ∧ o.toRead = List.range h.words ∧ o.toWrite = List.range h.words
              ∧ o.kind = .chain ch a caps (some ⟨form, bit 128 20, h, x.via cap, cap.base + off.toNat, bit 31 1 == 1, bit 0 20⟩))
          ∧ (bit 32 1 = 1 → ¬ fits → ∃ u o, exec (.chainRecordRead c k) s = .next u ∧ OpIs s u c k o ∧ same u
              ∧ o.err = 3 ∧ o.detail = BitVec.ofNat 32 a ∧ o.kind = op.kind ∧ recordEnds u a true))
      ∧ (∀ ch a caps cur, op.kind = .chain ch a caps (some cur) → op.err = 0 → op.toRead = [] → op.toWrite = [] →
        ∃ u o, exec (.engineWrite c k cur.sh.words) s = .next u ∧ OpIs s u c k o ∧ recordEnds u a false ∧ same u
          ∧ (cur.stop = true → o.flagged = true ∧ o.kind = .chain ch a caps none ∧ o.err = 0)
          ∧ (cur.stop = false → cur.next % 64 = 0 → o.flagged = op.flagged ∧ o.kind = .chain ch cur.next caps none ∧ o.err = 0)
          ∧ (cur.stop = false → cur.next % 64 ≠ 0 → o.err = 3 ∧ o.detail = BitVec.ofNat 32 cur.next))
      ∧ (∀ ch a caps cur, op.kind = .chain ch a caps cur →
        (op.err = 0 → op.flagged = true → ∃ u, exec (.resolve c k) s = .next u ∧ TokenResolves s u c k op 0 ∧ same u
          ∧ (u.coreAt c).spad = x.spad)
        ∧ (op.err ≠ 0 → op.toRead = [] → op.toWrite = [] → op.sent = [] → ∃ u, exec (.resolve c k) s = .next u
          ∧ TokenResolves s u c k op op.err ∧ same u ∧ (cur = none → (u.coreAt c).spad = x.spad)
          ∧ (cur ≠ none → recordEnds u a true)))
      ∧ (∀ l1 v g n, op.kind = .prefetch l1 v g n → op.toRead = [] → op.drop = true → NoSamplesAt s c →
        ∃ u, exec (.resolve c k) s = .next u ∧ ((u.coreAt c).ctx.toks.get op.tok).err = 0
          ∧ ((u.coreAt c).ctx.toks.get op.tok).pending = false ∧ u.home = s.home ∧ (u.coreAt c).spad = x.spad
          ∧ (u.coreAt c).ctx.regs = x.ctx.regs)

/-- R117, R246, R325 to R337: the steps of the hoists, each while it holds its stream. A loader claims the slot at WP for its
next tile and fills it once every word has moved; a storer takes the slot at RP once it is filled and drains it, so that
neither its INUSE bit nor its FULL bit stands and RP has moved on (R330); a bank
product reads a word of W from the bank image; a write-back makes the bank image of a line its home value, and a bank fence
does so for every dirty line of its range and resolves. At the end of a refresh window a delayed load performs. FRAME: of
the scratchpad only the descriptor changes. -/
def Obligations.HoistSteps : Prop :=
  (∀ (s : State) (c k : Nat) (op : Op) (x : Sub),
    let y := s.coreAt c
    let d := y.ringD x.ring
    let a := ringAddr x.ring
    let frame := fun (u : State) => OnlyAt s u c ∧ (u.coreAt c).ctx.regs = y.ctx.regs
      ∧ ∀ b, b < a ∨ a + 32 ≤ b → (u.coreAt c).spad.read b = y.spad.read b
    let begins := fun (u : State) (slot : Nat) => ∃ o, OpIs s u c k o ∧ o.claimed = true ∧ o.slot = slot
      ∧ o.kind = .sub { x with sp := d.base + slot * d.slotsz } ∧ o.toRead = List.range x.sh.words
      ∧ o.toWrite = List.range x.sh.words
    let ends := fun (u : State) => ∃ o, OpIs s u c k o ∧ o.claimed = false ∧ o.kind = .sub { x with tile := x.tile + 1 }
    c < 320 → s.opAt c k = some op → op.kind = .sub x → x.ring < 8 → y.spad.wf = true → op.err = 0 → y.run = .running →
    s.spadTurn c = true → s.opStrict c op = false → s.tileSpent x = false → y.lostIn a 32 = false → d.valid = true → op.stream.isSome = true →
      (x.out = false → op.claimed = false → x.stop = none → x.tile < x.nt0 * x.nt1 → d.base % 4 = 0 →
        x.sh.ext x.sh.spitch ≤ d.slotsz →
          (d.inuse.testBit d.wp = false → ∃ u, exec (.push c k) s = .next u ∧ begins u d.wp ∧ frame u
            ∧ ((u.coreAt c).ringD x.ring).wp = (d.wp + 1) % d.count
            ∧ ((u.coreAt c).ringD x.ring).inuse.testBit d.wp = true)
          ∧ (d.inuse.testBit d.wp = true → Completes (.push c k) s s))
      ∧ (x.out = false → op.claimed = true → op.toRead = [] → op.toWrite = [] → op.slot < 64 →
        ∃ u, exec (.push c k) s = .next u ∧ ends u ∧ frame u ∧ ((u.coreAt c).ringD x.ring).full.testBit op.slot = true)
      ∧ (x.out = true → op.claimed = false → x.stop = none → x.tile < x.nt0 * x.nt1 →
        (d.full.testBit d.rp = true → ∃ u, exec (.pull c k) s = .next u ∧ begins u d.rp ∧ frame u
          ∧ (u.coreAt c).spad = y.spad)
        ∧ (d.full.testBit d.rp = false → Completes (.pull c k) s s))
      ∧ (x.out = true → op.claimed = true → op.toRead = [] → op.toWrite = [] →
        ∃ u, exec (.pull c k) s = .next u ∧ ends u ∧ frame u ∧ ((u.coreAt c).ringD x.ring).rp = (d.rp + 1) % d.count
          ∧ ((u.coreAt c).ringD x.ring).inuse.testBit d.rp = false ∧ ((u.coreAt c).ringD x.ring).full.testBit d.rp = false))
  ∧ (∀ (s : State) (c k w : Nat) (op : Op) (x : Bmv) (t : Xlat), c < 320 → s.opAt c k = some op → op.kind = .bmv x →
      x.checked = true → op.err = 0 → w < x.wWords → w ∈ op.toRead → Reaches s c op x.via (x.g + 4 * w) false t →
      ∃ u, exec (.bankRead c k w) s = .next u ∧ GotWord s u c k w op (s.home.bank.word (t.phys (x.g + 4 * w)))
        ∧ u.home = s.home ∧ (u.coreAt c).spad = (s.coreAt c).spad ∧ ∀ j, j ≠ c → u.coreAt j = s.coreAt j)
  ∧ (∀ (s : State) (l : Nat), l ∈ s.home.dirty → s.home.bank.wf = true →
      (∀ p, s.ownerOf (l * 64) = some p → s.spent p (l * 64) = false) → ∃ u, exec (.writeBack l) s = .next u
      ∧ (∀ j, j < 64 → u.home.bank.read (l * 64 + j) = s.home.mem.read (l * 64 + j))
      ∧ (∀ b, b < l * 64 ∨ l * 64 + 64 ≤ b → u.home.bank.read b = s.home.bank.read b) ∧ u.home.mem = s.home.mem
      ∧ u.home.dirty = s.home.dirty.erase l ∧ u.home.tags = s.home.tags ∧ u.cores = s.cores)
  ∧ (∀ (s : State) (c k g n : Nat) (op : Op) (v : Via) (t : Nat → Xlat), c < 320 → s.opAt c k = some op →
      op.kind = .bfen v g n → op.err = 0 → s.storesBefore c k op = false → s.readsBefore c k v g n = false →
      (∀ l ∈ linesOf g n, s.opXlat op v (max (l * 64) (g / 4 * 4)) false = .ok (t l)) → s.home.bank.wf = true → NoSamplesAt s c →
      (∀ a i, unitOf a = some i → look (s.part v.part).grant.shares i = some 64 ∧ i ∉ s.dev.hotStk) →
      ∃ u, exec (.bankFence c k) s = .next u ∧ TokenResolves { s with home := u.home, parts := u.parts } u c k op 0 ∧ u.home.mem = s.home.mem
        ∧ ∀ l ∈ linesOf g n, lineOf ((t l).phys (l * 64)) ∈ s.home.dirty → ∀ j, j < 64 →
            let b := lineOf ((t l).phys (l * 64)) * 64 + j
            u.home.bank.read b = s.home.mem.read b)
  ∧ ∀ (s : State) (g c : Nat) (q : BitVec 2) (a : Acc) (t : Xlat) (rest : List QEntry), c < 320 → g < 16 →
      s.cyc % 32768 = 2048 * g + 384 → MayPerform s c q a t rest → a.late = true → a.kind = .load → s.home.bank.wf = true →
      (∀ j r b, j < 320 → (j ≠ c ∨ r ≠ q) → QEntry.acc b ∈ (s.coreAt j).queues.get r → b.late = false) →
      (∀ b, QEntry.acc b ∈ rest → b.late = false) → (∀ j, ∀ o ∈ (s.coreAt j).ctx.ops, o.late = []) → (∀ w ∈ (s.coreAt c).ctx.pipe.waits, w.id ≠ a.wait.getD 0 ∨ w.need = 1) →
      ∃ u, exec (.refreshWindowEnd g) s = .next u ∧ accsOf ((u.coreAt c).queues.get q) = accsOf rest ∧ KeepsHome s u
        ∧ (u.coreAt c).ctx.pipe.waits = (s.coreAt c).ctx.pipe.waits.map fun w =>
          if w.id = a.wait.getD 0 then { w with got := w.got ++ s.home.readItems t a.items, need := 0 } else w

/-! ## The steps of the task machine (R248 to R271) -/

/-- R220, R224, R227, R250 to R270: the steps of the controllers where no log and no serialised run holds them. A decrement
that leaves PENDING at 0 queues a WAITING record with result 2, any other gives 0; an ENQ of an IDLE record takes its
arguments and queues it; a CANCEL marks its job at one die after the other, each of which cancels what has not started and
sets the cancel bits of its cores, and the last answers 0. A bind takes the head of a queue for a core whose ENGMAP is as its
units stand (R28), and the core's dispatch starts the record at its entry or resumes its saved context with the values that
came meanwhile, a divide under way landing as many cycles later as it had left (R48); a steal takes the head of the victim's queue. A TIMED record is
released at FRAMEBASE + RELEASE, a late block stalls the partition, a child enters unless the package is halted (R373), a hang is
a terminal cause, whose count begins again at 0 (that is the model's choice, log entry 62), and a barrier that is ready completes.
An arrival of a member on another package sets its ARRIVED bit (R385; how the step names it is the model's choice, log entry 171). -/
def Obligations.TaskSteps : Prop :=
  ∀ (s : State) (c p : Nat),
    let k := s.coreAt c
    let x := k.ctx
    let y := s.part p
    let others := fun (u : State) => ∀ j, j ≠ c → u.coreAt j = s.coreAt j
    c < 320 → p < 12 →
      (∀ (q : Req) (l : List Req), x.pipe.requests = q :: l → k.pid = p → x.sys.record = false → x.sys.replay = false →
        q.dies = none →
        let gives := fun (u : State) (code : Nat) => (u.coreAt c).ctx.pipe.requests = l ∧ (u.coreAt c).ctx.pipe.waits
          = x.pipe.waits.map fun w => if w.id = q.wait then
              { w with got := w.got ++ [(0, BitVec.ofNat 64 code)], need := w.need - 1 } else w
        (∀ r, y.reqRec q.num = some r → y.marked r.job (y.recordDie q.num) = false →
          let due := r.pending = 1 ∧ r.state = .waiting
          (q.kind = 1 → r.state = .idle ∨ r.state = .waiting → r.pending ≠ 0 → ∃ u, exec (.request c 0) s = .next u
            ∧ gives u (if due then 2 else 0) ∧ others u ∧ u.home = s.home
            ∧ (u.part p).getRec q.num = some { r with
                pending := r.pending - 1, state := if due then (if r.tt then .timed else .queued) else r.state }
            ∧ (due → r.tt = false → (u.part p).queue r.queue = y.queue r.queue ++ [q.num]))
          ∧ (q.kind = 0 → r.state = .idle → q.queue ∉ y.killed → ∃ u, exec (.request c 0) s = .next u
            ∧ gives u 0 ∧ others u ∧ u.home = s.home
            ∧ (u.part p).getRec q.num = some { r with
                args := q.args ++ r.args.drop q.args.length, queue := q.queue,
                state := if r.pending ≠ 0 then .waiting else if r.tt then .timed else .queued }
            ∧ (r.pending = 0 → r.tt = false → (u.part p).queue q.queue = y.queue q.queue ++ [q.num])))
        ∧ (∀ j : Job, q.kind = 2 → y.liveJob (BitVec.ofNat 32 q.num) = some j → j.cancelled = false →
          let die := y.dies.headD 0
          ∃ u, exec (.request c 0) s = .next u ∧ (u.part p).cancelled j.id = true ∧ (u.part p).marked j.id die = true
            ∧ (if y.dies.drop 1 = [] then gives u 0
               else (u.coreAt c).ctx.pipe.requests = { q with dies := some (y.dies.drop 1) } :: l)
            ∧ (∀ i ∈ y.cores, i < 320 → i / 80 = die → (u.coreAt i).cancel = true)
            ∧ ∀ n r, y.getRec n = some r → r.job = j.id → r.state.unstarted = true → y.recordDie n = die →
                ((u.part p).getRec n).map (fun z => z.state) = some .cancelled))
      ∧ (∀ q n r l, y.getRec n = some r → s.launchAt p r.launch = some l → l.record = false → l.replay = false →
          l.serial = false → c ∈ y.cores → c / 80 = q / 64 → (y.queue q).head? = some n → r.state = .queued →
          k.entry = none → k.stealDue = false → l.seedDue = false → s.offered c = true → s.mayResume p c r = true →
          (s.idleCore c = true → y.topQueue (q / 64) (s.mayResume p c) = some q) → ∃ u, exec (.bind p q c n) s = .next u
          ∧ (u.coreAt c).entry = some (n, false, y.bseq) ∧ (u.part p).bseq = y.bseq + 1 ∧ n ∉ (u.part p).queue q
          ∧ (u.part p).getRec n = some { r with state := .bound } ∧ others u ∧ u.home = s.home)
      ∧ (∀ n st b r l, k.entry = some (n, st, b) → s.partOf c = some p → y.getRec n = some r →
          s.launchAt p r.launch = some l → r.state = .bound → s.idleCore c = true → s.offered c = true → s.quadTried c = true →
          l.failing = false → y.pinned r.lease = true → s.storeBusy p r.lease = false → y.born r = true →
          s.mayResume p c r = true → y.cancelled r.job = false →
          (∀ z ∈ s.keptBars p r.launch c, s.barBusy p r.launch z.1.1 z.1.2 = false) →
          (r.saved = none → ∃ u, exec (.dispatch c) s = .next u ∧ others u ∧ u.home = s.home
            ∧ ((u.part p).getRec n).map (fun z => z.state) = some .running
            ∧ let z := u.coreAt c
              z.run = .running ∧ z.entry = none ∧ z.cancel = y.marked r.job (c / 80) ∧ z.l1g = [] ∧ z.ctx.pc = r.entry ∧ z.ctx.code = l.code
              ∧ (∀ i : Reg, z.S i = if i = 0 then 0 else r.args[i.toNat - 1]?.getD 0) ∧ z.ctx.sys.priv = r.priv
              ∧ (∀ i : CReg, z.C i = ((look y.capls r.capl).getD [])[i.toNat]?.getD 0)
              ∧ (k.lastRet = false → z.spad = []))
          ∧ (∀ v, r.saved = some v → v.live = none → v.ctx.pipe.svc = none → ∃ u, exec (.dispatch c) s = .next u ∧ others u
            ∧ u.home = s.home
            ∧ let z := u.coreAt c
              z.run = .running ∧ z.ctx.pc = v.ctx.pc ∧ z.ctx.regs = (v.ctx.arrived v.ctx.pipe.waits).regs
              ∧ z.ctx.sys = v.ctx.sys ∧ z.spad = v.spad ∧ z.lost = v.lost ∧ z.ctx.pipe.event = true
              ∧ (∀ n f due m g, v.ctx.pipe.waits = [] → v.ctx.pipe.inflight = [⟨n, f, due, m⟩] → g = due + k.lcyc - s.cyc →
                  z.ctx.pipe.inflight = [⟨n, f, g, m⟩])
              ∧ (v.ctx.pipe.waits = [] → z.ctx.regs = v.ctx.regs ∧ z.ctx.pipe.shadow = v.ctx.pipe.shadow)))
      ∧ (∀ l n r, k.stealDue = true → k.steals ≠ [] → k.pid = p → s.launchAt p x.task.launch = some l → l.record = false →
          l.replay = false → l.serial = false → s.offered c = true → y.holdsQueue k.victim = true → k.victim ∉ y.killed → (y.queue k.victim).head? = some n →
          y.getRec n = some r → r.state = .queued → s.mayResume p c r = true →
          (∀ z, s.launchAt p r.launch = some z → z.seedDue = false) → ∃ u, exec (.stealAttempt c) s = .next u
          ∧ (u.coreAt c).entry = some (n, true, y.bseq) ∧ (u.coreAt c).stealDue = false ∧ (u.coreAt c).att = k.att + 1
          ∧ (u.part p).getRec n = some { r with state := .bound } ∧ others u)
      ∧ (∀ n r, y.getRec n = some r →
          (r.state = .timed → y.stalled = false → y.frameBase + r.release ≤ s.cyc / 1024 → r.pending = 0 →
            ∃ u, exec (.timetableRelease p n) s = .next u ∧ (u.part p).getRec n = some { r with state := .queued }
              ∧ (u.part p).queue r.queue = y.queue r.queue ++ [n] ∧ u.cores = s.cores)
          ∧ (r.tt = true → r.late = false → r.state.unretired = true → r.state.live = true →
            y.frameBase + r.deadline ≤ s.cyc / 1024 → ∃ u, exec (.deadlineMiss p n) s = .next u ∧ (u.part p).stalled = true
              ∧ (u.part p).getRec n = some { r with late := true } ∧ u.cores = s.cores))
      ∧ (∀ t, k.spawnAt = some t → t ≤ s.cyc → s.dev.halted = false →
          Completes (.childEntry c) s (s.modAt c fun z => { z with run := .running, spawnAt := none }))
      ∧ (k.run = .running → x.pipe.hanglim ≤ x.pipe.hang → ∃ u, exec (.hangFault c) s = .next u ∧ OnlyAt s u c
          ∧ (u.coreAt c).ctx.pipe = { x.pipe with
              async := x.pipe.async ++ [(0x16, BitVec.ofNat 64 (x.hangWhere + 16 * Nat.log2 x.pipe.hanglim))], hang := 0 })
      ∧ (∀ i m, i < 16 → m / 320 < 4096 → m / 320 ≠ s.fab.pod → (s.bar 5 i).members.testBit m = true →
          (s.bar 5 i).arrived.testBit m = false →
          (let b := { s.bar 5 i with arrived := (s.bar 5 i).arrived + 2 ^ m, act := true, gone := false }
          b.ready = false → ∃ u, exec (.pkgBarrierComplete 5 (i + 2 ^ 16 * (3 * m + 2))) s = .next u ∧ u.bar 5 i = b
            ∧ u.cores = s.cores ∧ u.home = s.home))
      ∧ (∀ i, i < 16 → (s.bar 4 i).ready = true → (∀ l, s.launchAt (s.bar 4 i).part (s.bar 4 i).lch = some l →
          l.record = false ∧ l.replay = false) → ∃ u, exec (.pkgBarrierComplete 4 i) s = .next u
          ∧ u.bar 4 i = { s.bar 4 i with
              lastdep := (s.bar 4 i).departed, phase := (s.bar 4 i).phase + 1, arrived := 0, armed := false, deliv := false,
              act := false }
          ∧ u.cores = s.cores ∧ u.home = s.home)

/-- R209, R211 to R217, R282 to R294, R318, R355, R356: the steps that stop, save, end and resume contexts, those of the
order log and its replay, and a serialised run. A pre-emption waits for the next safe point, or takes a parked context whole;
a context that has stopped for it and drained is saved in its record, which is queued again; a terminal cause that has
drained ends the task: its record and its job fail, and its fault record is reported. Bamosh's answer to an SVC is in S1,
after every result that was due (R9). A killed queue's records fail and its contexts stop; a quick stop takes nothing from a
kill that is due. A serialised run begins with each writable frame as it was at the launch (R294). -/
def Obligations.ContextSteps : Prop :=
  ∀ (s : State) (c p : Nat),
    let k := s.coreAt c
    let x := k.ctx
    let y := s.part p
    let pipe := fun (u : State) => (u.coreAt c).ctx.pipe
    let recState := fun (u : State) (n : Nat) => ((u.part p).getRec n).map fun z => z.state
    c < 320 → p < 12 →
      (k.run = .running →
        (∃ u, exec (.preEmption c 0) s = .next u ∧ OnlyAt s u c
          ∧ pipe u = { x.pipe with safeReq := some (x.pipe.safeReq.getD 0), event := true })
        ∧ (x.pipe.parked = true → x.pipe.retiring = false → k.inSplit = false → ∃ u, exec (.preEmption c 1) s = .next u ∧ OnlyAt s u c
          ∧ (u.coreAt c).run = .stopped 0 none ∧ (u.coreAt c).ctx.regs = x.regs ∧ (u.coreAt c).ctx.pc = x.pc
          ∧ (u.coreAt c).spad = k.spad)
        ∧ (∀ why, why = 3 ∨ why = 4 → ∃ u, exec (.quickStop c why) s = .next u ∧ OnlyAt s u c
          ∧ pipe u = { x.pipe with stopReq := if x.pipe.stopReq = some 2 ∨ x.pipe.stopReq = some 5 then x.pipe.stopReq else some why })
        ∧ (∀ code info, ∃ u, exec (.terminalCause c code info) s = .next u ∧ OnlyAt s u c
          ∧ pipe u = { x.pipe with async := x.pipe.async ++ [(code, info)] }))
      ∧ (∀ live n r, k.run = .stopped 0 live → k.drained = true → k.pid = p → x.task.record = some n →
          x.task.child = false → y.cancelled x.task.job = false → y.getRec n = some r → ∃ u, exec (.preEmption c 0) s = .next u ∧ (u.coreAt c).run = .idle
          ∧ recState u n = some .queued ∧ (u.part p).queue r.queue = y.queue r.queue ++ [n] ∧ u.home = s.home
          ∧ ∃ v z, (u.part p).getRec n = some z ∧ z.saved = some v ∧ v.ctx.regs = x.regs ∧ v.ctx.sys = x.sys
            ∧ v.ctx.pc = x.pc ∧ v.spad = k.spad ∧ v.live = live)
      ∧ (∀ code words n r j, k.run = .ending code words → code ∉ [0x13, 0x14, 0x17, 0x18] → k.drained = true →
          x.ops.any Op.openSub = false → k.pid = p → x.task.record = some n → x.task.child = false →
          y.getRec n = some r → y.job x.task.job = some j → ∃ u, exec (.terminalCause c 0 0) s = .next u
          ∧ (u.coreAt c).run = .idle ∧ recState u n = some .failed ∧ u.dev.reports = s.dev.reports ++ [words]
          ∧ ((u.part p).job x.task.job).map (fun z => z.failed) = some true)
      ∧ (∀ n l v, x.pipe.svc = some (n :: l) → n ≠ 0x40 → n ≠ 0x41 → ∃ u, exec (.svcAnswer c v) s = .next u
          ∧ OnlyAt s u c ∧ (u.coreAt c).S 1 = v ∧ (pipe u).svc = none ∧ (pipe u).park = .none
          ∧ (pipe u).inflight = x.pipe.inflight.filter (fun r => decide (ownCycle k < r.due))
          ∧ ((∀ r ∈ x.pipe.inflight, ownCycle k < r.due) → (∀ i, i ≠ 1 → (u.coreAt c).S i = k.S i)
            ∧ pipe u = { x.pipe with svc := none, park := .none }))
      ∧ (∀ live, k.run = .stopped 3 live → x.pipe.svc = none → s.dev.halted = false → ∃ u, exec (.debugStopResume c) s = .next u ∧ OnlyAt s u c
          ∧ (u.coreAt c).run = .running ∧ (u.coreAt c).ctx.regs = x.regs ∧ (u.coreAt c).ctx.pc = x.pc
          ∧ pipe u = { x.pipe with trapped := false, hang := 0 })
      ∧ (∀ n r, y.getRec n = some r → r.state = .failed → r.repair = none → ∃ u, exec (.jobAbandon p n) s = .next u
          ∧ (∃ z, (u.part p).getRec n = some z ∧ z.abandoned = true) ∧ u.cores = s.cores ∧ u.home = s.home)
      ∧ (∀ q, q ∈ y.grant.queues → ∃ u, exec (.queueKill p q 0) s = .next u ∧ q ∈ (u.part p).killed
          ∧ (∀ n r, y.getRec n = some r → r.queue = q → r.state.unstarted = true → recState u n = some .failed)
          ∧ ∀ i ∈ y.cores, i < 320 → (s.coreAt i).run = .running → s.runsQueue p q (s.coreAt i) = true →
              (u.coreAt i).ctx.pipe.stopReq = some 2)
      ∧ (∀ q, ∃ u, exec (.killClear p q) s = .next u ∧ q ∉ (u.part p).killed
          ∧ (∀ i, i ≠ q → (i ∈ (u.part p).killed ↔ i ∈ y.killed)) ∧ u.cores = s.cores)
      ∧ (∀ l, y.launches[0]? = some l →
          (l.failing = true → l.serial = false → s.kernelHeld p 0 = false → s.home.mem.wf = true →
            ∃ u z, exec (.serialisedReExecution p) s = .next u ∧ (u.part p).launches[0]? = some z ∧ z.serial = true
            ∧ z.failing = false ∧ z.replay = false ∧ z.verify = false ∧ z.record = l.record
            ∧ (∀ o i m a j, (o, i, m) ∈ l.copy → m.wf = true → y.phys o (i * 2 ^ 21) = some a → j < 2 ^ 21 →
                (∀ z ∈ l.copy, z ≠ (o, i, m) → ∀ b, y.phys z.1 (z.2.1 * 2 ^ 21) = some b → b / 2 ^ 21 ≠ a / 2 ^ 21) →
                (∀ b, b < 16 → y.phys l.ringObj b ≠ some (a / 2 ^ 21 * 2 ^ 21 + j)) →
                u.home.mem.read (a / 2 ^ 21 * 2 ^ 21 + j) = m.read j))
          ∧ (∀ n a, l.record = true → y.phys l.ringObj 8 = some a → s.home.mem.wf = true →
              n ≤ (s.agentRead p l.ringObj 0 - s.agentRead p l.ringObj 8).toNat → ∃ u, exec (.logFullRelease p 0 n) s = .next u
              ∧ u.agentRead p l.ringObj 8 = s.agentRead p l.ringObj 8 + BitVec.ofNat 64 n
              ∧ (∀ b, b < a ∨ a + 8 ≤ b → u.home.mem.read b = s.home.mem.read b) ∧ u.cores = s.cores)
          ∧ (∀ n, l.replay = true → l.seedDue = false → ∃ u z m, exec (.replaySupply p 0 n) s = .next u ∧ (u.part p).launches[0]? = some z ∧ m ≤ n
              ∧ z.supply = l.supply ++ l.unfed.take m ∧ z.unfed = l.unfed.drop m ∧ u.cores = s.cores)
          ∧ (l.seedDue = false ∨ l.unfed ≠ [] → ∃ u z, exec (.logExhausted p 0) s = .next u
              ∧ (u.part p).launches[0]? = some z ∧ z = { l with spent := l.spent || l.unfed.isEmpty } ∧ u.cores = s.cores ∧ u.home = s.home))
      ∧ (∀ l e r, s.launchAt k.pid x.task.launch = some l → x.pipe.heldOps.head? = some e →
          l.supply.find? (fun z => s.keyOf k.pid z == s.keyOf k.pid e) = some r → r.typ = 9 → r.matches e = true → r.w3 ≠ e.w3 →
          k.run = .running → x.sys.replay = true → (∀ a ∈ x.pipe.async, a.1 ≠ 0x18) →
          ∃ u info, exec (.replayDivergenceFault c) s = .next u ∧ OnlyAt s u c
            ∧ pipe u = { x.pipe with async := x.pipe.async ++ [(0x18, info)] } ∧ info.extractLsb' 12 4 = 4
            ∧ (info.extractLsb' 0 6).toNat = 9)

/-! ## Objects, partitions and the device (R303 to R321, R341 to R373) -/

/-- R308 to R321: the management of objects, where the precondition of each step holds. A privileged XINV whose range and
flag word pass the checks of R314 starts with its token Pending; each holder drops its entries of the range and
acknowledges once what used them has performed; a queued access is walked once the bundle after its own has been tried, or it is
one of many lines; the last acknowledgement ends the XINV, after the write-back of `.wb` or
the drop of `.discard`, and resolves its token. A lease is revoked, a host handle unbound and a range unmapped each with an
XINV of its own, and an unmapped range is freed once that has completed, no lease over it standing; services 0x40 and 0x41 of a privileged caller answer 0; an arena is born on zeroed frames with its
generation one above the last, dies with that generation bumped, and is freed. -/
def Obligations.ObjectSteps : Prop :=
  (∀ (s : State) (t : Tok) (m : BitVec 2) (flag : Bool) (n : Reg) (l : List Tok), Clear s t l → s.rd.ctx.sys.priv = true →
    let p := ((s.rd.S n).extractLsb' 24 4).toNat
    let start := ((s.rd.S (n + 1)).extractLsb' 0 48).toNat
    let len := sN s (n + 2)
    let f := if flag then some (sN s (n + 3), s.rd.S (n + 4)) else none
    p < 12 → start + len ≤ 2 ^ 48 → start % 64 = 0 → len % 64 = 0 →
    (flag = true → sN s (n + 3) + 8 ≤ 0x100000 ∧ sN s (n + 3) % 8 = 0) →
      ∃ u op, exec (.xinv t m flag n l) s = .next u ∧ Started s { u with parts := s.parts } op ∧ op.tok = t
      ∧ op.kind = .inv p s.fresh f ∧ (∀ q, q ≠ p → u.part q = s.part q)
      ∧ u.part p = { s.part p with invs := (s.part p).invs ++
          [⟨s.fresh, ((s.rd.S n).extractLsb' 0 24).toNat, if len = 0 then 0 else start, len, m.toNat, [], []⟩] })
  ∧ (∀ (s : State) (h k p : Nat) (i : Inv), s.invAt k = some (p, i) → p < 12 →
      (h < 320 → h ∈ (s.part p).holders → h ∉ i.dropped → ∃ u, exec (.invalidate h k) s = .next u
        ∧ (∀ x ∈ (u.coreAt h).xcache, i.hits p x = false)
        ∧ (∀ x ∈ (u.coreAt h).l1g, ¬ (x.part = p ∧ i.meets x.obj (x.line * 64) 64 = true))
        ∧ (u.coreAt h).ctx = (s.coreAt h).ctx ∧ (u.coreAt h).spad = (s.coreAt h).spad ∧ u.home = s.home
        ∧ ∀ j, j ≠ h → u.coreAt j = s.coreAt j)
      ∧ (320 ≤ h → h < 960 → h ∈ (s.part p).holders → h ∉ i.dropped → ∃ u, exec (.invalidate h k) s = .next u
        ∧ u.home = s.home ∧ (∀ j, (u.coreAt j).ctx.regs = (s.coreAt j).ctx.regs ∧ (u.coreAt j).spad = (s.coreAt j).spad
          ∧ (u.coreAt j).ctx.toks = (s.coreAt j).ctx.toks ∧ (u.coreAt j).l1g = (s.coreAt j).l1g))
      ∧ (h ∈ i.dropped → h ∉ i.acked → s.ackHeld h k = false → s.heldElsewhere p k = false → (∀ j, NoSamplesAt s j) →
        ((∃ g ∈ (s.part p).holders, g ≠ h ∧ g ∉ i.acked) → ∃ u, exec (.ack h k) s = .next u ∧ u.cores = s.cores
          ∧ u.home = s.home ∧ u.part p = { s.part p with
              invs := (s.part p).invs.map fun j => if j.id = k then { j with acked := h :: j.acked } else j })
        ∧ ((∀ g ∈ (s.part p).holders, g = h ∨ g ∈ i.acked) → s.home.mem.wf = true → s.home.bank.wf = true →
          s.invTurn p i = true → (∀ b n, i.mode = 1 → unitOf b = some n →
            look (s.part p).grant.shares n = some 64 ∧ n ∉ s.dev.hotStk) →
          ∃ u, exec (.ack h k) s = .next u ∧ (∀ j ∈ (u.part p).invs, j.id ≠ k)
          ∧ (i.mode = 0 → u.home = s.home)
          ∧ (i.mode = 1 → ∀ y ∈ s.home.dirty, (s.part p).invLine i y = true → ∀ j, j < 64 →
              u.home.bank.read (y * 64 + j) = s.home.mem.read (y * 64 + j))
          ∧ (i.mode = 2 → ∀ y ∈ s.home.dirty, (s.part p).invLine i y = true → ∀ j, j < 64 →
              u.home.mem.read (y * 64 + j) = s.home.bank.read (y * 64 + j))
          ∧ ∀ c o f, c < 320 → (s.coreAt c).ctx.ops = [o] → o.kind = .inv p k f →
              (∀ d, d ≠ c → ∀ o' ∈ (s.coreAt d).ctx.ops, ∀ f', o'.kind ≠ .inv p k f') →
              ((u.coreAt c).ctx.toks.get o.tok).pending = false ∧ ((u.coreAt c).ctx.toks.get o.tok).err = o.err
              ∧ (u.coreAt c).ctx.ops = [])))
  ∧ (∀ (s : State) (c : Nat) (q : BitVec 2) (a : Acc) (rest : List QEntry), c < 320 →
      (s.coreAt c).queues.get q = .acc a :: rest → a.xl = none → a.via.kind ≠ 3 → (1 < a.items.length ∨ a.start < (s.coreAt c).ctx.pipe.tried) →
      (s.coreAt c).hits = [] →
      (s.coreAt c).cached a.via a.off a.kind.writes = none →
      (∀ t, (s.part a.via.part).walk a.via a.off a.len a.kind.writes = .ok t → ∃ u, exec (.walk c q.toNat) s = .next u
        ∧ (u.coreAt c).queues.get q = .acc { a with xl := some t } :: rest ∧ (u.coreAt c).xcache.head? = some t
        ∧ (u.coreAt c).ctx = (s.coreAt c).ctx ∧ OnlyAt s u c)
      ∧ (∀ e, (s.part a.via.part).walk a.via a.off a.len a.kind.writes = .error e → a.uid = (s.coreAt c).ctx.task.uid →
        ∃ u info, exec (.walk c q.toNat) s = .next u ∧ accsOf ((u.coreAt c).queues.get q) = accsOf rest
          ∧ (u.coreAt c).ctx.pipe.async = (s.coreAt c).ctx.pipe.async ++ [(kindCause e, info)]
          ∧ (u.coreAt c).ctx.regs = (s.coreAt c).ctx.regs ∧ OnlyAt s u c))
  ∧ ∀ (s : State) (p : Nat), p < 12 →
    let y := s.part p
    let starts := fun (u : State) (o st n mode : Nat) => (u.part p).invs = y.invs ++ [⟨s.fresh, o, st, n, mode, [], []⟩]
    y.cores ≠ [] →
    (∀ set i e, ((look y.sets set).getD [])[i]? = some e → e.valid = true → e.revoked = false →
      ∃ u, exec (.leaseRevoke p set i) s = .next u ∧ starts u e.obj e.start e.len 0
      ∧ ((look (u.part p).sets set).getD [])[i]? = some { e with revoked := true }
      ∧ (u.part p).revoking = y.revoking ++ [{ obj := e.obj, start := e.start, len := e.len, stamp := s.fresh, wb := [] }]
      ∧ (∀ j, j ≠ i → ((look (u.part p).sets set).getD [])[j]? = ((look y.sets set).getD [])[j]?)
      ∧ u.cores = s.cores ∧ u.home = s.home)
    ∧ (∀ o x, y.obj o = some x → x.typ = 4 → x.bound = true → ∃ u, exec (.hostHandleUnbind p o) s = .next u
      ∧ starts u o 0 0 0 ∧ (u.part p).obj o = some { x with bound := false } ∧ u.cores = s.cores ∧ u.home = s.home)
    ∧ (∀ o st n, s.freeOk p o st n = true → ∃ u, exec (.unmap p o st n) s = .next u ∧ u.part p = y.freeRange o st n
      ∧ u.cores = s.cores ∧ u.home = s.home)
    ∧ (∀ o st n, n ≠ 0 → n % 2 ^ 21 = 0 → st % 2 ^ 21 = 0 → s.leasedOver p o st n = false →
      (∀ r, r ∈ y.prepared ∨ r ∈ y.revoking → r.obj ≠ o) → ∃ u, exec (.unmap p o st n) s = .next u ∧ starts u o st n 1
      ∧ (u.part p).prepared = y.prepared ++ prepFrames o st n s.fresh
      ∧ (∀ l, l ∈ (u.part p).leaves ↔ l ∈ y.leaves ∧ ¬ (l.1 = o ∧ l.2.inside st n = true)) ∧ u.cores = s.cores ∧ u.home = s.home)
    ∧ (∀ c o st n, c < 320 →
      (s.coreAt c).ctx.asks 0x40 = some (p, o, st, n) → y.unpreparable o st n = false →
        ∃ u, exec (.unmapPreparation c) s = .next u ∧ (u.coreAt c).S 1 = 0 ∧ (u.coreAt c).ctx.pipe.svc = none
        ∧ (∀ x : Nat × List Lease, x ∈ (u.part p).sets → ∀ e ∈ x.2, e.obj = o → e.start < st + n → st < e.start + e.len →
            e.revoked = true)
        ∧ (∀ l ∈ (u.part p).leaves, ¬ (l.1 = o ∧ l.2.inside st n = true)) ∧ u.home = s.home)
    ∧ (∀ c o st n, c < 320 → (s.coreAt c).ctx.asks 0x41 = some (p, o, st, n) →
        s.freeOk p o st n = true → ∃ u, exec (.unmapFree c) s = .next u ∧ (u.coreAt c).S 1 = 0 ∧ (u.coreAt c).ctx.pipe.svc = none
        ∧ (∀ l ∈ (u.part p).unmapped, ¬ (l.1 = o ∧ l.2.inside st n = true)) ∧ u.home = s.home)
    ∧ ∀ n r, y.getRec n = some r → r.arena ≠ 0 →
      (∀ l o, s.launchAt p r.launch = some l → look y.objs r.arena = some o → r.state ≠ .idle → r.state.live = true →
        o.valid = false → o.gen < 4095 → (∀ d ∈ y.prepared, d.obj ≠ r.arena) → (o.size + 2 ^ 21 - 1) / 2 ^ 21 ≤ y.freeFrames.length →
        ∃ u, exec (.arenaBirth p n) s = .next u
        ∧ (u.part p).obj r.arena = some { o with valid := true, arena := true, typ := 1, gen := o.gen + 1 }
        ∧ (∀ f ∈ y.freeFrames.take ((o.size + 2 ^ 21 - 1) / 2 ^ 21), look u.home.gens f = some (o.gen + 1)
          ∧ ∀ b, f * 2 ^ 21 ≤ b → b < f * 2 ^ 21 + 2 ^ 21 → u.home.mem.read b = 0) ∧ u.cores = s.cores)
      ∧ (∀ o, y.obj r.arena = some o → o.arena = true → y.arenaOver n r = true → (∀ d ∈ y.dying, d.1 ≠ r.arena) →
        ∃ u, exec (.arenaDeath p n) s = .next u ∧ starts u r.arena 0 0 2 ∧ (r.arena, s.fresh) ∈ (u.part p).dying
        ∧ (u.part p).obj r.arena = some { o with gen := o.gen + 1 } ∧ u.cores = s.cores)
      ∧ (∀ o id, y.dying.find? (fun d => d.1 == r.arena) = some (o, id) → (∀ i ∈ y.invs, i.id ≠ id) →
        ∃ u, exec (.free p n) s = .next u ∧ (∀ l ∈ (u.part p).leaves, l.1 ≠ r.arena) ∧ (u.part p).obj r.arena = none
        ∧ u.cores = s.cores)

/-- R341, R344 to R349, R373, R375, R320: partitions. A bind gives the partition its grant, with no record and an empty
trace buffer; an unbind takes everything back; ways pass from one partition to another in three steps: the loser stops
allocating in them, its lines there are written back and leave, and the ways are handed over; FRC's tick begins every budget
anew and sets every tick event; a power sample over the limit holds issue, and a die at 110 degrees halts the device; Bamosh
writes table entries, leaves, leases and records that it may; a launch that the loader admits answers 0 and places its
records. -/
def Obligations.PartitionSteps : Prop :=
  ∀ (s : State) (p : Nat), p < 12 →
    let y := s.part p
    (∀ g, y.bound = false → s.serving = true → s.grantOk p g = true → s.home.mem.wf = true →
      ∃ u, exec (.partitionBind p g) s = .next u ∧ (u.part p).bound = true ∧ (u.part p).grant = g ∧ (u.part p).recs = []
      ∧ (u.part p).jobs = [] ∧ (u.part p).launches = [] ∧ (∀ j, j ≠ p → u.part j = s.part j)
      ∧ u.agentRead p g.traceObj 0 = 0 ∧ u.agentRead p g.traceObj 8 = 0
      ∧ u.agentRead p g.traceObj 16 = BitVec.ofNat 64 g.traceCap)
    ∧ (y.bound = true → s.partBusy p = false → ∃ u, exec (.partitionUnbind p) s = .next u ∧ (u.part p).bound = false
      ∧ (u.part p).objs = [] ∧ (u.part p).leaves = [] ∧ (∀ c ∈ y.cores, c < 320 → (u.coreAt c).xcache = [] ∧ (u.coreAt c).l1g = [])
      ∧ u.home = s.home)
    ∧ (∀ q die m, p ≠ q → q < 12 → die < 4 → y.bound = true → (s.part q).bound = true → m ≠ 0 →
      let after := y.setWays die (y.waysOn die &&& ~~~m)
      (y.shift = none → m &&& y.waysOn die = m → y.waysOn die &&& ~~~m ≠ 0 →
        (∀ d, d < 4 → after.pinnedLines d ≤ 65536 * (waysOf (after.waysOn d)).length) →
        ∃ u l, exec (.wayMaskChange p q die m []) s = .next u ∧ (u.part p).waysOn die = y.waysOn die &&& ~~~m
        ∧ (u.part p).shift = some (die, m, q, l) ∧ (∀ x, x ∈ l ↔ ∃ w, (x, w) ∈ s.home.inWays die m)
        ∧ u.part q = s.part q ∧ u.cores = s.cores ∧ u.home = s.home)
      ∧ (∀ l x, y.shift = some (die, m, q, l) → x ∈ l → s.home.bank.wf = true →
        (x ∈ s.home.dirty → s.spent p (x * 64) = false) → ∃ u, exec (.wayMaskChange p q die m [x]) s = .next u
        ∧ (u.part p).shift = some (die, m, q, l.filter fun k => k != x) ∧ (∀ z ∈ u.home.ways, z.1 ≠ x)
        ∧ (x ∈ s.home.dirty → ∀ j, j < 64 → u.home.bank.read (x * 64 + j) = s.home.mem.read (x * 64 + j))
        ∧ u.home.mem = s.home.mem ∧ u.cores = s.cores)
      ∧ (y.shift = some (die, m, q, []) → ∃ u, exec (.wayMaskChange p q die m []) s = .next u ∧ (u.part p).shift = none
        ∧ (u.part p).waysOn die = y.waysOn die ∧ (u.part q).waysOn die = (s.part q).waysOn die ||| m ∧ u.cores = s.cores))
    ∧ (s.ticked ≠ s.cyc / 1024 → ∃ u, exec .frcTick s = .next u ∧ u.ticked = s.cyc / 1024
      ∧ ((∀ i, i < 12 → (s.part i).trace.waiting = []) → u.part p = { y with charges := [] } ∧ u.home = s.home)
      ∧ ∀ c, c < 320 → (u.coreAt c).ctx.pipe = { (s.coreAt c).ctx.pipe with event := true, tick := true }
        ∧ (u.coreAt c).ctx.regs = (s.coreAt c).ctx.regs)
    ∧ (∀ watts dies hbms hold,
      ((∀ t ∈ dies, t < 95) → s.dev.hot = [] → ∃ u, exec (.powerSample watts dies hbms hold) s = .next u
        ∧ (u.part p).power = (if s.dev.plim < watts then hold * y.grant.quads.length else 0) ∧ u.cores = s.cores ∧ u.home = s.home)
      ∧ ((∃ t ∈ dies, 110 ≤ t) → ∃ u, exec (.powerSample watts dies hbms hold) s = .next u ∧ u.dev.halted = true
        ∧ u.dev.status.getLsbD 2 = true ∧ u.home = s.home
        ∧ ∀ c, c < 320 → (s.coreAt c).run = .running → (u.coreAt c).run = .stopped 4 none))
    ∧ (∀ i v, y.bound = true →
      (s.entryOk p i (.ofWords v) = true → ∃ u, exec (.tableChange p 0 i v) s = .next u
        ∧ look (u.part p).objs i = some (.ofWords v) ∧ u.cores = s.cores ∧ u.home = s.home)
      ∧ (s.leafOk p i (.ofWords v) = true → ∃ u, exec (.tableChange p 1 i v) s = .next u
        ∧ (u.part p).leaves = y.leaves ++ [(i, .ofWords v)] ∧ u.cores = s.cores
        ∧ ((∀ x ∈ y.stored, x.1 ≠ i) → u.home.mem = s.home.mem))
      ∧ (s.leaseOk p (i / 16) (i % 16) (.ofWords v) = true → ∃ u, exec (.tableChange p 2 i v) s = .next u
        ∧ ((look (u.part p).sets (i / 16)).getD [])[i % 16]? = some (.ofWords v) ∧ u.cores = s.cores ∧ u.home = s.home)
      ∧ (∀ r, y.getRec i = some r → y.recOk r (r.written v) = true → ∃ u, exec (.tableChange p 8 i v) s = .next u
        ∧ (u.part p).getRec i = some (r.written v) ∧ (∀ j, j ≠ i → (u.part p).getRec j = y.getRec j) ∧ u.cores = s.cores
        ∧ u.home = s.home)
      ∧ (∀ n, i < 320 → (s.coreAt i).holds p = true → 24 ≤ n → n ≤ 40 → v = [BitVec.ofNat 64 (2 ^ n)] →
          ∃ u, exec (.tableChange p 3 i v) s = .next u ∧ OnlyAt s u i
          ∧ (u.coreAt i).ctx.pipe = { (s.coreAt i).ctx.pipe with hanglim := 2 ^ n }))
    ∧ (∀ n, n < 4096 → s.fab.reqs = [] → (∀ c, (s.coreAt c).run = .idle) → ∃ u, exec (.podBind n []) s = .next u
      ∧ u.fab.pod = n ∧ u.cores = s.cores ∧ u.home = s.home)
    ∧ ∀ r, y.bound = true → s.serving = true →
      (s.launchStatus p r ≠ 0 → ∃ u, exec (.launch p r) s = .next u ∧ u.parts = s.parts ∧ u.cores = s.cores ∧ u.home = s.home
        ∧ u.dev = { s.dev with answers := s.dev.answers ++ [(p, s.launchStatus p r)] })
      ∧ (s.launchStatus p r = 0 → s.launchFree p r = true → (∀ o ∈ reqObjs r, s.objOk p o = true) →
          ((reqObjs r).flatMap fun o => o.frames).Nodup →
          ∃ u, exec (.launch p r) s = .next u ∧ u.dev.answers = s.dev.answers ++ [(p, 0)]
          ∧ (u.part p).launches.length = y.launches.length + 1
          ∧ ∀ t ∈ r.tasks, ∃ z, (u.part p).getRec t.num = some z ∧ z.entry = t.entry ∧ z.job = t.job
            ∧ z.lidx = (t.lidx.setWidth 55).setWidth 56
            ∧ z.args = (t.args ++ List.replicate 8 0).take 8 ∧ z.pending = t.pending % 2 ^ 32
            ∧ z.state = if !t.armed then .idle else if t.pending > 0 then .waiting
                else if t.frame.isSome then .timed else .queued)

/-- R28, R360 to R368: the boot and the services of Bamosh. Power good starts the boot at stage 1, and starts it anew with
every core, every home and every partition reset and the anti-rollback counters kept, on a device that had started (that is the
model's choice, log entry 100; that reset memory holds nothing is that of log entry 2); an image that passes extends its
measurement, stage 1 ends with that of KIND 1, and stage 3 with those of KIND 3 and 4; the fourth miss halts. Self-test clears the scratchpads; ENGMAP is written as the defect map
says; reduced service sets bit 1 of the status word and starts CYC, and full service sets bit 0 and clears bit 1. -/
def Obligations.DeviceSteps : Prop :=
  ∀ s : State,
    let d := s.dev
    (d.stage = 0 → ∃ u, exec .powerGood s = .next u ∧ u.dev.stage = 1 ∧ u.cores = s.cores ∧ u.home = s.home)
    ∧ (d.stage ≠ 0 → ∃ u, exec .powerGood s = .next u ∧ u.dev.stage = 1 ∧ u.dev.rollback = d.rollback
      ∧ u.cores = State.reset.cores ∧ u.home = State.reset.home ∧ u.parts = State.reset.parts)
    ∧ (∀ hdr body, d.halted = false → d.stage = 1 → look d.running 1 = none →
      let r := imageMiss 1 ((look d.rollback 1).getD 0) hdr body
      ∃ u, exec (.imageFetch 1 hdr body) s = .next u ∧ if r = 0 then
          u.dev.stage = 2 ∧ look u.dev.running 1 = some (hdrField hdr 8 4)
          ∧ (∀ m, d.meas.head? = some m → u.dev.meas.head? = some (Config.shake256 (bytes64 m ++ (hdr.drop 24).take 64)))
        else u.dev.missed = d.missed ++ [(1, r)] ∧ u.cores = s.cores
          ∧ (u.dev.halted = true ↔ 3 ≤ (d.missed.filter fun x => x.1 == 1).length))
    ∧ (∀ hdr body, d.halted = false → d.stage = 3 → look d.running 3 ≠ none → look d.running 4 = none →
      let r := imageMiss 4 ((look d.rollback 4).getD 0) hdr body
      ∃ u, exec (.imageFetch 4 hdr body) s = .next u ∧ u.cores = s.cores ∧ u.home = s.home ∧ if r = 0 then
          u.dev.stage = 4 ∧ look u.dev.running 4 = some (hdrField hdr 8 4)
        else u.dev.missed = d.missed ++ [(4, r)] ∧ (u.dev.halted = true ↔ 3 ≤ (d.missed.filter fun x => x.1 == 4).length))
    ∧ (∀ bad, d.halted = false → d.stage = 2 → d.tested = false → ∃ u, exec (.selfTest bad) s = .next u ∧ u.dev.tested = true
      ∧ u.dev.defects = d.defects ++ bad ∧ ∀ c, (u.coreAt c).spad = [] ∧ (u.coreAt c).lost = [])
    ∧ (∀ c, c < 320 → 4 ≤ d.stage → d.halted = false → (s.coreAt c).run = .idle → (s.coreAt c).spawnAt = none →
      ∃ u, exec (.engmapWrite c (s.engmapDue c)) s = .next u ∧ (u.coreAt c).engmap = s.engmapDue c
      ∧ (u.coreAt c).ctx = (s.coreAt c).ctx ∧ ∀ j, j ≠ c → u.coreAt j = s.coreAt j)
    ∧ (d.halted = false → d.stage = 4 → s.serving = false → (∀ c, c < 320 → (s.coreAt c).engmap = s.engmapDue c) → ∃ u, exec .reducedService s = .next u ∧ u.dev.stage = 4
      ∧ u.dev.status.getLsbD 1 = true ∧ u.cyc = 0 ∧ u.cores = s.cores)
    ∧ (∀ trained, d.halted = false → s.reduced = true → s.allEnded = true → ∃ u, exec (.fullService trained) s = .next u
      ∧ u.dev.stage = 5 ∧ u.dev.status.getLsbD 0 = true ∧ u.dev.status.getLsbD 1 = false ∧ u.cores = s.cores
      ∧ ∀ i, i < 12 → i ∈ trained → DevUnit.stack i ∉ d.defects → u.dev.status.getLsbD (4 + i) = true)
    ∧ (∀ kind v w sig, look d.running kind = some w → s.serving = true → (look d.rollback kind).getD 0 < v → v ≤ w →
        Completes (.antiRollbackRaise kind v sig) s
          (if Config.adminSigned kind v sig then { s with dev := { d with rollback := put d.rollback kind v } } else s))
    ∧ ∀ nonce, s.serving = true → nonce.length = 32 → ∃ u b, exec (.attestationReport none nonce) s = .next u
      ∧ b = nonce ++ bytesOf 16 Config.serial ++ (d.meas.take 8).flatMap bytes64 ++ List.replicate 64 0
          ++ (List.range 8).map (fun i => d.status.extractLsb' (8 * i) 8)
      ∧ u = { s with dev := { d with attests := d.attests ++ [b ++ bytesOf 114 (Config.identitySign b)] } }

/-- R122, R369 to R372, R376 to R384: errors, lost units and the fabric. An uncorrectable error loses its word or its line
and is recorded: a scratchpad word, a dirty line of a home slice, a line of HBM, of the weight store or of the second tier. A
clean line of an L1G or of a slice is refetched, which corrects it. An error of context state is an engine failure, cause 0x14
(R369). A corrected one changes no value; a failed engine resolves its tokens with kind 1 and is a terminal
cause of its context; a rewritten line holds the bytes it is given and is lost no more. A link whose eighth replay fails
retrains, and one out of service gives its requests another; a request with no route fails its access. A remote store
writes its bytes at the home's object and a remote load sends what it holds, and a load that has returned gives its
value. -/
def Obligations.ErrorAndFabricSteps : Prop :=
  ∀ s : State,
    (∀ c a p, c < 320 → a < 2 ^ 18 → ∃ u, exec (.uncorrectableError 1 c a p) s = .next u ∧ a ∈ (u.coreAt c).lost
      ∧ (u.coreAt c).spad = (s.coreAt c).spad ∧ (u.coreAt c).ctx = (s.coreAt c).ctx
      ∧ u.dev.errors.length = s.dev.errors.length + 1 ∧ ∀ j, j ≠ c → u.coreAt j = s.coreAt j)
    ∧ (∀ c a p, a / 2 ^ 45 = 0 → ∃ u, exec (.uncorrectableError 4 c a p) s = .next u ∧ a / 64 ∈ u.home.lost
      ∧ u.home.mem = s.home.mem ∧ u.dev.errors.length = s.dev.errors.length + 1 ∧ u.cores = s.cores)
    ∧ (let corrects : State := { s with dev := { s.dev with corrected := s.dev.corrected + 1 } }
      let loses := fun (u : State) (k a : Nat) => a / 64 ∈ u.home.lost ∧ a / 64 ∉ u.home.dirty ∧ u.home.mem = s.home.mem ∧ u.cores = s.cores
        ∧ ∃ w v, u.dev.errors = s.dev.errors ++ [w :: v] ∧ w.extractLsb' 0 4 = BitVec.ofNat 4 k ∧ w.getLsbD 4 = true
      (∀ c a p, c < 320 → ∃ u, exec (.uncorrectableError 2 c a p) s = .next u ∧ u.dev = corrects.dev ∧ u.home = s.home
        ∧ (u.coreAt c).ctx = (s.coreAt c).ctx ∧ (u.coreAt c).spad = (s.coreAt c).spad ∧ OnlyAt { s with dev := u.dev } u c
        ∧ ∀ j, (u.coreAt c).l1g[j]? = (s.coreAt c).l1g[if j < a then j else j + 1]?)
      ∧ (∀ c a p, (a / 64 ∉ s.home.dirty → Completes (.uncorrectableError 3 c a p) s corrects)
        ∧ (a / 64 ∈ s.home.dirty → s.home.dirty.Nodup → ∃ u, exec (.uncorrectableError 3 c a p) s = .next u ∧ loses u 3 a))
      ∧ (∀ c a p, a / 2 ^ 45 = 2 → s.home.dirty.Nodup → ∃ u, exec (.uncorrectableError 5 c a p) s = .next u ∧ loses u 5 a)
      ∧ (∀ c a p, a / 2 ^ 45 = 1 → s.home.dirty.Nodup → ∃ u, exec (.uncorrectableError 6 c a p) s = .next u ∧ loses u 6 a)
      ∧ ∀ c a p, c < 320 → (s.coreAt c).run = .running → ∃ u info w v, exec (.uncorrectableError 7 c a p) s = .next u
        ∧ (u.coreAt c).ctx.pipe = { (s.coreAt c).ctx.pipe with async := (s.coreAt c).ctx.pipe.async ++ [(0x14, info)] }
        ∧ (u.coreAt c).ctx.regs = (s.coreAt c).ctx.regs ∧ u.dev.errors = s.dev.errors ++ [w :: v]
        ∧ w.extractLsb' 0 4 = 7 ∧ u.home = s.home ∧ ∀ j, j ≠ c → u.coreAt j = s.coreAt j)
    ∧ (∀ k c a, Completes (.correctedError k c a) s { s with dev := { s.dev with corrected := s.dev.corrected + 1 } })
    ∧ (∀ c u i (op : Op), c < 320 → (u, i) ∈ [(2, (2 : BitVec 3)), (3, 3), (4, 0), (5, 1)] → s.physCore c u ∉ s.dev.defects →
      (s.coreAt c).ctx.ops = [op] → op.inst = i → (s.coreAt c).run = .running → ∃ t info, exec (.engineFailure c u) s = .next t
        ∧ ((t.coreAt c).ctx.toks.get op.tok).pending = false ∧ ((t.coreAt c).ctx.toks.get op.tok).err = 1
        ∧ (t.coreAt c).ctx.ops = [] ∧ (t.coreAt c).ctx.pipe.async = (s.coreAt c).ctx.pipe.async ++ [(0x14, info)]
        ∧ t.dev.defects = s.dev.defects ++ [s.physCore c u])
    ∧ (∀ l v, l ∈ s.home.lost → l < 2 ^ 80 → v.length = 64 → s.home.mem.wf = true → s.home.bank.wf = true →
      ∃ u, exec (.lostLineRepair l v) s = .next u ∧ u.home.lost = s.home.lost.erase l ∧ u.cores = s.cores
      ∧ (∀ j b, v[j]? = some b → u.home.mem.read (l * 64 + j) = b ∧ u.home.bank.read (l * 64 + j) = b)
      ∧ ∀ a, a < l * 64 ∨ l * 64 + 64 ≤ a → u.home.mem.read a = s.home.mem.read a)
    ∧ (∀ (l : Nat) (x : Link), s.fab.links[l]? = some x → x.up = true →
      (x.training = false →
        (∃ u, exec (.flitReplay l true) s = .next u ∧ u.fab.links[l]? = some { x with fails := 0 } ∧ u.cores = s.cores)
        ∧ ∃ u, exec (.flitReplay l false) s = .next u ∧ u.cores = s.cores ∧ u.fab.links[l]? = some
            (if x.fails = 7 then { x with fails := 0, training := true } else { x with fails := x.fails + 1 }))
      ∧ (∃ u, exec (.linkRetrained l) s = .next u ∧ u.fab.links[l]? = some { x with training := false } ∧ u.cores = s.cores)
      ∧ (x.training = true → ∃ u, exec (.linkOutOfService l) s = .next u ∧ u.cores = s.cores
        ∧ u.fab.links[l]? = some { x with up := false, training := false }
        ∧ ∀ r ∈ u.fab.reqs, (∃ (j : Nat) (y : Link), u.fab.links[j]? = some y ∧ y.up = true) → r.link ≠ l))
    ∧ (∀ (k : Nat) (r : Remote), s.fab.reqs[k]? = some r → r.core < 320 → r.op = none → r.acc.uid = (s.coreAt r.core).ctx.task.uid →
      ∃ u info, exec (.requestAbandoned k) s = .next u ∧ u.fab.reqs.length + 1 = s.fab.reqs.length ∧ u.home = s.home
      ∧ (u.coreAt r.core).ctx.pipe.async = (s.coreAt r.core).ctx.pipe.async ++ [(0x13, info)]
      ∧ (u.coreAt r.core).ctx.regs = (s.coreAt r.core).ctx.regs)
    ∧ (∀ (k : Nat) (r : Remote) (e : Export) (i : Item), s.fab.reqs[k]? = some r → r.done = false → s.carries r.link = true → r.op = none →
      r.core < 320 → r.acc.uid = (s.coreAt r.core).ctx.task.uid → (s.coreAt r.core).ctx.sys.record = false →
      (s.coreAt r.core).ctx.sys.replay = false → s.exportAt r.acc.via.part r.acc.via.obj r.pkg r.robj = some e →
      s.groupAt e = none → e.check (s.exportHeld e r.acc.off r.acc.len) r.acc.off r.acc.len = none → r.acc.items = [i] → i.width ≤ 8 → e.mem.wf = true →
      (r.acc.kind = .load → ∃ u, exec (.remotePerform k []) s = .next u ∧ u.fab.exports = s.fab.exports ∧ u.cores = s.cores
        ∧ u.fab.reqs[k]? = some { r with done := true, value := [(i.lane, BitVec.ofNat 64 (e.mem.readLE i.off i.width))] })
      ∧ (r.acc.kind = .store → ∃ u z, exec (.remotePerform k []) s = .next u ∧ u.home = s.home
        ∧ u.exportAt r.acc.via.part r.acc.via.obj r.pkg r.robj = some z
        ∧ (∀ j, j < i.width → z.mem.read (i.off + j) = i.data.extractLsb' (8 * j) 8)
        ∧ (∀ a, a < i.off ∨ i.off + i.width ≤ a → z.mem.read a = e.mem.read a)
        ∧ u.fab.reqs[k]? = some { r with done := true, value := [] }))
    ∧ (∀ (k : Nat) (r : Remote), s.fab.reqs[k]? = some r → r.done = true → s.carries r.link = true → r.op = none → r.err = 0 →
      r.core < 320 → r.acc.kind = .load → r.acc.uid = (s.coreAt r.core).ctx.task.uid →
      ∃ u, exec (.remoteComplete k) s = .next u ∧ u.fab.reqs.length + 1 = s.fab.reqs.length ∧ u.home = s.home
      ∧ (u.coreAt r.core).ctx.pipe.waits = (s.coreAt r.core).ctx.pipe.waits.map fun w =>
        if w.id = r.acc.wait.getD 0 then { w with got := w.got ++ r.value, need := w.need - 1 } else w)
    ∧ ∀ g : GroupDecl, g.part < 12 → g.plane < 18 → g.size % 64 = 0 → g.members.length ≤ 4096 → g.members.Nodup →
      g.fmt ≤ 2 → (s.fab.pod ∈ g.members → ∃ o, (s.part g.part).obj g.target = some o ∧ o.typ = 0) →
      (∀ x ∈ s.fab.groups, x.id ≠ g.id) → Completes (.reduceGroupRegister g) s
        { s with fab := { s.fab with groups := s.fab.groups ++ [g] } }

/-! ## A step of the machine (R15, R46, R116, R117, R206) -/

namespace Sys2Proof.Claims

open Sys2Proof Sys2Proof.Machine

/-- The state in which core `c` tries its bundle at `s`: it is the current core and has taken its step of the cycle, every
due result has landed (R9), the cycle of the try stands, and the results of the shadow buffer count from now (R213). -/
def atTry (s : State) (c : Nat) : State :=
  let t : State := { s.focus c with slot := 0, ord := 0, adv := 0 }
  let t := t.modCore fun k => { k with issued := true, ctx := { k.ctx with
    pipe := { k.ctx.pipe with trapped := false, park := .none } } }
  ((t.modCore fun k => k.landDue).modPipe fun p => { p with tried := s.cyc }).modCore fun k => k.unshelve.landDue

/-- Nothing that falls on the bundle boundary of core `c` is pending (R206), and no power limit or serial order holds it. -/
def BoundaryClear (s : State) (c : Nat) : Prop :=
  let p := (s.coreAt c).ctx.pipe
  c < 320 ∧ (s.coreAt c).run = .running ∧ (s.coreAt c).issued = false ∧ (s.coreAt c).inserted = false ∧ p.async = [] ∧ p.stopReq = none ∧ p.retiring = false
  ∧ p.svc = none ∧ p.drain = none ∧ p.safeReq = none ∧ (s.coreAt c).ctx.task.revoked = false
  ∧ (s.part (s.coreAt c).pid).power = 0 ∧ (atTry s c).mayIssue = true

/-- The slots of a bundle in the order in which they act, by the meanings of their instructions. -/
def execAll (l : List Placed) (s : State) : State :=
  l.foldl (fun s x => match exec x.instr { s with slot := x.slot, ord := x.ord } with
    | .next t => t
    | _ => s) s

/-- Handled cause `code` is taken at core `c`, which resumes at `pc` (R207). -/
def TrapTaken (s t : State) (c : Nat) (code : Byte) (info : DWord) (pc : BitVec 48) : Prop :=
  let y := (s.coreAt c).ctx.sys
  let z := (t.coreAt c).ctx
  z.pc = y.trapvec.extractLsb' 0 48 ∧ z.sys.trapcause = code.setWidth 64 ∧ z.sys.trappc = pc.setWidth 64
  ∧ z.sys.trapinfo = info ∧ z.sys.priv = true ∧ (t.coreAt c).run = .running

end Sys2Proof.Claims

/-- R15, R46, R116, R117: a step runs the decoded bundle. Where no script stands and no internal step is taken unasked, the
step is that of the lowest core that has not taken its step of the cycle; where nothing falls on the bundle boundary, its
bundle decodes, and no slot stalls, parks, traps or waits for log room, every slot acts by its own meaning, in slot order, on
the values that the bundle found, ROUNDCTL's write, TRAP and RETIRE last, and the context goes on at the next bundle,
unless a slot changed that. Of a bundle that the core's missing instances split (R30), the second half acts in the inserted
cycle. -/
def Obligations.StepRunsBundle : Prop :=
  ∀ (s : State) (c : Nat) (ws : List Word) (l : List (Nat × Instr)),
    let r := atTry s c
    let env := (s.coreAt c).ctx.sys.env
    let b := r.modCtx fun x => { x with npc := x.pc + BitVec.ofNat 48 (4 * ws.length) }
    let pl := placed ws l
    let is := pl.map fun x => x.instr
    BoundaryClear s c → r.fetch = ⟨ws, none, false⟩ → decodeBundle env ws = .ok l → (∀ x ∈ l, isStep x.2 = false) →
    is.any b.spawnWaits = false → (is.any fun i => b.slotStalls env i) = false →
    is.any (b.acquireHolds env) = false → b.noRoom is = false →
    (∀ i ∈ is, b.slotTokErr env i = none) →
    (∀ x ∈ pl, x.last = false → (b.alone x).core.ctx.pipe.trapped = false ∧ (b.alone x).core.ctx.pipe.park = .none) →
    (Instr.retire ∈ is → b.retireWaits b.core = false) →
      let order := pl.filter (fun x => !x.last && !x.setsRound) ++ (pl.filter Placed.setsRound ++ pl.filter Placed.last)
      let from0 : State := { (b.countIssue pl ws).modPipe fun p => { p with
        split := b.core.splits pl ws, stalled := false, logHeld := false, park := .none, safeDone := true } with
          pre := some b.core, adv := 0 }
      let done := if b.core.splits pl ws then order.foldl (State.splitStep ws) from0 else execAll order from0
      let t := done.bundleEnd
      exec (.issue c) s = .next t
      ∧ (s.script = [] → s.eager = false → s.nextCore = some c → step s = .next t)
      ∧ (done.core.ctx.pipe.retiring = false → t.core.ctx.pc = done.core.ctx.npc)

/-- R15, R25, R53, R206, R207, R209, R212: what falls on a bundle boundary, in order: a pending asynchronous terminal cause
ends the task, a quick stop shelves the results under way, and then a bundle whose PC is misaligned, whose words pass the end
of the code object or do not decode takes its handled trap, where the context is unprivileged with a handler, with TRAPPC
at that bundle; none of its slots acts. A bundle whose check an atomic's tag change has met issues first (R241). -/
def Obligations.BoundaryCauses : Prop :=
  ∀ (s : State) (c : Nat),
    let k := s.coreAt c
    let y := k.ctx.sys
    (c < 320 → k.run = .running → k.issued = false → k.inserted = false → k.ctx.pipe.accepted = false →
      (∀ code info rest, k.ctx.pipe.async = (code, info) :: rest → ∃ u w, exec (.issue c) s = .next u
        ∧ (u.coreAt c).run = .ending code w ∧ (u.coreAt c).ctx.regs = k.ctx.regs ∧ u.home = s.home)
      ∧ (∀ w, k.ctx.pipe.async = [] → k.ctx.pipe.stopReq = some w → ∃ u, exec (.issue c) s = .next u
        ∧ (u.coreAt c).run = .stopped w none ∧ (u.coreAt c).ctx.regs = k.ctx.regs ∧ (u.coreAt c).ctx.pc = k.ctx.pc
        ∧ (u.coreAt c).ctx.pipe.shadow = k.ctx.pipe.shadow ++ (k.ctx.pipe.inflight.filter fun r => !r.mark).map
          (fun r => { r with due := r.due - k.lcyc }) ∧ u.home = s.home))
    ∧ (BoundaryClear s c → y.priv = false → y.trapvec.getLsbD 48 = true →
      (k.ctx.pc.extractLsb' 0 2 ≠ 0 → ∃ u, exec (.issue c) s = .next u
        ∧ TrapTaken s u c 0x02 (trapInfo26 0 14 none 0 0) k.ctx.pc ∧ u.home = s.home)
      ∧ (k.ctx.pc.extractLsb' 0 2 = 0 → k.ctx.code.len < k.ctx.pc.toNat + 4 → ∃ u, exec (.issue c) s = .next u
        ∧ TrapTaken s u c 0x03 (memInfo 0 0 0 1 k.ctx.pc.toNat) k.ctx.pc ∧ u.home = s.home)
      ∧ ∀ ws e, (atTry s c).fetch = ⟨ws, none, false⟩ → decodeBundle y.env ws = .error e → ∃ u, exec (.issue c) s = .next u
        ∧ TrapTaken s u c (if e.bundle then 0x02 else 0x01) e.info k.ctx.pc ∧ u.home = s.home)

/-! ## Invariants -/

namespace Sys2Proof.Claims

open Sys2Proof Sys2Proof.Machine

/-- A record's saved scratchpad is in canonical form. -/
def RecCanonical (r : Rec) : Prop := ∀ v, r.saved = some v → v.spad.wf = true

/-- Every memory of the machine is in canonical form: the homes and their bank image, each scratchpad, on a core or saved (of a SPAWN child too),
each launch's copies, here and on other packages, the frames of objects that stand in storage, and the homes of each export. -/
def Canonical (s : State) : Prop :=
  s.home.mem.wf = true ∧ s.home.bank.wf = true ∧ (∀ c, (s.coreAt c).spad.wf = true)
  ∧ (∀ p, ∀ r ∈ (s.part p).recs, RecCanonical r.2)
  ∧ (∀ p, ∀ l ∈ (s.part p).launches, (∀ x ∈ l.copy, x.2.2.wf = true) ∧ (∀ x ∈ l.far, x.2.2.2.wf = true) ∧ ∀ r ∈ l.start, RecCanonical r.2)
  ∧ (∀ p, ∀ v ∈ (s.part p).kids, v.spad.wf = true)
  ∧ (∀ p, ∀ x ∈ (s.part p).stored, x.2.2.wf = true)
  ∧ ∀ e ∈ s.fab.exports, e.mem.wf = true

end Sys2Proof.Claims

/-- Every step keeps the canonical form of every memory, so that equal memories are equal data: addresses rise strictly, and
no listed byte is what an unlisted byte reads as. -/
def Obligations.StepKeepsCanonical : Prop := ∀ s t : State, Canonical s → step s = .next t → Canonical t

/-- The canonical form holds at reset. -/
def Obligations.ResetCanonical : Prop := Canonical State.reset

/-- No meaning stops the machine: every instruction answers a next state in every state, and a step fails to only on a
device that has halted, with nothing scheduled (R360, R373). -/
def Obligations.NeverStops : Prop :=
  (∀ (i : Instr) (s : State), ∃ t, exec i s = .next t)
  ∧ ∀ s : State, (∃ t, step s = .next t) ∨ (step s = .fault .halted ∧ s.dev.halted = true ∧ s.script = [])
end

