-- ==== Sys2Proof/Laws/Encoding.lean ====
section
/-! SUPPORT. Encoding: the fields of an encoded slot read back, and what the decoder makes of the words of an encoding. -/

namespace Sys2Proof

/-! ## Fields of an append -/

theorem extract_low {m n : Nat} (x : BitVec m) (y : BitVec n) {s l : Nat} (h : s + l ≤ n) :
    (x ++ y).extractLsb' s l = y.extractLsb' s l := BitVec.extractLsb'_append_eq_of_add_le h

theorem extract_high {m n : Nat} (x : BitVec m) (y : BitVec n) {s l : Nat} (h : n ≤ s) :
    (x ++ y).extractLsb' s l = x.extractLsb' (s - n) l := BitVec.extractLsb'_append_eq_of_le h

theorem extract_all {n : Nat} (x : BitVec n) : x.extractLsb' 0 n = x := by simp

/-! ## The slot word -/

/-- The word of a slot as one append. -/
theorem Slot.toWord_eq (s : Slot) : s.toWord =
    (BitVec.ofBool s.e ++ (s.cls ++ (s.op ++ (s.d ++ (s.a ++ (s.b ++ s.q)))))
      : BitVec (1 + (3 + (7 + (6 + (6 + (6 + 3))))))) := rfl

/-- R14: the fields of a slot's word are the slot's. -/
theorem Slot.ofWord_toWord (s : Slot) : Slot.ofWord s.toWord = s := by
  obtain ⟨e, cls, op, d, a, b, q⟩ := s
  unfold Slot.ofWord
  simp only [Slot.toWord_eq]
  congr 1
  · show (BitVec.ofBool e ++ (cls ++ (op ++ (d ++ (a ++ (b ++ q))))) : BitVec (1 + 31)).msb = e
    rw [BitVec.msb_append, if_neg (by decide), BitVec.msb_ofBool]
  · rw [extract_low _ _ (by omega), extract_high _ _ (by omega)]; exact extract_all cls
  · rw [extract_low _ _ (by omega), extract_low _ _ (by omega), extract_high _ _ (by omega)]; exact extract_all op
  · rw [extract_low _ _ (by omega), extract_low _ _ (by omega), extract_low _ _ (by omega), extract_high _ _ (by omega)]
    exact extract_all d
  · rw [extract_low _ _ (by omega), extract_low _ _ (by omega), extract_low _ _ (by omega), extract_low _ _ (by omega),
      extract_high _ _ (by omega)]
    exact extract_all a
  · rw [extract_low _ _ (by omega), extract_low _ _ (by omega), extract_low _ _ (by omega), extract_low _ _ (by omega),
      extract_low _ _ (by omega), extract_high _ _ (by omega)]
    exact extract_all b
  · rw [extract_low _ _ (by omega), extract_low _ _ (by omega), extract_low _ _ (by omega), extract_low _ _ (by omega),
      extract_low _ _ (by omega), extract_low _ _ (by omega)]
    exact extract_all q

/-! ## Extension words -/

@[simp] theorem isExt_immWord (x : BitVec 26) : isExt (immWord x) = true := by
  have : (immWord x).extractLsb' 28 3 = 6 := by
    show ((0x18 : BitVec 6) ++ x).extractLsb' 28 3 = 6
    rw [extract_high _ _ (by omega)]; decide
  simp [isExt, this]

@[simp] theorem extKind_immWord (x : BitVec 26) : extKind (immWord x) = 0 := by
  have : (immWord x).extractLsb' 26 2 = 0 := by
    show ((0x18 : BitVec 6) ++ x).extractLsb' 26 2 = 0
    rw [extract_high _ _ (by omega)]; decide
  simp [extKind, this]

@[simp] theorem payload_immWord (x : BitVec 26) : (immWord x).setWidth 26 = x := by
  show ((0x18 : BitVec 6) ++ x).setWidth 26 = x
  apply BitVec.eq_of_getLsbD_eq
  intro i hi
  simp only [BitVec.getLsbD_setWidth, BitVec.getLsbD_append, hi, decide_true, Bool.true_and]
  rfl

/-- The payload of a token list. -/
def tokPayload (l : List Tok) : BitVec 26 :=
  (BitVec.ofNat 2 l.length ++ (l.getD 0 0 ++ (l.getD 1 0 ++ (l.getD 2 0 ++ (0 : BitVec 9)))) : BitVec (2 + (5 + (5 + (5 + 9)))))

@[simp] theorem isExt_tokWord (l : List Tok) : isExt (tokWord l) = true := by
  have : (tokWord l).extractLsb' 28 3 = 6 := by
    show ((0x19 : BitVec 6) ++ tokPayload l).extractLsb' 28 3 = 6
    rw [extract_high _ _ (by omega)]; decide
  simp [isExt, this]

@[simp] theorem extKind_tokWord (l : List Tok) : extKind (tokWord l) = 1 := by
  have : (tokWord l).extractLsb' 26 2 = 1 := by
    show ((0x19 : BitVec 6) ++ tokPayload l).extractLsb' 26 2 = 1
    rw [extract_high _ _ (by omega)]; decide
  simp [extKind, this]

@[simp] theorem payload_tokWord (l : List Tok) : (tokWord l).setWidth 26 = tokPayload l := by
  show ((0x19 : BitVec 6) ++ tokPayload l).setWidth 26 = tokPayload l
  apply BitVec.eq_of_getLsbD_eq
  intro i hi
  simp only [BitVec.getLsbD_setWidth, BitVec.getLsbD_append, hi, decide_true, Bool.true_and]
  rfl

theorem tokPayload_count (l : List Tok) : (tokPayload l).extractLsb' 24 2 = BitVec.ofNat 2 l.length := by
  unfold tokPayload
  rw [extract_high _ _ (by omega)]; exact extract_all _

theorem tokPayload_first (l : List Tok) : (tokPayload l).extractLsb' 19 5 = l.getD 0 0 := by
  unfold tokPayload
  rw [extract_low _ _ (by omega), extract_high _ _ (by omega)]; exact extract_all _

theorem tokPayload_second (l : List Tok) : (tokPayload l).extractLsb' 14 5 = l.getD 1 0 := by
  unfold tokPayload
  rw [extract_low _ _ (by omega), extract_low _ _ (by omega), extract_high _ _ (by omega)]; exact extract_all _

theorem tokPayload_third (l : List Tok) : (tokPayload l).extractLsb' 9 5 = l.getD 2 0 := by
  unfold tokPayload
  rw [extract_low _ _ (by omega), extract_low _ _ (by omega), extract_low _ _ (by omega), extract_high _ _ (by omega)]
  exact extract_all _

theorem tokPayload_rest (l : List Tok) : (tokPayload l).extractLsb' 0 9 = 0 := by
  unfold tokPayload
  rw [extract_low _ _ (by omega), extract_low _ _ (by omega), extract_low _ _ (by omega), extract_low _ _ (by omega)]
  decide

/-- R22: a token list of an encoding reads back. -/
theorem tokList_tokPayload {l : List Tok} (h : Wf.toks l = true) : tokList (tokPayload l) = l := by
  unfold tokList
  rw [tokPayload_count, tokPayload_first, tokPayload_second, tokPayload_third]
  unfold Wf.toks at h
  simp only [Bool.and_eq_true, decide_eq_true_eq] at h
  obtain ⟨hl, hn⟩ := h
  match l, hl, hn with
  | [], _, _ => rfl
  | [x], _, _ => simp [List.eraseDups, List.eraseDupsBy, List.eraseDupsBy.loop]
  | [x, y], _, hn =>
    simp only [List.nodup_cons, List.mem_singleton, List.not_mem_nil, not_false_eq_true, List.nodup_nil, and_true] at hn
    have h1 : (y == x) = false := beq_eq_false_iff_ne.mpr (Ne.symm hn)
    simp [List.eraseDups, List.eraseDupsBy, List.eraseDupsBy.loop, h1]
  | [x, y, z], _, hn =>
    simp only [List.nodup_cons, List.mem_cons, List.not_mem_nil, not_false_eq_true, List.nodup_nil, and_true, not_or,
      or_false] at hn
    have h1 : (y == x) = false := beq_eq_false_iff_ne.mpr (Ne.symm hn.1.1)
    have h2 : (z == x) = false := beq_eq_false_iff_ne.mpr (Ne.symm hn.1.2)
    have h3 : (z == y) = false := beq_eq_false_iff_ne.mpr (Ne.symm hn.2)
    simp [List.eraseDups, List.eraseDupsBy, List.eraseDupsBy.loop, h1, h2, h3]

/-- R22: a token list of an encoding has no bit outside its count. -/
theorem badTokList_tokPayload {l : List Tok} (h : Wf.toks l = true) : badTokList (tokPayload l) = false := by
  unfold badTokList
  rw [tokPayload_rest, tokPayload_count, tokPayload_first, tokPayload_second, tokPayload_third]
  unfold Wf.toks at h
  simp only [Bool.and_eq_true, decide_eq_true_eq] at h
  match l, h.1 with
  | [], _ => decide
  | [x], _ => simp
  | [x, y], _ => simp
  | [x, y, z], _ => simp

/-! ## The words of an encoding -/

/-- The extension words of an encoding. -/
def Enc.exts (e : Enc) : List Word :=
  (match e.imm with | none => [] | some x => [immWord x]) ++ (if e.toks.isEmpty then [] else [tokWord e.toks])

theorem Enc.exts_isExt (e : Enc) : e.exts.takeWhile isExt = e.exts := by
  unfold exts
  cases e.imm <;> by_cases h : e.toks.isEmpty <;> simp [h]

/-- The extensions read back. -/
theorem Enc.ofWords_exts {e : Enc} (h : Wf.toks e.toks = true) : Ext.ofWords e.exts = ⟨e.imm, e.toks⟩ := by
  unfold exts Ext.ofWords
  cases hi : e.imm <;> by_cases ht : e.toks.isEmpty <;>
    simp [ht, tokList_tokPayload h] <;> simpa [List.isEmpty_iff] using ht

/-- No extension word of an encoding is refused where the form takes it. -/
theorem Enc.exts_ok {e : Enc} (h : Wf.toks e.toks = true) (hi : e.imm.isSome → immAllowed e.slot.cls.toNat e.slot.op.toNat = true)
    (ht : e.toks ≠ [] → toksAllowed e.slot.cls.toNat = true) :
    extFaults e.slot.cls.toNat e.slot.op.toNat 1 [] e.exts = none := by
  unfold exts
  cases hm : e.imm with
  | none =>
    by_cases hl : e.toks.isEmpty
    · simp [hl, extFaults]
    · have := ht (by simpa [List.isEmpty_iff] using hl)
      simp [hl, extFaults, extFault, badTokList_tokPayload h, this]
  | some x =>
    have := hi (by simp [hm])
    by_cases hl : e.toks.isEmpty
    · simp [hl, extFaults, extFault, this]
    · have h2 := ht (by simpa [List.isEmpty_iff] using hl)
      simp [hl, extFaults, extFault, badTokList_tokPayload h, this, h2]

/-- Decoding the words of an encoding decodes its slot with its extensions. -/
theorem decodeWords_words {env : Env} {e : Enc} {i : Instr} (hc : e.slot.cls ≠ 6) (h : Wf.toks e.toks = true)
    (hi : e.imm.isSome → immAllowed e.slot.cls.toNat e.slot.op.toNat = true)
    (ht : e.toks ≠ [] → toksAllowed e.slot.cls.toNat = true) (hd : decodeSlot env e.slot ⟨e.imm, e.toks⟩ = .ok i) :
    decodeWords env e.words = .ok i := by
  have hw : e.words = e.slot.toWord :: e.exts := rfl
  rw [hw]
  unfold decodeWords
  simp only [Slot.ofWord_toWord, if_neg hc, Enc.exts_isExt, Enc.ofWords_exts h, hd, Enc.exts_ok h hi ht]

/-! ## Small fields -/

/-- A field narrowed to its file never exceeds it (R18). -/
theorem hi_setWidth {k : Nat} (x : BitVec k) (hk : k ≤ 6) (n : Nat) (hn : k ≤ n) : hi (x.setWidth 6) n = false := by
  have h1 : (2 : Nat) ^ k ≤ 2 ^ n := Nat.pow_le_pow_right (by omega) hn
  have h2 : (2 : Nat) ^ k ≤ 2 ^ 6 := Nat.pow_le_pow_right (by omega) hk
  have := x.isLt
  unfold hi
  simp only [BitVec.toNat_setWidth, ge_iff_le, decide_eq_false_iff_not, Nat.not_le]
  rw [Nat.mod_eq_of_lt (by omega)]; omega

/-- A vector is its high part above its low part. -/
theorem join_parts {m n : Nat} (v : BitVec (m + n)) : v.extractLsb' n m ++ v.extractLsb' 0 n = v := by
  apply BitVec.eq_of_getLsbD_eq
  intro i hi
  rw [BitVec.getLsbD_append]
  split
  · next h => simp [h]
  · next h => simp [show i - n < m by omega, show n + (i - n) = i by omega]

theorem join_5_3 (v : BitVec 8) : (v.extractLsb' 3 5 ++ v.extractLsb' 0 3 : BitVec 8) = v := join_parts (m := 5) (n := 3) v
theorem join_6_3 (v : BitVec 9) : (v.extractLsb' 3 6 ++ v.extractLsb' 0 3 : BitVec 9) = v := join_parts (m := 6) (n := 3) v
theorem join_6_6 (v : BitVec 12) : (v.extractLsb' 6 6 ++ v.extractLsb' 0 6 : BitVec 12) = v := join_parts (m := 6) (n := 6) v
theorem join_3_3 (v : BitVec 6) : (v.extractLsb' 3 3 ++ v.extractLsb' 0 3 : BitVec 6) = v := join_parts (m := 3) (n := 3) v

theorem low_of_wide3 (z : BitVec 3) : (z.setWidth 6).extractLsb' 0 3 = z := by revert z; decide
theorem low_of_wide5 (z : BitVec 5) : (z.setWidth 6).extractLsb' 0 5 = z := by revert z; decide
theorem wide3_lt (z : BitVec 3) : ¬ 8 ≤ (z.setWidth 6).toNat := by revert z; decide
theorem wide5_bit (z : BitVec 5) : (z.setWidth 6).getLsbD 5 = false := by revert z; decide
theorem wide4_eq_zero (z : BitVec 4) : (z.setWidth 6 = 0) = (z = 0) := by revert z; decide
theorem wide2 (z : BitVec 2) : (z.setWidth 6).setWidth 2 = z := by revert z; decide
theorem wide2_lt (z : BitVec 2) : (3 ≤ (z.setWidth 6).toNat) = (z = 3) := by revert z; decide

theorem split_3_3_high (x y : BitVec 3) : (x ++ y : BitVec 6).extractLsb' 3 3 = x := by revert x y; decide
theorem split_3_3_low (x y : BitVec 3) : (x ++ y : BitVec 6).extractLsb' 0 3 = y := by revert x y; decide
theorem split_0_3_2_mid (p : BitVec 3) (w : BitVec 2) : ((0 : BitVec 1) ++ (p ++ w) : BitVec 6).extractLsb' 2 3 = p := by
  revert p w; decide
theorem split_0_3_2_low (p : BitVec 3) (w : BitVec 2) : ((0 : BitVec 1) ++ (p ++ w) : BitVec 6).extractLsb' 0 2 = w := by
  revert p w; decide
theorem split_0_3_2_bit (p : BitVec 3) (w : BitVec 2) : ((0 : BitVec 1) ++ (p ++ w) : BitVec 6).getLsbD 5 = false := by
  revert p w; decide
theorem split_b_3_2_mid (x : Bool) (p : BitVec 3) (w : BitVec 2) : (bit x ++ (p ++ w) : BitVec 6).extractLsb' 2 3 = p := by
  revert x p w; decide
theorem split_b_3_2_low (x : Bool) (p : BitVec 3) (w : BitVec 2) : (bit x ++ (p ++ w) : BitVec 6).extractLsb' 0 2 = w := by
  revert x p w; decide
theorem split_b_3_2_bit (x : Bool) (p : BitVec 3) (w : BitVec 2) : (bit x ++ (p ++ w) : BitVec 6).getLsbD 5 = x := by
  revert x p w; decide
theorem split_2_2_high (o t : BitVec 2) : ((0 : BitVec 2) ++ (o ++ t) : BitVec 6).extractLsb' 4 2 = 0 := by revert o t; decide
theorem split_2_2_mid (o t : BitVec 2) : ((0 : BitVec 2) ++ (o ++ t) : BitVec 6).extractLsb' 2 2 = o := by revert o t; decide
theorem split_2_2_low (o t : BitVec 2) : ((0 : BitVec 2) ++ (o ++ t) : BitVec 6).extractLsb' 0 2 = t := by revert o t; decide
theorem split_2_b_3_high (o : BitVec 2) (z : Bool) (q : BitVec 3) : (o ++ (bit z ++ q) : BitVec 6).extractLsb' 4 2 = o := by
  revert o z q; decide
theorem split_2_b_3_bit (o : BitVec 2) (z : Bool) (q : BitVec 3) : (o ++ (bit z ++ q) : BitVec 6).getLsbD 3 = z := by
  revert o z q; decide
theorem split_2_b_3_low (o : BitVec 2) (z : Bool) (q : BitVec 3) : (o ++ (bit z ++ q) : BitVec 6).extractLsb' 0 3 = q := by
  revert o z q; decide
theorem wide1_bit (x : Bool) : ((bit x).setWidth 6).getLsbD 0 = x := by revert x; decide
theorem wide1_lt (x : Bool) : ¬ 2 ≤ ((bit x).setWidth 6).toNat := by revert x; decide
theorem wide1_bit3 (x : Bool) : ((bit x).setWidth 3).getLsbD 0 = x := by revert x; decide
theorem wide1_lt3 (x : Bool) : ¬ 2 ≤ ((bit x).setWidth 3).toNat := by revert x; decide
theorem wide1_high3 (x : Bool) : ((bit x).setWidth 3).extractLsb' 1 2 = 0 := by revert x; decide
theorem bits3_0 (x y z : Bool) : (bit x ++ (bit y ++ bit z) : BitVec 3).getLsbD 0 = z := by revert x y z; decide
theorem bits3_1 (x y z : Bool) : (bit x ++ (bit y ++ bit z) : BitVec 3).getLsbD 1 = y := by revert x y z; decide
theorem bits3_2 (x y z : Bool) : (bit x ++ (bit y ++ bit z) : BitVec 3).getLsbD 2 = x := by revert x y z; decide
theorem bits3_one (z : Bool) : ¬ 2 ≤ (bit false ++ (bit false ++ bit z) : BitVec 3).toNat := by revert z; decide
theorem bits3_none : (bit false ++ (bit false ++ bit false) : BitVec 3) = 0 := by decide
theorem bits2_0 (y z : Bool) : ((0 : BitVec 1) ++ (bit y ++ bit z) : BitVec 3).getLsbD 0 = z := by revert y z; decide
theorem bits2_1 (y z : Bool) : ((0 : BitVec 1) ++ (bit y ++ bit z) : BitVec 3).getLsbD 1 = y := by revert y z; decide
theorem bits2_2 (y z : Bool) : ((0 : BitVec 1) ++ (bit y ++ bit z) : BitVec 3).getLsbD 2 = false := by revert y z; decide
theorem b_2_high (x : Bool) (m : BitVec 2) : (bit x ++ m : BitVec 3).getLsbD 2 = x := by revert x m; decide
theorem b_2_low (x : Bool) (m : BitVec 2) : (bit x ++ m : BitVec 3).extractLsb' 0 2 = m := by revert x m; decide
theorem two_b_low (m : BitVec 2) (x : Bool) : (m ++ bit x : BitVec 3).getLsbD 0 = x := by revert x m; decide
theorem two_b_high (m : BitVec 2) (x : Bool) : (m ++ bit x : BitVec 3).extractLsb' 1 2 = m := by revert x m; decide
theorem grp_bit (w : Bool) (m : BitVec 2) : (grp w m).getLsbD 2 = w := b_2_high w m
theorem grp_low (w : Bool) (m : BitVec 2) : (grp w m).extractLsb' 0 2 = m := b_2_low w m
theorem enc_bits4 (n : BitVec 4) : ((0 : BitVec 2) ++ n : BitVec 6).getLsbD 4 = false := by revert n; decide
theorem enc_bits5 (n : BitVec 4) : ((0 : BitVec 2) ++ n : BitVec 6).getLsbD 5 = false := by revert n; decide
theorem enc_low (n : BitVec 4) : ((0 : BitVec 2) ++ n : BitVec 6).setWidth 4 = n := by revert n; decide
theorem dec_bits4 (n : BitVec 4) : ((2 : BitVec 2) ++ n : BitVec 6).getLsbD 4 = false := by revert n; decide
theorem dec_bits5 (n : BitVec 4) : ((2 : BitVec 2) ++ n : BitVec 6).getLsbD 5 = true := by revert n; decide
theorem dec_low (n : BitVec 4) : ((2 : BitVec 2) ++ n : BitVec 6).setWidth 4 = n := by revert n; decide
theorem two_cases (t : BitVec 2) : t = 0 ∨ t = 1 ∨ t = 2 ∨ t = 3 := by revert t; decide

/-! ## Operand words -/

theorem XWord.of_toBits (w : XWord) : XWord.of w.toBits = w := by
  obtain ⟨n, cap, off⟩ := w
  unfold of toBits
  congr 1
  · rw [extract_high _ _ (by omega)]; exact extract_all n
  · rw [extract_low _ _ (by omega), extract_high _ _ (by omega)]; exact extract_all cap
  · rw [extract_low _ _ (by omega), extract_low _ _ (by omega)]; exact extract_all off

/-- The operand word of an atomic. -/
def AtWord.bits (w : AtWord) : BitVec 26 := (w.cap ++ (w.scope ++ ((0 : BitVec 3) ++ w.off)) : BitVec (4 + (3 + (3 + 16))))

theorem AtWord.of_bits (w : AtWord) : AtWord.of w.bits (bit w.wide ++ w.ord : BitVec 3) = w := by
  obtain ⟨ord, wide, off, scope, cap⟩ := w
  unfold of bits
  simp only
  congr 1
  · exact b_2_low wide ord
  · exact b_2_high wide ord
  · rw [extract_low _ _ (by omega), extract_low _ _ (by omega), extract_low _ _ (by omega)]; exact extract_all off
  · rw [extract_low _ _ (by omega), extract_high _ _ (by omega)]; exact extract_all scope
  · rw [extract_high _ _ (by omega)]; exact extract_all cap

theorem AtWord.bits_zero (w : AtWord) : w.bits.extractLsb' 16 3 = 0 := by
  unfold bits
  rw [extract_low _ _ (by omega), extract_low _ _ (by omega), extract_high _ _ (by omega)]; decide

theorem bit_eq (b : Bool) : (bit b).getLsbD 0 = b := by revert b; decide

theorem getLsbD_low {m n i : Nat} (x : BitVec m) (y : BitVec n) (h : i < n) : (x ++ y).getLsbD i = y.getLsbD i := by
  rw [BitVec.getLsbD_append, if_pos h]

theorem getLsbD_high {m n i : Nat} (x : BitVec m) (y : BitVec n) (h : n ≤ i) :
    (x ++ y).getLsbD i = x.getLsbD (i - n) := by
  rw [BitVec.getLsbD_append, if_neg (by omega)]

theorem MmaWord.of_toBits (w : MmaWord) : MmaWord.of w.toBits (w.bkind ++ bit w.avec : BitVec 3) = w := by
  obtain ⟨avec, bkind, zt, arr, nza, nzb, fresh, strict⟩ := w
  unfold of toBits
  simp only
  congr 1
  · exact two_b_low bkind avec
  · exact two_b_high bkind avec
  · rw [extract_low _ _ (by omega), extract_low _ _ (by omega), extract_low _ _ (by omega), extract_low _ _ (by omega),
      extract_low _ _ (by omega), extract_low _ _ (by omega)]
    exact extract_all zt
  · rw [getLsbD_low _ _ (by omega), getLsbD_low _ _ (by omega), getLsbD_low _ _ (by omega), getLsbD_low _ _ (by omega),
      getLsbD_low _ _ (by omega), getLsbD_high _ _ (by omega)]
    exact bit_eq arr
  · rw [extract_low _ _ (by omega), extract_low _ _ (by omega), extract_low _ _ (by omega), extract_low _ _ (by omega),
      extract_high _ _ (by omega)]
    exact extract_all nza
  · rw [extract_low _ _ (by omega), extract_low _ _ (by omega), extract_low _ _ (by omega), extract_high _ _ (by omega)]
    exact extract_all nzb
  · rw [getLsbD_low _ _ (by omega), getLsbD_low _ _ (by omega), getLsbD_high _ _ (by omega)]
    exact bit_eq fresh
  · rw [getLsbD_low _ _ (by omega), getLsbD_high _ _ (by omega)]
    exact bit_eq strict

theorem MmaWord.toBits_high (w : MmaWord) : w.toBits.extractLsb' 10 16 = 0 := by
  unfold toBits
  rw [extract_high _ _ (by omega)]; decide

theorem MmaWord.toBits_strict (w : MmaWord) : w.toBits.getLsbD 9 = w.strict := by
  unfold toBits
  rw [getLsbD_low _ _ (by omega), getLsbD_high _ _ (by omega)]
  exact bit_eq w.strict

theorem MstWord.of_toBits (w : MstWord) : MstWord.of w.toBits = w := by
  obtain ⟨out, resc, qs, zpe, qoff, bse, bsr⟩ := w
  unfold of toBits
  simp only
  congr 1
  · rw [extract_low _ _ (by omega), extract_low _ _ (by omega), extract_low _ _ (by omega), extract_low _ _ (by omega),
      extract_low _ _ (by omega), extract_low _ _ (by omega), extract_low _ _ (by omega)]
    exact extract_all out
  · rw [getLsbD_low _ _ (by omega), getLsbD_low _ _ (by omega), getLsbD_low _ _ (by omega), getLsbD_low _ _ (by omega),
      getLsbD_low _ _ (by omega), getLsbD_low _ _ (by omega), getLsbD_high _ _ (by omega)]
    exact bit_eq resc
  · rw [extract_low _ _ (by omega), extract_low _ _ (by omega), extract_low _ _ (by omega), extract_low _ _ (by omega),
      extract_low _ _ (by omega), extract_high _ _ (by omega)]
    exact extract_all qs
  · rw [getLsbD_low _ _ (by omega), getLsbD_low _ _ (by omega), getLsbD_low _ _ (by omega), getLsbD_low _ _ (by omega),
      getLsbD_high _ _ (by omega)]
    exact bit_eq zpe
  · rw [extract_low _ _ (by omega), extract_low _ _ (by omega), extract_low _ _ (by omega), extract_high _ _ (by omega)]
    exact extract_all qoff
  · rw [getLsbD_low _ _ (by omega), getLsbD_low _ _ (by omega), getLsbD_high _ _ (by omega)]
    exact bit_eq bse
  · rw [extract_low _ _ (by omega), extract_high _ _ (by omega)]; exact extract_all bsr

theorem MstWord.toBits_high (w : MstWord) : w.toBits.extractLsb' 18 8 = 0 := by
  unfold toBits
  rw [extract_high _ _ (by omega)]; decide

/-! ## Immediates (R21) -/

/-- A value of `w + 26` bits is its extension above its low `w` bits. -/
theorem ext_high_low {w : Nat} (v : BitVec (26 + w)) : (v.extractLsb' w 26 ++ v.extractLsb' 0 w) = v := by
  apply BitVec.eq_of_getLsbD_eq
  intro i hi
  rw [BitVec.getLsbD_append]
  split
  · next h => simp [h]
  · next h => simp [show i - w < 26 by omega, show w + (i - w) = i by omega]

theorem immBQ_extFor (v : BitVec 35) : immBQ (extFor 9 v) (v.extractLsb' 3 6) (v.extractLsb' 0 3) = v := by
  have hj : (v.extractLsb' 3 6 ++ v.extractLsb' 0 3 : BitVec 9) = v.extractLsb' 0 9 := by
    apply BitVec.eq_of_getLsbD_eq
    intro i hi
    rw [BitVec.getLsbD_append]
    split
    · next h => simp [h, hi]
    · next h => simp [hi, show i - 3 < 6 by omega, show 3 + (i - 3) = i by omega]
  unfold extFor immBQ
  split
  · next h => split at h <;> simp_all
  · next x h =>
    split at h
    · cases h
    · cases h; rw [hj]; exact ext_high_low (w := 9) v

theorem imm6_extFor (v : BitVec 32) : imm6 (extFor 6 v) (v.extractLsb' 0 6) = v := by
  unfold extFor imm6
  split
  · next h => split at h <;> simp_all
  · next x h =>
    split at h
    · cases h
    · cases h; exact ext_high_low (w := 6) v

theorem imm15_extFor (v : BitVec 41) :
    imm15 (extFor 15 v) (v.extractLsb' 9 6) (v.extractLsb' 3 6) (v.extractLsb' 0 3) = v := by
  have hj : (v.extractLsb' 9 6 ++ (v.extractLsb' 3 6 ++ v.extractLsb' 0 3) : BitVec 15) = v.extractLsb' 0 15 := by
    apply BitVec.eq_of_getLsbD_eq
    intro i hi
    show BitVec.getLsbD (v.extractLsb' 9 6 ++ (v.extractLsb' 3 6 ++ v.extractLsb' 0 3 : BitVec (6 + 3))) i = _
    rw [BitVec.getLsbD_append, BitVec.getLsbD_append]
    simp only [BitVec.getLsbD_extractLsb', hi, decide_true, Bool.true_and]
    split
    · next h =>
      split
      · next h' => simp [h']
      · next h' => simp [show i - 3 < 6 by omega, show 3 + (i - 3) = i by omega]
    · next h => simp [show i - 9 < 6 by omega, show 9 + (i - 9) = i by omega]
  unfold extFor imm15
  split
  · next h => split at h <;> simp_all
  · next x h =>
    split at h
    · cases h
    · cases h; rw [hj]; exact ext_high_low (w := 15) v

theorem imm21_extFor (v : BitVec 47) :
    imm21 (extFor 21 v) (v.extractLsb' 15 6) (v.extractLsb' 9 6) (v.extractLsb' 3 6) (v.extractLsb' 0 3) = v := by
  have hj : (v.extractLsb' 15 6 ++ (v.extractLsb' 9 6 ++ (v.extractLsb' 3 6 ++ v.extractLsb' 0 3)) : BitVec 21)
      = v.extractLsb' 0 21 := by
    apply BitVec.eq_of_getLsbD_eq
    intro i hi
    show BitVec.getLsbD (v.extractLsb' 15 6 ++ (v.extractLsb' 9 6 ++ (v.extractLsb' 3 6 ++ v.extractLsb' 0 3 : BitVec (6 + 3))
      : BitVec (6 + 9))) i = _
    rw [BitVec.getLsbD_append, BitVec.getLsbD_append, BitVec.getLsbD_append]
    simp only [BitVec.getLsbD_extractLsb', hi, decide_true, Bool.true_and]
    split
    · next h =>
      split
      · next h' =>
        split
        · next h'' => simp [h'']
        · next h'' => simp [show i - 3 < 6 by omega, show 3 + (i - 3) = i by omega]
      · next h' => simp [show i - 9 < 6 by omega, show 9 + (i - 9) = i by omega]
    · next h => simp [show i - 15 < 6 by omega, show 15 + (i - 15) = i by omega]
  unfold extFor imm21
  split
  · next h => split at h <;> simp_all
  · next x h =>
    split at h
    · cases h
    · cases h; rw [hj]; exact ext_high_low (w := 21) v

theorem imm0_ext0 (v : BitVec 26) : imm0 (ext0 v) = v := by
  unfold imm0 ext0
  split
  · next h => simp [h]
  · rfl

end Sys2Proof
end

