-- ==== Sys2Proof/Laws/Memory.lean ====
section
/-! SUPPORT. Memory: a read after a write, and the canonical form, which every memory operation keeps. -/

namespace Sys2Proof.Machine

/-! ## The canonical form -/

theorem Memory.wfFrom_cons {lo b : Nat} {y : Byte} {m : Memory} :
    Memory.wfFrom lo ((b, y) :: m) = true ↔ lo ≤ b ∧ y ≠ 0 ∧ Memory.wfFrom (b + 1) m = true := by
  simp [wfFrom, and_assoc]

theorem Memory.wfFrom_mono {m : Memory} {lo lo' : Nat} (h : Memory.wfFrom lo m = true) (hl : lo' ≤ lo) :
    Memory.wfFrom lo' m = true := by
  cases m with
  | nil => rfl
  | cons c m => rw [wfFrom_cons] at h ⊢; exact ⟨by omega, h.2⟩

/-- A write keeps the form above any bound that the address meets. -/
theorem Memory.wfFrom_write {m : Memory} {lo a : Nat} {x : Byte} (h : Memory.wfFrom lo m = true) (ha : lo ≤ a) :
    Memory.wfFrom lo (m.write a x) = true := by
  induction m generalizing lo with
  | nil =>
    unfold write
    split
    · rfl
    · next hx => exact wfFrom_cons.mpr ⟨ha, hx, rfl⟩
  | cons c m ih =>
    obtain ⟨b, y⟩ := c
    obtain ⟨hb, hy, hm⟩ := wfFrom_cons.mp h
    unfold write
    split
    · next hab =>
      split
      · exact h
      · next hx => exact wfFrom_cons.mpr ⟨ha, hx, wfFrom_cons.mpr ⟨hab, hy, hm⟩⟩
    · next hab =>
      split
      · next he =>
        subst he
        split
        · exact wfFrom_mono hm (by omega)
        · next hx => exact wfFrom_cons.mpr ⟨ha, hx, hm⟩
      · next he => exact wfFrom_cons.mpr ⟨hb, hy, ih hm (by omega)⟩

theorem Memory.wf_write {m : Memory} (h : m.wf = true) (a : Nat) (x : Byte) : (m.write a x).wf = true :=
  wfFrom_write h (Nat.zero_le a)

theorem Memory.wf_writeLE {m : Memory} (h : m.wf = true) (a v n : Nat) : (m.writeLE a v n).wf = true := by
  induction n generalizing m a v with
  | zero => exact h
  | succ n ih => exact ih (wf_write h _ _) _ _

theorem Memory.wf_setWord {m : Memory} (h : m.wf = true) (a : Nat) (v : Word) : (m.setWord a v).wf = true :=
  wf_writeLE h _ _ _

theorem Memory.wf_setBytes {m : Memory} (h : m.wf = true) (a : Nat) (l : List Byte) : (m.setBytes a l).wf = true := by
  induction l generalizing m a with
  | nil => exact h
  | cons x l ih => exact ih (wf_write h _ _) _

/-- A sublist keeps the form. -/
theorem Memory.wfFrom_filter {m : Memory} {lo : Nat} (p : Host.Cell → Bool) (h : Memory.wfFrom lo m = true) :
    Memory.wfFrom lo (m.filter p) = true := by
  induction m generalizing lo with
  | nil => rfl
  | cons c m ih =>
    obtain ⟨b, y⟩ := c
    obtain ⟨hb, hy, hm⟩ := wfFrom_cons.mp h
    rw [List.filter_cons]
    split
    · exact wfFrom_cons.mpr ⟨hb, hy, ih hm⟩
    · exact wfFrom_mono (ih hm) (by omega)

theorem Memory.wf_filter {m : Memory} (p : Host.Cell → Bool) (h : m.wf = true) : Memory.wf (m.filter p) = true :=
  wfFrom_filter p h

theorem Memory.wf_clear {m : Memory} (h : m.wf = true) (a n : Nat) : (m.clear a n).wf = true := wf_filter _ h

/-! ## Reads after writes -/

/-- Below its first address a canonical memory reads zero. -/
theorem Memory.read_below {m : Memory} {lo a : Nat} (h : Memory.wfFrom lo m = true) (ha : a < lo) : m.read a = 0 := by
  cases m with
  | nil => rfl
  | cons c m =>
    obtain ⟨b, y⟩ := c
    have := (wfFrom_cons.mp h).1
    unfold read
    rw [if_neg (by omega), if_pos (by omega)]

/-- A read after a write of one byte. -/
theorem Memory.read_write {m : Memory} (h : m.wf = true) (a b : Nat) (x : Byte) :
    (m.write a x).read b = if b = a then x else m.read b := by
  unfold wf at h
  generalize 0 = lo at h
  induction m generalizing lo with
  | nil =>
    by_cases hx : x = 0
    · simp [write, hx, read]
    · simp only [write, hx, if_false, read]
      split
      · rfl
      · split <;> rfl
  | cons c m ih =>
    obtain ⟨e, y⟩ := c
    obtain ⟨he, hy, hm⟩ := wfFrom_cons.mp h
    unfold write
    split
    · next hae =>
      split
      · next hx =>
        split
        · next hb =>
          subst hb hx
          unfold read
          rw [if_neg (by omega), if_pos hae]
        · rfl
      · rw [read]
        split
        · rfl
        · next hb =>
          split
          · next hlt => rw [read, if_neg (by omega), if_pos (by omega)]
          · rfl
    · next hae =>
      split
      · next hEq =>
        subst hEq
        split
        · next hx =>
          subst hx
          by_cases hb : b = a
          · subst hb
            rw [if_pos rfl]
            exact read_below hm (by omega)
          · rw [if_neg hb, read, if_neg hb]
            by_cases hlt : b < a
            · rw [if_pos hlt]; exact read_below hm (by omega)
            · rw [if_neg hlt]
        · unfold read
          by_cases hb : b = a
          · simp [hb]
          · simp [hb]
      · next hne =>
        unfold read
        by_cases hb : b = e
        · subst hb
          rw [if_pos rfl, if_pos rfl, if_neg (by omega)]
        · rw [if_neg hb, if_neg hb]
          by_cases hlt : b < e
          · rw [if_pos hlt, if_pos hlt, if_neg (by omega)]
          · rw [if_neg hlt, if_neg hlt]
            exact ih (e + 1) hm

theorem Memory.read_write_self {m : Memory} (h : m.wf = true) (a : Nat) (x : Byte) : (m.write a x).read a = x := by
  rw [read_write h, if_pos rfl]

theorem Memory.read_write_ne {m : Memory} (h : m.wf = true) {a b : Nat} (x : Byte) (hb : b ≠ a) :
    (m.write a x).read b = m.read b := by
  rw [read_write h, if_neg hb]

/-- A store of `n` bytes leaves every other byte. -/
theorem Memory.read_writeLE_ne {m : Memory} (h : m.wf = true) {a b : Nat} (v n : Nat) (hb : b < a ∨ a + n ≤ b) :
    (m.writeLE a v n).read b = m.read b := by
  induction n generalizing m a v with
  | zero => rfl
  | succ n ih =>
    unfold writeLE
    rw [ih (wf_write h _ _) _ (by omega), read_write_ne h _ (by omega)]

/-- The bytes that a store of `n` bytes leaves. -/
theorem Memory.read_writeLE {m : Memory} (h : m.wf = true) {a v n i : Nat} (hi : i < n) :
    (m.writeLE a v n).read (a + i) = BitVec.ofNat 8 (v / 256 ^ i) := by
  induction n generalizing m a v i with
  | zero => omega
  | succ n ih =>
    unfold writeLE
    cases i with
    | zero => rw [read_writeLE_ne (wf_write h _ _) _ _ (by omega), Nat.add_zero, read_write_self h]; simp
    | succ i =>
      have := ih (wf_write h a (BitVec.ofNat 8 v)) (a := a + 1) (v := v / 256) (i := i) (by omega)
      rw [Nat.add_right_comm] at this
      rw [show a + (i + 1) = a + i + 1 by omega, this, Nat.div_div_eq_div_mul, Nat.pow_succ, Nat.mul_comm]

/-- A load of the `n` bytes just stored. -/
theorem Memory.readLE_writeLE {m : Memory} (h : m.wf = true) (a v n : Nat) :
    (m.writeLE a v n).readLE a n = v % 256 ^ n := by
  induction n generalizing m a v with
  | zero => simp [readLE, Nat.mod_one]
  | succ n ih =>
    have h0 := read_writeLE h (a := a) (v := v) (n := n + 1) (i := 0) (by omega)
    simp only [Nat.add_zero, Nat.pow_zero, Nat.div_one] at h0
    rw [readLE, h0]
    unfold writeLE
    rw [ih (wf_write h _ _), Nat.pow_succ', Nat.mod_mul, BitVec.toNat_ofNat]

/-- Two canonical memories that read alike are equal. -/
theorem Memory.ext_read {m n : Memory} (hm : m.wf = true) (hn : n.wf = true) (h : ∀ a, m.read a = n.read a) : m = n := by
  unfold wf at hm hn
  generalize 0 = lo at hm hn
  induction m generalizing n lo with
  | nil =>
    cases n with
    | nil => rfl
    | cons c n =>
      obtain ⟨b, y⟩ := c
      have := h b
      simp [read] at this
      exact absurd this.symm (wfFrom_cons.mp hn).2.1
  | cons c m ih =>
    obtain ⟨b, y⟩ := c
    have hm := wfFrom_cons.mp hm
    cases n with
    | nil =>
      have := h b
      simp [read] at this
      exact absurd this hm.2.1
    | cons c n =>
      obtain ⟨e, z⟩ := c
      have hn := wfFrom_cons.mp hn
      have hb := h b
      have he := h e
      simp only [read, if_true] at hb he
      have hbe : b = e := by
        rcases Nat.lt_trichotomy b e with hlt | heq | hlt
        · rw [if_neg (by omega), if_pos hlt] at hb; exact absurd hb hm.2.1
        · exact heq
        · rw [if_neg (by omega), if_pos hlt] at he; exact absurd he.symm hn.2.1
      subst hbe
      simp only [if_true] at hb
      subst hb
      congr 1
      refine ih (fun a => ?_) (b + 1) hm.2.2 hn.2.2
      by_cases ha : a ≤ b
      · rw [read_below hm.2.2 (by omega), read_below hn.2.2 (by omega)]
      · have := h a
        simp only [read] at this
        rwa [if_neg (by omega), if_neg (by omega), if_neg (by omega), if_neg (by omega)] at this

end Sys2Proof.Machine
end

