-- ==== Sys2Proof/Laws/State.lean ====
section
/-! SUPPORT. What each update of the state leaves: one lemma for each field. -/

namespace Sys2Proof.Machine

/-! ## Register files -/

@[simp] theorem File.get_put_self {k : Nat} {α : Type} (f : File k α) (i : BitVec k) (x : α) : (f.put i x).get i = x := by
  simp [get, put]

theorem File.get_put_ne {k : Nat} {α : Type} (f : File k α) {i j : BitVec k} (x : α) (h : j ≠ i) :
    (f.put i x).get j = f.get j := by
  have : i.toNat ≠ j.toNat := fun e => h (BitVec.eq_of_toNat_eq e.symm)
  simp [get, put, Vector.getElem_set_ne, this]

theorem File.get_put {k : Nat} {α : Type} (f : File k α) (i j : BitVec k) (x : α) :
    (f.put i x).get j = if j = i then x else f.get j := by
  split
  · next h => subst h; exact get_put_self _ _ _
  · next h => exact get_put_ne _ _ h

@[simp] theorem File.get_all {k : Nat} {α : Type} (x : α) (i : BitVec k) : (File.all k x).get i = x := by
  simp [get, all]

@[simp] theorem File.get_gen {k : Nat} {α : Type} (f : Nat → α) (i : BitVec k) : (File.gen k f).get i = f i.toNat := by
  simp [get, gen]

@[simp] theorem VReg.lane_gen (f : Nat → Word) {i : Nat} (h : i < 256) : (VReg.gen f).lane i = f i := by
  simp [lane, gen, Nat.mod_eq_of_lt h]

/-! ## Keyed lists -/

theorem look_put {α : Type} (l : List (Nat × α)) (k j : Nat) (x : α) :
    look (put l k x) j = if j = k then some x else look l j := by
  induction l with
  | nil =>
    by_cases h : j = k
    · simp [put, look, h]
    · simp [put, look, h, Ne.symm h]
  | cons c l ih =>
    obtain ⟨i, y⟩ := c
    unfold put
    by_cases hi : i = k
    · subst hi
      by_cases hj : j = i
      · simp [look, hj]
      · simp [look, hj, Ne.symm hj]
    · by_cases hj : i = j
      · subst hj; simp [look, hi]
      · simp [look, hi, hj, ih]

/-! ## The fields that an update leaves -/

@[simp] theorem State.modCore_cyc (s : State) (f : Core → Core) : (s.modCore f).cyc = s.cyc := rfl
@[simp] theorem State.modCore_script (s : State) (f : Core → Core) : (s.modCore f).script = s.script := rfl
@[simp] theorem State.modCore_eager (s : State) (f : Core → Core) : (s.modCore f).eager = s.eager := rfl
@[simp] theorem State.modCore_cur (s : State) (f : Core → Core) : (s.modCore f).cur = s.cur := rfl
@[simp] theorem State.modCore_pre (s : State) (f : Core → Core) : (s.modCore f).pre = s.pre := rfl
@[simp] theorem State.modCore_slot (s : State) (f : Core → Core) : (s.modCore f).slot = s.slot := rfl
@[simp] theorem State.modCore_ord (s : State) (f : Core → Core) : (s.modCore f).ord = s.ord := rfl
@[simp] theorem State.modCore_adv (s : State) (f : Core → Core) : (s.modCore f).adv = s.adv := rfl
@[simp] theorem State.modCore_fresh (s : State) (f : Core → Core) : (s.modCore f).fresh = s.fresh := rfl
@[simp] theorem State.modCore_ticked (s : State) (f : Core → Core) : (s.modCore f).ticked = s.ticked := rfl
@[simp] theorem State.modCore_quadBars (s : State) (f : Core → Core) : (s.modCore f).quadBars = s.quadBars := rfl
@[simp] theorem State.modCore_dieBars (s : State) (f : Core → Core) : (s.modCore f).dieBars = s.dieBars := rfl
@[simp] theorem State.modCore_pkgBars (s : State) (f : Core → Core) : (s.modCore f).pkgBars = s.pkgBars := rfl
@[simp] theorem State.modCore_podBars (s : State) (f : Core → Core) : (s.modCore f).podBars = s.podBars := rfl
@[simp] theorem State.modCore_home (s : State) (f : Core → Core) : (s.modCore f).home = s.home := rfl
@[simp] theorem State.modCore_parts (s : State) (f : Core → Core) : (s.modCore f).parts = s.parts := rfl
@[simp] theorem State.modCore_fab (s : State) (f : Core → Core) : (s.modCore f).fab = s.fab := rfl
@[simp] theorem State.modCore_dev (s : State) (f : Core → Core) : (s.modCore f).dev = s.dev := rfl

@[simp] theorem State.modCtx_cyc (s : State) (f : Ctx → Ctx) : (s.modCtx f).cyc = s.cyc := rfl
@[simp] theorem State.modCtx_script (s : State) (f : Ctx → Ctx) : (s.modCtx f).script = s.script := rfl
@[simp] theorem State.modCtx_eager (s : State) (f : Ctx → Ctx) : (s.modCtx f).eager = s.eager := rfl
@[simp] theorem State.modCtx_cur (s : State) (f : Ctx → Ctx) : (s.modCtx f).cur = s.cur := rfl
@[simp] theorem State.modCtx_pre (s : State) (f : Ctx → Ctx) : (s.modCtx f).pre = s.pre := rfl
@[simp] theorem State.modCtx_slot (s : State) (f : Ctx → Ctx) : (s.modCtx f).slot = s.slot := rfl
@[simp] theorem State.modCtx_ord (s : State) (f : Ctx → Ctx) : (s.modCtx f).ord = s.ord := rfl
@[simp] theorem State.modCtx_adv (s : State) (f : Ctx → Ctx) : (s.modCtx f).adv = s.adv := rfl
@[simp] theorem State.modCtx_fresh (s : State) (f : Ctx → Ctx) : (s.modCtx f).fresh = s.fresh := rfl
@[simp] theorem State.modCtx_ticked (s : State) (f : Ctx → Ctx) : (s.modCtx f).ticked = s.ticked := rfl
@[simp] theorem State.modCtx_quadBars (s : State) (f : Ctx → Ctx) : (s.modCtx f).quadBars = s.quadBars := rfl
@[simp] theorem State.modCtx_dieBars (s : State) (f : Ctx → Ctx) : (s.modCtx f).dieBars = s.dieBars := rfl
@[simp] theorem State.modCtx_pkgBars (s : State) (f : Ctx → Ctx) : (s.modCtx f).pkgBars = s.pkgBars := rfl
@[simp] theorem State.modCtx_podBars (s : State) (f : Ctx → Ctx) : (s.modCtx f).podBars = s.podBars := rfl
@[simp] theorem State.modCtx_home (s : State) (f : Ctx → Ctx) : (s.modCtx f).home = s.home := rfl
@[simp] theorem State.modCtx_parts (s : State) (f : Ctx → Ctx) : (s.modCtx f).parts = s.parts := rfl
@[simp] theorem State.modCtx_fab (s : State) (f : Ctx → Ctx) : (s.modCtx f).fab = s.fab := rfl
@[simp] theorem State.modCtx_dev (s : State) (f : Ctx → Ctx) : (s.modCtx f).dev = s.dev := rfl

@[simp] theorem State.modSys_cyc (s : State) (f : Sys → Sys) : (s.modSys f).cyc = s.cyc := rfl
@[simp] theorem State.modSys_script (s : State) (f : Sys → Sys) : (s.modSys f).script = s.script := rfl
@[simp] theorem State.modSys_eager (s : State) (f : Sys → Sys) : (s.modSys f).eager = s.eager := rfl
@[simp] theorem State.modSys_cur (s : State) (f : Sys → Sys) : (s.modSys f).cur = s.cur := rfl
@[simp] theorem State.modSys_pre (s : State) (f : Sys → Sys) : (s.modSys f).pre = s.pre := rfl
@[simp] theorem State.modSys_slot (s : State) (f : Sys → Sys) : (s.modSys f).slot = s.slot := rfl
@[simp] theorem State.modSys_ord (s : State) (f : Sys → Sys) : (s.modSys f).ord = s.ord := rfl
@[simp] theorem State.modSys_adv (s : State) (f : Sys → Sys) : (s.modSys f).adv = s.adv := rfl
@[simp] theorem State.modSys_fresh (s : State) (f : Sys → Sys) : (s.modSys f).fresh = s.fresh := rfl
@[simp] theorem State.modSys_ticked (s : State) (f : Sys → Sys) : (s.modSys f).ticked = s.ticked := rfl
@[simp] theorem State.modSys_quadBars (s : State) (f : Sys → Sys) : (s.modSys f).quadBars = s.quadBars := rfl
@[simp] theorem State.modSys_dieBars (s : State) (f : Sys → Sys) : (s.modSys f).dieBars = s.dieBars := rfl
@[simp] theorem State.modSys_pkgBars (s : State) (f : Sys → Sys) : (s.modSys f).pkgBars = s.pkgBars := rfl
@[simp] theorem State.modSys_podBars (s : State) (f : Sys → Sys) : (s.modSys f).podBars = s.podBars := rfl
@[simp] theorem State.modSys_home (s : State) (f : Sys → Sys) : (s.modSys f).home = s.home := rfl
@[simp] theorem State.modSys_parts (s : State) (f : Sys → Sys) : (s.modSys f).parts = s.parts := rfl
@[simp] theorem State.modSys_fab (s : State) (f : Sys → Sys) : (s.modSys f).fab = s.fab := rfl
@[simp] theorem State.modSys_dev (s : State) (f : Sys → Sys) : (s.modSys f).dev = s.dev := rfl

@[simp] theorem State.modPipe_cyc (s : State) (f : Pipe → Pipe) : (s.modPipe f).cyc = s.cyc := rfl
@[simp] theorem State.modPipe_script (s : State) (f : Pipe → Pipe) : (s.modPipe f).script = s.script := rfl
@[simp] theorem State.modPipe_eager (s : State) (f : Pipe → Pipe) : (s.modPipe f).eager = s.eager := rfl
@[simp] theorem State.modPipe_cur (s : State) (f : Pipe → Pipe) : (s.modPipe f).cur = s.cur := rfl
@[simp] theorem State.modPipe_pre (s : State) (f : Pipe → Pipe) : (s.modPipe f).pre = s.pre := rfl
@[simp] theorem State.modPipe_slot (s : State) (f : Pipe → Pipe) : (s.modPipe f).slot = s.slot := rfl
@[simp] theorem State.modPipe_ord (s : State) (f : Pipe → Pipe) : (s.modPipe f).ord = s.ord := rfl
@[simp] theorem State.modPipe_adv (s : State) (f : Pipe → Pipe) : (s.modPipe f).adv = s.adv := rfl
@[simp] theorem State.modPipe_fresh (s : State) (f : Pipe → Pipe) : (s.modPipe f).fresh = s.fresh := rfl
@[simp] theorem State.modPipe_ticked (s : State) (f : Pipe → Pipe) : (s.modPipe f).ticked = s.ticked := rfl
@[simp] theorem State.modPipe_quadBars (s : State) (f : Pipe → Pipe) : (s.modPipe f).quadBars = s.quadBars := rfl
@[simp] theorem State.modPipe_dieBars (s : State) (f : Pipe → Pipe) : (s.modPipe f).dieBars = s.dieBars := rfl
@[simp] theorem State.modPipe_pkgBars (s : State) (f : Pipe → Pipe) : (s.modPipe f).pkgBars = s.pkgBars := rfl
@[simp] theorem State.modPipe_podBars (s : State) (f : Pipe → Pipe) : (s.modPipe f).podBars = s.podBars := rfl
@[simp] theorem State.modPipe_home (s : State) (f : Pipe → Pipe) : (s.modPipe f).home = s.home := rfl
@[simp] theorem State.modPipe_parts (s : State) (f : Pipe → Pipe) : (s.modPipe f).parts = s.parts := rfl
@[simp] theorem State.modPipe_fab (s : State) (f : Pipe → Pipe) : (s.modPipe f).fab = s.fab := rfl
@[simp] theorem State.modPipe_dev (s : State) (f : Pipe → Pipe) : (s.modPipe f).dev = s.dev := rfl

@[simp] theorem State.modTask_cyc (s : State) (f : Task → Task) : (s.modTask f).cyc = s.cyc := rfl
@[simp] theorem State.modTask_script (s : State) (f : Task → Task) : (s.modTask f).script = s.script := rfl
@[simp] theorem State.modTask_eager (s : State) (f : Task → Task) : (s.modTask f).eager = s.eager := rfl
@[simp] theorem State.modTask_cur (s : State) (f : Task → Task) : (s.modTask f).cur = s.cur := rfl
@[simp] theorem State.modTask_pre (s : State) (f : Task → Task) : (s.modTask f).pre = s.pre := rfl
@[simp] theorem State.modTask_slot (s : State) (f : Task → Task) : (s.modTask f).slot = s.slot := rfl
@[simp] theorem State.modTask_ord (s : State) (f : Task → Task) : (s.modTask f).ord = s.ord := rfl
@[simp] theorem State.modTask_adv (s : State) (f : Task → Task) : (s.modTask f).adv = s.adv := rfl
@[simp] theorem State.modTask_fresh (s : State) (f : Task → Task) : (s.modTask f).fresh = s.fresh := rfl
@[simp] theorem State.modTask_ticked (s : State) (f : Task → Task) : (s.modTask f).ticked = s.ticked := rfl
@[simp] theorem State.modTask_quadBars (s : State) (f : Task → Task) : (s.modTask f).quadBars = s.quadBars := rfl
@[simp] theorem State.modTask_dieBars (s : State) (f : Task → Task) : (s.modTask f).dieBars = s.dieBars := rfl
@[simp] theorem State.modTask_pkgBars (s : State) (f : Task → Task) : (s.modTask f).pkgBars = s.pkgBars := rfl
@[simp] theorem State.modTask_podBars (s : State) (f : Task → Task) : (s.modTask f).podBars = s.podBars := rfl
@[simp] theorem State.modTask_home (s : State) (f : Task → Task) : (s.modTask f).home = s.home := rfl
@[simp] theorem State.modTask_parts (s : State) (f : Task → Task) : (s.modTask f).parts = s.parts := rfl
@[simp] theorem State.modTask_fab (s : State) (f : Task → Task) : (s.modTask f).fab = s.fab := rfl
@[simp] theorem State.modTask_dev (s : State) (f : Task → Task) : (s.modTask f).dev = s.dev := rfl

@[simp] theorem State.modAll_cyc (s : State) (f : Core → Core) : (s.modAll f).cyc = s.cyc := rfl
@[simp] theorem State.modAll_script (s : State) (f : Core → Core) : (s.modAll f).script = s.script := rfl
@[simp] theorem State.modAll_eager (s : State) (f : Core → Core) : (s.modAll f).eager = s.eager := rfl
@[simp] theorem State.modAll_cur (s : State) (f : Core → Core) : (s.modAll f).cur = s.cur := rfl
@[simp] theorem State.modAll_pre (s : State) (f : Core → Core) : (s.modAll f).pre = s.pre := rfl
@[simp] theorem State.modAll_slot (s : State) (f : Core → Core) : (s.modAll f).slot = s.slot := rfl
@[simp] theorem State.modAll_ord (s : State) (f : Core → Core) : (s.modAll f).ord = s.ord := rfl
@[simp] theorem State.modAll_adv (s : State) (f : Core → Core) : (s.modAll f).adv = s.adv := rfl
@[simp] theorem State.modAll_fresh (s : State) (f : Core → Core) : (s.modAll f).fresh = s.fresh := rfl
@[simp] theorem State.modAll_ticked (s : State) (f : Core → Core) : (s.modAll f).ticked = s.ticked := rfl
@[simp] theorem State.modAll_quadBars (s : State) (f : Core → Core) : (s.modAll f).quadBars = s.quadBars := rfl
@[simp] theorem State.modAll_dieBars (s : State) (f : Core → Core) : (s.modAll f).dieBars = s.dieBars := rfl
@[simp] theorem State.modAll_pkgBars (s : State) (f : Core → Core) : (s.modAll f).pkgBars = s.pkgBars := rfl
@[simp] theorem State.modAll_podBars (s : State) (f : Core → Core) : (s.modAll f).podBars = s.podBars := rfl
@[simp] theorem State.modAll_home (s : State) (f : Core → Core) : (s.modAll f).home = s.home := rfl
@[simp] theorem State.modAll_parts (s : State) (f : Core → Core) : (s.modAll f).parts = s.parts := rfl
@[simp] theorem State.modAll_fab (s : State) (f : Core → Core) : (s.modAll f).fab = s.fab := rfl
@[simp] theorem State.modAll_dev (s : State) (f : Core → Core) : (s.modAll f).dev = s.dev := rfl

@[simp] theorem State.modHome_cyc (s : State) (f : Home → Home) : (s.modHome f).cyc = s.cyc := rfl
@[simp] theorem State.modHome_script (s : State) (f : Home → Home) : (s.modHome f).script = s.script := rfl
@[simp] theorem State.modHome_eager (s : State) (f : Home → Home) : (s.modHome f).eager = s.eager := rfl
@[simp] theorem State.modHome_cur (s : State) (f : Home → Home) : (s.modHome f).cur = s.cur := rfl
@[simp] theorem State.modHome_pre (s : State) (f : Home → Home) : (s.modHome f).pre = s.pre := rfl
@[simp] theorem State.modHome_slot (s : State) (f : Home → Home) : (s.modHome f).slot = s.slot := rfl
@[simp] theorem State.modHome_ord (s : State) (f : Home → Home) : (s.modHome f).ord = s.ord := rfl
@[simp] theorem State.modHome_adv (s : State) (f : Home → Home) : (s.modHome f).adv = s.adv := rfl
@[simp] theorem State.modHome_fresh (s : State) (f : Home → Home) : (s.modHome f).fresh = s.fresh := rfl
@[simp] theorem State.modHome_ticked (s : State) (f : Home → Home) : (s.modHome f).ticked = s.ticked := rfl
@[simp] theorem State.modHome_cores (s : State) (f : Home → Home) : (s.modHome f).cores = s.cores := rfl
@[simp] theorem State.modHome_quadBars (s : State) (f : Home → Home) : (s.modHome f).quadBars = s.quadBars := rfl
@[simp] theorem State.modHome_dieBars (s : State) (f : Home → Home) : (s.modHome f).dieBars = s.dieBars := rfl
@[simp] theorem State.modHome_pkgBars (s : State) (f : Home → Home) : (s.modHome f).pkgBars = s.pkgBars := rfl
@[simp] theorem State.modHome_podBars (s : State) (f : Home → Home) : (s.modHome f).podBars = s.podBars := rfl
@[simp] theorem State.modHome_parts (s : State) (f : Home → Home) : (s.modHome f).parts = s.parts := rfl
@[simp] theorem State.modHome_fab (s : State) (f : Home → Home) : (s.modHome f).fab = s.fab := rfl
@[simp] theorem State.modHome_dev (s : State) (f : Home → Home) : (s.modHome f).dev = s.dev := rfl

@[simp] theorem State.result_cyc (s : State) (lat : Nat) (l : Landing) (g : BitVec 6) : (s.result lat l g).cyc = s.cyc := rfl
@[simp] theorem State.result_script (s : State) (lat : Nat) (l : Landing) (g : BitVec 6) : (s.result lat l g).script = s.script := rfl
@[simp] theorem State.result_eager (s : State) (lat : Nat) (l : Landing) (g : BitVec 6) : (s.result lat l g).eager = s.eager := rfl
@[simp] theorem State.result_cur (s : State) (lat : Nat) (l : Landing) (g : BitVec 6) : (s.result lat l g).cur = s.cur := rfl
@[simp] theorem State.result_pre (s : State) (lat : Nat) (l : Landing) (g : BitVec 6) : (s.result lat l g).pre = s.pre := rfl
@[simp] theorem State.result_slot (s : State) (lat : Nat) (l : Landing) (g : BitVec 6) : (s.result lat l g).slot = s.slot := rfl
@[simp] theorem State.result_ord (s : State) (lat : Nat) (l : Landing) (g : BitVec 6) : (s.result lat l g).ord = s.ord := rfl
@[simp] theorem State.result_adv (s : State) (lat : Nat) (l : Landing) (g : BitVec 6) : (s.result lat l g).adv = s.adv := rfl
@[simp] theorem State.result_fresh (s : State) (lat : Nat) (l : Landing) (g : BitVec 6) : (s.result lat l g).fresh = s.fresh := rfl
@[simp] theorem State.result_ticked (s : State) (lat : Nat) (l : Landing) (g : BitVec 6) : (s.result lat l g).ticked = s.ticked := rfl
@[simp] theorem State.result_quadBars (s : State) (lat : Nat) (l : Landing) (g : BitVec 6) : (s.result lat l g).quadBars = s.quadBars := rfl
@[simp] theorem State.result_dieBars (s : State) (lat : Nat) (l : Landing) (g : BitVec 6) : (s.result lat l g).dieBars = s.dieBars := rfl
@[simp] theorem State.result_pkgBars (s : State) (lat : Nat) (l : Landing) (g : BitVec 6) : (s.result lat l g).pkgBars = s.pkgBars := rfl
@[simp] theorem State.result_podBars (s : State) (lat : Nat) (l : Landing) (g : BitVec 6) : (s.result lat l g).podBars = s.podBars := rfl
@[simp] theorem State.result_home (s : State) (lat : Nat) (l : Landing) (g : BitVec 6) : (s.result lat l g).home = s.home := rfl
@[simp] theorem State.result_parts (s : State) (lat : Nat) (l : Landing) (g : BitVec 6) : (s.result lat l g).parts = s.parts := rfl
@[simp] theorem State.result_fab (s : State) (lat : Nat) (l : Landing) (g : BitVec 6) : (s.result lat l g).fab = s.fab := rfl
@[simp] theorem State.result_dev (s : State) (lat : Nat) (l : Landing) (g : BitVec 6) : (s.result lat l g).dev = s.dev := rfl

@[simp] theorem State.resS_cyc (s : State) (lat : Nat) (d : Reg) (v : DWord) : (s.resS lat d v).cyc = s.cyc := rfl
@[simp] theorem State.resS_script (s : State) (lat : Nat) (d : Reg) (v : DWord) : (s.resS lat d v).script = s.script := rfl
@[simp] theorem State.resS_eager (s : State) (lat : Nat) (d : Reg) (v : DWord) : (s.resS lat d v).eager = s.eager := rfl
@[simp] theorem State.resS_cur (s : State) (lat : Nat) (d : Reg) (v : DWord) : (s.resS lat d v).cur = s.cur := rfl
@[simp] theorem State.resS_pre (s : State) (lat : Nat) (d : Reg) (v : DWord) : (s.resS lat d v).pre = s.pre := rfl
@[simp] theorem State.resS_slot (s : State) (lat : Nat) (d : Reg) (v : DWord) : (s.resS lat d v).slot = s.slot := rfl
@[simp] theorem State.resS_ord (s : State) (lat : Nat) (d : Reg) (v : DWord) : (s.resS lat d v).ord = s.ord := rfl
@[simp] theorem State.resS_adv (s : State) (lat : Nat) (d : Reg) (v : DWord) : (s.resS lat d v).adv = s.adv := rfl
@[simp] theorem State.resS_fresh (s : State) (lat : Nat) (d : Reg) (v : DWord) : (s.resS lat d v).fresh = s.fresh := rfl
@[simp] theorem State.resS_ticked (s : State) (lat : Nat) (d : Reg) (v : DWord) : (s.resS lat d v).ticked = s.ticked := rfl
@[simp] theorem State.resS_quadBars (s : State) (lat : Nat) (d : Reg) (v : DWord) : (s.resS lat d v).quadBars = s.quadBars := rfl
@[simp] theorem State.resS_dieBars (s : State) (lat : Nat) (d : Reg) (v : DWord) : (s.resS lat d v).dieBars = s.dieBars := rfl
@[simp] theorem State.resS_pkgBars (s : State) (lat : Nat) (d : Reg) (v : DWord) : (s.resS lat d v).pkgBars = s.pkgBars := rfl
@[simp] theorem State.resS_podBars (s : State) (lat : Nat) (d : Reg) (v : DWord) : (s.resS lat d v).podBars = s.podBars := rfl
@[simp] theorem State.resS_home (s : State) (lat : Nat) (d : Reg) (v : DWord) : (s.resS lat d v).home = s.home := rfl
@[simp] theorem State.resS_parts (s : State) (lat : Nat) (d : Reg) (v : DWord) : (s.resS lat d v).parts = s.parts := rfl
@[simp] theorem State.resS_fab (s : State) (lat : Nat) (d : Reg) (v : DWord) : (s.resS lat d v).fab = s.fab := rfl
@[simp] theorem State.resS_dev (s : State) (lat : Nat) (d : Reg) (v : DWord) : (s.resS lat d v).dev = s.dev := rfl

@[simp] theorem State.modAt_cyc (s : State) (c : Nat) (f : Core → Core) : (s.modAt c f).cyc = s.cyc := by
  unfold State.modAt; split <;> rfl
@[simp] theorem State.modAt_script (s : State) (c : Nat) (f : Core → Core) : (s.modAt c f).script = s.script := by
  unfold State.modAt; split <;> rfl
@[simp] theorem State.modAt_eager (s : State) (c : Nat) (f : Core → Core) : (s.modAt c f).eager = s.eager := by
  unfold State.modAt; split <;> rfl
@[simp] theorem State.modAt_cur (s : State) (c : Nat) (f : Core → Core) : (s.modAt c f).cur = s.cur := by
  unfold State.modAt; split <;> rfl
@[simp] theorem State.modAt_pre (s : State) (c : Nat) (f : Core → Core) : (s.modAt c f).pre = s.pre := by
  unfold State.modAt; split <;> rfl
@[simp] theorem State.modAt_slot (s : State) (c : Nat) (f : Core → Core) : (s.modAt c f).slot = s.slot := by
  unfold State.modAt; split <;> rfl
@[simp] theorem State.modAt_ord (s : State) (c : Nat) (f : Core → Core) : (s.modAt c f).ord = s.ord := by
  unfold State.modAt; split <;> rfl
@[simp] theorem State.modAt_adv (s : State) (c : Nat) (f : Core → Core) : (s.modAt c f).adv = s.adv := by
  unfold State.modAt; split <;> rfl
@[simp] theorem State.modAt_fresh (s : State) (c : Nat) (f : Core → Core) : (s.modAt c f).fresh = s.fresh := by
  unfold State.modAt; split <;> rfl
@[simp] theorem State.modAt_ticked (s : State) (c : Nat) (f : Core → Core) : (s.modAt c f).ticked = s.ticked := by
  unfold State.modAt; split <;> rfl
@[simp] theorem State.modAt_quadBars (s : State) (c : Nat) (f : Core → Core) : (s.modAt c f).quadBars = s.quadBars := by
  unfold State.modAt; split <;> rfl
@[simp] theorem State.modAt_dieBars (s : State) (c : Nat) (f : Core → Core) : (s.modAt c f).dieBars = s.dieBars := by
  unfold State.modAt; split <;> rfl
@[simp] theorem State.modAt_pkgBars (s : State) (c : Nat) (f : Core → Core) : (s.modAt c f).pkgBars = s.pkgBars := by
  unfold State.modAt; split <;> rfl
@[simp] theorem State.modAt_podBars (s : State) (c : Nat) (f : Core → Core) : (s.modAt c f).podBars = s.podBars := by
  unfold State.modAt; split <;> rfl
@[simp] theorem State.modAt_home (s : State) (c : Nat) (f : Core → Core) : (s.modAt c f).home = s.home := by
  unfold State.modAt; split <;> rfl
@[simp] theorem State.modAt_parts (s : State) (c : Nat) (f : Core → Core) : (s.modAt c f).parts = s.parts := by
  unfold State.modAt; split <;> rfl
@[simp] theorem State.modAt_fab (s : State) (c : Nat) (f : Core → Core) : (s.modAt c f).fab = s.fab := by
  unfold State.modAt; split <;> rfl
@[simp] theorem State.modAt_dev (s : State) (c : Nat) (f : Core → Core) : (s.modAt c f).dev = s.dev := by
  unfold State.modAt; split <;> rfl

@[simp] theorem State.modPart_cyc (s : State) (p : Nat) (f : Part → Part) : (s.modPart p f).cyc = s.cyc := by
  unfold State.modPart; split <;> rfl
@[simp] theorem State.modPart_script (s : State) (p : Nat) (f : Part → Part) : (s.modPart p f).script = s.script := by
  unfold State.modPart; split <;> rfl
@[simp] theorem State.modPart_eager (s : State) (p : Nat) (f : Part → Part) : (s.modPart p f).eager = s.eager := by
  unfold State.modPart; split <;> rfl
@[simp] theorem State.modPart_cur (s : State) (p : Nat) (f : Part → Part) : (s.modPart p f).cur = s.cur := by
  unfold State.modPart; split <;> rfl
@[simp] theorem State.modPart_pre (s : State) (p : Nat) (f : Part → Part) : (s.modPart p f).pre = s.pre := by
  unfold State.modPart; split <;> rfl
@[simp] theorem State.modPart_slot (s : State) (p : Nat) (f : Part → Part) : (s.modPart p f).slot = s.slot := by
  unfold State.modPart; split <;> rfl
@[simp] theorem State.modPart_ord (s : State) (p : Nat) (f : Part → Part) : (s.modPart p f).ord = s.ord := by
  unfold State.modPart; split <;> rfl
@[simp] theorem State.modPart_adv (s : State) (p : Nat) (f : Part → Part) : (s.modPart p f).adv = s.adv := by
  unfold State.modPart; split <;> rfl
@[simp] theorem State.modPart_fresh (s : State) (p : Nat) (f : Part → Part) : (s.modPart p f).fresh = s.fresh := by
  unfold State.modPart; split <;> rfl
@[simp] theorem State.modPart_ticked (s : State) (p : Nat) (f : Part → Part) : (s.modPart p f).ticked = s.ticked := by
  unfold State.modPart; split <;> rfl
@[simp] theorem State.modPart_cores (s : State) (p : Nat) (f : Part → Part) : (s.modPart p f).cores = s.cores := by
  unfold State.modPart; split <;> rfl
@[simp] theorem State.modPart_quadBars (s : State) (p : Nat) (f : Part → Part) : (s.modPart p f).quadBars = s.quadBars := by
  unfold State.modPart; split <;> rfl
@[simp] theorem State.modPart_dieBars (s : State) (p : Nat) (f : Part → Part) : (s.modPart p f).dieBars = s.dieBars := by
  unfold State.modPart; split <;> rfl
@[simp] theorem State.modPart_pkgBars (s : State) (p : Nat) (f : Part → Part) : (s.modPart p f).pkgBars = s.pkgBars := by
  unfold State.modPart; split <;> rfl
@[simp] theorem State.modPart_podBars (s : State) (p : Nat) (f : Part → Part) : (s.modPart p f).podBars = s.podBars := by
  unfold State.modPart; split <;> rfl
@[simp] theorem State.modPart_home (s : State) (p : Nat) (f : Part → Part) : (s.modPart p f).home = s.home := by
  unfold State.modPart; split <;> rfl
@[simp] theorem State.modPart_fab (s : State) (p : Nat) (f : Part → Part) : (s.modPart p f).fab = s.fab := by
  unfold State.modPart; split <;> rfl
@[simp] theorem State.modPart_dev (s : State) (p : Nat) (f : Part → Part) : (s.modPart p f).dev = s.dev := by
  unfold State.modPart; split <;> rfl

@[simp] theorem State.focus_cyc (s : State) (c : Nat) : (s.focus c).cyc = s.cyc := by
  unfold State.focus; split <;> rfl
@[simp] theorem State.focus_script (s : State) (c : Nat) : (s.focus c).script = s.script := by
  unfold State.focus; split <;> rfl
@[simp] theorem State.focus_eager (s : State) (c : Nat) : (s.focus c).eager = s.eager := by
  unfold State.focus; split <;> rfl
@[simp] theorem State.focus_slot (s : State) (c : Nat) : (s.focus c).slot = s.slot := by
  unfold State.focus; split <;> rfl
@[simp] theorem State.focus_ord (s : State) (c : Nat) : (s.focus c).ord = s.ord := by
  unfold State.focus; split <;> rfl
@[simp] theorem State.focus_adv (s : State) (c : Nat) : (s.focus c).adv = s.adv := by
  unfold State.focus; split <;> rfl
@[simp] theorem State.focus_fresh (s : State) (c : Nat) : (s.focus c).fresh = s.fresh := by
  unfold State.focus; split <;> rfl
@[simp] theorem State.focus_ticked (s : State) (c : Nat) : (s.focus c).ticked = s.ticked := by
  unfold State.focus; split <;> rfl
@[simp] theorem State.focus_cores (s : State) (c : Nat) : (s.focus c).cores = s.cores := by
  unfold State.focus; split <;> rfl
@[simp] theorem State.focus_quadBars (s : State) (c : Nat) : (s.focus c).quadBars = s.quadBars := by
  unfold State.focus; split <;> rfl
@[simp] theorem State.focus_dieBars (s : State) (c : Nat) : (s.focus c).dieBars = s.dieBars := by
  unfold State.focus; split <;> rfl
@[simp] theorem State.focus_pkgBars (s : State) (c : Nat) : (s.focus c).pkgBars = s.pkgBars := by
  unfold State.focus; split <;> rfl
@[simp] theorem State.focus_podBars (s : State) (c : Nat) : (s.focus c).podBars = s.podBars := by
  unfold State.focus; split <;> rfl
@[simp] theorem State.focus_home (s : State) (c : Nat) : (s.focus c).home = s.home := by
  unfold State.focus; split <;> rfl
@[simp] theorem State.focus_parts (s : State) (c : Nat) : (s.focus c).parts = s.parts := by
  unfold State.focus; split <;> rfl
@[simp] theorem State.focus_fab (s : State) (c : Nat) : (s.focus c).fab = s.fab := by
  unfold State.focus; split <;> rfl
@[simp] theorem State.focus_dev (s : State) (c : Nat) : (s.focus c).dev = s.dev := by
  unfold State.focus; split <;> rfl

@[simp] theorem State.modHome_home (s : State) (f : Home → Home) : (s.modHome f).home = f s.home := rfl

/-! ## The current core -/

@[simp] theorem State.modCore_core (s : State) (f : Core → Core) : (s.modCore f).core = f s.core := by
  simp [core, modCore]

@[simp] theorem State.modCtx_core (s : State) (f : Ctx → Ctx) :
    (s.modCtx f).core = { s.core with ctx := f s.core.ctx } := by
  simp [modCtx]

@[simp] theorem State.modSys_core (s : State) (f : Sys → Sys) :
    (s.modSys f).core = { s.core with ctx := { s.core.ctx with sys := f s.core.ctx.sys } } := by
  simp [modSys]

@[simp] theorem State.modPipe_core (s : State) (f : Pipe → Pipe) :
    (s.modPipe f).core = { s.core with ctx := { s.core.ctx with pipe := f s.core.ctx.pipe } } := by
  simp [modPipe]

@[simp] theorem State.modTask_core (s : State) (f : Task → Task) :
    (s.modTask f).core = { s.core with ctx := { s.core.ctx with task := f s.core.ctx.task } } := by
  simp [modTask]

@[simp] theorem State.modHome_core (s : State) (f : Home → Home) : (s.modHome f).core = s.core := rfl

@[simp] theorem State.modPart_core (s : State) (p : Nat) (f : Part → Part) : (s.modPart p f).core = s.core := by
  simp [core]

@[simp] theorem State.result_core (s : State) (lat : Nat) (l : Landing) (g : BitVec 6) :
    (s.result lat l g).core = s.core.send lat l g := by
  simp [result]

@[simp] theorem State.resS_core (s : State) (lat : Nat) (d : Reg) (v : DWord) :
    (s.resS lat d v).core = s.core.send lat (.s d v) 0 := by
  simp [resS]

/-- A core that is not the current one. -/
theorem State.modCore_other (s : State) (f : Core → Core) {c : Nat} (h : c ≠ s.cur.val) :
    (s.modCore f).coreAt c = s.coreAt c := by
  unfold coreAt
  split
  · simp [modCore, Vector.getElem_set_ne, Ne.symm h]
  · rfl

theorem State.coreAt_cur (s : State) : s.coreAt s.cur.val = s.core := by
  simp [coreAt, core]

/-! ## Cores and partitions by number -/

@[simp] theorem State.modAt_coreAt_self (s : State) {c : Nat} (f : Core → Core) (h : c < 320) :
    (s.modAt c f).coreAt c = f (s.coreAt c) := by
  simp [modAt, coreAt, h]

theorem State.modAt_coreAt_ne (s : State) {c e : Nat} (f : Core → Core) (h : e ≠ c) :
    (s.modAt c f).coreAt e = s.coreAt e := by
  unfold modAt coreAt
  split
  · split
    · simp [Vector.getElem_set_ne, Ne.symm h]
    · rfl
  · rfl

@[simp] theorem State.modPart_part_self (s : State) {p : Nat} (f : Part → Part) (h : p < 12) :
    (s.modPart p f).part p = f (s.part p) := by
  simp [modPart, part, h]

theorem State.modPart_part_ne (s : State) {p q : Nat} (f : Part → Part) (h : q ≠ p) :
    (s.modPart p f).part q = s.part q := by
  unfold modPart part
  split
  · split
    · simp [Vector.getElem_set_ne, Ne.symm h]
    · rfl
  · rfl

/-! ## A core that sends a result -/

@[simp] theorem Core.send_regs (c : Core) (lat : Nat) (l : Landing) (g : BitVec 6) : (c.send lat l g).ctx.regs = c.ctx.regs := rfl
@[simp] theorem Core.send_sys (c : Core) (lat : Nat) (l : Landing) (g : BitVec 6) : (c.send lat l g).ctx.sys = c.ctx.sys := rfl
@[simp] theorem Core.send_pc (c : Core) (lat : Nat) (l : Landing) (g : BitVec 6) : (c.send lat l g).ctx.pc = c.ctx.pc := rfl
@[simp] theorem Core.send_npc (c : Core) (lat : Nat) (l : Landing) (g : BitVec 6) : (c.send lat l g).ctx.npc = c.ctx.npc := rfl
@[simp] theorem Core.send_toks (c : Core) (lat : Nat) (l : Landing) (g : BitVec 6) : (c.send lat l g).ctx.toks = c.ctx.toks := rfl
@[simp] theorem Core.send_task (c : Core) (lat : Nat) (l : Landing) (g : BitVec 6) : (c.send lat l g).ctx.task = c.ctx.task := rfl
@[simp] theorem Core.send_ops (c : Core) (lat : Nat) (l : Landing) (g : BitVec 6) : (c.send lat l g).ctx.ops = c.ctx.ops := rfl
@[simp] theorem Core.send_spad (c : Core) (lat : Nat) (l : Landing) (g : BitVec 6) : (c.send lat l g).spad = c.spad := rfl
@[simp] theorem Core.send_inflight (c : Core) (lat : Nat) (l : Landing) (g : BitVec 6) :
    (c.send lat l g).ctx.pipe.inflight = c.ctx.pipe.inflight ++ [{ land := l, flags := g, due := c.lcyc + lat, mark := false }] := rfl

/-! ## A context whose results are counted by another clock -/

@[simp] theorem Ctx.rebase_regs (d t : Nat) (x : Ctx) : (x.rebase d t).regs = x.regs := rfl
@[simp] theorem Ctx.rebase_sys (d t : Nat) (x : Ctx) : (x.rebase d t).sys = x.sys := rfl
@[simp] theorem Ctx.rebase_pc (d t : Nat) (x : Ctx) : (x.rebase d t).pc = x.pc := rfl
@[simp] theorem Ctx.rebase_toks (d t : Nat) (x : Ctx) : (x.rebase d t).toks = x.toks := rfl
@[simp] theorem Ctx.rebase_task (d t : Nat) (x : Ctx) : (x.rebase d t).task = x.task := rfl
@[simp] theorem Ctx.rebase_ops (d t : Nat) (x : Ctx) : (x.rebase d t).ops = x.ops := rfl
@[simp] theorem Ctx.rebase_waits (d t : Nat) (x : Ctx) : (x.rebase d t).pipe.waits = x.pipe.waits := rfl

/-! ## Barriers -/

@[simp] theorem State.modBar_cyc (s : State) (lv i : Nat) (f : Bar → Bar) : (s.modBar lv i f).cyc = s.cyc := by
  unfold modBar; split <;> rfl
@[simp] theorem State.modBar_cores (s : State) (lv i : Nat) (f : Bar → Bar) : (s.modBar lv i f).cores = s.cores := by
  unfold modBar; split <;> rfl
@[simp] theorem State.modBar_home (s : State) (lv i : Nat) (f : Bar → Bar) : (s.modBar lv i f).home = s.home := by
  unfold modBar; split <;> rfl
@[simp] theorem State.modBar_parts (s : State) (lv i : Nat) (f : Bar → Bar) : (s.modBar lv i f).parts = s.parts := by
  unfold modBar; split <;> rfl
@[simp] theorem State.modBar_fab (s : State) (lv i : Nat) (f : Bar → Bar) : (s.modBar lv i f).fab = s.fab := by
  unfold modBar; split <;> rfl
@[simp] theorem State.modBar_dev (s : State) (lv i : Nat) (f : Bar → Bar) : (s.modBar lv i f).dev = s.dev := by
  unfold modBar; split <;> rfl

end Sys2Proof.Machine
end

