-- ==== Sys2Proof/Laws/Ops.lean ====
section
/-! SUPPORT. What each shared operation can do, said once: traps, parks, results, tokens, values in flight, accesses,
words of an operation. -/

namespace Sys2Proof.Machine

open Sys2Proof

/-! ## Memories left as they were -/

/-- Every memory of `t` is that of `s`: homes, exports, scratchpads, and what partitions keep. -/
structure SameStores (s t : State) : Prop where
  home : t.home = s.home
  fab : t.fab = s.fab
  parts : t.parts = s.parts
  spad : ∀ c, (t.coreAt c).spad = (s.coreAt c).spad

theorem SameStores.refl (s : State) : SameStores s s := ⟨rfl, rfl, rfl, fun _ => rfl⟩

theorem SameStores.trans {s t u : State} (h : SameStores s t) (k : SameStores t u) : SameStores s u :=
  ⟨k.home.trans h.home, k.fab.trans h.fab, k.parts.trans h.parts, fun c => (k.spad c).trans (h.spad c)⟩

/-- An update of the current core that keeps its scratchpad keeps every memory. -/
theorem sameStores_modCore (s : State) (f : Core → Core) (h : (f s.core).spad = s.core.spad) :
    SameStores s (s.modCore f) := by
  refine ⟨rfl, rfl, rfl, fun c => ?_⟩
  by_cases e : c = s.cur.val
  · subst e
    have : (s.modCore f).coreAt s.cur.val = f s.core := by
      have := State.coreAt_cur (s.modCore f); simpa using this
    rw [this, State.coreAt_cur, h]
  · rw [State.modCore_other s f e]

theorem sameStores_modCtx (s : State) (f : Ctx → Ctx) : SameStores s (s.modCtx f) := sameStores_modCore s _ rfl
theorem sameStores_modSys (s : State) (f : Sys → Sys) : SameStores s (s.modSys f) := sameStores_modCtx s _
theorem sameStores_modPipe (s : State) (f : Pipe → Pipe) : SameStores s (s.modPipe f) := sameStores_modCtx s _
theorem sameStores_modTask (s : State) (f : Task → Task) : SameStores s (s.modTask f) := sameStores_modCtx s _
theorem sameStores_result (s : State) (lat : Nat) (l : Landing) (g : BitVec 6) : SameStores s (s.result lat l g) :=
  sameStores_modCore s _ rfl
theorem sameStores_resS (s : State) (lat : Nat) (d : Reg) (v : DWord) : SameStores s (s.resS lat d v) :=
  sameStores_result s lat _ _
theorem sameStores_park (s : State) (p : Park) : SameStores s (s.park p) := sameStores_modPipe s _
theorem sameStores_newId (s : State) : SameStores s s.newId := ⟨rfl, rfl, rfl, fun _ => rfl⟩

/-- An update of core `c` that keeps its scratchpad keeps every memory. -/
theorem sameStores_modAt (s : State) (c : Nat) (f : Core → Core) (h : (f (s.coreAt c)).spad = (s.coreAt c).spad) :
    SameStores s (s.modAt c f) := by
  have parts : (s.modAt c f).home = s.home ∧ (s.modAt c f).fab = s.fab ∧ (s.modAt c f).parts = s.parts := by
    unfold State.modAt; split <;> exact ⟨rfl, rfl, rfl⟩
  refine ⟨parts.1, parts.2.1, parts.2.2, fun e => ?_⟩
  by_cases he : e = c
  · subst he
    by_cases hc : e < 320
    · rw [State.modAt_coreAt_self s f hc, h]
    · simp [State.modAt, hc]
  · rw [State.modAt_coreAt_ne s f he]

theorem sameStores_modOp (s : State) (c k : Nat) (f : Op → Op) : SameStores s (s.modOp c k f) := sameStores_modAt s c _ rfl
theorem sameStores_failOp (s : State) (c k : Nat) (e : BitVec 4) (d : Nat) : SameStores s (s.failOp c k e d) :=
  (sameStores_modAt s c _ rfl).trans (sameStores_modOp _ c k _)

/-! ## Results -/

/-- R41, R84: a landing writes one register of one file. -/
theorem Regs.land_cases (g : Regs) (l : Landing) :
    (∃ x, g.land l = { g with s := x }) ∨ (∃ x, g.land l = { g with c := x }) ∨ (∃ x, g.land l = { g with v := x })
    ∨ (∃ x, g.land l = { g with m := x }) ∨ (∃ x, g.land l = { g with q := x }) ∨ ∃ x, g.land l = { g with nz := x } := by
  cases l <;> unfold Regs.land
  case s r v => by_cases h : r = 0 <;> simp only [h, if_true, if_false] <;> exact .inl ⟨_, rfl⟩
  case m r x m => by_cases h : r = 0 <;> simp only [h, if_true, if_false] <;> exact .inr (.inr (.inr (.inl ⟨_, rfl⟩)))
  case c => exact .inr (.inl ⟨_, rfl⟩)
  case q => exact .inr (.inr (.inr (.inr (.inl ⟨_, rfl⟩))))
  case nz => exact .inr (.inr (.inr (.inr (.inr ⟨_, rfl⟩))))
  all_goals exact .inr (.inr (.inl ⟨_, rfl⟩))

/-- Ordering by due cycle loses no result and invents none. -/
theorem insertDue_perm (r : Result) (l : List Result) : (insertDue r l).Perm (r :: l) := by
  induction l with
  | nil => exact .refl _
  | cons x l ih =>
    unfold insertDue
    split
    · exact (ih.cons x).trans (.swap r x l)
    · exact .refl _

theorem byDue_perm (l : List Result) : (byDue l).Perm l := by
  have key : ∀ (l a : List Result), (l.foldl (fun o r => insertDue r o) a).Perm (l ++ a) := by
    intro l
    induction l with
    | nil => intro a; exact .refl _
    | cons x l ih =>
      intro a
      refine (ih _).trans ?_
      refine ((insertDue_perm x a).append_left l).trans ?_
      exact List.perm_middle
  simpa [byDue] using key l []

/-- R44: landing changes registers, FLAGS and marks alone. -/
theorem Ctx.land_keeps (x : Ctx) (r : Result) :
    (x.land r).pc = x.pc ∧ (x.land r).npc = x.npc ∧ (x.land r).toks = x.toks ∧ (x.land r).ops = x.ops
    ∧ (x.land r).task = x.task ∧ (x.land r).sys.mode = x.sys.mode := ⟨rfl, rfl, rfl, rfl, rfl, rfl⟩

/-! ## Traps -/

/-- R209, step 1: what a terminal cause does. -/
theorem State.takeTerminal_spec (s : State) (code : Byte) (async : Bool) (pc : BitVec 48) (info : DWord) :
    (s.takeTerminal code async pc info).core.run = .ending code (s.faultRecord code async pc info)
    ∧ (s.takeTerminal code async pc info).core.ctx.regs = s.core.ctx.regs
    ∧ (s.takeTerminal code async pc info).core.ctx.sys = s.core.ctx.sys
    ∧ (s.takeTerminal code async pc info).core.ctx.toks = s.core.ctx.toks
    ∧ (s.takeTerminal code async pc info).core.ctx.pipe.trapped = true
    ∧ SameStores s (s.takeTerminal code async pc info) := by
  refine ⟨by simp [takeTerminal], by simp [takeTerminal, Core.shelve], by simp [takeTerminal, Core.shelve],
    by simp [takeTerminal, Core.shelve], by simp [takeTerminal], ?_⟩
  unfold takeTerminal
  exact (sameStores_modCore s _ rfl).trans (sameStores_modPipe _ _)

/-- R207: taking a handled cause is one of three things. -/
theorem State.takeTrap_cases (s : State) (code : Byte) (info : DWord) (pc : BitVec 48) :
    (s.core.ctx.sys.priv = true ∧ s.takeTrap code info pc = s.takeTerminal 0x19 false pc (code.setWidth 64))
    ∨ (s.core.ctx.sys.priv = false ∧ s.core.ctx.sys.trapvec.getLsbD 48 = false
        ∧ s.takeTrap code info pc = s.takeTerminal code false pc info)
    ∨ (s.core.ctx.sys.priv = false ∧ s.core.ctx.sys.trapvec.getLsbD 48 = true
        ∧ s.takeTrap code info pc = s.modCtx (Ctx.trapEntry code info pc)) := by
  unfold takeTrap
  dsimp only
  cases hp : s.core.ctx.sys.priv
  · cases hv : s.core.ctx.sys.trapvec.getLsbD 48
    · exact .inr (.inl ⟨rfl, rfl, rfl⟩)
    · exact .inr (.inr ⟨rfl, rfl, rfl⟩)
  · exact .inl ⟨rfl, rfl⟩

/-- A trap changes no memory. -/
theorem sameStores_takeTrap (s : State) (code : Byte) (info : DWord) (pc : BitVec 48) :
    SameStores s (s.takeTrap code info pc) := by
  obtain ⟨_, h⟩ | ⟨_, _, h⟩ | ⟨_, _, h⟩ := s.takeTrap_cases code info pc <;> rw [h]
  · exact (s.takeTerminal_spec ..).2.2.2.2.2
  · exact (s.takeTerminal_spec ..).2.2.2.2.2
  · exact sameStores_modCtx s _

theorem sameStores_fault (s : State) (code : Byte) (info : DWord) : SameStores s (s.fault code info) :=
  sameStores_takeTrap s ..

theorem sameStores_returnFromTrap (s : State) : SameStores s s.returnFromTrap := by
  unfold State.returnFromTrap
  exact sameStores_modCtx s _

/-- R208: what ERET writes. -/
theorem State.returnFromTrap_spec (s : State) :
    s.returnFromTrap.core.ctx.npc = s.rd.ctx.sys.trappc.extractLsb' 0 48
    ∧ s.returnFromTrap.core.ctx.regs = s.core.ctx.regs
    ∧ s.returnFromTrap.core.ctx.sys.flags = s.core.ctx.sys.flags
    ∧ s.returnFromTrap.core.ctx.toks = s.core.ctx.toks := by
  simp [returnFromTrap]

/-! ## Tokens (R121 to R123) -/

/-- R123, R205: a token error resolves the token with no error and takes its cause. -/
theorem State.tokenError_cases (s : State) (t : Tok) :
    ∃ (f : Ctx → Ctx) (info : DWord),
      (∀ x, (f x).toks = x.toks.put t { pending := false, err := 0, inst := (s.core.ctx.toks.get t).inst,
                                        detail := (s.core.ctx.toks.get t).detail })
      ∧ (s.tokenError t = (s.modCtx f).takeTrap (kindCause (s.core.ctx.toks.get t).err) info s.rd.ctx.pc
        ∨ s.tokenError t = (s.modCtx f).takeTerminal (kindCause (s.core.ctx.toks.get t).err) false s.rd.ctx.pc info) := by
  unfold tokenError
  extract_lets e info s1
  refine ⟨fun x => { x with toks := x.toks.put t { e with pending := false, err := 0 } }, info, fun x => rfl, ?_⟩
  split
  · exact .inl rfl
  · exact .inr rfl

theorem sameStores_tokenError (s : State) (t : Tok) : SameStores s (s.tokenError t) := by
  obtain ⟨f, info, _, h | h⟩ := s.tokenError_cases t <;> rw [h]
  · exact (sameStores_modCtx s f).trans (sameStores_takeTrap _ ..)
  · exact (sameStores_modCtx s f).trans (State.takeTerminal_spec ..).2.2.2.2.2

/-- R122: the gate of an engine slot is one of three things. -/
theorem State.gate_cases (s : State) (t : Tok) (l : List Tok) (go : State → Out) :
    (s.rd.tokPending (t :: l) = true ∧ s.gate t l go = .next s)
    ∨ (∃ e ∈ t :: l, (s.rd.ctx.toks.get e).err ≠ 0 ∧ s.rd.tokPending (t :: l) = false
        ∧ s.gate t l go = .next (s.tokenError e))
    ∨ (s.rd.tokPending (t :: l) = false ∧ (∀ e ∈ t :: l, (s.rd.ctx.toks.get e).err = 0) ∧ s.gate t l go = go s) := by
  unfold gate gateToks
  cases hp : s.rd.tokPending (t :: l)
  · cases he : s.rd.tokErr (t :: l) with
    | some e =>
      refine .inr (.inl ⟨e, List.mem_of_find?_eq_some he, ?_, rfl, by simp⟩)
      have := List.find?_some he
      simpa using this
    | none =>
      refine .inr (.inr ⟨rfl, fun e hm => ?_, by simp⟩)
      have := List.find?_eq_none.mp he e hm
      simpa using this
  · exact .inl ⟨rfl, by simp⟩

/-- R122: an operation starts with its token Pending, behind those under way; nothing else of the context changes. -/
theorem State.start_spec (s : State) (op : Op) :
    (s.start op).core.ctx.ops = s.core.ctx.ops ++ [op]
    ∧ (s.start op).core.ctx.toks = s.core.ctx.toks.put op.tok { pending := true, err := 0, inst := op.inst, detail := 0 }
    ∧ (s.start op).core.ctx.regs = s.core.ctx.regs ∧ (s.start op).core.ctx.sys = s.core.ctx.sys
    ∧ (s.start op).core.ctx.pipe = s.core.ctx.pipe ∧ (s.start op).fresh = s.fresh + 1 ∧ SameStores s (s.start op) := by
  have hc : s.newId.core = s.core := rfl
  refine ⟨by simp [start, hc], by simp [start, hc], by simp [start, hc], by simp [start, hc], by simp [start, hc], rfl, ?_⟩
  exact (sameStores_newId s).trans (sameStores_modCtx _ _)

/-- R290: a token resolves. -/
theorem State.resolveTok_spec (s : State) {c : Nat} (k : Nat) (op : Op) (h : c < 320) :
    ((s.resolveTok c k op).coreAt c).ctx.toks
        = (s.coreAt c).ctx.toks.put op.tok { pending := false, err := op.err, inst := op.inst, detail := op.detail }
    ∧ ((s.resolveTok c k op).coreAt c).ctx.ops = dropAt (s.coreAt c).ctx.ops k
    ∧ ((s.resolveTok c k op).coreAt c).ctx.regs = (s.coreAt c).ctx.regs
    ∧ ((s.resolveTok c k op).coreAt c).ctx.task.digest = (s.coreAt c).ctx.task.digest + op.part
    ∧ SameStores s (s.resolveTok c k op) := by
  refine ⟨?_, ?_, ?_, ?_, sameStores_modAt s c _ rfl⟩ <;> simp [resolveTok, h, Ctx.raise, Core.wake]

/-! ## Interlocked values and accesses (R48, R111 to R118) -/

/-- R48, R108: an interlocked value begins. -/
theorem State.await_spec (s : State) (dest : WaitDest) (kind : WaitKind) (need : Nat) (got : List (Nat × DWord)) :
    (s.await dest kind need got).core.ctx.pipe.waits
        = s.core.ctx.pipe.waits ++ [{ id := s.fresh, dest, kind, need, got, sigma := s.sigma }]
    ∧ (s.await dest kind need got).core.ctx.regs = s.core.ctx.regs
    ∧ (s.await dest kind need got).core.ctx.pipe.inflight = s.core.ctx.pipe.inflight
    ∧ (s.await dest kind need got).core.queues = s.core.queues
    ∧ (s.await dest kind need got).fresh = s.fresh + 1 ∧ SameStores s (s.await dest kind need got) := by
  have hc : s.newId.core = s.core := rfl
  refine ⟨?_, ?_, ?_, ?_, rfl, ?_⟩
  case refine_5 => unfold await; exact (sameStores_newId s).trans (sameStores_modPipe _ _)
  all_goals cases dest <;> simp only [await, State.modPipe_core, hc, Pipe.markS] <;> (try split) <;> rfl

/-- R115: a load that misses enters its queue, and counts one event where its object is local. -/
theorem State.queueLoad_spec (s : State) (a : Acc) (cap : CReg) :
    ∃ q b, b.items = a.items ∧ b.via = a.via ∧ b.kind = a.kind ∧ b.wait = a.wait ∧ b.id = s.fresh
      ∧ s.queueLoad a cap = (if a.via.kind = 3 then s.newId.modCore fun c => c.enq q (.acc b)
          else (s.newId.modCore fun c => c.enq q (.acc b)).count 10) :=
  ⟨s.core.queueFor cap a.via a.line, { a with id := s.fresh, xl := s.core.cached a.via a.off false, start := s.cyc },
    rfl, rfl, rfl, rfl, rfl, rfl⟩

/-- R115, R127: a load is served by the L1G, waits for a FENCE behind which it would hit, or enters a queue. -/
theorem State.submitLoad_cases (s : State) (a : Acc) (cap : CReg) :
    (∃ l got, s.rd.hit a.via a.line = some l ∧ s.core.fenced = false
      ∧ s.submitLoad a cap = (s.modPipe fun p => p.give (a.wait.getD 0) got).count 9)
    ∨ ((s.rd.hit a.via a.line).isSome ∧ s.core.fenced = true
      ∧ s.submitLoad a cap = s.newId.modCore fun c =>
          { c with hits := c.hits ++ [({ a with id := s.fresh, fenced := true }, cap)] })
    ∨ ∃ q b, b.items = a.items ∧ b.via = a.via ∧ b.kind = a.kind ∧ b.wait = a.wait ∧ b.id = s.fresh
      ∧ s.submitLoad a cap = (if a.via.kind = 3 then s.newId.modCore fun c => c.enq q (.acc b)
          else (s.newId.modCore fun c => c.enq q (.acc b)).count 10) := by
  unfold submitLoad
  extract_lets c q own
  split
  · next l h =>
    split at h
    · cases h
    · split
      · next hf => exact .inr (.inl ⟨by simp [h], hf, rfl⟩)
      · next hf => exact .inl ⟨l, _, h, by simpa [c] using hf, rfl⟩
  · exact .inr (.inr (queueLoad_spec s a cap))

/-- R115: a store or an atomic enters a queue, and the core's copy of its line is invalid. -/
theorem State.submitStore_spec (s : State) (a : Acc) (cap : CReg) :
    ∃ q b, b.items = a.items ∧ b.via = a.via ∧ b.kind = a.kind ∧ b.wait = a.wait ∧ b.id = s.fresh
      ∧ s.submitStore a cap = s.newId.modCore (fun c => (c.dropLine a.via.part a.via.obj a.line).enq q (.acc b))
      ∧ SameStores s (s.submitStore a cap) := by
  unfold submitStore
  extract_lets c q b
  exact ⟨q, b, rfl, rfl, rfl, rfl, rfl, rfl, (sameStores_newId s).trans (sameStores_modCore _ _ rfl)⟩

/-- R53: what a failed check says, in the order of the checks. -/
theorem checkGlob_none (k : Cap) (o : Int) (w right : Nat) (bad : List Nat) :
    checkGlob k o w right bad = none ↔
      0 ≤ o ∧ o + w ≤ k.len ∧ k.has right = true ∧ bad.contains k.kind = false ∧ o % w = 0 := by
  unfold checkGlob
  split
  · next h => simp only [Bool.or_eq_true, decide_eq_true_eq] at h; simp only [reduceCtorEq, false_iff]; omega
  · next h =>
    simp only [Bool.or_eq_true, decide_eq_true_eq, not_or, Int.not_lt] at h
    split
    · next h2 => simp_all
    · split
      · next h3 => simp only [reduceCtorEq, false_iff]; simp_all
      · split
        · next h4 => simp only [reduceCtorEq, false_iff]; simp_all
        · next h2 h3 h4 => simp_all

/-! ## Homes (R233, R336) -/

/-- R336: a write at a home changes its bytes alone, and the dirty set. -/
theorem Home.write_spec (h : Home) (a n v : Nat) :
    (h.write a n v).mem = h.mem.writeLE a v n ∧ (h.write a n v).bank = h.bank ∧ (h.write a n v).tags = h.tags
    ∧ (h.write a n v).lost = h.lost ∧ (h.write a n v).gens = h.gens := ⟨rfl, rfl, rfl, rfl, rfl⟩

/-- The form of both images is kept by what performs at a home. -/
theorem Home.wf_write {h : Home} (hm : h.mem.wf = true) (a n v : Nat) : (h.write a n v).mem.wf = true := by
  unfold Home.write
  exact Memory.wf_writeLE hm a v n

theorem Home.wf_writeItems {h : Home} (t : Xlat) (l : List Item) (hm : h.mem.wf = true) : (h.writeItems t l).mem.wf = true := by
  induction l generalizing h with
  | nil => exact hm
  | cons i l ih => exact ih (Home.wf_write hm ..)

theorem Home.writeItems_bank (h : Home) (t : Xlat) (l : List Item) : (h.writeItems t l).bank = h.bank := by
  induction l generalizing h with
  | nil => rfl
  | cons i l ih => exact ih _

theorem Home.wf_writeBack {h : Home} (hb : h.bank.wf = true) (l : Nat) : (h.writeBack l).bank.wf = true := by
  unfold Home.writeBack; split
  · generalize h.mem.bytes (l * 64) 64 = b
    exact Memory.wf_setBytes hb (l * 64) b
  · exact hb

theorem Home.wf_drop {h : Home} (hm : h.mem.wf = true) (l : Nat) : (h.drop l).mem.wf = true := by
  unfold Home.drop; split
  · generalize h.bank.bytes (l * 64) 64 = b
    exact Memory.wf_setBytes hm (l * 64) b
  · exact hm

theorem Home.wf_place {h : Home} (hm : h.mem.wf = true) (hb : h.bank.wf = true) (a : Nat) (b : List Byte) :
    (h.place a b).mem.wf = true ∧ (h.place a b).bank.wf = true := by
  unfold Home.place
  exact ⟨Memory.wf_setBytes hm a b, Memory.wf_setBytes hb a b⟩

/-- A frame cut out of a memory stands in canonical form from 0 on (R311, R316). -/
theorem Memory.wf_frame {m : Memory} (h : m.wf = true) (x : Nat) : (m.frame x).wf = true := by
  have key : ∀ (l : Memory) (lo : Nat), Memory.wfFrom (x + lo) l = true → (∀ c ∈ l, x ≤ c.1) →
      Memory.wfFrom lo (l.map fun c => (c.1 - x, c.2)) = true := by
    intro l
    induction l with
    | nil => intros; rfl
    | cons c l ih =>
      intro lo hl hx
      obtain ⟨a, b⟩ := c
      have ha : x ≤ a := hx _ List.mem_cons_self
      rw [Memory.wfFrom_cons] at hl
      simp only [List.map_cons]
      rw [Memory.wfFrom_cons]
      refine ⟨by omega, hl.2.1, ih _ ?_ fun c hc => hx c (List.mem_cons_of_mem _ hc)⟩
      have : x + (a - x + 1) = a + 1 := by omega
      rw [this]; exact hl.2.2
  have hf := Memory.wfFrom_filter (fun c => x ≤ c.1 && c.1 < x + 2 ^ 21) h
  unfold Memory.frame
  have hm : ∀ c ∈ m.filter (fun c => decide (x ≤ c.1) && decide (c.1 < x + 2 ^ 21)), x ≤ c.1 := by
    intro c hc
    have := (List.mem_filter.mp hc).2
    simp only [Bool.and_eq_true, decide_eq_true_eq] at this
    exact this.1
  apply key _ 0 _ hm
  revert hf hm
  generalize m.filter (fun c => decide (x ≤ c.1) && decide (c.1 < x + 2 ^ 21)) = l
  intro hf hm
  cases l with
  | nil => rfl
  | cons c l =>
    obtain ⟨a, b⟩ := c
    rw [Memory.wfFrom_cons] at hf ⊢
    exact ⟨hm _ List.mem_cons_self, hf.2⟩

/-- A frame put into a memory keeps its form, whatever the bytes (R316). -/
theorem Memory.wf_setFrame {m : Memory} (h : m.wf = true) (x : Nat) (b : Memory) : (m.setFrame x b).wf = true := by
  unfold Memory.setFrame
  have : ∀ (l : Memory) (m : Memory), m.wf = true →
      Memory.wf (l.foldl (fun (m : Memory) c => if c.1 < 2 ^ 21 then m.write (x + c.1) c.2 else m) m) = true := by
    intro l
    induction l with
    | nil => exact fun _ h => h
    | cons c l ih => exact fun m h => ih _ (by dsimp only; split <;> first | exact Memory.wf_write h _ _ | exact h)
  exact this b _ (Memory.wf_clear h _ _)

/-- What Bamosh does to a frame keeps the form of both images (R316, R317). -/
theorem Home.wf_zeroFrame {h : Home} (hm : h.mem.wf = true) (hb : h.bank.wf = true) (f : Nat) :
    (h.zeroFrame f).mem.wf = true ∧ (h.zeroFrame f).bank.wf = true :=
  ⟨Memory.wf_clear hm _ _, Memory.wf_clear hb _ _⟩

theorem Home.wf_fillFrame {h : Home} (hm : h.mem.wf = true) (hb : h.bank.wf = true) (f : Nat) (b : Memory) :
    (h.fillFrame f b).mem.wf = true ∧ (h.fillFrame f b).bank.wf = true :=
  have z := Home.wf_zeroFrame hm hb f
  ⟨Memory.wf_setFrame z.1 _ _, Memory.wf_setFrame z.2 _ _⟩

theorem Home.wf_moveFrame {h : Home} (hm : h.mem.wf = true) (hb : h.bank.wf = true) (f g : Nat) :
    (h.moveFrame f g).mem.wf = true ∧ (h.moveFrame f g).bank.wf = true := Home.wf_fillFrame hm hb g _

theorem Home.wf_loadFrames {h : Home} (l : List Nat) (b : List Byte) (hm : h.mem.wf = true) (hb : h.bank.wf = true) :
    (h.loadFrames l b).mem.wf = true ∧ (h.loadFrames l b).bank.wf = true := by
  induction l generalizing h b with
  | nil => exact ⟨hm, hb⟩
  | cons f l ih =>
    have z := Home.wf_zeroFrame hm hb f
    have y := Home.wf_place z.1 z.2 (f * 2 ^ 21) (b.take (2 ^ 21))
    exact ih _ y.1 y.2

/-- Lines dropped or written back, any number of them, keep the form of both images (R315, R318). -/
theorem Home.wf_flush {h : Home} (f : Nat → Bool) (hm : h.mem.wf = true) (hb : h.bank.wf = true) :
    (h.flush f).mem.wf = true ∧ (h.flush f).bank.wf = true := by
  have : ∀ (l : List Nat) (h : Home), h.mem.wf = true → h.bank.wf = true →
      (l.foldl Home.drop h).mem.wf = true ∧ (l.foldl Home.drop h).bank.wf = true := by
    intro l
    induction l with
    | nil => exact fun _ hm hb => ⟨hm, hb⟩
    | cons x l ih =>
      intro h hm hb
      refine ih _ (Home.wf_drop hm x) ?_
      unfold Home.drop
      split <;> exact hb
  exact this _ h hm hb

/-- The homes of an export keep their form under what performs there and under the restore (R294, R378). -/
theorem Export.wf_writeItems {e : Export} (l : List Item) (h : e.mem.wf = true) : (e.writeItems l).mem.wf = true := by
  have : ∀ (l : List Item) (m : Memory), m.wf = true →
      Memory.wf (l.foldl (fun (m : Memory) i => m.writeLE i.off i.data.toNat i.width) m) = true := by
    intro l
    induction l with
    | nil => exact fun _ h => h
    | cons i l ih => exact fun m h => ih _ (Memory.wf_writeLE h _ _ _)
  exact this l _ h

theorem Export.wf_restore {e : Export} (h : e.mem.wf = true) (a n : Nat) (c : Memory) : (e.restore a n c).mem.wf = true := by
  have : (e.restore a n c).mem = (e.mem.clear a n).setBytes a (c.bytes a n) := rfl
  rw [this]
  generalize c.bytes a n = b
  exact Memory.wf_setBytes (Memory.wf_clear h _ _) _ _

/-! ## Scratchpads -/

theorem Core.wf_spadWrite {c : Core} (h : c.spad.wf = true) (a n v : Nat) : (c.spadWrite a n v).spad.wf = true := by
  have : (c.spadWrite a n v).spad = c.spad.writeLE a v n := rfl
  rw [this]
  exact Memory.wf_writeLE h a v n

theorem Core.wf_engWrite {c : Core} (h : c.spad.wf = true) (a n v : Nat) : (c.engWrite a n v).spad.wf = true := by
  have : (c.engWrite a n v).spad = c.spad.writeLE a v n := rfl
  rw [this]
  exact Memory.wf_writeLE h a v n

end Sys2Proof.Machine
end

