-- ==== Sys2Proof/Laws/PerInstr.lean ====
section
/-! SUPPORT. The family of per-instruction lemmas: the decoder reads back the slot that the encoder writes. -/

set_option Elab.async false

namespace Sys2Proof.Laws

open Sys2Proof

/-! ## Fields of a few forms -/

theorem hi_of_lt {b : Reg} {k : Nat} (h : b.toNat < 2 ^ k) : hi b k = false := by simp [hi]; omega
theorem hi3_of_lt {b : Reg} (h : b.toNat < 8) : hi b 3 = false := hi_of_lt h
theorem wide4_zero (x : BitVec 4) : (x.setWidth 6 = 0#6) = (x = 0#4) := by
  simp only [eq_iff_iff, ← BitVec.toNat_inj]; simp; omega
theorem mma_kind (env : Env) (a b : Reg) (w : MmaWord) (h : Wf.mma env a b w = true) :
    (w.bkind == 3 || (w.bkind == 2 && hi b 3)) = false := by
  simp only [Wf.mma, Bool.and_eq_true] at h
  obtain ⟨⟨-, h⟩, -⟩ := h
  rcases two_cases w.bkind with e | e | e | e <;> simp [e] at h ⊢
  exact hi3_of_lt h.1
theorem pack_pos (v : BitVec 1) (p : BitVec 3) (w : BitVec 2) : badPack (v ++ (p ++ w)) = !Wf.packPos p w := by
  revert v p w; decide
theorem creg_high (c : CReg) : (c.setWidth 26).extractLsb' 4 22 = 0 := by revert c; decide
theorem creg_low (c : CReg) : (c.setWidth 26).extractLsb' 0 4 = c := by revert c; decide
theorem live_high (v : BitVec 35) (h : v.msb = false) : (v.extractLsb' 9 26).msb = false := by
  rw [BitVec.msb_eq_getLsbD_last] at h ⊢; simpa using h
theorem live_join (v : BitVec 35) : v.extractLsb' 9 26 ++ (v.extractLsb' 3 6 ++ v.extractLsb' 0 3 : BitVec 9) = v := by
  apply BitVec.eq_of_getLsbD_eq; intro i hi
  rw [BitVec.getLsbD_append, BitVec.getLsbD_append]
  simp only [BitVec.getLsbD_extractLsb']
  by_cases h3 : i < 3
  · simp [h3, show i < 9 by omega]
  · by_cases h9 : i < 9
    · simp [h3, h9, show i - 3 < 6 by omega, show 3 + (i - 3) = i by omega]
    · simp [h9, show i - 9 < 26 by omega, show 9 + (i - 9) = i by omega]
theorem live_short (v : BitVec 35) : (v.extractLsb' 3 6 ++ v.extractLsb' 0 3 : BitVec 9) = v.extractLsb' 0 9 := by
  apply BitVec.eq_of_getLsbD_eq; intro i hi
  rw [BitVec.getLsbD_append]
  simp only [BitVec.getLsbD_extractLsb']
  by_cases h3 : i < 3
  · simp [h3, hi]
  · simp [h3, hi, show i - 3 < 6 by omega, show 3 + (i - 3) = i by omega]
theorem red_fields (o t : BitVec 2) (ho : ¬ o = 3#2) (ht : ¬ t = 1#2) : badRed (0#2 ++ (o ++ t)) = false := by
  rcases two_cases o with rfl | rfl | rfl | rfl <;> rcases two_cases t with rfl | rfl | rfl | rfl <;> first | rfl |
      contradiction
theorem prob_rows (a al : Reg) (r : BitVec 3) (h : Wf.prob a al r = true) : r.toNat < 5 := by
  simp [Wf.prob] at h; omega

theorem decodeSlot_typed (env : Env) (k : BitVec 5) (t : BitVec 2) (d a b : Reg) (q : BitVec 3) (x : Ext)
    (hk : k.toNat < 13) : decodeSlot env ⟨false, 1, k ++ t, d, a, b, q⟩ x = decTyped k.toNat t d a b q := by
  have h1 : (k ++ t).toNat = 4 * k.toNat + t.toNat := by
    rw [BitVec.toNat_append, Nat.shiftLeft_eq, Nat.mul_comm, ← Nat.two_pow_add_eq_or_of_lt t.isLt]
  have h2 : (k ++ t).setWidth 2 = t := by
    apply BitVec.eq_of_getLsbD_eq; intro i hi; rw [BitVec.getLsbD_setWidth, BitVec.getLsbD_append]; simp [hi]
  have h3 : (k ++ t).toNat / 4 = k.toNat := by omega
  show (if (k ++ t).toNat < 0x34 then decTyped ((k ++ t).toNat / 4) ((k ++ t).setWidth 2) d a b q else _) = _
  rw [if_pos (by omega), h2, h3]

/-! ## One lemma for each constructor -/

namespace RoundTrip

/-- A well-formed instruction has an encoding, and its slot with its extensions decodes to it. -/
def Statement (i : Instr) : Prop :=
  ∀ env : Env, i.wf env = true → ∃ e, encodeSlot i = some e ∧ decodeSlot env e.slot ⟨e.imm, e.toks⟩ = .ok i

theorem add (y0 y1 y2 : Reg) : Statement (.add y0 y1 y2) :=
  fun _ _ => ⟨_, rfl, rfl⟩

theorem addi (y0 y1 : Reg) (y2 : BitVec 35) : Statement (.addi y0 y1 y2) := by
  intro env h
  refine ⟨_, rfl, ?_⟩
  show (.ok (.addi y0 y1 (immBQ (extFor 9 y2) (y2.extractLsb' 3 6) (y2.extractLsb' 0 3))) : Except Nat Instr) = _
  simp only [immBQ_extFor]

theorem sub (y0 y1 y2 : Reg) : Statement (.sub y0 y1 y2) :=
  fun _ _ => ⟨_, rfl, rfl⟩

theorem mul (y0 y1 y2 : Reg) : Statement (.mul y0 y1 y2) :=
  fun _ _ => ⟨_, rfl, rfl⟩

theorem mulh (y0 y1 y2 : Reg) : Statement (.mulh y0 y1 y2) :=
  fun _ _ => ⟨_, rfl, rfl⟩

theorem mulhu (y0 y1 y2 : Reg) : Statement (.mulhu y0 y1 y2) :=
  fun _ _ => ⟨_, rfl, rfl⟩

theorem div (y0 y1 y2 : Reg) : Statement (.div y0 y1 y2) :=
  fun _ _ => ⟨_, rfl, rfl⟩

theorem divu (y0 y1 y2 : Reg) : Statement (.divu y0 y1 y2) :=
  fun _ _ => ⟨_, rfl, rfl⟩

theorem rem (y0 y1 y2 : Reg) : Statement (.rem y0 y1 y2) :=
  fun _ _ => ⟨_, rfl, rfl⟩

theorem remu (y0 y1 y2 : Reg) : Statement (.remu y0 y1 y2) :=
  fun _ _ => ⟨_, rfl, rfl⟩

theorem and (y0 y1 y2 : Reg) : Statement (.and y0 y1 y2) :=
  fun _ _ => ⟨_, rfl, rfl⟩

theorem andi (y0 y1 : Reg) (y2 : BitVec 35) : Statement (.andi y0 y1 y2) := by
  intro env h
  refine ⟨_, rfl, ?_⟩
  show (.ok (.andi y0 y1 (immBQ (extFor 9 y2) (y2.extractLsb' 3 6) (y2.extractLsb' 0 3))) : Except Nat Instr) = _
  simp only [immBQ_extFor]

theorem or (y0 y1 y2 : Reg) : Statement (.or y0 y1 y2) :=
  fun _ _ => ⟨_, rfl, rfl⟩

theorem ori (y0 y1 : Reg) (y2 : BitVec 35) : Statement (.ori y0 y1 y2) := by
  intro env h
  refine ⟨_, rfl, ?_⟩
  show (.ok (.ori y0 y1 (immBQ (extFor 9 y2) (y2.extractLsb' 3 6) (y2.extractLsb' 0 3))) : Except Nat Instr) = _
  simp only [immBQ_extFor]

theorem xor (y0 y1 y2 : Reg) : Statement (.xor y0 y1 y2) :=
  fun _ _ => ⟨_, rfl, rfl⟩

theorem xori (y0 y1 : Reg) (y2 : BitVec 35) : Statement (.xori y0 y1 y2) := by
  intro env h
  refine ⟨_, rfl, ?_⟩
  show (.ok (.xori y0 y1 (immBQ (extFor 9 y2) (y2.extractLsb' 3 6) (y2.extractLsb' 0 3))) : Except Nat Instr) = _
  simp only [immBQ_extFor]

theorem shl (y0 y1 y2 : Reg) : Statement (.shl y0 y1 y2) :=
  fun _ _ => ⟨_, rfl, rfl⟩

theorem shli (y0 y1 : Reg) (y2 : BitVec 6) : Statement (.shli y0 y1 y2) := by
  intro env h
  refine ⟨_, rfl, ?_⟩
  show (chk [(4, ((y2.extractLsb' 3 3).setWidth 6).toNat ≥ 8)] (.shli y0 y1 (((y2.extractLsb' 3 3).setWidth
      6).extractLsb' 0 3 ++ (y2.extractLsb' 0 3))) : Except Nat Instr) = _
  simp only [join_3_3, low_of_wide3, wide3_lt]
  simp_all [chk]

theorem shr (y0 y1 y2 : Reg) : Statement (.shr y0 y1 y2) :=
  fun _ _ => ⟨_, rfl, rfl⟩

theorem shri (y0 y1 : Reg) (y2 : BitVec 6) : Statement (.shri y0 y1 y2) := by
  intro env h
  refine ⟨_, rfl, ?_⟩
  show (chk [(4, ((y2.extractLsb' 3 3).setWidth 6).toNat ≥ 8)] (.shri y0 y1 (((y2.extractLsb' 3 3).setWidth
      6).extractLsb' 0 3 ++ (y2.extractLsb' 0 3))) : Except Nat Instr) = _
  simp only [join_3_3, low_of_wide3, wide3_lt]
  simp_all [chk]

theorem sra (y0 y1 y2 : Reg) : Statement (.sra y0 y1 y2) :=
  fun _ _ => ⟨_, rfl, rfl⟩

theorem srai (y0 y1 : Reg) (y2 : BitVec 6) : Statement (.srai y0 y1 y2) := by
  intro env h
  refine ⟨_, rfl, ?_⟩
  show (chk [(4, ((y2.extractLsb' 3 3).setWidth 6).toNat ≥ 8)] (.srai y0 y1 (((y2.extractLsb' 3 3).setWidth
      6).extractLsb' 0 3 ++ (y2.extractLsb' 0 3))) : Except Nat Instr) = _
  simp only [join_3_3, low_of_wide3, wide3_lt]
  simp_all [chk]

theorem slt (y0 y1 y2 : Reg) : Statement (.slt y0 y1 y2) :=
  fun _ _ => ⟨_, rfl, rfl⟩

theorem sltu (y0 y1 y2 : Reg) : Statement (.sltu y0 y1 y2) :=
  fun _ _ => ⟨_, rfl, rfl⟩

theorem slti (y0 y1 : Reg) (y2 : BitVec 35) : Statement (.slti y0 y1 y2) := by
  intro env h
  refine ⟨_, rfl, ?_⟩
  show (.ok (.slti y0 y1 (immBQ (extFor 9 y2) (y2.extractLsb' 3 6) (y2.extractLsb' 0 3))) : Except Nat Instr) = _
  simp only [immBQ_extFor]

theorem seq (y0 y1 y2 : Reg) : Statement (.seq y0 y1 y2) :=
  fun _ _ => ⟨_, rfl, rfl⟩

theorem min (y0 y1 y2 : Reg) : Statement (.min y0 y1 y2) :=
  fun _ _ => ⟨_, rfl, rfl⟩

theorem max (y0 y1 y2 : Reg) : Statement (.max y0 y1 y2) :=
  fun _ _ => ⟨_, rfl, rfl⟩

theorem minu (y0 y1 y2 : Reg) : Statement (.minu y0 y1 y2) :=
  fun _ _ => ⟨_, rfl, rfl⟩

theorem maxu (y0 y1 y2 : Reg) : Statement (.maxu y0 y1 y2) :=
  fun _ _ => ⟨_, rfl, rfl⟩

theorem sel (y0 y1 y2 : Reg) : Statement (.sel y0 y1 y2) :=
  fun _ _ => ⟨_, rfl, rfl⟩

theorem clz (y0 y1 : Reg) : Statement (.clz y0 y1) :=
  fun _ _ => ⟨_, rfl, rfl⟩

theorem ctz (y0 y1 : Reg) : Statement (.ctz y0 y1) :=
  fun _ _ => ⟨_, rfl, rfl⟩

theorem popc (y0 y1 : Reg) : Statement (.popc y0 y1) :=
  fun _ _ => ⟨_, rfl, rfl⟩

theorem li (y0 : Reg) (y1 : BitVec 35) : Statement (.li y0 y1) := by
  intro env h
  refine ⟨_, rfl, ?_⟩
  show (chk [(4, (0 : Reg) != 0)] (.li y0 (immBQ (extFor 9 y1) (y1.extractLsb' 3 6) (y1.extractLsb' 0 3))) : Except
      Nat Instr) = _
  simp only [immBQ_extFor]
  simp_all [chk]

theorem mov (y0 y1 : Reg) : Statement (.mov y0 y1) :=
  fun _ _ => ⟨_, rfl, rfl⟩

theorem lds (y0 y1 : Reg) (y2 : BitVec 32) (y3 : BitVec 3) : Statement (.lds y0 y1 y2 y3) := by
  intro env h
  replace h : (y3 != 7 : Bool) = true := h
  refine ⟨_, rfl, ?_⟩
  show (chk [(2, y3 == 7)] (.lds y0 y1 (imm6 (extFor 6 y2) (y2.extractLsb' 0 6)) y3) : Except Nat Instr) = _
  simp only [imm6_extFor]
  simp_all [chk]

theorem sts (y0 y1 : Reg) (y2 : BitVec 32) (y3 : BitVec 3) : Statement (.sts y0 y1 y2 y3) := by
  intro env h
  replace h : (y3.toNat < 4 : Bool) = true := h
  refine ⟨_, rfl, ?_⟩
  show (chk [(2, y3.toNat ≥ 4)] (.sts y0 y1 (imm6 (extFor 6 y2) (y2.extractLsb' 0 6)) y3) : Except Nat Instr) = _
  simp only [imm6_extFor]
  simp_all [chk]

theorem ldg (y0 y1 : Reg) (y2 : CReg) (y3 : BitVec 26) (y4 : BitVec 3) : Statement (.ldg y0 y1 y2 y3 y4) := by
  intro env h
  replace h : (y4 != 7 : Bool) = true := h
  refine ⟨_, rfl, ?_⟩
  show (chk [(2, y4 == 7), (3, hi (y2.setWidth 6) 4)] (.ldg y0 y1 ((y2.setWidth 6).setWidth 4) (imm0 (ext0 y3)) y4)
      : Except Nat Instr) = _
  simp only [imm0_ext0]
  simp_all [chk, hi_setWidth]

theorem stg (y0 y1 : Reg) (y2 : CReg) (y3 : BitVec 26) (y4 : BitVec 3) : Statement (.stg y0 y1 y2 y3 y4) := by
  intro env h
  replace h : (y4.toNat < 4 : Bool) = true := h
  refine ⟨_, rfl, ?_⟩
  show (chk [(2, y4.toNat ≥ 4), (3, hi (y2.setWidth 6) 4)] (.stg y0 y1 ((y2.setWidth 6).setWidth 4) (imm0 (ext0 y3))
      y4) : Except Nat Instr) = _
  simp only [imm0_ext0]
  simp_all [chk, hi_setWidth]

theorem atadd (y0 y1 y2 : Reg) (y3 : AtWord) : Statement (.atadd y0 y1 y2 y3) := by
  intro env h
  replace h : (y3.scope.toNat < 6 : Bool) = true := h
  refine ⟨_, rfl, ?_⟩
  show (chk [(2, 0x28 == 0x30 && (bit y3.wide ++ y3.ord : BitVec 3).getLsbD 2), (4, (AtWord.bits y3).extractLsb' 16
      3 != 0 || (AtWord.of (AtWord.bits y3) (bit y3.wide ++ y3.ord : BitVec 3)).scope.toNat ≥ 6 || (0x28 == 0x2F &&
      y2 == 63))] (.atadd y0 y1 y2 (AtWord.of (AtWord.bits y3) (bit y3.wide ++ y3.ord : BitVec 3))) : Except Nat
      Instr) = _
  simp only [b_2_high, AtWord.of_bits, AtWord.bits_zero]
  simp_all [chk]

theorem atmin (y0 y1 y2 : Reg) (y3 : AtWord) : Statement (.atmin y0 y1 y2 y3) := by
  intro env h
  replace h : (y3.scope.toNat < 6 : Bool) = true := h
  refine ⟨_, rfl, ?_⟩
  show (chk [(2, 0x29 == 0x30 && (bit y3.wide ++ y3.ord : BitVec 3).getLsbD 2), (4, (AtWord.bits y3).extractLsb' 16
      3 != 0 || (AtWord.of (AtWord.bits y3) (bit y3.wide ++ y3.ord : BitVec 3)).scope.toNat ≥ 6 || (0x29 == 0x2F &&
      y2 == 63))] (.atmin y0 y1 y2 (AtWord.of (AtWord.bits y3) (bit y3.wide ++ y3.ord : BitVec 3))) : Except Nat
      Instr) = _
  simp only [b_2_high, AtWord.of_bits, AtWord.bits_zero]
  simp_all [chk]

theorem atmax (y0 y1 y2 : Reg) (y3 : AtWord) : Statement (.atmax y0 y1 y2 y3) := by
  intro env h
  replace h : (y3.scope.toNat < 6 : Bool) = true := h
  refine ⟨_, rfl, ?_⟩
  show (chk [(2, 0x2A == 0x30 && (bit y3.wide ++ y3.ord : BitVec 3).getLsbD 2), (4, (AtWord.bits y3).extractLsb' 16
      3 != 0 || (AtWord.of (AtWord.bits y3) (bit y3.wide ++ y3.ord : BitVec 3)).scope.toNat ≥ 6 || (0x2A == 0x2F &&
      y2 == 63))] (.atmax y0 y1 y2 (AtWord.of (AtWord.bits y3) (bit y3.wide ++ y3.ord : BitVec 3))) : Except Nat
      Instr) = _
  simp only [b_2_high, AtWord.of_bits, AtWord.bits_zero]
  simp_all [chk]

theorem atand (y0 y1 y2 : Reg) (y3 : AtWord) : Statement (.atand y0 y1 y2 y3) := by
  intro env h
  replace h : (y3.scope.toNat < 6 : Bool) = true := h
  refine ⟨_, rfl, ?_⟩
  show (chk [(2, 0x2B == 0x30 && (bit y3.wide ++ y3.ord : BitVec 3).getLsbD 2), (4, (AtWord.bits y3).extractLsb' 16
      3 != 0 || (AtWord.of (AtWord.bits y3) (bit y3.wide ++ y3.ord : BitVec 3)).scope.toNat ≥ 6 || (0x2B == 0x2F &&
      y2 == 63))] (.atand y0 y1 y2 (AtWord.of (AtWord.bits y3) (bit y3.wide ++ y3.ord : BitVec 3))) : Except Nat
      Instr) = _
  simp only [b_2_high, AtWord.of_bits, AtWord.bits_zero]
  simp_all [chk]

theorem ator (y0 y1 y2 : Reg) (y3 : AtWord) : Statement (.ator y0 y1 y2 y3) := by
  intro env h
  replace h : (y3.scope.toNat < 6 : Bool) = true := h
  refine ⟨_, rfl, ?_⟩
  show (chk [(2, 0x2C == 0x30 && (bit y3.wide ++ y3.ord : BitVec 3).getLsbD 2), (4, (AtWord.bits y3).extractLsb' 16
      3 != 0 || (AtWord.of (AtWord.bits y3) (bit y3.wide ++ y3.ord : BitVec 3)).scope.toNat ≥ 6 || (0x2C == 0x2F &&
      y2 == 63))] (.ator y0 y1 y2 (AtWord.of (AtWord.bits y3) (bit y3.wide ++ y3.ord : BitVec 3))) : Except Nat
      Instr) = _
  simp only [b_2_high, AtWord.of_bits, AtWord.bits_zero]
  simp_all [chk]

theorem atxor (y0 y1 y2 : Reg) (y3 : AtWord) : Statement (.atxor y0 y1 y2 y3) := by
  intro env h
  replace h : (y3.scope.toNat < 6 : Bool) = true := h
  refine ⟨_, rfl, ?_⟩
  show (chk [(2, 0x2D == 0x30 && (bit y3.wide ++ y3.ord : BitVec 3).getLsbD 2), (4, (AtWord.bits y3).extractLsb' 16
      3 != 0 || (AtWord.of (AtWord.bits y3) (bit y3.wide ++ y3.ord : BitVec 3)).scope.toNat ≥ 6 || (0x2D == 0x2F &&
      y2 == 63))] (.atxor y0 y1 y2 (AtWord.of (AtWord.bits y3) (bit y3.wide ++ y3.ord : BitVec 3))) : Except Nat
      Instr) = _
  simp only [b_2_high, AtWord.of_bits, AtWord.bits_zero]
  simp_all [chk]

theorem atxchg (y0 y1 y2 : Reg) (y3 : AtWord) : Statement (.atxchg y0 y1 y2 y3) := by
  intro env h
  replace h : (y3.scope.toNat < 6 : Bool) = true := h
  refine ⟨_, rfl, ?_⟩
  show (chk [(2, 0x2E == 0x30 && (bit y3.wide ++ y3.ord : BitVec 3).getLsbD 2), (4, (AtWord.bits y3).extractLsb' 16
      3 != 0 || (AtWord.of (AtWord.bits y3) (bit y3.wide ++ y3.ord : BitVec 3)).scope.toNat ≥ 6 || (0x2E == 0x2F &&
      y2 == 63))] (.atxchg y0 y1 y2 (AtWord.of (AtWord.bits y3) (bit y3.wide ++ y3.ord : BitVec 3))) : Except Nat
      Instr) = _
  simp only [b_2_high, AtWord.of_bits, AtWord.bits_zero]
  simp_all [chk]

theorem atcas (y0 y1 y2 : Reg) (y3 : AtWord) : Statement (.atcas y0 y1 y2 y3) := by
  intro env h
  replace h : (y3.scope.toNat < 6 && y2 != 63 : Bool) = true := h
  refine ⟨_, rfl, ?_⟩
  show (chk [(2, 0x2F == 0x30 && (bit y3.wide ++ y3.ord : BitVec 3).getLsbD 2), (4, (AtWord.bits y3).extractLsb' 16
      3 != 0 || (AtWord.of (AtWord.bits y3) (bit y3.wide ++ y3.ord : BitVec 3)).scope.toNat ≥ 6 || (0x2F == 0x2F &&
      y2 == 63))] (.atcas y0 y1 y2 (AtWord.of (AtWord.bits y3) (bit y3.wide ++ y3.ord : BitVec 3))) : Except Nat
      Instr) = _
  simp only [b_2_high, AtWord.of_bits, AtWord.bits_zero]
  simp_all [chk]

theorem atfadd (y0 y1 y2 : Reg) (y3 : AtWord) : Statement (.atfadd y0 y1 y2 y3) := by
  intro env h
  replace h : (y3.scope.toNat < 6 && !y3.wide : Bool) = true := h
  refine ⟨_, rfl, ?_⟩
  show (chk [(2, 0x30 == 0x30 && (bit y3.wide ++ y3.ord : BitVec 3).getLsbD 2), (4, (AtWord.bits y3).extractLsb' 16
      3 != 0 || (AtWord.of (AtWord.bits y3) (bit y3.wide ++ y3.ord : BitVec 3)).scope.toNat ≥ 6 || (0x30 == 0x2F &&
      y2 == 63))] (.atfadd y0 y1 y2 (AtWord.of (AtWord.bits y3) (bit y3.wide ++ y3.ord : BitVec 3))) : Except Nat
      Instr) = _
  simp only [b_2_high, AtWord.of_bits, AtWord.bits_zero]
  simp_all [chk]

theorem cnarrow (y0 y1 : CReg) (y2 : Reg) : Statement (.cnarrow y0 y1 y2) := by
  intro env h
  replace h : (y2 != 63 : Bool) = true := h
  refine ⟨_, rfl, ?_⟩
  show (chk [(3, hi (y0.setWidth 6) 4 || hi (y1.setWidth 6) 4), (4, (0 : BitVec 3) != 0 || y2 == 63)] (.cnarrow
      ((y0.setWidth 6).setWidth 4) ((y1.setWidth 6).setWidth 4) y2) : Except Nat Instr) = _
  simp_all [chk, hi_setWidth]

theorem crights (y0 y1 : CReg) (y2 : BitVec 8) : Statement (.crights y0 y1 y2) := by
  intro env h
  refine ⟨_, rfl, ?_⟩
  show (chk [(3, hi (y0.setWidth 6) 4 || hi (y1.setWidth 6) 4), (4, ((y2.extractLsb' 3 5).setWidth 6).getLsbD 5)]
      (.crights ((y0.setWidth 6).setWidth 4) ((y1.setWidth 6).setWidth 4) (((y2.extractLsb' 3 5).setWidth
      6).extractLsb' 0 5 ++ (y2.extractLsb' 0 3))) : Except Nat Instr) = _
  have e : (((y2.extractLsb' 3 5).setWidth 6).extractLsb' 0 5 ++ y2.extractLsb' 0 3 : BitVec 8) = y2 := by
    rw [low_of_wide5]; exact join_5_3 y2
  simp_all [chk, hi_setWidth]

theorem cget (y0 : Reg) (y1 : CReg) (y2 : BitVec 3) : Statement (.cget y0 y1 y2) := by
  intro env h
  replace h : (y2.toNat < 6 : Bool) = true := h
  refine ⟨_, rfl, ?_⟩
  show (chk [(2, y2.toNat ≥ 6), (3, hi (y1.setWidth 6) 4), (4, (0 : Reg) != 0)] (.cget y0 ((y1.setWidth 6).setWidth
      4) y2) : Except Nat Instr) = _
  simp_all [chk, hi_setWidth]

theorem cmovc (y0 y1 : CReg) : Statement (.cmovc y0 y1) := by
  intro env h
  refine ⟨_, rfl, ?_⟩
  show (chk [(3, hi (y0.setWidth 6) 4 || hi (y1.setWidth 6) 4), (4, (0 : Reg) != 0 || (0 : BitVec 3) != 0)] (.cmovc
      ((y0.setWidth 6).setWidth 4) ((y1.setWidth 6).setWidth 4)) : Except Nat Instr) = _
  simp_all [chk, hi_setWidth]

theorem sget (y0 : Reg) (y1 : BitVec 12) : Statement (.sget y0 y1) := by
  intro env h
  replace h : (Wf.assigned y1 : Bool) = true := h
  refine ⟨_, rfl, ?_⟩
  show (chk [(4, (0 : BitVec 3) != 0 || !Wf.assigned ((y1.extractLsb' 6 6) ++ (y1.extractLsb' 0 6)))] (.sget y0
      ((y1.extractLsb' 6 6) ++ (y1.extractLsb' 0 6))) : Except Nat Instr) = _
  simp only [join_6_6]
  simp_all [chk]

theorem sset (y0 : BitVec 12) (y1 : Reg) : Statement (.sset y0 y1) := by
  intro env h
  replace h : (Wf.assigned y0 && !Wf.readOnly y0 && (env.priv || !Wf.protectedReg y0) : Bool) = true := h
  refine ⟨_, rfl, ?_⟩
  show (chk [(4, (0 : BitVec 3) != 0 || !Wf.assigned ((y0.extractLsb' 6 6) ++ (y0.extractLsb' 0 6))), (7,
      Wf.readOnly ((y0.extractLsb' 6 6) ++ (y0.extractLsb' 0 6)) || (!env.priv && Wf.protectedReg ((y0.extractLsb' 6
      6) ++ (y0.extractLsb' 0 6))))] (.sset ((y0.extractLsb' 6 6) ++ (y0.extractLsb' 0 6)) y1) : Except Nat Instr) =
      _
  simp only [join_6_6]
  cases hp : env.priv <;> simp_all [chk]

theorem seed (y0 : Reg) : Statement (.seed y0) :=
  fun _ _ => ⟨_, rfl, rfl⟩

theorem dget (y0 : Reg) : Statement (.dget y0) :=
  fun _ _ => ⟨_, rfl, rfl⟩

theorem vadd (y0 : BitVec 2) (y1 y2 y3 : Reg) (y4 : Gov) : Statement (.vadd y0 y1 y2 y3 y4) := by
  intro env h
  exact ⟨_, rfl, decodeSlot_typed env 0x00 y0 y1 y2 y3 y4 ⟨none, []⟩ (by decide)⟩

theorem vsub (y0 : BitVec 2) (y1 y2 y3 : Reg) (y4 : Gov) : Statement (.vsub y0 y1 y2 y3 y4) := by
  intro env h
  exact ⟨_, rfl, decodeSlot_typed env 0x01 y0 y1 y2 y3 y4 ⟨none, []⟩ (by decide)⟩

theorem vmul (y0 : BitVec 2) (y1 y2 y3 : Reg) (y4 : Gov) : Statement (.vmul y0 y1 y2 y3 y4) := by
  intro env h
  exact ⟨_, rfl, decodeSlot_typed env 0x02 y0 y1 y2 y3 y4 ⟨none, []⟩ (by decide)⟩

theorem vfma (y0 : BitVec 2) (y1 y2 y3 : Reg) (y4 : Gov) : Statement (.vfma y0 y1 y2 y3 y4) := by
  intro env h
  exact ⟨_, rfl, decodeSlot_typed env 0x03 y0 y1 y2 y3 y4 ⟨none, []⟩ (by decide)⟩

theorem vfms (y0 : BitVec 2) (y1 y2 y3 : Reg) (y4 : Gov) : Statement (.vfms y0 y1 y2 y3 y4) := by
  intro env h
  exact ⟨_, rfl, decodeSlot_typed env 0x04 y0 y1 y2 y3 y4 ⟨none, []⟩ (by decide)⟩

theorem vmin (y0 : BitVec 2) (y1 y2 y3 : Reg) (y4 : Gov) : Statement (.vmin y0 y1 y2 y3 y4) := by
  intro env h
  exact ⟨_, rfl, decodeSlot_typed env 0x05 y0 y1 y2 y3 y4 ⟨none, []⟩ (by decide)⟩

theorem vmax (y0 : BitVec 2) (y1 y2 y3 : Reg) (y4 : Gov) : Statement (.vmax y0 y1 y2 y3 y4) := by
  intro env h
  exact ⟨_, rfl, decodeSlot_typed env 0x06 y0 y1 y2 y3 y4 ⟨none, []⟩ (by decide)⟩

theorem vabs (y0 : BitVec 2) (y1 y2 : Reg) (y3 : Gov) : Statement (.vabs y0 y1 y2 y3) := by
  intro env h
  replace h : (y0 != 3 : Bool) = true := h
  refine ⟨_, rfl, (decodeSlot_typed env 0x07 y0 y1 y2 0 y3 ⟨none, []⟩ (by decide)).trans ?_⟩
  show (chk [(1, y0 == 3), (4, (0 : Reg) != 0)] (.vabs y0 y1 y2 y3) : Except Nat Instr) = _
  simp_all [chk]

theorem vneg (y0 : BitVec 2) (y1 y2 : Reg) (y3 : Gov) : Statement (.vneg y0 y1 y2 y3) := by
  intro env h
  replace h : (y0 != 3 : Bool) = true := h
  refine ⟨_, rfl, (decodeSlot_typed env 0x08 y0 y1 y2 0 y3 ⟨none, []⟩ (by decide)).trans ?_⟩
  show (chk [(1, y0 == 3), (4, (0 : Reg) != 0)] (.vneg y0 y1 y2 y3) : Except Nat Instr) = _
  simp_all [chk]

theorem vcmpEq (y0 : BitVec 2) (y1 : MReg) (y2 y3 : Reg) (y4 : Gov) : Statement (.vcmpEq y0 y1 y2 y3 y4) := by
  intro env h
  replace h : (y1 != 0 : Bool) = true := h
  refine ⟨_, rfl, (decodeSlot_typed env 0x09 y0 (y1.setWidth 6) y2 y3 y4 ⟨none, []⟩ (by decide)).trans ?_⟩
  show (chk [(3, hi (y1.setWidth 6) 4), (4, (y1.setWidth 6) == 0)] (.vcmpEq y0 ((y1.setWidth 6).setWidth 4) y2 y3
      y4) : Except Nat Instr) = _
  simp_all [chk, hi_setWidth, wide4_zero]

theorem vcmpNe (y0 : BitVec 2) (y1 : MReg) (y2 y3 : Reg) (y4 : Gov) : Statement (.vcmpNe y0 y1 y2 y3 y4) := by
  intro env h
  replace h : (y1 != 0 : Bool) = true := h
  refine ⟨_, rfl, (decodeSlot_typed env 0x0A y0 (y1.setWidth 6) y2 y3 y4 ⟨none, []⟩ (by decide)).trans ?_⟩
  show (chk [(3, hi (y1.setWidth 6) 4), (4, (y1.setWidth 6) == 0)] (.vcmpNe y0 ((y1.setWidth 6).setWidth 4) y2 y3
      y4) : Except Nat Instr) = _
  simp_all [chk, hi_setWidth, wide4_zero]

theorem vcmpLt (y0 : BitVec 2) (y1 : MReg) (y2 y3 : Reg) (y4 : Gov) : Statement (.vcmpLt y0 y1 y2 y3 y4) := by
  intro env h
  replace h : (y1 != 0 : Bool) = true := h
  refine ⟨_, rfl, (decodeSlot_typed env 0x0B y0 (y1.setWidth 6) y2 y3 y4 ⟨none, []⟩ (by decide)).trans ?_⟩
  show (chk [(3, hi (y1.setWidth 6) 4), (4, (y1.setWidth 6) == 0)] (.vcmpLt y0 ((y1.setWidth 6).setWidth 4) y2 y3
      y4) : Except Nat Instr) = _
  simp_all [chk, hi_setWidth, wide4_zero]

theorem vcmpLe (y0 : BitVec 2) (y1 : MReg) (y2 y3 : Reg) (y4 : Gov) : Statement (.vcmpLe y0 y1 y2 y3 y4) := by
  intro env h
  replace h : (y1 != 0 : Bool) = true := h
  refine ⟨_, rfl, (decodeSlot_typed env 0x0C y0 (y1.setWidth 6) y2 y3 y4 ⟨none, []⟩ (by decide)).trans ?_⟩
  show (chk [(3, hi (y1.setWidth 6) 4), (4, (y1.setWidth 6) == 0)] (.vcmpLe y0 ((y1.setWidth 6).setWidth 4) y2 y3
      y4) : Except Nat Instr) = _
  simp_all [chk, hi_setWidth, wide4_zero]

theorem vand (y0 y1 y2 : Reg) (y3 : Gov) : Statement (.vand y0 y1 y2 y3) :=
  fun _ _ => ⟨_, rfl, rfl⟩

theorem vor (y0 y1 y2 : Reg) (y3 : Gov) : Statement (.vor y0 y1 y2 y3) :=
  fun _ _ => ⟨_, rfl, rfl⟩

theorem vxor (y0 y1 y2 : Reg) (y3 : Gov) : Statement (.vxor y0 y1 y2 y3) :=
  fun _ _ => ⟨_, rfl, rfl⟩

theorem vshl (y0 y1 y2 : Reg) (y3 : Gov) : Statement (.vshl y0 y1 y2 y3) :=
  fun _ _ => ⟨_, rfl, rfl⟩

theorem vshr (y0 y1 y2 : Reg) (y3 : Gov) : Statement (.vshr y0 y1 y2 y3) :=
  fun _ _ => ⟨_, rfl, rfl⟩

theorem vsra (y0 y1 y2 : Reg) (y3 : Gov) : Statement (.vsra y0 y1 y2 y3) :=
  fun _ _ => ⟨_, rfl, rfl⟩

theorem vsel (y0 y1 y2 : Reg) (y3 : Gov) : Statement (.vsel y0 y1 y2 y3) :=
  fun _ _ => ⟨_, rfl, rfl⟩

theorem vmov (y0 y1 : Reg) (y2 : Gov) : Statement (.vmov y0 y1 y2) :=
  fun _ _ => ⟨_, rfl, rfl⟩

theorem vbcast (y0 y1 : Reg) (y2 : BitVec 2) (y3 : Gov) : Statement (.vbcast y0 y1 y2 y3) := by
  intro env h
  replace h : (y2 != 3 : Bool) = true := h
  refine ⟨_, rfl, ?_⟩
  show (chk [(4, (y2.setWidth 6).toNat ≥ 3)] (.vbcast y0 y1 ((y2.setWidth 6).setWidth 2) y3) : Except Nat Instr) = _
  simp only [wide2, wide2_lt]
  simp_all [chk]

theorem vidx (y0 y1 y2 : Reg) (y3 : Gov) : Statement (.vidx y0 y1 y2 y3) :=
  fun _ _ => ⟨_, rfl, rfl⟩

theorem vcvt (y0 y1 : Reg) (y2 y3 : BitVec 3) (y4 : Gov) : Statement (.vcvt y0 y1 y2 y3 y4) := by
  intro env h
  replace h : (y2 != y3 : Bool) = true := h
  refine ⟨_, rfl, ?_⟩
  show (chk [(4, (y2 ++ y3).extractLsb' 3 3 == (y2 ++ y3).extractLsb' 0 3)] (.vcvt y0 y1 ((y2 ++ y3).extractLsb' 3
      3) ((y2 ++ y3).extractLsb' 0 3) y4) : Except Nat Instr) = _
  simp only [split_3_3_high, split_3_3_low]
  simp_all [chk]

theorem vpack (y0 y1 : Reg) (y2 : BitVec 3) (y3 : BitVec 2) (y4 : Gov) : Statement (.vpack y0 y1 y2 y3 y4) := by
  intro env h
  replace h : (Wf.packPos y2 y3 : Bool) = true := h
  refine ⟨_, rfl, ?_⟩
  show (chk [(4, ((0 : BitVec 1) ++ (y2 ++ y3)).getLsbD 5 || badPack ((0 : BitVec 1) ++ (y2 ++ y3)))] (.vpack y0 y1
      (((0 : BitVec 1) ++ (y2 ++ y3)).extractLsb' 2 3) (((0 : BitVec 1) ++ (y2 ++ y3)).extractLsb' 0 2) y4) : Except
      Nat Instr) = _
  have hp := pack_pos (0 : BitVec 1) y2 y3
  simp only [split_0_3_2_mid, split_0_3_2_low, split_0_3_2_bit]
  rw [chk, hp, h]
  rfl

theorem vunpk (y0 y1 : Reg) (y2 : Bool) (y3 : BitVec 3) (y4 : BitVec 2) (y5 : Gov) : Statement (.vunpk y0 y1 y2 y3 y4
    y5) := by
  intro env h
  replace h : (Wf.packPos y3 y4 : Bool) = true := h
  refine ⟨_, rfl, ?_⟩
  show (chk [(4, badPack (bit y2 ++ (y3 ++ y4)))] (.vunpk y0 y1 ((bit y2 ++ (y3 ++ y4)).getLsbD 5) ((bit y2 ++ (y3
      ++ y4)).extractLsb' 2 3) ((bit y2 ++ (y3 ++ y4)).extractLsb' 0 2) y5) : Except Nat Instr) = _
  have hp := pack_pos (bit y2) y3 y4
  simp only [split_b_3_2_mid, split_b_3_2_low, split_b_3_2_bit]
  rw [chk, hp, h]
  rfl

theorem vpermb (y0 y1 y2 : Reg) (y3 : Gov) : Statement (.vpermb y0 y1 y2 y3) :=
  fun _ _ => ⟨_, rfl, rfl⟩

theorem vshuf (y0 y1 y2 : Reg) (y3 : Gov) : Statement (.vshuf y0 y1 y2 y3) :=
  fun _ _ => ⟨_, rfl, rfl⟩

theorem vrot (y0 y1 y2 : Reg) (y3 : Gov) : Statement (.vrot y0 y1 y2 y3) :=
  fun _ _ => ⟨_, rfl, rfl⟩

theorem vred (y0 y1 : Reg) (y2 y3 : BitVec 2) (y4 : Gov) : Statement (.vred y0 y1 y2 y3 y4) := by
  intro env h
  replace h : (y2 != 3 && y3 != 1 : Bool) = true := h
  refine ⟨_, rfl, ?_⟩
  show (chk [(4, badRed ((0 : BitVec 2) ++ (y2 ++ y3)))] (.vred y0 y1 (((0 : BitVec 2) ++ (y2 ++ y3)).extractLsb' 2
      2) (((0 : BitVec 2) ++ (y2 ++ y3)).extractLsb' 0 2) y4) : Except Nat Instr) = _
  have hp := red_fields y2 y3 (by simp_all) (by simp_all)
  simp only [split_2_2_mid, split_2_2_low]
  simp [chk, hp]

theorem vscan (y0 y1 : Reg) (y2 y3 : BitVec 2) (y4 : Gov) : Statement (.vscan y0 y1 y2 y3 y4) := by
  intro env h
  replace h : (y2 != 3 && y3 != 1 : Bool) = true := h
  refine ⟨_, rfl, ?_⟩
  show (chk [(4, badRed ((0 : BitVec 2) ++ (y2 ++ y3)))] (.vscan y0 y1 (((0 : BitVec 2) ++ (y2 ++ y3)).extractLsb' 2
      2) (((0 : BitVec 2) ++ (y2 ++ y3)).extractLsb' 0 2) y4) : Except Nat Instr) = _
  have hp := red_fields y2 y3 (by simp_all) (by simp_all)
  simp only [split_2_2_mid, split_2_2_low]
  simp [chk, hp]

theorem vdot4 (y0 y1 y2 : Reg) (y3 : Gov) : Statement (.vdot4 y0 y1 y2 y3) :=
  fun _ _ => ⟨_, rfl, rfl⟩

theorem vresc (y0 y1 : Reg) (y2 : BitVec 2) (y3 : Bool) (y4 : QReg) (y5 : Gov) : Statement (.vresc y0 y1 y2 y3 y4 y5)
    := by
  intro env h
  replace h : (!(y3 && y4 == 7) : Bool) = true := h
  refine ⟨_, rfl, ?_⟩
  show (chk [(4, (y2 ++ (bit y3 ++ y4)).getLsbD 3 && (y2 ++ (bit y3 ++ y4)).extractLsb' 0 3 == 7)] (.vresc y0 y1
      ((y2 ++ (bit y3 ++ y4)).extractLsb' 4 2) ((y2 ++ (bit y3 ++ y4)).getLsbD 3) ((y2 ++ (bit y3 ++
      y4)).extractLsb' 0 3) y5) : Except Nat Instr) = _
  simp only [split_2_b_3_high, split_2_b_3_bit, split_2_b_3_low]
  cases y3 <;> simp_all [chk]

theorem vqnt (y0 y1 y2 : Reg) (y3 : BitVec 3) : Statement (.vqnt y0 y1 y2 y3) := by
  intro env h
  replace h : (y3.toNat < 6 : Bool) = true := h
  refine ⟨_, rfl, ?_⟩
  show (chk [(2, y3.toNat ≥ 6)] (.vqnt y0 y1 y2 y3) : Except Nat Instr) = _
  simp_all [chk]

theorem vdq (y0 y1 y2 : Reg) (y3 : BitVec 3) : Statement (.vdq y0 y1 y2 y3) := by
  intro env h
  replace h : (y3.toNat < 5 : Bool) = true := h
  refine ⟨_, rfl, ?_⟩
  show (chk [(2, y3.toNat ≥ 5)] (.vdq y0 y1 y2 y3) : Except Nat Instr) = _
  simp_all [chk]

theorem vexp2 (y0 y1 : Reg) (y2 : Gov) : Statement (.vexp2 y0 y1 y2) :=
  fun _ _ => ⟨_, rfl, rfl⟩

theorem vlog2 (y0 y1 : Reg) (y2 : Gov) : Statement (.vlog2 y0 y1 y2) :=
  fun _ _ => ⟨_, rfl, rfl⟩

theorem vrcp (y0 y1 : Reg) (y2 : Gov) : Statement (.vrcp y0 y1 y2) :=
  fun _ _ => ⟨_, rfl, rfl⟩

theorem vrsq (y0 y1 : Reg) (y2 : Gov) : Statement (.vrsq y0 y1 y2) :=
  fun _ _ => ⟨_, rfl, rfl⟩

theorem vtanh (y0 y1 : Reg) (y2 : Gov) : Statement (.vtanh y0 y1 y2) :=
  fun _ _ => ⟨_, rfl, rfl⟩

theorem vrand (y0 y1 : Reg) (y2 : Gov) : Statement (.vrand y0 y1 y2) :=
  fun _ _ => ⟨_, rfl, rfl⟩

theorem vld (y0 y1 : Reg) (y2 : BitVec 32) (y3 : Gov) : Statement (.vld y0 y1 y2 y3) := by
  intro env h
  refine ⟨_, rfl, ?_⟩
  show (.ok (.vld y0 y1 (imm6 (extFor 6 y2) (y2.extractLsb' 0 6)) y3) : Except Nat Instr) = _
  simp only [imm6_extFor]

theorem vst (y0 y1 : Reg) (y2 : BitVec 32) (y3 : Gov) : Statement (.vst y0 y1 y2 y3) := by
  intro env h
  refine ⟨_, rfl, ?_⟩
  show (.ok (.vst y0 y1 (imm6 (extFor 6 y2) (y2.extractLsb' 0 6)) y3) : Except Nat Instr) = _
  simp only [imm6_extFor]

theorem vlds (y0 y1 y2 : Reg) (y3 : Gov) : Statement (.vlds y0 y1 y2 y3) :=
  fun _ _ => ⟨_, rfl, rfl⟩

theorem vsts (y0 y1 y2 : Reg) (y3 : Gov) : Statement (.vsts y0 y1 y2 y3) :=
  fun _ _ => ⟨_, rfl, rfl⟩

theorem vgth (y0 y1 y2 : Reg) (y3 : Gov) : Statement (.vgth y0 y1 y2 y3) :=
  fun _ _ => ⟨_, rfl, rfl⟩

theorem vsct (y0 y1 y2 : Reg) (y3 : Gov) : Statement (.vsct y0 y1 y2 y3) :=
  fun _ _ => ⟨_, rfl, rfl⟩

theorem vldg (y0 y1 : Reg) (y2 : CReg) (y3 : BitVec 26) (y4 : Gov) : Statement (.vldg y0 y1 y2 y3 y4) := by
  intro env h
  refine ⟨_, rfl, ?_⟩
  show (chk [(3, hi (y2.setWidth 6) 4)] (.vldg y0 y1 ((y2.setWidth 6).setWidth 4) (imm0 (ext0 y3)) y4) : Except Nat
      Instr) = _
  simp only [imm0_ext0]
  simp_all [chk, hi_setWidth]

theorem vstg (y0 y1 : Reg) (y2 : CReg) (y3 : BitVec 26) (y4 : Gov) : Statement (.vstg y0 y1 y2 y3 y4) := by
  intro env h
  refine ⟨_, rfl, ?_⟩
  show (chk [(3, hi (y2.setWidth 6) 4)] (.vstg y0 y1 ((y2.setWidth 6).setWidth 4) (imm0 (ext0 y3)) y4) : Except Nat
      Instr) = _
  simp only [imm0_ext0]
  simp_all [chk, hi_setWidth]

theorem vldq (y0 : QReg) (y1 : Reg) (y2 : BitVec 32) (y3 : Gov) : Statement (.vldq y0 y1 y2 y3) := by
  intro env h
  refine ⟨_, rfl, ?_⟩
  show (chk [(3, hi (y0.setWidth 6) 3)] (.vldq ((y0.setWidth 6).setWidth 3) y1 (imm6 (extFor 6 y2) (y2.extractLsb' 0
      6)) y3) : Except Nat Instr) = _
  simp only [imm6_extFor]
  simp_all [chk, hi_setWidth]

theorem vmand (y0 y1 y2 : MReg) : Statement (.vmand y0 y1 y2) := by
  intro env h
  replace h : (y0 != 0 : Bool) = true := h
  refine ⟨_, rfl, ?_⟩
  show (chk [(3, hi (y0.setWidth 6) 4 || hi (y1.setWidth 6) 4 || hi (y2.setWidth 6) 4), (4, (0 : BitVec 3) != 0 ||
      (y0.setWidth 6) == 0)] (.vmand ((y0.setWidth 6).setWidth 4) ((y1.setWidth 6).setWidth 4) ((y2.setWidth
      6).setWidth 4)) : Except Nat Instr) = _
  simp_all [chk, hi_setWidth, wide4_zero]

theorem vmor (y0 y1 y2 : MReg) : Statement (.vmor y0 y1 y2) := by
  intro env h
  replace h : (y0 != 0 : Bool) = true := h
  refine ⟨_, rfl, ?_⟩
  show (chk [(3, hi (y0.setWidth 6) 4 || hi (y1.setWidth 6) 4 || hi (y2.setWidth 6) 4), (4, (0 : BitVec 3) != 0 ||
      (y0.setWidth 6) == 0)] (.vmor ((y0.setWidth 6).setWidth 4) ((y1.setWidth 6).setWidth 4) ((y2.setWidth
      6).setWidth 4)) : Except Nat Instr) = _
  simp_all [chk, hi_setWidth, wide4_zero]

theorem vmnot (y0 y1 : MReg) : Statement (.vmnot y0 y1) := by
  intro env h
  replace h : (y0 != 0 : Bool) = true := h
  refine ⟨_, rfl, ?_⟩
  show (chk [(3, hi (y0.setWidth 6) 4 || hi (y1.setWidth 6) 4), (4, (0 : Reg) != 0 || (0 : BitVec 3) != 0 ||
      (y0.setWidth 6) == 0)] (.vmnot ((y0.setWidth 6).setWidth 4) ((y1.setWidth 6).setWidth 4)) : Except Nat Instr)
      = _
  simp_all [chk, hi_setWidth, wide4_zero]

theorem vmpop (y0 : Reg) (y1 : MReg) : Statement (.vmpop y0 y1) := by
  intro env h
  refine ⟨_, rfl, ?_⟩
  show (chk [(3, hi (y1.setWidth 6) 4), (4, (0 : Reg) != 0 || (0 : BitVec 3) != 0)] (.vmpop y0 ((y1.setWidth
      6).setWidth 4)) : Except Nat Instr) = _
  simp_all [chk, hi_setWidth]

theorem vmfst (y0 : Reg) (y1 : MReg) : Statement (.vmfst y0 y1) := by
  intro env h
  refine ⟨_, rfl, ?_⟩
  show (chk [(3, hi (y1.setWidth 6) 4), (4, (0 : Reg) != 0 || (0 : BitVec 3) != 0)] (.vmfst y0 ((y1.setWidth
      6).setWidth 4)) : Except Nat Instr) = _
  simp_all [chk, hi_setWidth]

theorem vmset (y0 : MReg) (y1 y2 : Reg) : Statement (.vmset y0 y1 y2) := by
  intro env h
  replace h : (y0 != 0 : Bool) = true := h
  refine ⟨_, rfl, ?_⟩
  show (chk [(3, hi (y0.setWidth 6) 4), (4, (0 : BitVec 3) != 0 || (y0.setWidth 6) == 0)] (.vmset ((y0.setWidth
      6).setWidth 4) y1 y2) : Except Nat Instr) = _
  simp_all [chk, hi_setWidth, wide4_zero]

theorem mcfg (y0 : Tok) (y1 : Bool) (y2 : Reg) (y3 : List Tok) : Statement (.mcfg y0 y1 y2 y3) := by
  intro env h
  replace h : (Wf.toks y3 : Bool) = true := h
  refine ⟨_, rfl, ?_⟩
  show (chk [(3, hi (y0.setWidth 6) 5), (4, (0 : BitVec 3) != 0 || ((bit y1).setWidth 6).toNat ≥ 2)] (.mcfg
      ((y0.setWidth 6).setWidth 5) (((bit y1).setWidth 6).getLsbD 0) y2 y3) : Except Nat Instr) = _
  simp only [wide1_bit, wide1_lt]
  simp_all [chk, hi_setWidth]

theorem mdrain (y0 : Tok) (y1 : Bool) (y2 : List Tok) : Statement (.mdrain y0 y1 y2) := by
  intro env h
  replace h : (Wf.toks y2 : Bool) = true := h
  refine ⟨_, rfl, ?_⟩
  show (chk [(3, hi (y0.setWidth 6) 5), (4, (0 : Reg) != 0 || (0 : BitVec 3) != 0 || ((bit y1).setWidth 6).toNat ≥
      2)] (.mdrain ((y0.setWidth 6).setWidth 5) (((bit y1).setWidth 6).getLsbD 0) y2) : Except Nat Instr) = _
  simp only [wide1_bit, wide1_lt]
  simp_all [chk, hi_setWidth]

theorem mlatch (y0 : Tok) (y1 : LReg) (y2 : Reg) (y3 y4 : Bool) (y5 : List Tok) : Statement (.mlatch y0 y1 y2 y3 y4
    y5) := by
  intro env h
  replace h : ((if y4 then Wf.vecs y2 y3 else Wf.pair y2) && Wf.toks y5 : Bool) = true := h
  refine ⟨_, rfl, ?_⟩
  show (chk [(3, hi (y0.setWidth 6) 5 || hi (y1.setWidth 6) 3), (4, ((0 : BitVec 1) ++ (bit y3 ++ bit y4)).getLsbD 2
      || !(if ((0 : BitVec 1) ++ (bit y3 ++ bit y4)).getLsbD 0 then Wf.vecs y2 (((0 : BitVec 1) ++ (bit y3 ++ bit
      y4)).getLsbD 1) else Wf.pair y2))] (.mlatch ((y0.setWidth 6).setWidth 5) ((y1.setWidth 6).setWidth 3) y2 (((0
      : BitVec 1) ++ (bit y3 ++ bit y4)).getLsbD 1) (((0 : BitVec 1) ++ (bit y3 ++ bit y4)).getLsbD 0) y5) : Except
      Nat Instr) = _
  simp only [bits2_0, bits2_1, bits2_2]
  simp_all [chk, hi_setWidth]

theorem mma (y0 : Tok) (y1 y2 : Reg) (y3 : MmaWord) (y4 : List Tok) : Statement (.mma y0 y1 y2 y3 y4) := by
  intro env h
  replace h : (Wf.mma env y1 y2 y3 && !y3.strict && Wf.toks y4 : Bool) = true := h
  refine ⟨_, rfl, ?_⟩
  show (chk (mmaChecks env (y0.setWidth 6) y1 y2 (y3.bkind ++ bit y3.avec : BitVec 3) (MmaWord.toBits y3) false)
      (.mma ((y0.setWidth 6).setWidth 5) y1 y2 (MmaWord.of (MmaWord.toBits y3) (y3.bkind ++ bit y3.avec : BitVec 3))
      y4) : Except Nat Instr) = _
  have hm := mma_kind env y1 y2 y3 (by simp_all)
  simp only [two_b_high, MmaWord.of_toBits, MmaWord.toBits_high, MmaWord.toBits_strict, mmaChecks]
  simp_all [chk, hi_setWidth]

theorem mmat (y0 : Tok) (y1 y2 : Reg) (y3 : MmaWord) (y4 : List Tok) : Statement (.mmat y0 y1 y2 y3 y4) := by
  intro env h
  replace h : (Wf.mma env y1 y2 y3 && Wf.toks y4 : Bool) = true := h
  refine ⟨_, rfl, ?_⟩
  show (chk (mmaChecks env (y0.setWidth 6) y1 y2 (y3.bkind ++ bit y3.avec : BitVec 3) (MmaWord.toBits y3) true)
      (.mmat ((y0.setWidth 6).setWidth 5) y1 y2 (MmaWord.of (MmaWord.toBits y3) (y3.bkind ++ bit y3.avec : BitVec
      3)) y4) : Except Nat Instr) = _
  have hm := mma_kind env y1 y2 y3 (by simp_all)
  simp only [two_b_high, MmaWord.of_toBits, MmaWord.toBits_high, MmaWord.toBits_strict, mmaChecks]
  simp_all [chk, hi_setWidth]

theorem mzero (y0 : Tok) (y1 : ZReg) (y2 : Bool) (y3 : List Tok) : Statement (.mzero y0 y1 y2 y3) := by
  intro env h
  replace h : (Wf.toks y3 : Bool) = true := h
  refine ⟨_, rfl, ?_⟩
  show (chk [(2, ((bit y2).setWidth 3).toNat ≥ 2), (3, hi (y0.setWidth 6) 5 || hi (y1.setWidth 6) 3), (4, (0 : Reg)
      != 0)] (.mzero ((y0.setWidth 6).setWidth 5) ((y1.setWidth 6).setWidth 3) (((bit y2).setWidth 3).getLsbD 0) y3)
      : Except Nat Instr) = _
  simp only [wide1_bit3, wide1_lt3]
  simp_all [chk, hi_setWidth]

theorem mldz (y0 : Tok) (y1 : ZReg) (y2 : Reg) (y3 : Bool) (y4 : List Tok) : Statement (.mldz y0 y1 y2 y3 y4) := by
  intro env h
  replace h : (Wf.pair y2 && Wf.toks y4 : Bool) = true := h
  refine ⟨_, rfl, ?_⟩
  show (chk [(2, ((bit y3).setWidth 3).toNat ≥ 2), (3, hi (y0.setWidth 6) 5 || hi (y1.setWidth 6) 3), (4, !Wf.pair
      y2)] (.mldz ((y0.setWidth 6).setWidth 5) ((y1.setWidth 6).setWidth 3) y2 (((bit y3).setWidth 3).getLsbD 0) y4)
      : Except Nat Instr) = _
  simp only [wide1_bit3, wide1_lt3]
  simp_all [chk, hi_setWidth]

theorem mst (y0 : Tok) (y1 : ZReg) (y2 : Reg) (y3 : MstWord) (y4 : List Tok) : Statement (.mst y0 y1 y2 y3 y4) := by
  intro env h
  replace h : (Wf.pair y2 && Wf.mst y3 && Wf.toks y4 : Bool) = true := h
  refine ⟨_, rfl, ?_⟩
  show (chk [(3, hi (y0.setWidth 6) 5 || hi (y1.setWidth 6) 3), (4, (0 : BitVec 3) != 0 || y3.toBits.extractLsb' 18
      8 != 0 || !Wf.pair y2 || !Wf.mst (MstWord.of y3.toBits))] (.mst ((y0.setWidth 6).setWidth 5) ((y1.setWidth
      6).setWidth 3) y2 (MstWord.of y3.toBits) y4) : Except Nat Instr) = _
  simp only [MstWord.of_toBits, MstWord.toBits_high]
  simp_all [chk, hi_setWidth]

theorem mtrn (y0 : Tok) (y1 y2 : ZReg) (y3 : List Tok) : Statement (.mtrn y0 y1 y2 y3) := by
  intro env h
  replace h : (Wf.toks y3 : Bool) = true := h
  refine ⟨_, rfl, ?_⟩
  show (chk [(3, hi (y0.setWidth 6) 5 || hi (y1.setWidth 6) 3 || hi (y2.setWidth 6) 3), (4, (0 : BitVec 3) != 0)]
      (.mtrn ((y0.setWidth 6).setWidth 5) ((y1.setWidth 6).setWidth 3) ((y2.setWidth 6).setWidth 3) y3) : Except Nat
      Instr) = _
  simp_all [chk, hi_setWidth]

theorem mstat (y0 : Tok) (y1 : ZReg) (y2 : Reg) (y3 : Bool) (y4 : List Tok) : Statement (.mstat y0 y1 y2 y3 y4) := by
  intro env h
  replace h : (Wf.toks y4 : Bool) = true := h
  refine ⟨_, rfl, ?_⟩
  show (chk [(3, hi (y0.setWidth 6) 5 || hi (y1.setWidth 6) 3), (4, ((bit y3).setWidth 3).extractLsb' 1 2 != 0)]
      (.mstat ((y0.setWidth 6).setWidth 5) ((y1.setWidth 6).setWidth 3) y2 (((bit y3).setWidth 3).getLsbD 0) y4) :
      Except Nat Instr) = _
  simp only [wide1_bit3, wide1_high3]
  simp_all [chk, hi_setWidth]

theorem mnz (y0 : Tok) (y1 : Reg) (y2 : NzReg) (y3 : List Tok) : Statement (.mnz y0 y1 y2 y3) := by
  intro env h
  replace h : (Wf.toks y3 : Bool) = true := h
  refine ⟨_, rfl, ?_⟩
  show (chk [(3, hi (y0.setWidth 6) 5 || hi (y2.setWidth 6) 2), (4, (0 : BitVec 3) != 0)] (.mnz ((y0.setWidth
      6).setWidth 5) y1 ((y2.setWidth 6).setWidth 2) y3) : Except Nat Instr) = _
  simp only [wide2]
  simp_all [chk, hi_setWidth]

theorem xld (y0 : Tok) (y1 y2 : Reg) (y3 y4 y5 : Bool) (y6 : XWord) (y7 : List Tok) : Statement (.xld y0 y1 y2 y3 y4
    y5 y6 y7) := by
  intro env h
  replace h : ((!y3 || y1.toNat < 8) && Wf.group138 y6.n (Wf.copyLen y4 y5) && Wf.toks y7 : Bool) = true := h
  refine ⟨_, rfl, ?_⟩
  show (chk [(3, hi (y0.setWidth 6) 5 || ((bit y3 ++ (bit y4 ++ bit y5) : BitVec 3).getLsbD 2 && hi y1 3)), (4,
      (some (XWord.toBits y6)).isNone || !Wf.group138 (XWord.of (XWord.toBits y6)).n (Wf.copyLen ((bit y3 ++ (bit y4
      ++ bit y5) : BitVec 3).getLsbD 1) ((bit y3 ++ (bit y4 ++ bit y5) : BitVec 3).getLsbD 0)))] (.xld ((y0.setWidth
      6).setWidth 5) y1 y2 ((bit y3 ++ (bit y4 ++ bit y5) : BitVec 3).getLsbD 2) ((bit y3 ++ (bit y4 ++ bit y5) :
      BitVec 3).getLsbD 1) ((bit y3 ++ (bit y4 ++ bit y5) : BitVec 3).getLsbD 0) (XWord.of (XWord.toBits y6)) y7) :
      Except Nat Instr) = _
  have hm : y3 = true → hi y1 3 = false := fun e => hi3_of_lt (by simp_all)
  simp only [bits3_0, bits3_1, bits3_2, XWord.of_toBits, Option.isNone_some]
  simp_all [chk, hi_setWidth]

theorem xst (y0 : Tok) (y1 y2 : Reg) (y3 y4 : Bool) (y5 : XWord) (y6 : List Tok) : Statement (.xst y0 y1 y2 y3 y4 y5
    y6) := by
  intro env h
  replace h : (Wf.group138 y5.n (Wf.copyLen y3 y4) && Wf.toks y6 : Bool) = true := h
  refine ⟨_, rfl, ?_⟩
  show (chk [(2, (bit false ++ (bit y3 ++ bit y4) : BitVec 3).getLsbD 2), (3, hi (y0.setWidth 6) 5), (4, (some
      (XWord.toBits y5)).isNone || !Wf.group138 (XWord.of (XWord.toBits y5)).n (Wf.copyLen ((bit false ++ (bit y3 ++
      bit y4) : BitVec 3).getLsbD 1) ((bit false ++ (bit y3 ++ bit y4) : BitVec 3).getLsbD 0)))] (.xst ((y0.setWidth
      6).setWidth 5) y1 y2 ((bit false ++ (bit y3 ++ bit y4) : BitVec 3).getLsbD 1) ((bit false ++ (bit y3 ++ bit
      y4) : BitVec 3).getLsbD 0) (XWord.of (XWord.toBits y5)) y6) : Except Nat Instr) = _
  simp only [bits3_0, bits3_1, bits3_2, XWord.of_toBits, Option.isNone_some]
  simp_all [chk, hi_setWidth]

theorem xmc (y0 : Tok) (y1 y2 : Reg) (y3 y4 y5 : Bool) (y6 : XWord) (y7 : List Tok) : Statement (.xmc y0 y1 y2 y3 y4
    y5 y6 y7) := by
  intro env h
  replace h : ((!y3 || y1.toNat < 8) && Wf.group y6.n (Wf.copyLen y4 y5 + 2) && Wf.toks y7 : Bool) = true := h
  refine ⟨_, rfl, ?_⟩
  show (chk [(3, hi (y0.setWidth 6) 5 || ((bit y3 ++ (bit y4 ++ bit y5) : BitVec 3).getLsbD 2 && hi y1 3)), (4,
      (some (XWord.toBits y6)).isNone || !Wf.group (XWord.of (XWord.toBits y6)).n ((Wf.copyLen ((bit y3 ++ (bit y4
      ++ bit y5) : BitVec 3).getLsbD 1) ((bit y3 ++ (bit y4 ++ bit y5) : BitVec 3).getLsbD 0)) + 2))] (.xmc
      ((y0.setWidth 6).setWidth 5) y1 y2 ((bit y3 ++ (bit y4 ++ bit y5) : BitVec 3).getLsbD 2) ((bit y3 ++ (bit y4
      ++ bit y5) : BitVec 3).getLsbD 1) ((bit y3 ++ (bit y4 ++ bit y5) : BitVec 3).getLsbD 0) (XWord.of
      (XWord.toBits y6)) y7) : Except Nat Instr) = _
  have hm : y3 = true → hi y1 3 = false := fun e => hi3_of_lt (by simp_all)
  simp only [bits3_0, bits3_1, bits3_2, XWord.of_toBits, Option.isNone_some]
  simp_all [chk, hi_setWidth]

theorem xred (y0 : Tok) (y1 y2 : Reg) (y3 y4 y5 : Bool) (y6 : XWord) (y7 : List Tok) : Statement (.xred y0 y1 y2 y3 y4
    y5 y6 y7) := by
  intro env h
  replace h : (Wf.group138 y6.n (Wf.copyLen y4 y5) && Wf.toks y7 : Bool) = true := h
  refine ⟨_, rfl, ?_⟩
  show (chk [(3, hi (y0.setWidth 6) 5), (4, (some (XWord.toBits y6)).isNone || !Wf.group138 (XWord.of (XWord.toBits
      y6)).n (Wf.copyLen ((bit y3 ++ (bit y4 ++ bit y5) : BitVec 3).getLsbD 1) ((bit y3 ++ (bit y4 ++ bit y5) :
      BitVec 3).getLsbD 0)))] (.xred ((y0.setWidth 6).setWidth 5) y1 y2 ((bit y3 ++ (bit y4 ++ bit y5) : BitVec
      3).getLsbD 2) ((bit y3 ++ (bit y4 ++ bit y5) : BitVec 3).getLsbD 1) ((bit y3 ++ (bit y4 ++ bit y5) : BitVec
      3).getLsbD 0) (XWord.of (XWord.toBits y6)) y7) : Except Nat Instr) = _
  simp only [bits3_0, bits3_1, bits3_2, XWord.of_toBits, Option.isNone_some]
  simp_all [chk, hi_setWidth]

theorem xhost (y0 : Tok) (y1 y2 : Reg) (y3 y4 y5 : Bool) (y6 : XWord) (y7 : List Tok) : Statement (.xhost y0 y1 y2 y3
    y4 y5 y6 y7) := by
  intro env h
  replace h : (Wf.group138 y6.n (Wf.copyLen y4 y5) && Wf.toks y7 : Bool) = true := h
  refine ⟨_, rfl, ?_⟩
  show (chk [(3, hi (y0.setWidth 6) 5), (4, (some (XWord.toBits y6)).isNone || !Wf.group138 (XWord.of (XWord.toBits
      y6)).n (Wf.copyLen ((bit y3 ++ (bit y4 ++ bit y5) : BitVec 3).getLsbD 1) ((bit y3 ++ (bit y4 ++ bit y5) :
      BitVec 3).getLsbD 0)))] (.xhost ((y0.setWidth 6).setWidth 5) y1 y2 ((bit y3 ++ (bit y4 ++ bit y5) : BitVec
      3).getLsbD 2) ((bit y3 ++ (bit y4 ++ bit y5) : BitVec 3).getLsbD 1) ((bit y3 ++ (bit y4 ++ bit y5) : BitVec
      3).getLsbD 0) (XWord.of (XWord.toBits y6)) y7) : Except Nat Instr) = _
  simp only [bits3_0, bits3_1, bits3_2, XWord.of_toBits, Option.isNone_some]
  simp_all [chk, hi_setWidth]

theorem xchain (y0 : Tok) (y1 : Reg) (y2 : Bool) (y3 : List Tok) : Statement (.xchain y0 y1 y2 y3) := by
  intro env h
  replace h : (Wf.toks y3 : Bool) = true := h
  refine ⟨_, rfl, ?_⟩
  show (chk [(2, ((bit y2).setWidth 3).toNat ≥ 2), (3, hi (y0.setWidth 6) 5), (4, (0 : Reg) != 0)] (.xchain
      ((y0.setWidth 6).setWidth 5) y1 (((bit y2).setWidth 3).getLsbD 0) y3) : Except Nat Instr) = _
  simp only [wide1_bit3, wide1_lt3]
  simp_all [chk, hi_setWidth]

theorem xpf (y0 : Tok) (y1 : Reg) (y2 : Bool) (y3 : XWord) (y4 : List Tok) : Statement (.xpf y0 y1 y2 y3 y4) := by
  intro env h
  replace h : (Wf.group y3.n 1 && Wf.toks y4 : Bool) = true := h
  refine ⟨_, rfl, ?_⟩
  show (chk [(2, (bit false ++ (bit false ++ bit y2) : BitVec 3).toNat ≥ 2), (3, hi (y0.setWidth 6) 5), (4, (0 :
      Reg) != 0 || (some (XWord.toBits y3)).isNone || !Wf.group (XWord.of (XWord.toBits y3)).n 1)] (.xpf
      ((y0.setWidth 6).setWidth 5) y1 ((bit false ++ (bit false ++ bit y2) : BitVec 3).getLsbD 0) (XWord.of
      (XWord.toBits y3)) y4) : Except Nat Instr) = _
  simp only [bits3_0, bits3_one, XWord.of_toBits, Option.isNone_some]
  simp_all [chk, hi_setWidth]

theorem xres (y0 : Tok) (y1 : Reg) (y2 : Bool) (y3 : XWord) (y4 : List Tok) : Statement (.xres y0 y1 y2 y3 y4) := by
  intro env h
  replace h : (Wf.group y3.n 1 && Wf.toks y4 : Bool) = true := h
  refine ⟨_, rfl, ?_⟩
  show (chk [(2, (bit false ++ (bit false ++ bit y2) : BitVec 3).toNat ≥ 2), (3, hi (y0.setWidth 6) 5), (4, (0 :
      Reg) != 0 || (some (XWord.toBits y3)).isNone || !Wf.group (XWord.of (XWord.toBits y3)).n 1)] (.xres
      ((y0.setWidth 6).setWidth 5) y1 ((bit false ++ (bit false ++ bit y2) : BitVec 3).getLsbD 0) (XWord.of
      (XWord.toBits y3)) y4) : Except Nat Instr) = _
  simp only [bits3_0, bits3_one, XWord.of_toBits, Option.isNone_some]
  simp_all [chk, hi_setWidth]

theorem xsub (y0 : Tok) (y1 : Ring) (y2 : Reg) (y3 : Bool) (y4 : XWord) (y5 : List Tok) : Statement (.xsub y0 y1 y2 y3
    y4 y5) := by
  intro env h
  replace h : (Wf.group y4.n 5 && Wf.toks y5 : Bool) = true := h
  refine ⟨_, rfl, ?_⟩
  show (chk [(3, hi (y0.setWidth 6) 5 || hi (y1.setWidth 6) 3), (4, (bit false ++ (bit false ++ bit y3) : BitVec
      3).toNat ≥ 2 || (some (XWord.toBits y4)).isNone || !Wf.group (XWord.of (XWord.toBits y4)).n 5)] (.xsub
      ((y0.setWidth 6).setWidth 5) ((y1.setWidth 6).setWidth 3) y2 ((bit false ++ (bit false ++ bit y3) : BitVec
      3).getLsbD 0) (XWord.of (XWord.toBits y4)) y5) : Except Nat Instr) = _
  simp only [bits3_0, bits3_one, XWord.of_toBits, Option.isNone_some]
  simp_all [chk, hi_setWidth]

theorem xunsub (y0 : Tok) (y1 : Ring) (y2 : List Tok) : Statement (.xunsub y0 y1 y2) := by
  intro env h
  replace h : (Wf.toks y2 : Bool) = true := h
  refine ⟨_, rfl, ?_⟩
  show (chk [(3, hi (y0.setWidth 6) 5 || hi (y1.setWidth 6) 3), (4, (0 : Reg) != 0 || (0 : BitVec 3) != 0 || (some
      0) != some 0)] (.xunsub ((y0.setWidth 6).setWidth 5) ((y1.setWidth 6).setWidth 3) y2) : Except Nat Instr) = _
  simp_all [chk, hi_setWidth]

theorem xbmv (y0 : Tok) (y1 y2 : Reg) (y3 : Bool) (y4 : BitVec 2) (y5 : XWord) (y6 : List Tok) : Statement (.xbmv y0
    y1 y2 y3 y4 y5 y6) := by
  intro env h
  replace h : (y4 != 3 && Wf.group y5.n (Wf.bmvLen y3) && Wf.toks y6 : Bool) = true := h
  refine ⟨_, rfl, ?_⟩
  show (chk [(2, (bit y3 ++ y4).extractLsb' 0 2 == 3), (3, hi (y0.setWidth 6) 5), (4, (some y5.toBits).isNone ||
      !Wf.group (XWord.of y5.toBits).n (Wf.bmvLen ((bit y3 ++ y4).getLsbD 2)))] (.xbmv ((y0.setWidth 6).setWidth 5)
      y1 y2 ((bit y3 ++ y4).getLsbD 2) ((bit y3 ++ y4).extractLsb' 0 2) (XWord.of y5.toBits) y6) : Except Nat Instr)
      = _
  simp only [b_2_high, b_2_low, XWord.of_toBits, Option.isNone_some]
  simp_all [chk, hi_setWidth]

theorem xbfen (y0 : Tok) (y1 : Reg) (y2 : XWord) (y3 : List Tok) : Statement (.xbfen y0 y1 y2 y3) := by
  intro env h
  replace h : (Wf.group y2.n 1 && Wf.toks y3 : Bool) = true := h
  refine ⟨_, rfl, ?_⟩
  show (chk [(3, hi (y0.setWidth 6) 5), (4, (0 : Reg) != 0 || (bit false ++ (bit false ++ bit false) : BitVec 3) !=
      0 || (some (XWord.toBits y2)).isNone || !Wf.group (XWord.of (XWord.toBits y2)).n 1)] (.xbfen ((y0.setWidth
      6).setWidth 5) y1 (XWord.of (XWord.toBits y2)) y3) : Except Nat Instr) = _
  simp only [bits3_none, XWord.of_toBits, Option.isNone_some]
  simp_all [chk, hi_setWidth]

theorem xinv (y0 : Tok) (y1 : BitVec 2) (y2 : Bool) (y3 : Reg) (y4 : List Tok) : Statement (.xinv y0 y1 y2 y3 y4) := by
  intro env h
  replace h : (env.priv && y1 != 3 && y3 != 0 && Wf.group y3 (Wf.invLen y2) && Wf.toks y4 : Bool) = true := h
  refine ⟨_, rfl, ?_⟩
  show (chk [(2, (y1 ++ bit y2).extractLsb' 1 2 == 3), (3, hi (y0.setWidth 6) 5), (4, (0 : Reg) != 0 || (0 : Reg) !=
      0 || (some (XWord.toBits ⟨y3, 0, 0⟩)).isNone || (XWord.of (XWord.toBits ⟨y3, 0, 0⟩)).cap != 0 || (XWord.of
      (XWord.toBits ⟨y3, 0, 0⟩)).off != 0 || (XWord.of (XWord.toBits ⟨y3, 0, 0⟩)).n == 0 || !Wf.group (XWord.of
      (XWord.toBits ⟨y3, 0, 0⟩)).n (Wf.invLen ((y1 ++ bit y2).getLsbD 0))), (7, !env.priv)] (.xinv ((y0.setWidth
      6).setWidth 5) ((y1 ++ bit y2).extractLsb' 1 2) ((y1 ++ bit y2).getLsbD 0) (XWord.of (XWord.toBits ⟨y3, 0,
      0⟩)).n y4) : Except Nat Instr) = _
  simp only [two_b_low, two_b_high, XWord.of_toBits, Option.isNone_some]
  simp_all [chk, hi_setWidth]

theorem kbind (y0 y1 y2 : Reg) : Statement (.kbind y0 y1 y2) :=
  fun _ _ => ⟨_, rfl, rfl⟩

theorem kinitEnc (y0 : Reg) : Statement (.kinitEnc y0) :=
  fun _ _ => ⟨_, rfl, rfl⟩

theorem kinitDec (y0 : Reg) : Statement (.kinitDec y0) :=
  fun _ _ => ⟨_, rfl, rfl⟩

theorem kenc (y0 y1 : Reg) (y2 : PReg) (y3 : Bool) (y4 : BitVec 2) : Statement (.kenc y0 y1 y2 y3 y4) := by
  intro env h
  refine ⟨_, rfl, ?_⟩
  show (chk [(3, hi (y2.setWidth 6) 4)] (.kenc y0 y1 ((y2.setWidth 6).setWidth 4) ((grp y3 y4).getLsbD 2) ((grp y3
      y4).extractLsb' 0 2)) : Except Nat Instr) = _
  simp only [grp_bit, grp_low]
  simp_all [chk, hi_setWidth]

theorem kdec (y0 y1 : Reg) (y2 : PReg) (y3 : Bool) (y4 : BitVec 2) : Statement (.kdec y0 y1 y2 y3 y4) := by
  intro env h
  refine ⟨_, rfl, ?_⟩
  show (chk [(3, hi (y2.setWidth 6) 4)] (.kdec y0 y1 ((y2.setWidth 6).setWidth 4) ((grp y3 y4).getLsbD 2) ((grp y3
      y4).extractLsb' 0 2)) : Except Nat Instr) = _
  simp only [grp_bit, grp_low]
  simp_all [chk, hi_setWidth]

theorem kbypE (y0 y1 : Reg) (y2 : BitVec 4) (y3 : Bool) (y4 : BitVec 2) : Statement (.kbypE y0 y1 y2 y3 y4) := by
  intro env h
  refine ⟨_, rfl, ?_⟩
  show (chk [(4, ((0 : BitVec 2) ++ y2).getLsbD 4)] (if ((0 : BitVec 2) ++ y2).getLsbD 5 then .kbypD y0 y1 (((0 :
      BitVec 2) ++ y2).setWidth 4) ((grp y3 y4).getLsbD 2) ((grp y3 y4).extractLsb' 0 2) else .kbypE y0 y1 (((0 :
      BitVec 2) ++ y2).setWidth 4) ((grp y3 y4).getLsbD 2) ((grp y3 y4).extractLsb' 0 2)) : Except Nat Instr) = _
  simp only [grp_bit, grp_low, enc_bits4, enc_bits5, enc_low]
  simp_all [chk]

theorem kbypD (y0 y1 : Reg) (y2 : BitVec 4) (y3 : Bool) (y4 : BitVec 2) : Statement (.kbypD y0 y1 y2 y3 y4) := by
  intro env h
  refine ⟨_, rfl, ?_⟩
  show (chk [(4, ((2 : BitVec 2) ++ y2).getLsbD 4)] (if ((2 : BitVec 2) ++ y2).getLsbD 5 then .kbypD y0 y1 (((2 :
      BitVec 2) ++ y2).setWidth 4) ((grp y3 y4).getLsbD 2) ((grp y3 y4).extractLsb' 0 2) else .kbypE y0 y1 (((2 :
      BitVec 2) ++ y2).setWidth 4) ((grp y3 y4).getLsbD 2) ((grp y3 y4).extractLsb' 0 2)) : Except Nat Instr) = _
  simp only [grp_bit, grp_low, dec_bits4, dec_bits5, dec_low]
  simp_all [chk]

theorem ktgt (y0 y1 : Reg) (y2 : Bool) (y3 : BitVec 2) : Statement (.ktgt y0 y1 y2 y3) := by
  intro env h
  refine ⟨_, rfl, ?_⟩
  show (chk [(4, (0 : Reg) != 0)] (.ktgt y0 y1 ((grp y2 y3).getLsbD 2) ((grp y2 y3).extractLsb' 0 2)) : Except Nat
      Instr) = _
  simp only [grp_bit, grp_low]
  simp_all [chk]

theorem kflush (y0 : Reg) : Statement (.kflush y0) :=
  fun _ _ => ⟨_, rfl, rfl⟩

theorem ksave (y0 y1 : Reg) (y2 : BitVec 32) : Statement (.ksave y0 y1 y2) := by
  intro env h
  refine ⟨_, rfl, ?_⟩
  show (chk [(4, (0 : BitVec 3) != 0)] (.ksave y0 y1 (imm6 (extFor 6 y2) (y2.extractLsb' 0 6))) : Except Nat Instr) = _
  simp only [imm6_extFor]
  simp_all [chk]

theorem krest (y0 y1 : Reg) (y2 : BitVec 32) : Statement (.krest y0 y1 y2) := by
  intro env h
  refine ⟨_, rfl, ?_⟩
  show (chk [(4, (0 : BitVec 3) != 0)] (.krest y0 y1 (imm6 (extFor 6 y2) (y2.extractLsb' 0 6))) : Except Nat Instr) = _
  simp only [imm6_extFor]
  simp_all [chk]

theorem kstat (y0 y1 : Reg) (y2 : BitVec 3) : Statement (.kstat y0 y1 y2) := by
  intro env h
  replace h : (y2 != 7 : Bool) = true := h
  refine ⟨_, rfl, ?_⟩
  show (chk [(2, y2 == 7), (4, (0 : Reg) != 0)] (.kstat y0 y1 y2) : Except Nat Instr) = _
  simp_all [chk]

theorem pld (y0 : PReg) (y1 y2 : Reg) (y3 : BitVec 3) : Statement (.pld y0 y1 y2 y3) := by
  intro env h
  replace h : (Wf.prob y1 y2 y3 : Bool) = true := h
  refine ⟨_, rfl, ?_⟩
  show (chk [(2, y3.toNat ≥ 5), (3, hi (y0.setWidth 6) 4), (4, !Wf.prob y1 y2 y3)] (.pld ((y0.setWidth 6).setWidth
      4) y1 y2 y3) : Except Nat Instr) = _
  have hr := prob_rows _ _ _ h
  simp [chk, h, hi_setWidth, show ¬ 5 ≤ y3.toNat by omega]

theorem pqnt (y0 : PReg) (y1 y2 : Reg) (y3 : BitVec 3) : Statement (.pqnt y0 y1 y2 y3) := by
  intro env h
  replace h : (Wf.prob y1 y2 y3 : Bool) = true := h
  refine ⟨_, rfl, ?_⟩
  show (chk [(2, y3.toNat ≥ 5), (3, hi (y0.setWidth 6) 4), (4, !Wf.prob y1 y2 y3)] (.pqnt ((y0.setWidth 6).setWidth
      4) y1 y2 y3) : Except Nat Instr) = _
  have hr := prob_rows _ _ _ h
  simp [chk, h, hi_setWidth, show ¬ 5 ≤ y3.toNat by omega]

theorem pnrm (y0 : PReg) (y1 y2 : Reg) (y3 : BitVec 3) : Statement (.pnrm y0 y1 y2 y3) := by
  intro env h
  replace h : (Wf.prob y1 y2 y3 : Bool) = true := h
  refine ⟨_, rfl, ?_⟩
  show (chk [(2, y3.toNat ≥ 5), (3, hi (y0.setWidth 6) 4), (4, !Wf.prob y1 y2 y3)] (.pnrm ((y0.setWidth 6).setWidth
      4) y1 y2 y3) : Except Nat Instr) = _
  have hr := prob_rows _ _ _ h
  simp [chk, h, hi_setWidth, show ¬ 5 ≤ y3.toNat by omega]

theorem nop  : Statement (.nop ) :=
  fun _ _ => ⟨_, rfl, rfl⟩

theorem br (y0 : BitVec 47) : Statement (.br y0) := by
  intro env h
  refine ⟨_, rfl, ?_⟩
  show (.ok (.br (imm21 (extFor 21 y0) (y0.extractLsb' 15 6) (y0.extractLsb' 9 6) (y0.extractLsb' 3 6)
      (y0.extractLsb' 0 3))) : Except Nat Instr) = _
  simp only [imm21_extFor]

theorem bc (y0 : BitVec 32) (y1 y2 : Reg) (y3 : BitVec 3) : Statement (.bc y0 y1 y2 y3) := by
  intro env h
  replace h : (y3.toNat < 6 : Bool) = true := h
  refine ⟨_, rfl, ?_⟩
  show (chk [(2, y3.toNat ≥ 6)] (.bc (imm6 (extFor 6 y0) (y0.extractLsb' 0 6)) y1 y2 y3) : Except Nat Instr) = _
  simp only [imm6_extFor]
  simp_all [chk]

theorem bz (y0 : BitVec 41) (y1 : Reg) : Statement (.bz y0 y1) := by
  intro env h
  refine ⟨_, rfl, ?_⟩
  show (.ok (.bz (imm15 (extFor 15 y0) (y0.extractLsb' 9 6) (y0.extractLsb' 3 6) (y0.extractLsb' 0 3)) y1) : Except
      Nat Instr) = _
  simp only [imm15_extFor]

theorem bnz (y0 : BitVec 41) (y1 : Reg) : Statement (.bnz y0 y1) := by
  intro env h
  refine ⟨_, rfl, ?_⟩
  show (.ok (.bnz (imm15 (extFor 15 y0) (y0.extractLsb' 9 6) (y0.extractLsb' 3 6) (y0.extractLsb' 0 3)) y1) : Except
      Nat Instr) = _
  simp only [imm15_extFor]

theorem jr (y0 : Reg) : Statement (.jr y0) :=
  fun _ _ => ⟨_, rfl, rfl⟩

theorem call (y0 : BitVec 47) : Statement (.call y0) := by
  intro env h
  refine ⟨_, rfl, ?_⟩
  show (.ok (.call (imm21 (extFor 21 y0) (y0.extractLsb' 15 6) (y0.extractLsb' 9 6) (y0.extractLsb' 3 6)
      (y0.extractLsb' 0 3))) : Except Nat Instr) = _
  simp only [imm21_extFor]

theorem ret  : Statement (.ret ) :=
  fun _ _ => ⟨_, rfl, rfl⟩

theorem loop (y0 : BitVec 41) (y1 : Reg) : Statement (.loop y0 y1) := by
  intro env h
  replace h : (y1 != 0 : Bool) = true := h
  refine ⟨_, rfl, ?_⟩
  show (chk [(4, y1 == 0)] (.loop (imm15 (extFor 15 y0) (y0.extractLsb' 9 6) (y0.extractLsb' 3 6) (y0.extractLsb' 0
      3)) y1) : Except Nat Instr) = _
  simp only [imm15_extFor]
  simp_all [chk]

theorem spawn (y0 y1 y2 : Reg) (y3 : BitVec 3) : Statement (.spawn y0 y1 y2 y3) := by
  intro env h
  replace h : (y2.toNat + y3.toNat ≤ 63 : Bool) = true := h
  refine ⟨_, rfl, ?_⟩
  show (chk [(4, y2.toNat + y3.toNat > 63)] (.spawn y0 y1 y2 y3) : Except Nat Instr) = _
  simp_all [chk]

theorem arrive (y0 y1 y2 : Reg) (y3 : Scope) : Statement (.arrive y0 y1 y2 y3) := by
  intro env h
  replace h : (y3.toNat < 6 : Bool) = true := h
  refine ⟨_, rfl, ?_⟩
  show (chk [(2, y3.toNat ≥ 6)] (.arrive y0 y1 y2 y3) : Except Nat Instr) = _
  simp_all [chk]

theorem waitb (y0 y1 y2 : Reg) (y3 : Scope) : Statement (.waitb y0 y1 y2 y3) := by
  intro env h
  replace h : (y3.toNat < 6 : Bool) = true := h
  refine ⟨_, rfl, ?_⟩
  show (chk [(2, y3.toNat ≥ 6)] (.waitb y0 y1 y2 y3) : Except Nat Instr) = _
  simp_all [chk]

theorem waitw (y0 y1 : Reg) (y2 : BitVec 3) : Statement (.waitw y0 y1 y2) := by
  intro env h
  replace h : (y2.toNat < 3 : Bool) = true := h
  refine ⟨_, rfl, ?_⟩
  show (chk [(2, y2.toNat ≥ 3), (4, (0 : Reg) != 0)] (.waitw y0 y1 y2) : Except Nat Instr) = _
  simp_all [chk]

theorem awaitf (y0 : Reg) (y1 : Ring) : Statement (.awaitf y0 y1) := by
  intro env h
  refine ⟨_, rfl, ?_⟩
  show (chk [(3, hi (y1.setWidth 6) 3), (4, (0 : Reg) != 0 || (0 : BitVec 3) != 0)] (.awaitf y0 ((y1.setWidth
      6).setWidth 3)) : Except Nat Instr) = _
  simp_all [chk, hi_setWidth]

theorem relslot (y0 : Ring) : Statement (.relslot y0) := by
  intro env h
  refine ⟨_, rfl, ?_⟩
  show (chk [(3, hi (y0.setWidth 6) 3), (4, (0 : Reg) != 0 || (0 : Reg) != 0 || (0 : BitVec 3) != 0)] (.relslot
      ((y0.setWidth 6).setWidth 3)) : Except Nat Instr) = _
  simp_all [chk, hi_setWidth]

theorem twait (y0 : Tok) : Statement (.twait y0) := by
  intro env h
  refine ⟨_, rfl, ?_⟩
  show (chk [(3, hi (y0.setWidth 6) 5), (4, (0 : Reg) != 0 || (0 : Reg) != 0 || (0 : BitVec 3) != 0)] (.twait
      ((y0.setWidth 6).setWidth 5)) : Except Nat Instr) = _
  simp_all [chk, hi_setWidth]

theorem yield (y0 : Bool) : Statement (.yield y0) := by
  intro env h
  refine ⟨_, rfl, ?_⟩
  show (chk [(2, ((bit y0).setWidth 3).toNat ≥ 2), (4, (0 : Reg) != 0 || (0 : Reg) != 0 || (0 : Reg) != 0)] (.yield
      (((bit y0).setWidth 3).getLsbD 0)) : Except Nat Instr) = _
  simp only [wide1_bit3, wide1_lt3]
  simp_all [chk]

theorem safept (y0 : BitVec 35) : Statement (.safept y0) := by
  intro env h
  replace h : (!y0.msb : Bool) = true := h
  refine ⟨_, rfl, ?_⟩
  show (match (if (y0.extractLsb' 0 9).setWidth 35 = y0 then none else some (y0.extractLsb' 9 26)) with
    | none => chk [(4, (0 : Reg) != 0 || (0 : Reg) != 0)]
        (.safept ((y0.extractLsb' 3 6 ++ y0.extractLsb' 0 3 : BitVec 9).setWidth 35))
    | some h => chk [(4, (0 : Reg) != 0 || (0 : Reg) != 0 || h.msb)]
        (.safept (h ++ (y0.extractLsb' 3 6 ++ y0.extractLsb' 0 3 : BitVec 9))) : Except Nat Instr) = _
  by_cases e : (y0.extractLsb' 0 9).setWidth 35 = y0
  · simp only [if_pos e, live_short]; rw [e]; simp [chk]
  · simp only [if_neg e, live_high y0 (by simpa using h), live_join]; simp [chk]

theorem drain (y0 : Scope) : Statement (.drain y0) := by
  intro env h
  replace h : (y0.toNat < 6 : Bool) = true := h
  refine ⟨_, rfl, ?_⟩
  show (chk [(2, y0.toNat ≥ 6), (4, (0 : Reg) != 0 || (0 : Reg) != 0 || (0 : Reg) != 0)] (.drain y0) : Except Nat
      Instr) = _
  simp_all [chk]

theorem fence (y0 : Scope) : Statement (.fence y0) := by
  intro env h
  replace h : (y0.toNat < 6 : Bool) = true := h
  refine ⟨_, rfl, ?_⟩
  show (chk [(2, y0.toNat ≥ 6), (4, (0 : Reg) != 0 || (0 : Reg) != 0 || (0 : Reg) != 0)] (.fence y0) : Except Nat
      Instr) = _
  simp_all [chk]

theorem trap (y0 : BitVec 9) : Statement (.trap y0) := by
  intro env h
  refine ⟨_, rfl, ?_⟩
  show (chk [(4, (0 : Reg) != 0 || (0 : Reg) != 0)] (.trap ((y0.extractLsb' 3 6) ++ (y0.extractLsb' 0 3))) : Except
      Nat Instr) = _
  simp only [join_6_3]
  simp_all [chk]

theorem svc (y0 : BitVec 9) : Statement (.svc y0) := by
  intro env h
  refine ⟨_, rfl, ?_⟩
  show (chk [(4, (0 : Reg) != 0 || (0 : Reg) != 0)] (.svc ((y0.extractLsb' 3 6) ++ (y0.extractLsb' 0 3))) : Except
      Nat Instr) = _
  simp only [join_6_3]
  simp_all [chk]

theorem eret  : Statement (.eret ) := by
  intro env h
  replace h : (env.priv : Bool) = true := h
  refine ⟨_, rfl, ?_⟩
  show (chk [(4, (0 : Reg) != 0 || (0 : Reg) != 0 || (0 : Reg) != 0 || (0 : BitVec 3) != 0), (7, !env.priv)] .eret :
      Except Nat Instr) = _
  simp_all [chk]

theorem retire  : Statement (.retire ) :=
  fun _ _ => ⟨_, rfl, rfl⟩

theorem enq (y0 y1 y2 : Reg) (y3 : BitVec 3) (y4 : CReg) : Statement (.enq y0 y1 y2 y3 y4) := by
  intro env h
  replace h : (y2.toNat + y3.toNat ≤ 63 : Bool) = true := h
  refine ⟨_, rfl, ?_⟩
  show (chk [(4, (y4.setWidth 26).extractLsb' 4 22 != 0 || y2.toNat + y3.toNat > 63)] (.enq y0 y1 y2 y3
      ((y4.setWidth 26).extractLsb' 0 4)) : Except Nat Instr) = _
  simp only [creg_high, creg_low]
  simp_all [chk]

theorem tdec (y0 y1 : Reg) : Statement (.tdec y0 y1) :=
  fun _ _ => ⟨_, rfl, rfl⟩

theorem cancel (y0 y1 : Reg) : Statement (.cancel y0 y1) :=
  fun _ _ => ⟨_, rfl, rfl⟩

theorem logmark (y0 : Reg) (y1 : BitVec 3) : Statement (.logmark y0 y1) :=
  fun _ _ => ⟨_, rfl, rfl⟩

theorem issue (y0 : Nat) : Statement (.issue y0) :=
  fun _ h => nomatch h

theorem resultWrite (y0 : Nat) : Statement (.resultWrite y0) :=
  fun _ h => nomatch h

theorem divideResult (y0 : Nat) : Statement (.divideResult y0) :=
  fun _ h => nomatch h

theorem valueArrives (y0 y1 : Nat) : Statement (.valueArrives y0 y1) :=
  fun _ h => nomatch h

theorem queuePerform (y0 y1 y2 : Nat) : Statement (.queuePerform y0 y1 y2) :=
  fun _ h => nomatch h

theorem fill (y0 y1 : Nat) : Statement (.fill y0 y1) :=
  fun _ h => nomatch h

theorem evict (y0 y1 : Nat) : Statement (.evict y0 y1) :=
  fun _ h => nomatch h

theorem engineRead (y0 y1 y2 : Nat) : Statement (.engineRead y0 y1 y2) :=
  fun _ h => nomatch h

theorem engineWrite (y0 y1 y2 : Nat) : Statement (.engineWrite y0 y1 y2) :=
  fun _ h => nomatch h

theorem resolve (y0 y1 : Nat) : Statement (.resolve y0 y1) :=
  fun _ h => nomatch h

theorem claim (y0 y1 : Nat) : Statement (.claim y0 y1) :=
  fun _ h => nomatch h

theorem ringFill (y0 y1 : Nat) : Statement (.ringFill y0 y1) :=
  fun _ h => nomatch h

theorem chainRecordRead (y0 y1 : Nat) : Statement (.chainRecordRead y0 y1) :=
  fun _ h => nomatch h

theorem hostCompletion (y0 y1 y2 : Nat) (y3 : BitVec 4) (y4 : Word) : Statement (.hostCompletion y0 y1 y2 y3 y4) :=
  fun _ h => nomatch h

theorem pkgBarrierComplete (y0 y1 : Nat) : Statement (.pkgBarrierComplete y0 y1) :=
  fun _ h => nomatch h

theorem childEntry (y0 : Nat) : Statement (.childEntry y0) :=
  fun _ h => nomatch h

theorem accept (y0 : Nat) : Statement (.accept y0) :=
  fun _ h => nomatch h

theorem atomicPerform (y0 y1 : Nat) : Statement (.atomicPerform y0 y1) :=
  fun _ h => nomatch h

theorem acquireDone (y0 : Nat) : Statement (.acquireDone y0) :=
  fun _ h => nomatch h

theorem refreshWindowEnd (y0 : Nat) : Statement (.refreshWindowEnd y0) :=
  fun _ h => nomatch h

theorem request (y0 y1 : Nat) : Statement (.request y0 y1) :=
  fun _ h => nomatch h

theorem bind (y0 y1 y2 y3 : Nat) : Statement (.bind y0 y1 y2 y3) :=
  fun _ h => nomatch h

theorem dispatch (y0 : Nat) : Statement (.dispatch y0) :=
  fun _ h => nomatch h

theorem stealAttempt (y0 : Nat) : Statement (.stealAttempt y0) :=
  fun _ h => nomatch h

theorem timetableRelease (y0 y1 : Nat) : Statement (.timetableRelease y0 y1) :=
  fun _ h => nomatch h

theorem deadlineMiss (y0 y1 : Nat) : Statement (.deadlineMiss y0 y1) :=
  fun _ h => nomatch h

theorem hangFault (y0 : Nat) : Statement (.hangFault y0) :=
  fun _ h => nomatch h

theorem preEmption (y0 y1 : Nat) : Statement (.preEmption y0 y1) :=
  fun _ h => nomatch h

theorem quickStop (y0 y1 : Nat) : Statement (.quickStop y0 y1) :=
  fun _ h => nomatch h

theorem terminalCause (y0 : Nat) (y1 : Byte) (y2 : DWord) : Statement (.terminalCause y0 y1 y2) :=
  fun _ h => nomatch h

theorem svcAnswer (y0 : Nat) (y1 : DWord) : Statement (.svcAnswer y0 y1) :=
  fun _ h => nomatch h

theorem unmapPreparation (y0 : Nat) : Statement (.unmapPreparation y0) :=
  fun _ h => nomatch h

theorem unmapFree (y0 : Nat) : Statement (.unmapFree y0) :=
  fun _ h => nomatch h

theorem walk (y0 y1 : Nat) : Statement (.walk y0 y1) :=
  fun _ h => nomatch h

theorem tableChange (y0 y1 y2 : Nat) (y3 : List DWord) : Statement (.tableChange y0 y1 y2 y3) :=
  fun _ h => nomatch h

theorem invalidate (y0 y1 : Nat) : Statement (.invalidate y0 y1) :=
  fun _ h => nomatch h

theorem ack (y0 y1 : Nat) : Statement (.ack y0 y1) :=
  fun _ h => nomatch h

theorem leaseRevoke (y0 y1 y2 : Nat) : Statement (.leaseRevoke y0 y1 y2) :=
  fun _ h => nomatch h

theorem unmap (y0 y1 y2 y3 : Nat) : Statement (.unmap y0 y1 y2 y3) :=
  fun _ h => nomatch h

theorem hostHandleUnbind (y0 y1 : Nat) : Statement (.hostHandleUnbind y0 y1) :=
  fun _ h => nomatch h

theorem arenaBirth (y0 y1 : Nat) : Statement (.arenaBirth y0 y1) :=
  fun _ h => nomatch h

theorem arenaDeath (y0 y1 : Nat) : Statement (.arenaDeath y0 y1) :=
  fun _ h => nomatch h

theorem free (y0 y1 : Nat) : Statement (.free y0 y1) :=
  fun _ h => nomatch h

theorem push (y0 y1 : Nat) : Statement (.push y0 y1) :=
  fun _ h => nomatch h

theorem pull (y0 y1 : Nat) : Statement (.pull y0 y1) :=
  fun _ h => nomatch h

theorem bankRead (y0 y1 y2 : Nat) : Statement (.bankRead y0 y1 y2) :=
  fun _ h => nomatch h

theorem writeBack (y0 : Nat) : Statement (.writeBack y0) :=
  fun _ h => nomatch h

theorem bankFence (y0 y1 : Nat) : Statement (.bankFence y0 y1) :=
  fun _ h => nomatch h

theorem remoteComplete (y0 : Nat) : Statement (.remoteComplete y0) :=
  fun _ h => nomatch h

theorem replayDivergenceFault (y0 : Nat) : Statement (.replayDivergenceFault y0) :=
  fun _ h => nomatch h

theorem serialisedReExecution (y0 : Nat) : Statement (.serialisedReExecution y0) :=
  fun _ h => nomatch h

theorem frcTick : Statement (.frcTick) :=
  fun _ h => nomatch h

theorem powerSample (y0 : Nat) (y1 y2 : List Nat) (y3 : Nat) : Statement (.powerSample y0 y1 y2 y3) :=
  fun _ h => nomatch h

theorem wayMaskChange (y0 y1 y2 : Nat) (y3 : BitVec 16) (y4 : List Nat) : Statement (.wayMaskChange y0 y1 y2 y3 y4) :=
  fun _ h => nomatch h

theorem partitionBind (y0 : Nat) (y1 : Grant) : Statement (.partitionBind y0 y1) :=
  fun _ h => nomatch h

theorem queueKill (y0 y1 y2 : Nat) : Statement (.queueKill y0 y1 y2) :=
  fun _ h => nomatch h

theorem killClear (y0 y1 : Nat) : Statement (.killClear y0 y1) :=
  fun _ h => nomatch h

theorem launch (y0 : Nat) (y1 : LaunchReq) : Statement (.launch y0 y1) :=
  fun _ h => nomatch h

theorem powerGood : Statement (.powerGood) :=
  fun _ h => nomatch h

theorem imageFetch (y0 : Nat) (y1 y2 : List Byte) : Statement (.imageFetch y0 y1 y2) :=
  fun _ h => nomatch h

theorem selfTest (y0 : List DevUnit) : Statement (.selfTest y0) :=
  fun _ h => nomatch h

theorem engmapWrite (y0 : Nat) (y1 : DWord) : Statement (.engmapWrite y0 y1) :=
  fun _ h => nomatch h

theorem reducedService : Statement (.reducedService) :=
  fun _ h => nomatch h

theorem fullService (y0 : List Nat) : Statement (.fullService y0) :=
  fun _ h => nomatch h

theorem antiRollbackRaise (y0 y1 : Nat) (y2 : List Byte) : Statement (.antiRollbackRaise y0 y1 y2) :=
  fun _ h => nomatch h

theorem attestationReport (y0 : Option Nat) (y1 : List Byte) : Statement (.attestationReport y0 y1) :=
  fun _ h => nomatch h

theorem uncorrectableError (y0 y1 y2 : Nat) (y3 : Option Nat) : Statement (.uncorrectableError y0 y1 y2 y3) :=
  fun _ h => nomatch h

theorem correctedError (y0 y1 y2 : Nat) : Statement (.correctedError y0 y1 y2) :=
  fun _ h => nomatch h

theorem engineFailure (y0 y1 : Nat) : Statement (.engineFailure y0 y1) :=
  fun _ h => nomatch h

theorem flitReplay (y0 : Nat) (y1 : Bool) : Statement (.flitReplay y0 y1) :=
  fun _ h => nomatch h

theorem linkOutOfService (y0 : Nat) : Statement (.linkOutOfService y0) :=
  fun _ h => nomatch h

theorem requestAbandoned (y0 : Nat) : Statement (.requestAbandoned y0) :=
  fun _ h => nomatch h

theorem reduceGroupRegister (y0 : GroupDecl) : Statement (.reduceGroupRegister y0) :=
  fun _ h => nomatch h

theorem logFullRelease (y0 y1 y2 : Nat) : Statement (.logFullRelease y0 y1 y2) :=
  fun _ h => nomatch h

theorem replaySupply (y0 y1 y2 : Nat) : Statement (.replaySupply y0 y1 y2) :=
  fun _ h => nomatch h

theorem logExhausted (y0 y1 : Nat) : Statement (.logExhausted y0 y1) :=
  fun _ h => nomatch h

theorem flagsWrite (y0 : DWord) : Statement (.flagsWrite y0) :=
  fun _ h => nomatch h

theorem hintdropWrite (y0 : DWord) : Statement (.hintdropWrite y0) :=
  fun _ h => nomatch h

theorem roundctlWrite (y0 : DWord) : Statement (.roundctlWrite y0) :=
  fun _ h => nomatch h

theorem fmtWrite (y0 : Bool) (y1 : DWord) : Statement (.fmtWrite y0 y1) :=
  fun _ h => nomatch h

theorem wswinAccess (y0 : Option DWord) : Statement (.wswinAccess y0) :=
  fun _ h => nomatch h

theorem logctlWrite (y0 : DWord) : Statement (.logctlWrite y0) :=
  fun _ h => nomatch h

theorem evselWrite (y0 : BitVec 3) (y1 : DWord) : Statement (.evselWrite y0 y1) :=
  fun _ h => nomatch h

theorem trapRegisterWrite (y0 : BitVec 2) (y1 : DWord) : Statement (.trapRegisterWrite y0 y1) :=
  fun _ h => nomatch h

theorem lostLineRepair (y0 : Nat) (y1 : List Byte) : Statement (.lostLineRepair y0 y1) :=
  fun _ h => nomatch h

theorem partitionUnbind (y0 : Nat) : Statement (.partitionUnbind y0) :=
  fun _ h => nomatch h

theorem debugStopResume (y0 : Nat) : Statement (.debugStopResume y0) :=
  fun _ h => nomatch h

theorem linkRetrained (y0 : Nat) : Statement (.linkRetrained y0) :=
  fun _ h => nomatch h

theorem jobAbandon (y0 y1 : Nat) : Statement (.jobAbandon y0 y1) :=
  fun _ h => nomatch h

end RoundTrip

end Sys2Proof.Laws
end

