-- ==== Sys2Proof/Tests/Slice0.lean ====
section
/-! SUPPORT. Tests: words written out from the spec's encodings, ill-formed terms, and states that meet the hypotheses of
the obligations. -/

set_option Elab.async false

namespace Sys2Proof.Tests

open Sys2Proof Sys2Proof.Machine Sys2Proof.Claims

/-! ## Decoding (R18 to R22 and the tables of each class) -/

/-- A privileged context, neither of whose format pairs is FP4. -/
def env : Env := { priv := true, fp4a := false, fp4b := false }

/-- Each list of words decodes to its instruction. -/
def decodesAll (l : List (List Word × Instr)) : Bool :=
  l.all fun x => match decodeWords env x.1 with
    | .ok i => decide (i = x.2)
    | .error _ => false

/-- Words of the scalar forms. -/
theorem test_decode_scalar : decodesAll [
    ([0b0_000_0000010_100001_010010_001100_000], .sub 33 18 12),
    ([0b0_000_0000011_100001_010010_001100_000], .mul 33 18 12),
    ([0b0_000_0000100_100001_010010_001100_000], .mulh 33 18 12),
    ([0b0_000_0000101_100001_010010_001100_000], .mulhu 33 18 12),
    ([0b0_000_0000110_100001_010010_001100_000], .div 33 18 12),
    ([0b0_000_0000111_100001_010010_001100_000], .divu 33 18 12),
    ([0b0_000_0001000_100001_010010_001100_000], .rem 33 18 12),
    ([0b0_000_0001001_100001_010010_001100_000], .remu 33 18 12),
    ([0b0_000_0001010_100001_010010_001100_000], .and 33 18 12),
    ([0b0_000_0001100_100001_010010_001100_000], .or 33 18 12),
    ([0b0_000_0001110_100001_010010_001100_000], .xor 33 18 12),
    ([0b0_000_0010000_100001_010010_001100_000], .shl 33 18 12),
    ([0b0_000_0010010_100001_010010_001100_000], .shr 33 18 12),
    ([0b0_000_0010100_100001_010010_001100_000], .sra 33 18 12),
    ([0b0_000_0010110_100001_010010_001100_000], .slt 33 18 12),
    ([0b0_000_0010111_100001_010010_001100_000], .sltu 33 18 12),
    ([0b0_000_0011001_100001_010010_001100_000], .seq 33 18 12),
    ([0b0_000_0011010_100001_010010_001100_000], .min 33 18 12),
    ([0b0_000_0011011_100001_010010_001100_000], .max 33 18 12),
    ([0b0_000_0011100_100001_010010_001100_000], .minu 33 18 12),
    ([0b0_000_0011101_100001_010010_001100_000], .maxu 33 18 12),
    ([0b0_000_0011110_100001_010010_001100_000], .sel 33 18 12),
    ([0x00018210], .add 3 1 2),
    ([0b0_000_0000001_000101_001001_100000_111], .addi 5 9 (-249)),
    ([0b0_000_0001011_000101_001001_100000_111], .andi 5 9 (-249)),
    ([0b0_000_0001101_000101_001001_100000_111], .ori 5 9 (-249)),
    ([0b0_000_0001111_000101_001001_100000_111], .xori 5 9 (-249)),
    ([0b0_000_0011000_000101_001001_100000_111], .slti 5 9 (-249)),
    ([0b0_000_0010001_000101_001001_000110_101], .shli 5 9 53),
    ([0b0_000_0010011_000101_001001_000110_101], .shri 5 9 53),
    ([0b0_000_0010101_000101_001001_000110_101], .srai 5 9 53),
    ([0b0_000_0011111_101000_000011_000000_000], .clz 40 3),
    ([0b0_000_0100000_101000_000011_000000_000], .ctz 40 3),
    ([0b0_000_0100001_101000_000011_000000_000], .popc 40 3),
    ([0b0_000_0100011_101000_000011_000000_000], .mov 40 3),
    ([0x04468100, 0x6000000F], .li 13 0x1F00),
    ([0b0_000_0100010_000011_000000_000011_000, 0x63FFFFFE], .li 3 (-1000)),
    ([0b0_000_0100100_001010_000111_111101_101], .lds 10 7 (-3) 5),
    ([0b0_000_0100101_001010_000111_000000_010, 0b0_110_00_00000000000000000000000001], .sts 10 7 64 2)] = true := by decide +kernel

/-- Words of the global and capability forms. -/
theorem test_decode_global_and_capability : decodesAll [
    ([0x04C48013], .ldg 9 0 2 0 3),
    ([0x04E40013], .stg 8 0 2 0 3),
    ([0x04E2960B], .stg 5 11 1 0 3),
    ([0b0_000_0100110_001001_000000_000010_110, 0b0_110_00_11111111111111111111111110], .ldg 9 0 2 (-2) 6),
    ([0b0_000_0101001_000110_000011_000101_101, 0b0_110_00_10010100000000000000010000], .atmin 6 3 5 ⟨1, true, 16, 2, 9⟩),
    ([0b0_000_0101010_000110_000011_000101_101, 0b0_110_00_10010100000000000000010000], .atmax 6 3 5 ⟨1, true, 16, 2, 9⟩),
    ([0b0_000_0101011_000110_000011_000101_101, 0b0_110_00_10010100000000000000010000], .atand 6 3 5 ⟨1, true, 16, 2, 9⟩),
    ([0b0_000_0101100_000110_000011_000101_101, 0b0_110_00_10010100000000000000010000], .ator 6 3 5 ⟨1, true, 16, 2, 9⟩),
    ([0b0_000_0101101_000110_000011_000101_101, 0b0_110_00_10010100000000000000010000], .atxor 6 3 5 ⟨1, true, 16, 2, 9⟩),
    ([0b0_000_0110000_000110_000011_000101_011, 0b0_110_00_00101000001111111111110000], .atfadd 6 3 5 ⟨3, false, 0xFFF0, 4, 2⟩),
    ([0x0503062E, 0x60980000], .atadd 6 3 5 ⟨2, true, 0, 3, 2⟩),
    ([0x05E30427, 0x60600008], .atcas 6 2 4 ⟨3, true, 8, 4, 1⟩),
    ([0x05C02286, 0x60580000], .atxchg 0 17 16 ⟨2, true, 0, 3, 1⟩),
    ([0b0_000_0110001_000011_001100_101100_000], .cnarrow 3 12 44),
    ([0b0_000_0110010_000011_001100_010100_101], .crights 3 12 0xA5),
    ([0b0_000_0110011_101000_001100_000000_100], .cget 40 12 4),
    ([0b0_000_0110100_000011_001100_000000_000], .cmovc 3 12),
    ([0b0_000_0110101_001000_000000_010010_000], .sget 8 0x012),
    ([0b0_000_0110110_000000_001001_101000_000], .sset 0x028 9),
    ([0b0_000_0110111_010101_000000_000000_000], .seed 21),
    ([0x07048000], .dget 9)] = true := by decide +kernel

/-- Words of the vector arithmetic forms. -/
theorem test_decode_vector_arithmetic : decodesAll [
    ([0b0_001_0000000_100001_010010_001100_101], .vadd 0 33 18 12 5),
    ([0b0_001_0000011_100001_010010_001100_101], .vadd 3 33 18 12 5),
    ([0b0_001_0000100_100001_010010_001100_101], .vsub 0 33 18 12 5),
    ([0b0_001_0000111_100001_010010_001100_101], .vsub 3 33 18 12 5),
    ([0b0_001_0001001_100001_010010_001100_101], .vmul 1 33 18 12 5),
    ([0b0_001_0001010_100001_010010_001100_101], .vmul 2 33 18 12 5),
    ([0b0_001_0001100_100001_010010_001100_101], .vfma 0 33 18 12 5),
    ([0b0_001_0001111_100001_010010_001100_101], .vfma 3 33 18 12 5),
    ([0b0_001_0010000_100001_010010_001100_101], .vfms 0 33 18 12 5),
    ([0b0_001_0010011_100001_010010_001100_101], .vfms 3 33 18 12 5),
    ([0b0_001_0010100_100001_010010_001100_101], .vmin 0 33 18 12 5),
    ([0b0_001_0010111_100001_010010_001100_101], .vmin 3 33 18 12 5),
    ([0b0_001_0011000_100001_010010_001100_101], .vmax 0 33 18 12 5),
    ([0b0_001_0011011_100001_010010_001100_101], .vmax 3 33 18 12 5),
    ([0x11018210], .vmul 0 3 1 2 0),
    ([0x11820009], .vfma 0 4 0 1 1),
    ([0b0_001_0011110_100001_010010_000000_101], .vabs 2 33 18 5),
    ([0b0_001_0100001_100001_010010_000000_101], .vneg 1 33 18 5),
    ([0b0_001_0100111_001011_010010_001100_101], .vcmpEq 3 11 18 12 5),
    ([0b0_001_0101011_001011_010010_001100_101], .vcmpNe 3 11 18 12 5),
    ([0b0_001_0110011_001011_010010_001100_101], .vcmpLe 3 11 18 12 5),
    ([0x15818210], .vcmpLt 0 3 1 2 0),
    ([0b0_001_0110100_100001_010010_001100_101], .vand 33 18 12 5),
    ([0b0_001_0110101_100001_010010_001100_101], .vor 33 18 12 5),
    ([0b0_001_0110110_100001_010010_001100_101], .vxor 33 18 12 5),
    ([0b0_001_0110111_100001_010010_001100_101], .vshl 33 18 12 5),
    ([0b0_001_0111000_100001_010010_001100_101], .vshr 33 18 12 5),
    ([0b0_001_0111001_100001_010010_001100_101], .vsra 33 18 12 5),
    ([0b0_001_0111010_100001_010010_001100_101], .vsel 33 18 12 5),
    ([0b0_001_0111011_100001_010010_000000_101], .vmov 33 18 5),
    ([0b0_001_0111100_100001_010010_000010_101], .vbcast 33 18 2 5),
    ([0b0_001_0111101_100001_010010_001100_101], .vidx 33 18 12 5),
    ([0b0_001_0111110_000010_000001_000010_000], .vcvt 2 1 0 2 0),
    ([0b0_001_0111111_100001_010010_001101_101], .vpack 33 18 3 1 5),
    ([0b0_001_1000000_100001_010010_111010_101], .vunpk 33 18 true 6 2 5),
    ([0x18248622], .vpermb 9 3 4 2),
    ([0b0_001_1000010_100001_010010_001100_101], .vshuf 33 18 12 5),
    ([0b0_001_1000011_100001_010010_001100_101], .vrot 33 18 12 5),
    ([0x18830A01], .vred 6 5 0 0 1),
    ([0b0_001_1000101_100001_010010_001011_101], .vscan 33 18 2 3 5),
    ([0b0_001_1000110_100001_010010_001100_101], .vdot4 33 18 12 5),
    ([0b0_001_1000111_100001_010010_101110_101], .vresc 33 18 2 true 6 5),
    ([0b0_001_1001000_100001_010010_001100_101], .vqnt 33 18 12 5),
    ([0x1932BA81], .vdq 37 29 16 1),
    ([0b0_001_1001010_100001_010010_000000_101], .vexp2 33 18 5),
    ([0b0_001_1001011_100001_010010_000000_101], .vlog2 33 18 5),
    ([0b0_001_1001100_100001_010010_000000_101], .vrcp 33 18 5),
    ([0b0_001_1001101_100001_010010_000000_101], .vrsq 33 18 5),
    ([0b0_001_1001110_100001_010010_000000_101], .vtanh 33 18 5),
    ([0b0_001_1001111_100001_010010_000000_101], .vrand 33 18 5)] = true := by decide +kernel

/-- Words of the vector memory and masks forms. -/
theorem test_decode_vector_memory_and_masks : decodesAll [
    ([0b0_001_1010000_100001_010010_111011_101], .vld 33 18 (-5) 5),
    ([0b0_001_1010001_100001_010010_000000_101, 0b0_110_00_00000000000000000000000101], .vst 33 18 320 5),
    ([0b0_001_1010010_100001_010010_001100_101], .vlds 33 18 12 5),
    ([0b0_001_1010011_100001_010010_001100_101], .vsts 33 18 12 5),
    ([0b0_001_1010100_100001_010010_001100_101], .vgth 33 18 12 5),
    ([0b0_001_1010101_100001_010010_001100_101], .vsct 33 18 12 5),
    ([0x1AC08008], .vldg 1 0 1 0 0),
    ([0x1AE18010], .vstg 3 0 2 0 0),
    ([0b0_001_1010110_100001_010010_001100_101, 0b0_110_00_00000000000000000000000100], .vldg 33 18 12 4 5),
    ([0b0_001_1011000_000110_010010_000111_101], .vldq 6 18 7 5),
    ([0b0_001_1011001_000001_000010_000011_000], .vmand 1 2 3),
    ([0b0_001_1011010_001001_001110_000011_000], .vmor 9 14 3),
    ([0b0_001_1011011_001001_001110_000000_000], .vmnot 9 14),
    ([0b0_001_1011100_101000_001110_000000_000], .vmpop 40 14),
    ([0b0_001_1011101_101000_001110_000000_000], .vmfst 40 14),
    ([0b0_001_1011110_001001_101000_110010_000], .vmset 9 40 50)] = true := by decide +kernel

/-- Words of the matrix forms. -/
theorem test_decode_matrix : decodesAll [
    ([0x20030808], .mcfg 6 true 4 []),
    ([0x20228008], .mdrain 5 true []),
    ([0x20408841], .mlatch 1 4 8 false true []),
    ([0x204080A0], .mlatch 1 0 20 false false []),
    ([0b0_010_0000010_000111_000011_101000_011, 0b0_110_01_01_01001_00000_00000_000000000], .mlatch 7 3 40 true true [9]),
    ([0x20610025, 0x60000002], .mma 2 0 4 ⟨true, 2, 2, false, 0, 0, false, false⟩ []),
    ([0x2061A0C3, 0x60000000], .mma 3 16 24 ⟨true, 1, 0, false, 0, 0, false, false⟩ []),
    ([0x20810005, 0x60000100], .mmat 2 0 0 ⟨true, 2, 0, false, 0, 0, true, false⟩ []),
    ([0b0_010_0000100_000010_001000_001010_000, 0b0_110_00_00000000000000001100001101], .mmat 2 8 10 ⟨false, 0, 5, true, 0, 0, true, true⟩ []),
    ([0b0_010_0000101_000111_000101_000000_001], .mzero 7 5 true []),
    ([0b0_010_0000110_000111_000101_011110_001], .mldz 7 5 30 true []),
    ([0x20E20438, 0x60000017], .mst 4 2 7 ⟨7, true, 0, false, 0, false, 0⟩ []),
    ([0b0_010_0000111_000100_000010_000111_000, 0b0_110_00_00000000000101100000000010], .mst 4 2 7 ⟨2, false, 0, false, 0, true, 5⟩ []),
    ([0b0_010_0000111_000100_000010_000111_000, 0b0_110_00_00000000000000010101110110], .mst 4 2 7 ⟨6, true, 3, true, 2, false, 0⟩ []),
    ([0b0_010_0001000_000111_000101_000110_000], .mtrn 7 5 6 []),
    ([0b0_010_0001001_000111_000010_001001_001], .mstat 7 2 9 true []),
    ([0b0_010_0001010_000111_100001_000010_000], .mnz 7 33 2 [])] = true := by decide +kernel

/-- Words of the copy forms. -/
theorem test_decode_copy : decodesAll [
    ([0x30009459, 0x60C20000], .xld 1 10 11 false false true ⟨12, 2, 0⟩ []),
    ([0b0_011_0000000_000001_000011_001011_110, 0b0_110_00_00110000101111111111000000], .xld 1 3 11 true true false ⟨12, 2, 0xFFC0⟩ []),
    ([0x30211468, 0x60C30000, 0x65080000], .xst 2 10 13 false false ⟨12, 3, 0⟩ [1]),
    ([0x30430C89, 0x63210000], .xmc 6 6 17 false false true ⟨50, 1, 0⟩ []),
    ([0b0_011_0000010_000110_000110_010001_100, 0b0_110_00_11001000010000000000000000], .xmc 6 6 17 true false false ⟨50, 1, 0⟩ []),
    ([0b0_011_0000011_000010_001010_001101_101, 0b0_110_00_00110000110000000000000100], .xred 2 10 13 true false true ⟨12, 3, 4⟩ []),
    ([0b0_011_0000100_000010_001010_001101_110, 0b0_110_00_00110000110000000000000100], .xhost 2 10 13 true true false ⟨12, 3, 4⟩ []),
    ([0b0_011_0000101_000010_001010_000000_001, 0b0_110_01_10_00101_00110_00000_000000000], .xchain 2 10 true [5, 6]),
    ([0b0_011_0000110_000010_000000_001101_001, 0b0_110_00_00110000110000000000000100], .xpf 2 13 true ⟨12, 3, 4⟩ []),
    ([0b0_011_0000111_000010_000000_001101_001, 0b0_110_00_00110000110000000000000100], .xres 2 13 true ⟨12, 3, 4⟩ []),
    ([0x31008420, 0x60810000], .xsub 1 2 4 false ⟨8, 1, 0⟩ []),
    ([0b0_011_0001000_000001_000010_000100_001, 0b0_110_00_00100000010000000000000000], .xsub 1 2 4 true ⟨8, 1, 0⟩ []),
    ([0x31208400, 0x60000000], .xunsub 1 2 []),
    ([0b0_011_0001010_000010_001010_001101_110, 0b0_110_00_00110000110000000000000100], .xbmv 2 10 13 true 2 ⟨12, 3, 4⟩ []),
    ([0x31620010, 0x60310000], .xbfen 4 2 ⟨3, 1, 0⟩ []),
    ([0x31818001, 0x61400000], .xinv 3 0 true 20 []),
    ([0x31818003, 0x61400000], .xinv 3 1 true 20 [])] = true := by decide +kernel

/-- Words of the coder forms. -/
theorem test_decode_coder : decodesAll [
    ([0x40002CB8], .kbind 0 22 23),
    ([0x40200000], .kinitEnc 0),
    ([0x40218001], .kinitDec 3),
    ([0x40402811], .kenc 0 20 2 false 1),
    ([0x4062A017], .kdec 5 16 2 true 3),
    ([0x4081911A], .kbypD 3 8 3 false 2),
    ([0b0_100_0000100_000011_001000_001111_110], .kbypE 3 8 15 true 2),
    ([0b0_100_0000101_000011_001000_000000_110], .ktgt 3 8 true 2),
    ([0x40C00000], .kflush 0),
    ([0b0_100_0000111_000111_001000_111100_000], .ksave 7 8 (-4)),
    ([0b0_100_0001000_000111_001000_000000_000, 0b0_110_00_00000000000000000000000001], .krest 7 8 64),
    ([0x412C0005], .kstat 24 0 5),
    ([0x41411021], .pld 2 8 4 1),
    ([0x41619028], .pqnt 3 8 5 0),
    ([0b0_100_0001100_000011_001000_010000_100], .pnrm 3 8 16 4)] = true := by decide +kernel

/-- Words of the control forms. -/
theorem test_decode_control : decodesAll [
    ([0x50000000], .nop),
    ([0b0_101_0000001_111111_111111_111101_000], .br (-24)),
    ([0b0_101_0000110_000010_010001_101000_101], .call 0x12345),
    ([0b0_101_0000010_111101_001001_001100_101], .bc (-3) 9 12 5),
    ([0b0_101_0000011_000000_001001_000010_100], .bz 20 9),
    ([0b0_101_0000100_000000_001001_000010_100], .bnz 20 9),
    ([0b0_101_0000101_000000_001001_000000_000], .jr 9),
    ([0b0_101_0000111_000000_000000_000000_000], .ret),
    ([0x511F93E8], .loop (-24) 9),
    ([0x51248A31], .spawn 9 5 6 1),
    ([0x51468E02], .arrive 13 7 0 2),
    ([0x51670E6A], .waitb 14 7 13 2),
    ([0x51800E18], .waitw 7 3 0),
    ([0b0_101_0001101_001001_000101_000000_000], .awaitf 9 5),
    ([0b0_101_0001110_000000_000101_000000_000], .relslot 5),
    ([0x51E00400], .twait 2),
    ([0x52000000], .yield false),
    ([0x52000001], .yield true),
    ([0x52200003], .safept 3),
    ([0x52400001], .drain 1),
    ([0x52400005], .drain 5),
    ([0x52600003], .fence 3),
    ([0x52800005], .trap 5),
    ([0x52A00041], .svc 0x41),
    ([0x52C00000], .eret),
    ([0b0_101_0010111_000000_000000_000000_000], .retire),
    ([0x53048258, 0x60000004], .enq 9 1 11 0 4),
    ([0x53248800], .tdec 9 4),
    ([0x53448800], .cancel 9 4),
    ([0x53600A03], .logmark 5 3)] = true := by decide +kernel

/-! ## Ill-formed terms -/

/-- A user context. -/
def user : Env := { priv := false, fp4a := false, fp4b := true }

/-- An operand word at group register `n`. -/
def grpAt (n : Reg) : XWord := { n, cap := 0, off := 0 }

/-- One term or more for each check of WellFormed, which refuses it. -/
theorem test_ill_formed_core : (([
    .lds 1 2 0 7, .sts 1 2 0 4, .ldg 1 2 3 0 7, .stg 1 2 3 0 5, .atadd 1 2 3 ⟨0, true, 0, 6, 1⟩, .atcas 1 2 63 ⟨0, true, 0, 3, 1⟩,
    .atfadd 1 2 3 ⟨0, true, 0, 3, 1⟩, .cnarrow 1 2 63, .cget 1 2 6, .sget 1 0x004, .sget 1 0x030, .sset 0x010 1, .sset 0x007 1,
    .vabs 3 1 2 0, .vneg 3 1 2 0, .vcmpEq 0 0 1 2 0, .vcmpLe 2 0 1 2 0, .vbcast 1 2 3 0, .vcvt 1 2 4 4 0, .vpack 1 2 2 0 0,
    .vpack 1 2 0 3 0, .vunpk 1 2 true 4 1 0, .vred 1 2 3 0 0, .vscan 1 2 0 1 0, .vresc 1 2 0 true 7 0, .vqnt 1 2 3 6, .vdq 1 2 3 5,
    .vmand 0 1 2, .vmnot 0 1, .vmset 0 1 2, .kstat 1 2 7, .pld 1 2 1 0, .pqnt 1 2 17 0, .pnrm 1 61 4 0, .pld 1 2 4 5,
    .bc 0 1 2 6, .loop 0 0, .spawn 1 2 60 4, .arrive 1 2 3 6, .waitb 1 2 3 7, .drain 6, .fence 7, .waitw 1 2 3,
    .safept (BitVec.ofInt 35 (-1)), .enq 1 2 57 7 3] : List Instr).all fun i => !i.wf env) = true := by decide +kernel

theorem test_ill_formed_engines : (([
    .mcfg 1 false 2 [1, 1], .mdrain 1 false [1, 2, 3, 4], .mlatch 1 0 63 false false [], .mlatch 1 0 57 false true [],
    .mlatch 1 0 55 true true [], .mma 1 63 0 ⟨false, 2, 0, false, 0, 0, false, false⟩ [],
    .mma 1 57 0 ⟨true, 2, 0, false, 0, 0, false, false⟩ [], .mma 1 0 8 ⟨true, 2, 0, false, 0, 0, false, false⟩ [],
    .mma 1 0 0 ⟨true, 2, 0, true, 0, 0, false, false⟩ [], .mma 1 0 0 ⟨true, 3, 0, false, 0, 0, false, false⟩ [],
    .mma 1 0 0 ⟨true, 2, 0, false, 1, 0, false, false⟩ [], .mma 1 0 0 ⟨true, 2, 0, false, 0, 0, false, true⟩ [],
    .mldz 1 0 63 false [], .mst 1 0 63 ⟨0, false, 0, false, 0, false, 0⟩ [], .mst 1 0 2 ⟨5, false, 0, false, 0, false, 0⟩ [],
    .mst 1 0 2 ⟨0, true, 0, false, 0, false, 0⟩ [], .mst 1 0 2 ⟨6, true, 0, false, 0, true, 1⟩ [],
    .mst 1 0 2 ⟨6, true, 7, true, 0, false, 0⟩ [], .mst 1 0 2 ⟨0, false, 1, false, 0, false, 0⟩ [],
    .mst 1 0 2 ⟨0, false, 0, false, 0, false, 1⟩ [],
    .xld 1 8 2 true false false (grpAt 4) [], .xld 1 2 3 false true false (grpAt 63) [], .xst 1 2 3 true false (grpAt 0) [],
    .xmc 1 2 3 false true true (grpAt 59) [], .xred 1 2 3 false false true (grpAt 62) [], .xchain 1 2 true [3, 3],
    .xsub 1 2 3 false (grpAt 60) [], .xbmv 1 2 3 false 3 (grpAt 4) [], .xbmv 1 2 3 true 0 (grpAt 58) [],
    .xinv 1 3 false 4 [], .xinv 1 0 false 0 [], .xinv 1 0 true 60 []] : List Instr).all fun i => !i.wf env) = true := by
  decide +kernel

/-- Privilege: what a user context may not run. An FP4 pair takes NZ registers and two more vector registers. -/
theorem test_ill_formed_user : (!(Instr.eret.wf user) && !((Instr.xinv 1 0 false 4 []).wf user) && !((Instr.sset 0x00B 1).wf user)
    && (Instr.sset 0x001 1).wf user && (Instr.mma 1 0 0 ⟨true, 1, 0, true, 3, 2, false, false⟩ []).wf user
    && !((Instr.mma 1 55 0 ⟨true, 1, 0, true, 3, 2, false, false⟩ []).wf user)) = true := by decide +kernel

/-- Words that the spec refuses, with the reason of R40. -/
def refusesAll (e : Env) (l : List (List Word × Nat)) : Bool :=
  l.all fun x => match decodeWords e x.1 with
    | .ok _ => false
    | .error r => r == x.2

theorem test_refused_words : refusesAll user [
    -- reason 1: unassigned ops of each class
    ([0b0_000_0111001_000000_000000_000000_000], 1), ([0b0_001_1011111_000000_000000_000000_000], 1),
    ([0b0_010_0001011_000000_000000_000000_000], 1), ([0b0_011_0001101_000000_000000_000000_000], 1),
    ([0b0_100_0001101_000000_000000_000000_000], 1), ([0b0_101_0011100_000000_000000_000000_000], 1),
    -- reason 2: reserved qualifiers
    ([0b0_000_0110011_000001_000010_000000_110], 2), ([0b0_101_0001100_000000_000001_000010_011], 2),
    ([0b0_100_0000001_000001_000000_000000_010], 2), ([0b0_000_0110000_000001_000010_000011_100, 0b0_110_00_0001_011_000_0000000000000000], 2),
    -- reason 3: a capability, a token, a mask and a ring out of range
    ([0b0_000_0110100_010000_000001_000000_000], 3), ([0b0_010_0000001_100000_000000_000000_000], 3),
    ([0b0_001_0100100_010000_000001_000010_000], 3), ([0b0_101_0001101_000001_001000_000000_000], 3),
    -- reason 4: fields that must be zero, shifts above 63, a missing operand word
    ([0b0_000_0000000_000001_000010_000011_001], 4), ([0b0_000_0010001_000001_000010_001000_000], 4),
    ([0b0_000_0100010_000001_000001_000000_000], 4), ([0b0_011_0000000_000001_000010_000011_000], 4),
    ([0b0_010_0000000_000001_000010_000010_000], 4),
    -- reason 6: an immediate on a register form, a token list on a scalar form
    ([0b0_000_0000000_000001_000010_000011_000, 0b0_110_00_00000000000000000000000001], 6),
    ([0b0_000_0000001_000001_000010_000011_000, 0b0_110_01_01_00001_00000_00000_000000000], 6),
    -- reason 7: privileged forms
    ([0x52C00000], 7), ([0b0_000_0110110_000000_000001_001011_000], 7)] = true := by decide +kernel

/-- R12, R23, R26: the bundles of two slots of R26's example, and its report: slot 1 reads what slot 0 writes. -/
theorem test_bundle_conflict :
    (match decodeBundle user [0x10010008, 0x11018410, 0x50000000, 0xD0000000] with
      | .error e => e.bundle && e.info == 0x0000000000022B81
      | .ok _ => false) = true := by decide +kernel

/-! ## States that meet the hypotheses of the obligations, clause by clause -/

/-- The reset state with core 0 changed. -/
def at0 (f : Core → Core) : State := State.reset.modCore f

/-- A context changed. -/
def onCtx (f : Ctx → Ctx) (c : Core) : Core := { c with ctx := f c.ctx }

/-- Scalar registers. -/
def withS (l : List (Reg × DWord)) (x : Ctx) : Ctx :=
  { x with regs := { x.regs with s := l.foldl (fun f e => f.put e.1 e.2) x.regs.s } }

/-- A mask register. -/
def withM (r : MReg) (v : Mask) (x : Ctx) : Ctx := { x with regs := { x.regs with m := x.regs.m.put r v } }

/-- A vector register. -/
def withV (r : Reg) (f : Nat → Word) (x : Ctx) : Ctx := { x with regs := { x.regs with v := x.regs.v.put r (VReg.gen f) } }

/-- A capability register. -/
def withC (r : CReg) (v : Cap) (x : Ctx) : Ctx := { x with regs := { x.regs with c := x.regs.c.put r v } }

theorem test_RefusedEncodings_meets :
    user.priv = false ∧ (61 : Reg) ≠ 0 ∧ (61 : Reg).toNat + Wf.invLen false ≤ 64 ∧ (59 : Reg).toNat + Wf.invLen true ≤ 64
    ∧ (0x01A : BitVec 12) ∈ ([0x008, 0x009, 0x00A, 0x00B, 0x01A] : List (BitVec 12))
    ∧ (0x50000000 : Word).msb = false ∧ (0xD0000000 : Word).msb = true ∧ (Slot.ofWord 0x60000000).cls = 6 := by
  decide +kernel

theorem test_DecodeOfEncode_meets : (Instr.pnrm 3 60 16 0).wf env = true ∧ (Instr.spawn 9 5 60 3).wf env = true
    ∧ (Instr.xinv 1 2 true 59 [1, 2, 3]).wf env = true ∧ (Instr.safept 0x3FFFFFFFF).wf env = true := by decide +kernel

/-- Quotient corners: S1 = -2^63, S2 = -1, S3 = 7. -/
def divState : State := at0 (onCtx (withS [(1, 0x8000000000000000), (2, -1), (3, 7)]))

theorem test_DivisionForms_meets : divState.rd.S 4 = 0 ∧ sI divState 1 = -2 ^ 63 ∧ sI divState 2 = -1
    ∧ divState.rd.S 3 ≠ 0 ∧ ¬ (sI divState 1 = -2 ^ 63 ∧ sI divState 3 = -1) := by
  unfold sI; decide +kernel

/-- Two results of which one is due and one is not, on the last core. -/
def flightState (mark : Bool) : State :=
  State.reset.modAt 319 (onCtx fun x => { x with pipe := { x.pipe with
    inflight := [{ land := .s 7 8, flags := 0, due := 1, mark }, { land := .s 7 9, flags := 1, due := 0, mark }] } })

theorem test_ResultsLand_meets : 319 < 320 ∧ ∀ m : Bool,
    let x := (flightState m).coreAt 319
    (x.ctx.pipe.inflight.filter fun r => decide (r.due ≤ ownCycle x) && (r.mark == m)).length = 1
    ∧ x.ctx.pipe.inflight.length = 2 := by decide +kernel

/-- Addresses at the end of the scratchpad: S5 is the last double word, S6 is past it, S7 is misaligned, S8 the last word;
lanes 0 and 7 are active under M1, and V2 holds 4 in lane 7. -/
def spadState : State :=
  at0 (onCtx fun x => withV 2 (fun i => if i = 7 then 4 else 0)
    (withM 1 (BitVec.ofNat 256 0x81) (withS [(5, 0xFFFF8), (6, 0xFFFF9), (7, 0xFFFF4), (8, 0xFFFFC), (9, 4), (10, 0x2)] x)))

theorem test_ScratchpadAccesses_meets :
    (spadState.rd.S 5 + BitVec.ofInt 64 (0 : BitVec 32).toInt).toNat + 2 ^ ((3 : BitVec 3).toNat % 4) = 0x100000
    ∧ (spadState.rd.S 5).toNat % 8 = 0 ∧ spadState.rd.lostIn 0xFFFF8 8 = false ∧ spadState.core.spad.wf = true := by
  decide +kernel

theorem test_ScratchpadFaults_meets :
    0x100000 < (spadState.rd.S 6).toNat + 8 ∧ (spadState.rd.S 7).toNat + 8 ≤ 0x100000 ∧ (spadState.rd.S 7).toNat % 8 ≠ 0
    ∧ LowestFailing (spadState.rd.G 1) (fun j => (spadState.rd.S 8).toNat + 4 * j + 4 ≤ 0x100000
        ∧ ((spadState.rd.S 8).toNat + 4 * j) % 4 = 0) 7
    ∧ LowestFailing (spadState.rd.G 1) (fun j => (spadState.rd.S 8 + BitVec.ofNat 64 j * spadState.rd.S 9).toNat + 4 ≤ 0x100000
        ∧ (spadState.rd.S 8 + BitVec.ofNat 64 j * spadState.rd.S 9).toNat % 4 = 0) 7
    ∧ LowestFailing (spadState.rd.G 1) (fun j => (spadState.rd.S 8 + ((spadState.rd.V 2).lane j).setWidth 64).toNat + 4 ≤ 0x100000
        ∧ (spadState.rd.S 8 + ((spadState.rd.V 2).lane j).setWidth 64).toNat % 4 = 0) 7
    ∧ LowestFailing (spadState.rd.G 1) (fun j => (spadState.rd.S 10).toNat + 4 * j + 4 ≤ 0x100000
        ∧ ((spadState.rd.S 10).toNat + 4 * j) % 4 = 0) 0 := by
  unfold LowestFailing; decide +kernel

/-- Capabilities to 1024 bytes: C2 ordinary with read and write, C3 with no right, C4 code, C5 a weight store; S1 = 1016 is
the last double word, S2 = -1, S3 = 1017, S4 = 4. -/
def globState : State :=
  at0 (onCtx fun x => withC 2 (Cap.mk 5 0 3 0 64 16) (withC 3 (Cap.mk 5 0 0 0 64 16) (withC 4 (Cap.mk 5 0 3 5 64 16)
    (withC 5 (Cap.mk 5 0 3 2 64 16) (withM 1 (BitVec.ofNat 256 (2 ^ 255 + 1))
      (withS [(1, 1016), (2, -1), (3, 1017), (4, 4)] x))))))

theorem test_GlobalLoadsAndStores_meets :
    GlobOk (globState.rd.C 2) (sI globState 1 + (0 : BitVec 26).toInt) 8 0 [4, 5] ∧ GlobOk (globState.rd.C 2) (sI globState 1) 8 1 [2, 4, 5]
    ∧ (∀ l : Nat, l < 256 → (globState.rd.G 1).getLsbD l = true → GlobOk (globState.rd.C 2) (sI globState 0 + 4 * l) 4 0 [4, 5])
    ∧ (∀ l : Nat, l < 256 → (globState.rd.G 1).getLsbD l = true → GlobOk (globState.rd.C 2) (sI globState 0 + 4 * l) 4 1 [2, 4, 5]) := by
  unfold GlobOk sI
  refine ⟨?_, ?_, ?_, ?_⟩ <;> decide +kernel

/-- A capability that begins two bytes before the end of line 16, and no line of it in the L1G. -/
def straddleState : State := at0 (onCtx fun x => withC 6 (Cap.mk 5 0 3 0 1086 16) (withM 1 (BitVec.ofNat 256 1) x))

theorem test_StraddlingAccesses_meet :
    let s := straddleState
    let v := s.rd.via (s.rd.C 6)
    GlobOk (s.rd.C 6) (sI s 0 + (0 : BitVec 26).toInt) 8 0 [4, 5] ∧ GlobOk (s.rd.C 6) (sI s 0 + 4 * (0 : Nat)) 4 1 [2, 4, 5]
    ∧ (s.rd.C 6).base = 1086 ∧ 64 < 1086 % 64 + 4 ∧ s.rd.hit v (1086 / 64) = none ∧ s.rd.hit v ((1086 + 3) / 64) = none
    ∧ (1086 + 3) / 64 = 1086 / 64 + 1 := by
  unfold GlobOk sI
  refine ⟨?_, ?_, ?_, ?_, ?_, ?_, ?_⟩ <;> decide +kernel

/-- Lane faults at each clause: lanes 0 and 255 are active, and lane 255 is the one past C2's end; lane 0 meets no right, a
kind that is refused, and a misaligned offset. -/
theorem test_GlobalLaneFaults_meet :
    let s := globState
    LowestFailing (s.rd.G 1) (fun j => GlobOk (s.rd.C 2) (sI s 1 + 4 * j) 4 0 [4, 5]) 255
    ∧ LowestFailing (s.rd.G 1) (fun j => GlobOk (s.rd.C 2) (sI s 1 + 4 * j) 4 1 [2, 4, 5]) 255
    ∧ LowestFailing (s.rd.G 1) (fun j => GlobOk (s.rd.C 3) (sI s 0 + 4 * j) 4 0 [4, 5]) 0
    ∧ LowestFailing (s.rd.G 1) (fun j => GlobOk (s.rd.C 5) (sI s 0 + 4 * j) 4 1 [2, 4, 5]) 0
    ∧ LowestFailing (s.rd.G 1) (fun j => GlobOk (s.rd.C 2) (sI s 3 + 4 * j) 4 0 [4, 5]) 0
    ∧ sI s 1 + 4 * (255 : Nat) + (4 : Nat) > (s.rd.C 2).len ∧ sI s 3 % (4 : Nat) ≠ 0 := by
  unfold LowestFailing GlobOk sI
  refine ⟨?_, ?_, ?_, ?_, ?_, ?_, ?_⟩ <;> decide +kernel

theorem test_GlobalFaults_meet :
    sI globState 2 < 0 ∧ sI globState 3 + (8 : Nat) > (globState.rd.C 2).len
    ∧ (globState.rd.C 3).has 0 = false ∧ (globState.rd.C 3).has 1 = false ∧ sI globState 1 + (8 : Nat) ≤ (globState.rd.C 3).len
    ∧ (globState.rd.C 4).has 0 = true ∧ (globState.rd.C 4).kind = 5 ∧ (globState.rd.C 5).has 1 = true ∧ (globState.rd.C 5).kind = 2
    ∧ (globState.rd.C 2).has 0 = true ∧ (globState.rd.C 2).has 1 = true ∧ (globState.rd.C 2).kind = 0
    ∧ sI globState 4 % (8 : Nat) ≠ 0 ∧ 0 ≤ sI globState 4 ∧ sI globState 4 + (8 : Nat) ≤ (globState.rd.C 2).len := by
  unfold sI; decide +kernel

/-- S2 and S3 narrow C2 to its last 64 bytes; S4 begins one byte too far. -/
def narrowState : State := at0 (onCtx fun x => withC 2 (Cap.mk 5 0 3 0 64 16) (withS [(2, 960), (3, 1), (4, 961), (5, 1)] x))

theorem test_CapabilityForms_meets :
    0 ≤ sI narrowState 2 ∧ sI narrowState 2 + 64 * sN narrowState (2 + 1) = (narrowState.rd.C 2).len
    ∧ (narrowState.rd.C 2).base + sN narrowState 2 < 2 ^ 48
    ∧ (narrowState.rd.C 2).len < sI narrowState 4 + 64 * sN narrowState (4 + 1) := by
  unfold sI sN; decide +kernel
/-- System register states: S1 to S9 hold values at the edges of what SSET accepts and refuses. -/
def sysState (mode : BitVec 6) : State :=
  at0 (onCtx fun x => withS [(1, 5), (2, 6), (3, 0x122), (4, 0x87000000), (5, 0x3FF), (6, 0x400), (7, 0x0000FFFFFFFFFFFF),
    (8, 0x1FFFFFFFFFFFC), (9, 2), (10, 0x10_0A000000), (11, 0x28_1E000000), (12, 0x0F_09000000), (13, 15), (14, 16),
    (15, 0x77), (16, 0xFF), (17, 0x1000000000000)]
    { x with sys := { x.sys with mode }, drained0 := false, drained1 := false })

theorem test_SystemRegisterWrites_meets :
    let v := fun (a : Reg) => (sysState 1).rd.S a
    (v 1).extractLsb' 0 3 ≠ 6 ∧ (v 1).extractLsb' 0 3 ≠ 7 ∧ 6 ≤ ((v 2).extractLsb' 0 3).toNat
    ∧ PairValid (v 3) ∧ PairKept (sysState 1).rd.ctx false (v 3) ∧ PairKept (sysState 1).rd.ctx true (v 3)
    ∧ ¬ PairValid (v 16) ∧ PairValid (v 15) ∧ ¬ PairKept (sysState 1).rd.ctx false (v 15) ∧ ¬ PairKept (sysState 1).rd.ctx true (v 15)
    ∧ (v 5).extractLsb' 10 54 = 0 ∧ (v 6).extractLsb' 10 54 ≠ 0 ∧ (v 7).extractLsb' 48 16 = 0 ∧ (v 17).extractLsb' 48 16 ≠ 0
    ∧ (v 8).extractLsb' 49 15 = 0 ∧ (v 8).extractLsb' 0 2 = 0 ∧ (v 9).extractLsb' 0 2 ≠ 0
    ∧ 10 = ((v 10).extractLsb' 24 5).toNat ∧ 16 = ((v 10).extractLsb' 32 6).toNat ∧ ((v 11).extractLsb' 24 5).toNat = 30
    ∧ ((v 11).extractLsb' 32 6).toNat = 40 ∧ ((v 12).extractLsb' 24 5).toNat < 10
    ∧ ((v 13).extractLsb' 0 8).toNat ≤ 15 ∧ 15 < ((v 14).extractLsb' 0 8).toNat
    ∧ (sysState 1).rd.ctx.sys.priv = true ∧ (sysState 0).rd.ctx.sys.priv = false := by
  unfold PairValid PairKept; decide +kernel

theorem test_SeedAndDigest_meets : State.reset.core.ctx.sys.record = false ∧ State.reset.core.ctx.sys.replay = false
    ∧ State.reset.launchAt State.reset.core.ctx.sys.partid.toNat State.reset.core.ctx.task.launch = none := by decide +kernel

/-- A context with a handler at 0x1230, in user mode or privileged. -/
def trapState (mode : BitVec 6) (vec : DWord) : State :=
  at0 (onCtx fun x => { x with sys := { x.sys with mode, trapvec := vec } })

theorem test_HandledTrapTaken_meets :
    (trapState 1 0).core.ctx.sys.priv = true
    ∧ (trapState 2 0x1230).core.ctx.sys.priv = false ∧ (trapState 2 0x1230).core.ctx.sys.trapvec.getLsbD 48 = false
    ∧ (trapState 2 0x1000000001230).core.ctx.sys.trapvec.getLsbD 48 = true
    ∧ (trapState 2 0x1000000001230).core.ctx.sys.priv = false := by decide +kernel

/-- Token 9 is Resolved with kind `e`. -/
def tokState (e : BitVec 4) : State :=
  at0 (onCtx fun x => { x with toks := x.toks.put 9 { pending := false, err := e, inst := 1, detail := 5 } })

theorem test_TokenErrors_meet (e : BitVec 4) (h : e ≠ 0) :
    (∀ k ∈ ([1, 9] : List Tok), ((tokState e).rd.ctx.toks.get k).pending = false)
    ∧ ([1, 9] : List Tok).find? (fun k => ((tokState e).rd.ctx.toks.get k).err != 0) = some 9
    ∧ (∀ z, (tokState e).rd.tileBusy z none = false) ∧ (∀ x, (tokState e).rd.latchBusy x = false)
    ∧ ([9] : List Tok).find? (fun k => ((tokState e).rd.ctx.toks.get k).err != 0) = some 9 := by
  revert e; decide +kernel

theorem test_TrapServiceAndReturn_meets :
    (trapState 1 0).rd.ctx.sys.priv = true ∧ (trapState 2 0).rd.ctx.sys.priv = false := by decide +kernel

/-- A word 3 at the last double word of the scratchpad, whose address is S5; S6 = 3; token 9 Pending; an ordinary access in
queue 1. -/
def waitState : State :=
  at0 fun c => { onCtx (fun x => withS [(5, 0xFFFF8), (6, 3)] { x with
      toks := x.toks.put 9 { pending := true, err := 0, inst := 0, detail := 0 },
      pipe := { x.pipe with event := true, tick := true, yielded := true } }) c with
    spad := c.spad.writeLE 0xFFFF8 3 8,
    queues := c.queues.put 1 [.acc (State.reset.access .store 1 [] none 0 0 0)] }

theorem test_WaitsAndOrdering_meets :
    sN waitState 5 + 8 = 0x100000 ∧ sN waitState 5 % 8 = 0 ∧ waitState.rd.lostIn 0xFFFF8 8 = false
    ∧ waitState.rd.spad.readLE 0xFFFF8 8 = sN waitState 6 ∧ waitState.rd.spad.readLE 0xFFFF8 8 ≠ sN waitState 5
    ∧ (waitState.rd.ctx.toks.get 8).pending = false ∧ (waitState.rd.ctx.toks.get 8).err = 0
    ∧ (waitState.rd.ctx.toks.get 9).pending = true ∧ waitState.rd.ctx.pipe.event = true ∧ waitState.rd.ctx.pipe.tick = true ∧ waitState.rd.ctx.pipe.yielded = true
    ∧ State.reset.rd.ctx.pipe.event = false ∧ State.reset.rd.ctx.pipe.yielded = false ∧ State.reset.core.queues = File.all 2 []
    ∧ State.reset.core.hits = []
    ∧ waitState.core.queues.get 1 = [.acc (State.reset.access .store 1 [] none 0 0 0)]
    ∧ waitState.core.queues.get 0 = [] ∧ waitState.core.queues.get 2 = [] ∧ waitState.core.queues.get 3 = []
    ∧ (State.reset.access .store 1 [] none 0 0 0).via.kind ≠ 3
    ∧ waitState.core.ctx.task.revoked = false ∧ waitState.core.ctx.pipe.safeReq = none := by
  unfold sN; decide +kernel

theorem test_RoundingAndSums_meets : (4 : Nat) ≤ 4 ∧ 5 % 2 ^ 1 ≠ 0 ∧ 4 % 2 ^ 1 = 0
    ∧ 2 * (2 * 2 ^ 1) = 2 * 5 - 2 ^ 1 := by decide

theorem test_DotAndRescale_meets : (4 = 4 ∨ (4 : Nat) = 8) ∧ (0x40000062 : Word).getLsbD 1 = true
    ∧ (0x40000060 : Word).getLsbD 1 = false ∧ (6 : QReg) ≠ 7 := by decide +kernel

theorem test_VectorTypes_meet : 2 ≤ (3 : BitVec 2).toNat ∧ 2 ≤ (2 : BitVec 2).toNat ∧ (1 : BitVec 2).toNat < 2
    ∧ (Fmt.f32.decode 0x7FC00000).isNan = true ∧ (Fmt.bf16.decode 0x8000).isZero = true
    ∧ Fmt.f32.decode 0x3F800000 = .num false 8388608 (-23) := by decide +kernel

theorem test_VectorLogicAndPermutes_meets : (2 : BitVec 2) ≠ 3 ∧ (7 : BitVec 3).toNat < 32 / 4 ∧ (1 : BitVec 3).toNat < 32 / 16
    ∧ (3 : BitVec 3).toNat < 32 / 8 := by decide

theorem test_VectorConversions_meets : elemOf 0 = some (.fl .f32) ∧ elemOf 7 ≠ none ∧ elemOf 6 ≠ none
    ∧ (∀ x, elemOf 6 = some x → x.floating = false) ∧ (∀ x, elemOf 0 = some x → x.floating = true)
    ∧ (5 : BitVec 3).toNat ≤ 5 ∧ (4 : BitVec 3).toNat ≤ 4 := by
  refine ⟨rfl, by decide, by decide, ?_, ?_, by decide, by decide⟩ <;> (intro x h; cases h; rfl)

theorem test_ReductionAndScan_meets : (2 : BitVec 2) ≠ 3 ∧ (0 : BitVec 2) ≠ 1 ∧ (3 : BitVec 2) ≠ 1 := by decide

theorem test_Transcendentals_meet : (0x7F800001 : Word).extractLsb' 23 8 = 0xFF ∧ (0x7F800001 : Word).extractLsb' 0 23 ≠ 0
    ∧ (0x80000001 : Word).msb = true ∧ (0x80000001 : Word) ≠ 0x80000000 ∧ (0x80000001 : Word).extractLsb' 23 8 ≠ 0xFF := by
  decide +kernel

/-- Lanes 0 and 7 of a base at 0xFFFE0, of a stride of -4 from the last word, and of indexes: the last words of the scratchpad. -/
def laneState : State :=
  at0 (onCtx fun x => withV 2 (fun i => if i = 7 then 0x1C else 0)
    (withM 1 (BitVec.ofNat 256 0x81) (withS [(5, 0xFFFE0), (6, 0xFFFFC), (7, -4)] x)))

theorem test_VectorLoadsAndStores_meets :
    SpadLanes (laneState.rd.G 1) (fun k => (laneState.rd.S 5).toNat + 4 * k)
    ∧ SpadLanes (laneState.rd.G 1) (fun k => (laneState.rd.S 6 + BitVec.ofNat 64 k * laneState.rd.S 7).toNat)
    ∧ SpadLanes (laneState.rd.G 1) (fun k => (laneState.rd.S 5 + ((laneState.rd.V 2).lane k).setWidth 64).toNat)
    ∧ NoLostLane laneState.rd (laneState.rd.G 1) (fun k => (laneState.rd.S 5).toNat + 4 * k)
    ∧ NoLostLane laneState.rd (laneState.rd.G 1) (fun k => (laneState.rd.S 6 + BitVec.ofNat 64 k * laneState.rd.S 7).toNat)
    ∧ laneState.core.spad.wf = true := by
  unfold SpadLanes NoLostLane
  refine ⟨?_, ?_, ?_, ?_, ?_, ?_⟩ <;> decide +kernel

theorem test_MaskForms_meets : (1 : MReg) ≠ 0 ∧ (7 : BitVec 3) ≠ 0 ∧ 0x5F ≤ (0x5F : BitVec 7).toNat := by decide

/-- Partition 0 with every unit's whole budget (R344). -/
def funded (s : State) : State :=
  s.modPart 0 fun q => { q with grant := { q.grant with shares := (List.range 20).map fun u => (u, 64) } }

/-- A translation of frame 0 of object 5 to physical frame 0. -/
def xlat : Xlat := { (default : Xlat) with obj := 5, n0 := 1, n1 := 1, n2 := 1, write := true }

/-- An access to word 64 of object 5 with its translation, for value number 3. -/
def accOf (kind : AccKind) (w : Nat) : Acc :=
  { (default : Acc) with
    kind, via := { (default : Via) with obj := 5 }, items := [{ lane := 0, off := 64, width := w, data := 7 }],
    wait := some 3, xl := some xlat }

/-- Core 0 with an access at the head of queue 1, and C1 a capability with the atomic right. -/
def queueState (kind : AccKind) (w : Nat) : State :=
  funded <| at0 fun c => { onCtx (fun x => withC 1 (Cap.mk 5 0 0x0F 0 0 16) { x with pipe := { x.pipe with
      waits := [{ id := 3, dest := .s 6, kind := .load 3, need := 1, got := [], sigma := 0 }] } }) c with
    queues := c.queues.put 1 [.acc (accOf kind w)] }

theorem test_AtomicForms_meets :
    GlobOk ((queueState .store 8).rd.C 1) (sI (queueState .store 8) 0 + (0 : BitVec 16).toInt) (8 : Nat) 3 [2, 4, 5]
    ∧ (queueState .store 8).core.ctx.pipe.refused = none ∧ (queueState .store 8).releaseHeld ⟨2, true, 0, 3, 1⟩ = true
    ∧ (queueState .store 8).releaseHeld ⟨0, true, 0, 3, 1⟩ = false ∧ (queueState .store 8).core.ctx.pipe.accepted = false
    ∧ ((queueState .store 8).modPipe fun p => { p with accepted := true }).core.ctx.pipe.accepted = true
    ∧ ((queueState .store 8).modPipe fun p => { p with accepted := true }).releaseHeld ⟨0, true, 0, 3, 1⟩ = false := by
  unfold GlobOk sI; decide +kernel

theorem test_AtomicValues_meet : (0xFFFFFFFF : DWord).toNat < 2 ^ (8 * 4) ∧ (0xFFFFFFFF : DWord).toNat = (0xFFFFFFFF : DWord).toNat % 2 ^ 32
    ∧ (5 : DWord).toNat ≠ (6 : DWord).toNat % 2 ^ 32 := by decide +kernel

/-- What MayPerform asks, but for the absence of samples. -/
def mayPerform (k : AccKind) (w : Nat) : Bool :=
  let s := queueState k w
  let t := xlat
  let a := accOf k w
  decide ((s.coreAt 0).queues.get 1 = [.acc a]) && decide (a.xl = some t) && a.via.kind != 3 && a.uid == (s.coreAt 0).ctx.task.uid
  && decide (a.start ≤ s.cyc) && s.home.bank.wf && !refreshing s.cyc (t.phys a.off) && !s.lineHeld a.via.part (t.phys a.off) && (s.coreAt 0).hits.isEmpty && !s.home.lost.contains (lineOf (t.phys a.off))
  && s.home.genOk t (t.phys a.off) && (!(s.coreAt 0).ctx.sys.strict || !s.loadsBefore 0 a.id)
  && !(s.coreAt 0).ctx.sys.record && !(s.coreAt 0).ctx.sys.replay && s.home.mem.wf

theorem test_AccessesPerform_meets :
    (mayPerform .load 8 && mayPerform .store 8 && mayPerform (.atomic .add 0 3) 8 && mayPerform (.atomic .cas 0 3) 4) = true
    ∧ NoSamplesAt (queueState .load 8) 0
    ∧ (accOf .load 8).fenced = false ∧ (accOf .load 8).dead = false
    ∧ AtOp.apply .cas 4 9 7 0 = none ∧ AtOp.apply .add 8 9 7 0 = some 16
    ∧ ((queueState .load 8).coreAt 0).ctx.pipe.waits.all (fun w => decide (w.kind ≠ .digest)) = true := by
  unfold NoSamplesAt
  refine ⟨?_, ?_, ?_⟩ <;> decide +kernel

/-- The last core with a value that has come, a line to install and a valid line. -/
def arriveState (kind : WaitKind) : State :=
  State.reset.modAt 319 fun c => { onCtx (fun x => { x with pipe := { x.pipe with
      waits := [{ id := 3, dest := .s 63, kind, need := 0, got := [(0, 0xFF)], sigma := 0 }] } }) c with
    fills := [{ line := default, live := true }], l1g := [default] }

theorem test_ValuesArrive_meets (kind : WaitKind) :
    ((arriveState kind).coreAt 319).ctx.pipe.waits = [{ id := 3, dest := .s 63, kind, need := 0, got := [(0, 0xFF)], sigma := 0 }]
    ∧ ((arriveState kind).coreAt 319).fills = [{ line := default, live := true }]
    ∧ ((arriveState kind).coreAt 319).l1g = [default] := ⟨rfl, rfl, rfl⟩

/-- A vector load of two lines whose parts have come, a due result and one that is not. -/
def vloadState : State :=
  at0 (onCtx fun x => { x with pipe := { x.pipe with
    waits := [{ id := 3, dest := .v 7 1, kind := .vload, need := 0, got := [(0, 0xFF), (0, 0xFF00)], sigma := 0 }],
    inflight := [{ land := .s 5 1, flags := 0, due := 0, mark := false }, { land := .s 6 1, flags := 0, due := 9, mark := false }] } })

theorem test_VectorValueArrives_meets :
    let x := vloadState.coreAt 0
    x.ctx.pipe.waits = [{ id := 3, dest := .v 7 1, kind := .vload, need := 0, got := [(0, 0xFF), (0, 0xFF00)], sigma := 0 }]
    ∧ (x.ctx.pipe.inflight.map fun r => decide (r.due ≤ ownCycle x)) = [true, false] := by decide +kernel

/-- An atomic of scope `sc` that waits for its check on core 0, at a line with the given tag. -/
def acceptState (sc : Scope) (tag : Word) : State :=
  { (at0 fun c => { onCtx (fun x => { x with pipe := { x.pipe with accept := some (accOf (.atomic .add 0 sc) 8) } }) c with
      xcache := [xlat] }) with
    home := { (default : Home) with tags := if tag = 0 then [] else [(1, tag)] } }

theorem test_AtomicAcceptance_meets :
    let t := xlat
    ((acceptState 3 0).coreAt 0).ctx.pipe.accept = some (accOf (.atomic .add 0 3) 8)
    ∧ ((acceptState 3 0).coreAt 0).cached (accOf (.atomic .add 0 3) 8).via 64 true = some t
    ∧ (acceptState 3 0).home.lost.contains (lineOf (t.phys 64)) = false
    ∧ ((acceptState 3 0).home.tag 1).getLsbD 0 = false ∧ lineOf (t.phys 64) = 1
    -- last atomic from core 5 of pod 0 at scope .pod, and at scope .quad
    ∧ ((acceptState 3 (tagOf 5 5 0)).home.tag 1).getLsbD 0 = true
    ∧ scopeIncludes 3 0 0 0 5 = true ∧ scopeIncludes 5 0 5 0 0 = true
    ∧ scopeIncludes 2 0 0 0 5 = false ∧ scopeIncludes 3 0 0 0 2 = true ∧ scopeIncludes 2 0 5 0 0 = false := by decide +kernel

/-- A payload that passes the checks of R139, from decidable parts. -/
theorem payload_of {k : Cap} {need kinds : List Nat} {sp : Option Nat} {h : Shape} {o : Int} {flag : Option (Nat × DWord)}
    (hs : sp.all (fun x => decide (x + ((h.rows - 1) * h.spitch + h.rowb) ≤ 0x100000 ∧ x % 4 = 0)) = true)
    (hf : flag.all (fun f => decide (f.1 + 8 ≤ 0x100000 ∧ f.1 % 8 = 0)) = true)
    (hk : o % 4 = 0 ∧ h.rowb % 4 = 0 ∧ h.spitch % 4 = 0 ∧ h.gpitch % 4 = 0
      ∧ 0 ≤ o ∧ o + ((h.rows - 1) * h.gpitch + h.rowb : Nat) ≤ k.len ∧ (∀ i ∈ need, k.has i = true) ∧ k.kind ∈ kinds) :
    PayloadFits k need kinds sp h o flag := by
  refine ⟨fun _ _ => ⟨fun x e => ?_, hk⟩, fun a v e => ?_⟩
  · subst e; simpa using hs
  · subst e; simpa using hf

/-- Core 0 for the engines: C2 ordinary with every right and C3 a host handle, each to 64 KiB; S10 a scratchpad address, S11
an offset, S12 and S13 the two words of a shape, S15 a mask of two members, S16 and S17 a flag word, S20 and S21 a pair at
0x10000 with pitches of 256 bytes and 16 KiB, S30 to S34 the group of a subscription of 2 by 3 tiles, S35 to S39 that of a bank product, and ring 2
valid. -/
def engState : State :=
  (at0 fun c => { onCtx (fun x => withC 2 (Cap.mk 5 0 0xFF 0 0 1024) (withC 3 (Cap.mk 6 0 0xFF 4 0 1024)
      (withS [(10, 0x1000), (12, 0x02000040), (13, 0x0000000008000080), (14, 0xFFFF8), (15, 3), (16, 0xFFFF8), (17, 9),
        (20, 0x1010000), (21, 0x4000), (30, 0x02000040), (31, 0x0000000008000080), (32, 0x30002), (33, 4096), (34, 8192),
        (35, 0x800080), (36, 256), (37, 0x22), (39, 0x4000)] x))) c with
    spad := (c.spad.writeLE 0xFFF40 0x10000002000 8).writeLE 0xFFF48 4 1 }).modPart 0
      fun p => { p with mcast := [(0, [0, 5])] }

theorem test_MatrixForms_meets :
    (∀ k ∈ ([1, 2] : List Tok), (engState.rd.ctx.toks.get k).pending = false ∧ (engState.rd.ctx.toks.get k).err = 0)
    ∧ PairValid 0x77 ∧ PairKept engState.rd.ctx true 0x77 ∧ engState.rd.ctx.ops = [] ∧ engState.rd.tileBusy 2 none = false
    ∧ engState.rd.latchBusy 7 = false ∧ engState.rd.tileBusy 2 (some true) = false
    ∧ PairFits engState 20 64 256 false ∧ PairFits engState 20 64 128 true
    ∧ PairFits engState 20 (fmtK 0x22) (8 * codeWidth (fmtB 0x22)) (fmtFp4 0x22)
    ∧ PairFits engState 20 64 (8 * codeWidth 2) false := by
  unfold PairFits PairValid PairKept
  refine ⟨?_, ?_, ?_, ?_, ?_, ?_, ?_, ?_, ?_, ?_, ?_⟩ <;> decide +kernel

/-- An array with an operation under way. -/
theorem test_MdrainWaits_meets :
    let s := (engState.start (Op.new 1 3 0 (.mma false false true 0 (.latch 0) (.latch 4) 0x22 0 0 true) 0))
    (s.rd.ctx.ops.map Op.array) = [some true] ∧ (s.rd.ctx.toks.get 1).pending = false := by decide +kernel

theorem test_CopyForms_meets :
    let s := engState
    let h := shapeOf s 12 true
    PayloadFits (s.rd.C 2) [4] [0, 1, 2, 3] (some (sN s 10)) h (sI s 11) (some (sN s 14, s.rd.S 15))
    ∧ PayloadFits (s.rd.C 2) [4] [0, 1, 2, 3] (some 0x2000) h (sI s 11) (some (sN s 14, s.rd.S 15))
    ∧ PayloadFits (s.rd.C 2) [5, 3] [0, 1, 3] (some (sN s 10)) h (sI s 11) none
    ∧ PayloadFits (s.rd.C 3) [5] [4] (some (sN s 10)) h (sI s 11) none
    ∧ PayloadFits (s.rd.C 3) [4] [4] (some (sN s 10)) h (sI s 11) none
    ∧ PayloadFits (s.rd.C 2) [4] [0, 1, 2] (some (sN s 10)) h (sI s 11) (some (sN s 16, s.rd.S 17))
    ∧ PayloadFits (s.rd.C 2) [4] [0, 1, 2] none ⟨1, 64, 0, 0⟩ 0 none := by
  unfold sN sI
  refine ⟨?_, ?_, ?_, ?_, ?_, ?_, ?_⟩ <;> refine payload_of ?_ ?_ ?_ <;> decide +kernel

theorem test_RingAndMulticast_meet :
    let s := engState
    s.rd.lostIn (ringAddr 2) 32 = false ∧ (s.rd.ringD 2).valid = true ∧ (s.rd.ringD 2).base + (s.rd.ringD 2).wp * (s.rd.ringD 2).slotsz = 0x2000
    ∧ (shapeOf s 12 true).rows = 2 ∧ (shapeOf s 12 true).rowb = 64
    ∧ ((shapeOf s 12 true).rows - 1) * (shapeOf s 12 true).spitch + (shapeOf s 12 true).rowb ≤ (s.rd.ringD 2).slotsz
    ∧ sN s 10 % 64 = 0 ∧ sN s 10 + 64 ≤ 0x100000
    ∧ (∀ j, j < 64 → (s.rd.S 15).getLsbD j = true → j < ((s.part s.rd.pid).members (s.cur.val / 80)).length) ∧ s.rd.S 15 ≠ 0 := by
  unfold sN
  refine ⟨?_, ?_, ?_, ?_, ?_, ?_, ?_, ?_, ?_, ?_⟩ <;> decide +kernel

theorem test_Xsub_meets :
    let s := engState
    let h := shapeOf s 30 true
    (s.rd.S 32).extractLsb' 0 16 = 2 ∧ (s.rd.S 32).extractLsb' 16 16 = 3 ∧ (h.rows - 1) * h.spitch + h.rowb ≤ (s.rd.ringD 2).slotsz
    ∧ s.rd.subOf 2 = none ∧ h.rowb % 4 = 0 ∧ h.spitch % 4 = 0 ∧ h.gpitch % 4 = 0 ∧ sI s 33 % 4 = 0 ∧ sI s 34 % 4 = 0
    ∧ (s.rd.C 2).kind = 0 ∧ (s.rd.C 2).has 7 = true ∧ (s.rd.C 2).has 4 = true ∧ (s.rd.C 2).has 5 = true
    ∧ (∀ i : Nat, i < 2 → ∀ j : Nat, j < 3 → 0 ≤ sI s 11 + i * sI s 33 + j * sI s 34
        ∧ sI s 11 + i * sI s 33 + j * sI s 34 + ((h.rows - 1) * h.gpitch + h.rowb : Nat) ≤ (s.rd.C 2).len) := by
  unfold sI
  refine ⟨?_, ?_, ?_, ?_, ?_, ?_, ?_, ?_, ?_, ?_, ?_, ?_, ?_, ?_⟩ <;> decide +kernel

/-- The bank product of a BF16 matrix of 8 by 128: x at 0x1000, y at 0x4000, and the flag-less group at S35. -/
theorem test_Xbmv_meets :
    let s := engState
    ((s.rd.S 35).extractLsb' 0 20).toNat = 128 ∧ ((s.rd.S 35).extractLsb' 20 24).toNat = 8 ∧ (s.rd.S 37).getLsbD 8 = false
    ∧ sN s 10 + 2 * 128 ≤ 0x100000 ∧ sN s 39 + 4 * 8 ≤ 0x100000 ∧ sN s 39 % 4 = 0 ∧ 128 % 8 = 0
    ∧ sI s 11 % 4 = 0 ∧ sI s 11 + 2 * 8 * 128 ≤ (s.rd.C 2).len ∧ (s.rd.C 2).has 7 = true ∧ (s.rd.C 2).has 4 = true
    ∧ sI s 11 ≤ 0 ∧ 0 < sI s 36 := by
  unfold sN sI
  refine ⟨?_, ?_, ?_, ?_, ?_, ?_, ?_, ?_, ?_, ?_, ?_, ?_, ?_⟩ <;> decide +kernel

/-- Its packed formats with scales at C2, a flag word, and a ring destination. -/
theorem test_XbmvScales_meets :
    let s := engState.modCtx (withS [(37, 0x522)])
    128 % 64 = 0 ∧ sI s 11 % 256 = 0 ∧ (s.rd.S 37).extractLsb' 0 4 = 2 ∧ (s.rd.S 37).extractLsb' 4 4 = 2
    ∧ sI s 36 + 8 * 128 / 8 ≤ (s.rd.C 2).len ∧ sI s 38 + 2 * ((8 + 63) / 64) ≤ (s.rd.C 2).len
    ∧ sN s 40 + 8 ≤ 0x100000 ∧ sN s 40 % 8 = 0 ∧ (s.rd.S 37).getLsbD 8 = true ∧ ((s.rd.S 37).extractLsb' 9 3).toNat = 2
    ∧ s.rd.lostIn (ringAddr 2) 32 = false ∧ (s.rd.ringD 2).valid = true ∧ 4 * 8 ≤ (s.rd.ringD 2).slotsz := by
  unfold sN sI
  refine ⟨?_, ?_, ?_, ?_, ?_, ?_, ?_, ?_, ?_, ?_, ?_, ?_, ?_⟩ <;> decide +kernel

/-- A subscription that an XUNSUB stops. -/
theorem test_Xunsub_meets :
    let s := engState.start (Op.new 1 3 0 (.sub { (default : Sub) with ring := 2 }) 0)
    s.rd = s.core ∧ s.core.ctx.ops = [Op.new 1 3 0 (.sub { (default : Sub) with ring := 2 }) 0]
    ∧ ({ (default : Sub) with ring := 2 } : Sub).ring = (2 : Ring).toNat ∧ ({ (default : Sub) with ring := 2 } : Sub).stop = none :=
  ⟨rfl, by simp [engState, State.start, State.newId, State.modCtx]; rfl, rfl, rfl⟩

/-- A core whose stream 0 encodes, stream 1 decodes with CODE 5, stream 2 has a window to the end of the scratchpad, and row
0 of P1 is well formed: two symbols of 2048 each. -/
def coderState : State :=
  at0 fun c => { onCtx (fun x => withS [(1, 0x1000), (2, 0x100000), (3, 0xFFFE0)] { x with regs := { x.regs with
      k := ((x.regs.k.put 0 { (default : Stream) with mode := 1, range := 0xFFFFFFFF, pend := 1, cursor := 0x100, limit := 0x1000 }).put 1
        { (default : Stream) with mode := 2, low := 5, range := 0xFFFFFFFF, limit := 0x1000 }).put 2
          { (default : Stream) with cursor := 0xFFFFB, limit := 0x100000 },
      p := x.regs.p.put 1 { rows := File.all 6 ((File.all 4 0).put 0 2048 |>.put 1 2048), alpha := 1 } } }) c with
    spad := (c.spad.writeLE 0x200 (Stream.image { (default : Stream) with mode := 1, range := 0xFFFFFFFF, pend := 1, limit := 1 }) 32) }

theorem test_CoderGroups_meets :
    let p := coderState.rd.ctx.regs.p.get 1
    let y := coderState.rd.ctx.regs.k.get 0
    let z := coderState.rd.ctx.regs.k.get 1
    coderState.core.spad.wf = true ∧ p.wellFormed 0 = true ∧ y.mode = 1 ∧ z.mode = 2 ∧ 2 ^ 24 ≤ y.range.toNat
    ∧ y.cursor.toNat + y.pend.toNat ≤ y.limit.toNat ∧ 1 ≤ p.alpha.toNat ∧ 2 ^ 24 ≤ y.range.toNat / 2 ^ 12 * 2048
    ∧ z.low.toNat % 2 ^ 32 / (z.range.toNat / 2 ^ 12) < 4096 ∧ 2 ^ 24 ≤ y.range.toNat / 2 ^ 7
    ∧ z.low.toNat % 2 ^ 32 / (z.range.toNat / 2 ^ 7) < 2 ^ 7 := by decide +kernel

theorem test_CoderSteps_succeed :
    let p := coderState.rd.ctx.regs.p.get 1
    let ok := fun (x : Except CFault (Stream × Nat × List (Nat × Byte))) => match x with
      | .ok _ => true
      | .error _ => false
    (ok (encStep p 1 0 (coderState.rd.ctx.regs.k.get 0)) && ok (decStep coderState.rd p 1 (coderState.rd.ctx.regs.k.get 1))
      && ok (bypEStep 4 9 0 (coderState.rd.ctx.regs.k.get 0)) && ok (bypDStep coderState.rd 4 1 (coderState.rd.ctx.regs.k.get 1))
      && ok (tgtStep 1 (coderState.rd.ctx.regs.k.get 1))) = true
    ∧ (match Enc.flush 0 5 (coderState.rd.ctx.regs.k.get 0).enc with
      | .ok e => e.out.length == 5
      | .error _ => false) = true := by decide +kernel

theorem test_CoderStreams_meets :
    sN coderState 2 ≤ 0x100000 ∧ sN coderState 1 ≤ sN coderState 2
    ∧ (coderState.rd.ctx.regs.k.get 2).cursor.toNat + 5 = (coderState.rd.ctx.regs.k.get 2).limit.toNat
    ∧ coderState.rd.lostIn 0xFFFFB 5 = false ∧ coderState.rd.spad.read 0xFFFFB = 0
    ∧ sN coderState 3 + 32 = 0x100000 ∧ sN coderState 3 % 8 = 0 ∧ 0x200 % 8 = 0 ∧ coderState.rd.lostIn 0x200 32 = false
    ∧ validImage (coderState.rd.spad.readLE 0x200 32) = true := by
  unfold sN; decide +kernel

/-- V1 gives counts 1 and 2 to row 0 and a single count to row 1; V2 an infinity; V3 a NaN and a negative number. -/
def probState : State :=
  at0 (onCtx fun x => withV 1 (fun i => if i = 0 then 1 else if i = 1 then 2 else if i = 17 then 5 else 0)
    (withV 2 (fun i => if i = 0 then 0x7F800000 else 0x3F800000)
      (withV 3 (fun i => if i = 0 then 0x7FC00000 else 0xBF800000) x)))

theorem test_ProbabilityForms_meets :
    (16 : Reg).toNat ≤ 16 ∧ 2 ≤ (2 : Reg).toNat ∧ (4 : BitVec 3).toNat ≤ 4
    ∧ ((List.range 4).countP fun n => (probState.rd.V 1).lane n != 0) = 2
    ∧ ((List.range 4).countP fun n => (probState.rd.V 1).lane (16 + n) != 0) = 1
    ∧ Fmt.f32.decode ((probState.rd.V 2).lane 0).toNat = .inf false
    ∧ (Fmt.f32.decode ((probState.rd.V 3).lane 0).toNat).isNan = true
    ∧ (Fmt.f32.decode ((probState.rd.V 3).lane 1).toNat).neg = true
    ∧ (Fmt.f32.decode ((probState.rd.V 3).lane 1).toNat).isZero = false := by decide +kernel


/-- Ring 2 of four slots at 0x2000, with the slots in `full` filled and those in `inuse` taken, and an xsub.out that feeds
it or not. -/
def ringState (out : Bool) (full inuse : Nat) : State :=
  at0 fun c => { onCtx (fun x => { x with ops := if out then [Op.new 1 3 0 (.sub { (default : Sub) with ring := 2, out := true }) 0] else [] }) c with
    spad := (((c.spad.writeLE 0xFFF40 0x10000002000 8).writeLE 0xFFF48 4 1).writeLE 0xFFF50 inuse 8).writeLE 0xFFF58 full 8 }

theorem test_RingForms_meets :
    (∀ out ∈ [false, true], ∀ full ∈ [0, 1], (ringState out full 1).rd.lostIn (ringAddr 2) 32 = false
      ∧ ((ringState out full 1).rd.ringD 2).valid = true ∧ (ringState out full 1).core.spad.wf = true
      ∧ (ringState out full 1).rd.feedsOut 2 = out
      ∧ ((ringState out full 1).rd.ringD 2).full.testBit ((ringState out full 1).rd.ringD 2).rp = decide (full = 1)
      ∧ ((ringState out full 1).rd.ringD 2).full.testBit ((ringState out full 1).rd.ringD 2).wp = decide (full = 1)
      ∧ ((ringState out full 1).rd.ringD 2).inuse.testBit ((ringState out full 1).rd.ringD 2).wp = true) := by decide +kernel

/-- Quad barrier 3 with core 0 as its one member, its phase 5; S1 names it, S2 to S4 hold 4, 5 and 2^31 + 5. -/
def barState (arrived : Nat) : State :=
  { at0 (onCtx (withS [(1, 3), (2, 4), (3, 5), (4, 0x80000004)])) with
    quadBars := State.reset.quadBars.set 3 { (default : Bar) with members := 1, live := 1, arrived, phase := 5 } }

theorem test_BarrierForms_meets :
    (barState 0).barRefused 1 2 = false ∧ (barState 0).arriveHeld 1 2 = false ∧ (barState 1).arriveHeld 1 2 = true
    ∧ (barState 0).barRefused 1 3 = true ∧ (barState 0).barRefused 1 5 = true ∧ (barState 0).outstanding 0 true = false
    ∧ ((barState 0).bar 2 ((barState 0).barOf 1 2)).phase = 5
    ∧ ({ (barState 0).bar 2 ((barState 0).barOf 1 2) with arrived := 1, act := true } : Bar).ready = true
    ∧ ({ (barState 0).bar 2 ((barState 0).barOf 1 2) with arrived := 1, act := true, pending := 4, armed := true } : Bar).ready = false
    ∧ (barState 0).launchAt 0 0 = none
    -- WAITB of phases 4, 5 and 2^31 + 4: completed, not completed, and 2^31 + 1 ahead
    ∧ (5 + 2 ^ 32 - sN (barState 0) 2 % 2 ^ 32) % 2 ^ 32 = 1 ∧ (5 + 2 ^ 32 - sN (barState 0) 3 % 2 ^ 32) % 2 ^ 32 = 0
    ∧ 2 ^ 31 < (5 + 2 ^ 32 - sN (barState 0) 4 % 2 ^ 32) % 2 ^ 32 := by
  unfold sN
  refine ⟨?_, ?_, ?_, ?_, ?_, ?_, ?_, ?_, ?_, ?_, ?_, ?_, ?_⟩ <;> decide +kernel

/-- The launch of record 7. -/
def theLaunch : Launch := fetchLaunch

/-- A record of job 9. -/
def theRec (state : RecState) : Rec :=
  { entry := 0, state, prio := 0, queue := 5, pending := 0, job := 9, lidx := 0, arena := 0, lease := 0, digest := 0, capl := 0,
    succ := [], tt := false, release := 0, deadline := 0, parent := none, opens := 0, args := [], launch := 0, saved := none,
    abandoned := false, ran := false, rerun := false, repair := none, late := false, priv := false, lid := none, cyc := false }

/-- Partition 0 holds quad 0, eight records, one launch, job 9, and record 7 as given in queue 5. -/
def thePart (r : Rec) : Part :=
  { fetchPart with grant := { (default : Grant) with quads := [0], recs := 8, queues := [5], killOn := 0x54524150, traceCap := 0 }, recs := [(7, r)],
                   jobs := [{ (default : Job) with id := 9, live := 1 }], queues := [(5, [7])] }

/-- The state of partition 0 with record 7, core 0 changed. -/
def taskState (r : Rec) (f : Core → Core) : State := (at0 f).modPart 0 fun _ => thePart r

/-- C1 a queue handle with the right to enqueue, C2 one without it, C3 one to a die on which the partition has no quad; S1
names sibling 1, S2 the core itself, S3 sibling 2, which SPAWN has taken in this cycle, S4 sibling 3, which runs. -/
def spawnState (cancel off : Bool) : State :=
  let s := taskState (theRec .running) fun c => { onCtx (fun x =>
      withC 1 (Cap.mk 5 0 2 6 0 0) (withC 2 (Cap.mk 5 0 0 6 0 0) (withC 3 (Cap.mk 69 0 2 6 0 0)
        (withS [(1, 0x1000000001000), (3, 0x2000000000000), (4, 0x3000000000000)]
          { x with task := { x.task with job := 9 } })))) c with cancel }
  let s := (s.modAt 2 fun c => { c with spawnAt := some 2 }).modAt 3 fun c => { c with run := .running }
  let s := s.modAt 1 fun c => { c with engmap := if off then 0x4000 else c.engmap }
  s.modPart 0 fun q => { q with jobs := [{ (default : Job) with id := 9, live := 1, cancelled := cancel, marks := if cancel then [0] else [] }] }

theorem test_RequestAndSpawnForms_meets :
    let s := spawnState false false
    let k := fun (a : Reg) => sibling s.cur.val ((s.rd.S a).extractLsb' 48 2).toNat
    (s.rd.C 1).kind = 6 ∧ (s.rd.C 1).has 1 = true ∧ (s.rd.C 2).kind = 6 ∧ (s.rd.C 2).has 1 = false ∧ (s.rd.C 4).kind ≠ 6
    ∧ (∃ q ∈ (s.part s.rd.pid).grant.quads, q / 20 = (s.rd.C 1).obj / 64 % 4)
    ∧ (∀ q ∈ (s.part s.rd.pid).grant.quads, q / 20 ≠ (s.rd.C 3).obj / 64 % 4) ∧ (s.rd.C 3).has 1 = true
    ∧ s.outstanding s.cur.val true = false ∧ waitState.outstanding waitState.cur.val true = true
    ∧ s.spawnCancelled = false ∧ (spawnState true false).spawnCancelled = true
    ∧ (s.rd.S 2).extractLsb' 48 2 = 0 ∧ ((spawnState false true).coreAt 1).engmap.getLsbD 14 = true
    ∧ (s.coreAt (k 3)).spawnAt = some (s.cyc + 2) ∧ s.idleCore (k 4) = false ∧ (s.coreAt (k 4)).spawnAt ≠ some (s.cyc + 2)
    ∧ k 1 = 1 ∧ (s.coreAt 1).engmap.getLsbD 14 = false ∧ (s.coreAt 1).spawnAt = none
    ∧ (s.idleCore 1 = true ∧ s.offered 1 = true ∧ (s.part s.rd.pid).kids = [])
    ∧ (s.launchAt s.rd.pid s.rd.ctx.task.launch).isSome = true := by
  refine ⟨?_, ?_, ?_, ?_, ?_, ?_, ?_, ?_, ?_, ?_, ?_, ?_, ?_, ?_, ?_, ?_, ?_, ?_, ?_, ?_, ?_, ?_⟩ <;> decide +kernel

/-- A context whose launch replays marks, the next of them the one that `.logmark` of S1 would write, or another. -/
def markState (w3 : DWord) : State :=
  (taskState (theRec .running) (onCtx fun x => { x with sys := { x.sys with logctl := 0x20000000, mode := 0x12 } })).modPart 0 fun q =>
    { q with launches := [{ theLaunch with word := 3, supply := [LogRec.of 9 2 0 0 0 0 0 w3] }] }

/-- Whether the next record of its agent is that of `.logmark` of S1, with its value. -/
def markTurn (s : State) : Bool :=
  let x := s.core.ctx
  let e := LogRec.of 9 2 s.core.lid.toNat x.task.lidx 0 0 0 (s.rd.S 1)
  (s.launchAt x.ring.part x.ring.lch).any fun l => !l.failing
    && (l.supply.find? fun r => s.keyOf x.ring.part r == s.keyOf x.ring.part e).any fun r => r.matches e && r.w3 == e.w3

theorem test_LogmarkReplays_meets : markTurn (markState 0) = true ∧ markTurn (markState 1) = false
    ∧ (markState 0).core.ctx.sys.logctl.getLsbD 29 = true ∧ (markState 0).core.ctx.sys.record = false
    ∧ (markState 0).core.ctx.sys.replay = true := by
  refine ⟨?_, ?_, ?_, ?_, ?_⟩ <;> decide +kernel

/-- The task of record 7 on core 0, with token 1 Pending or not. -/
def retireState (pending : Bool) (logctl : DWord) (mode : BitVec 6) : State :=
  taskState (theRec .running) (onCtx fun x => { x with
    toks := x.toks.put 1 { (default : Token) with pending }, task := { x.task with record := some 7, job := 9 },
    sys := { x.sys with logctl, mode } })

theorem test_RetireAndLogmark_meets :
    let s := retireState false 0 0
    let x := s.core.ctx
    (retireState true 0 0).rd.ctx.pipe.retiring = false ∧ (retireState true 0 0).retireWaits (retireState true 0 0).rd = true
    ∧ s.retireWaits s.rd = false ∧ s.retireWaits s.core = false ∧ s.rd.badToken = none ∧ s.core.badToken = none
    ∧ x.sys.record = false ∧ x.sys.replay = false ∧ x.sys.verify = false ∧ x.task.child = false
    ∧ s.launchAt s.core.pid x.task.launch = some theLaunch ∧ theLaunch.record = false ∧ theLaunch.replay = false
    ∧ x.task.record = some 7 ∧ (s.part 0).getRec 7 = some (theRec .running)
    ∧ (∀ c : Fin 16, (s.bar 2 c.val).live.testBit 0 = false)
    ∧ x.sys.logctl.getLsbD 29 = false ∧ (retireState false 0x20000000 0x10).core.ctx.sys.logctl.getLsbD 29 = true
    ∧ (retireState false 0x2A000000 4).core.ctx.sys.record = true
    ∧ (retireState false 0x2A000000 4).ringFull (retireState false 0x2A000000 4).core.ctx.ring = false := by
  refine ⟨?_, ?_, ?_, ?_, ?_, ?_, ?_, ?_, ?_, ?_, ?_, ?_, ?_, ?_, ?_, ?_, ?_, ?_, ?_, ?_⟩ <;> decide +kernel

/-- Core 0 with one engine operation. -/
def opState (op : Op) (f : Core → Core := id) : State := funded <| at0 fun c => f { c with ctx := { c.ctx with ops := [op] } }

/-- What Reaches asks of a translation that the operation holds, but for the absence of samples. -/
def reaches (s : State) (op : Op) (v : Via) (x : Nat) (w : Bool) : Bool :=
  let t := xlat
  let y := (s.coreAt 0).ctx.sys
  (match s.opXlat op v x w with
    | .ok z => decide (z = t)
    | .error _ => false)
  && !refreshing s.cyc (t.phys x) && !s.lineHeld v.part (t.phys x) && !s.home.lost.contains (lineOf (t.phys x))
  && s.home.genOk t (t.phys x) && !y.record && !y.replay

/-- A copy of one word between 0x1000 and offset 0x40 of object 5. -/
def copyOp (form : CopyForm) (toRead toWrite : List Nat) (err : BitVec 4) : Op :=
  { Op.new 1 3 0 (.copy form 0x1000 ⟨1, 4, 0, 0⟩ { (default : Via) with obj := 5 } 0x40 (some (0xFFFF8, 9)) none) 0 with
    toRead, toWrite, buf := [(0, 7)], claimed := true, filled := true, err, xls := [xlat] }

/-- A partition whose object 5 is a host handle of 0x44 bytes. -/
def hostObj : Part :=
  { Part.reset with objs := [(5, { (default : Obj) with valid := true, bound := true, hostlen := 0x44 })] }

theorem test_CopySteps_meets :
    let op := fun f => copyOp f [0] [0] 0
    let h : Shape := ⟨1, 4, 0, 0⟩
    let v : Via := { (default : Via) with obj := 5 }
    (reaches (opState (op .ld)) (op .ld) v (h.gAt 0x40 0) false && reaches (opState (op .st)) (op .st) v (h.gAt 0x40 0) true
      && reaches (opState (op (.red true))) (op (.red true)) v (h.gAt 0x40 0) true) = true
    ∧ (opState (op .ld)).opAt 0 0 = some (op .ld) ∧ v.kind ≠ 3 ∧ xlat.cls ≠ 2
    ∧ ((opState (op .st)).coreAt 0).lostIn (h.sAt 0x1000 0) 4 = false ∧ h.words = 1 ∧ look (op .ld).buf 0 = some 7
    ∧ (opState (op .ld)).opStrict 0 (op .ld) = false ∧ (opState (op .ld)).spadTurn 0 = true ∧ (opState (op .ld)).home.bank.wf = true ∧ (op .ld).shadowed h (h.sAt 0x1000) 0 = false
    ∧ (op .st).shadowed h (h.gAt 0x40) 0 = false
    ∧ (copyOp .ld [] [] 0).toRead = [] ∧ (copyOp .ld [] [] 0).flagged = false ∧ ((copyOp .ld [] [] 3).err ≠ 0 ∧ (copyOp .ld [] [] 0).sent = [] ∧ (copyOp .hostIn [0] [0] 0).drop = false)
    ∧ (hostObj.obj 5).isSome = true := by
  refine ⟨?_, ?_, ?_, ?_, ?_, ?_, ?_, ?_, ?_, ?_, ?_, ?_, ?_, ?_, ?_, ?_⟩ <;> decide +kernel

/-- The scratchpad operand at 0x1000. -/
def src : MatSrc := .spad 0x1000 0 0 0

theorem test_MatrixSteps_meets :
    let q := fun k => { Op.new 1 3 0 k 0 with toRead := [0], toWrite := [0] }
    let mma : OpKind := .mma false true false 0 src src 0x22 0 0 true
    (q (.ldz 1 src true)).matAddr 0 = some 0x1000 ∧ (q mma).matAddr 0 = some 0x1000 ∧ (q mma).array = some false
    ∧ (opState (q mma)).arrayBehind 0 0 (q mma) = false ∧ ((opState (q mma)).coreAt 0).lostIn 0x1000 4 = false
    ∧ (q (.stz 1 src ⟨0, false, 0, false, 0, false, 0⟩ 0 (File.all 8 0) (File.all 8 0) 0)).matAddr 0 = some 0x1000
    ∧ (opState (q mma)).opStrict 0 (q mma) = false ∧ (opState (q mma)).spadTurn 0 = true ∧ (0x22 : DWord).getLsbD 8 = false
    ∧ (Op.new 1 3 0 mma 0).toRead = [] ∧ (Op.new 1 3 0 mma 0).err = 0 ∧ (Op.new 1 3 0 mma 0).upto ≤ State.reset.cyc := by
  refine ⟨?_, ?_, ?_, ?_, ?_, ?_, ?_, ?_, ?_, ?_, ?_, ?_⟩ <;> decide +kernel

/-- The operands of an MMA: two latches, vectors under BF16 and under packed FP4 with scales, and A from the scratchpad with
every word of it read; a latch and an MST on their way. -/
theorem test_MatrixResults_meet :
    let vs := fun (n : Nat) => List.replicate n (File.all 8 (5 : Word))
    let wd := fun (_ : Nat) => (5 : Word)
    let ok := fun (v : DWord) (n : Nat) => PairValid v ∧ (vs n).length = (if (v.extractLsb' 0 4).toNat = 5 then 10 else 8)
    ok 0x22 8 ∧ ok 0x155 10 ∧ ok 0x187 8 ∧ PairValid 0x88 ∧ spadBytes (.latch 0) 8192 = 0
    ∧ (∀ m u, (m, u) ∈ (List.range 2048).map (fun n => (n, wd n)) → u = wd m)
    ∧ (∀ m, m < spadBytes src 8192 / 4 + spadBytes (.vec (vs 8)) 8192 / 4 → (m, wd m) ∈ (List.range 2048).map fun n => (n, wd n))
    ∧ (let q := Op.new 1 3 0 (.latch 2 src false) 0
       (opState q).arrayBehind 0 0 q = false ∧ q.toRead = [])
    ∧ (let q := { Op.new 1 3 0 (.stz 1 src ⟨0, false, 0, false, 0, false, 0⟩ 0 (File.all 8 0) (File.all 8 0) 0) 0 with toWrite := [0] }
       q.matAddr 0 = some 0x1000 ∧ (opState q).opStrict 0 q = false ∧ 0 < 32 / codeWidth 0) := by
  unfold PairValid
  refine ⟨?_, ?_, ?_, ?_, rfl, ?_, ?_, ?_, ?_⟩
  · decide +kernel
  · decide +kernel
  · decide +kernel
  · decide +kernel
  · intro m u h; obtain ⟨_, -, e⟩ := List.mem_map.mp h; exact (Prod.mk.inj e).2.symm
  · intro m h; exact List.mem_map.mpr ⟨m, List.mem_range.mpr h, rfl⟩
  · decide +kernel
  · decide +kernel

theorem test_LoadedTile_meets : (∀ n b, (n, b) ∈ (List.range 4096).map (fun n => (n, (5 : Word))) → b = 5)
    ∧ ∀ n, n < 4096 → (n, 5) ∈ (List.range 4096).map (fun n => (n, (5 : Word))) := by
  constructor
  · intro n b h; obtain ⟨_, -, e⟩ := List.mem_map.mp h; exact (Prod.mk.inj e).2.symm
  · intro n h; exact List.mem_map.mpr ⟨n, List.mem_range.mpr h, rfl⟩

/-- A landing that will use ring 2, before and after its claim; a chain at record 0x3000 of one word from C2, and the record
that it moves. -/
def landing (claimed : Bool) : Op :=
  { Op.new 1 3 0 (.copy .ld 0 ⟨1, 4, 0, 0⟩ { (default : Via) with obj := 5 } 0x40 none (some 2)) 0 with
    claimed }

/-- A scratchpad with ring 2 valid and a chain record with bits `own` and `shape` at 0x3000. -/
def chainSpad (own shape : Nat) (c : Core) : Core :=
  let m := (c.spad.writeLE 0xFFF40 0x10000002000 8).writeLE 0xFFF48 4 1
  { c with spad := (m.writeLE 0x3000 (own * 2 ^ 32 + shape * 2 ^ 52 + 2 ^ 31) 8).writeLE 0x3018 4 8 }

theorem test_RingAndChainSteps_meets :
    let s := fun (own : Nat) (op : Op) => opState op (chainSpad own 0)
    let d := ((s 1 (landing false)).coreAt 0).ringD 2
    let walk := Op.new 1 3 0 (.chain 0 0x3000 [Cap.mk 5 0 0xFF 0 0 16] none) 0
    let bit := fun (own p n : Nat) => ((s own walk).coreAt 0).spad.readLE (0x3000 + p / 64 * 8) 8 / 2 ^ (p % 64) % 2 ^ n
    ((s 1 (landing false)).coreAt 0).lostIn (ringAddr 2) 32 = false ∧ d.valid = true ∧ d.base % 4 = 0
    ∧ d.inuse.testBit d.wp = false ∧ (⟨1, 4, 0, 0⟩ : Shape).ext 0 ≤ d.slotsz ∧ (landing true).slot < 64 ∧ (landing true).filled = false
    ∧ (s 1 walk).chainBehind 0 0 0 walk.inst = false ∧ ((s 1 walk).coreAt 0).lostIn 0x3000 64 = false
    ∧ bit 0 32 1 = 0 ∧ bit 1 32 1 = 1 ∧ bit 1 52 1 = 0 ∧ bit 1 40 3 = 0 ∧ bit 1 192 24 = 4
    ∧ PayloadFits (Cap.mk 5 0 0xFF 0 0 16) [4] [0, 1, 2, 3] (some (bit 1 128 20)) ⟨1, 4, 0, 0⟩ ((BitVec.ofNat 64 (bit 1 64 64)).toInt) none
    ∧ (s 1 walk).spadTurn 0 = true ∧ (s 1 walk).opStrict 0 walk = false
    ∧ 0x3000 % 64 = 0 ∧ NoSamplesAt (s 1 walk) 0 := by
  unfold NoSamplesAt
  refine ⟨?_, ?_, ?_, ?_, ?_, ?_, ?_, ?_, ?_, ?_, ?_, ?_, ?_, ?_, ?_, ?_, ?_, ?_, ?_⟩ <;> first
    | decide +kernel
    | (refine payload_of ?_ ?_ ?_ <;> decide +kernel)

/-- Records to the host, with a bad direction and with a shape; walks whose record ends the walk, goes on, or cannot, and one
that failed in a payload. -/
theorem test_ChainWalks_meet :
    let rec3 := fun (stop : Bool) (next : Nat) => (⟨.ld, 0, ⟨1, 4, 0, 0⟩, default, 0, stop, next⟩ : ChainCur)
    let walk := fun (cur : Option ChainCur) (e : BitVec 4) => { Op.new 1 3 0 (.chain 0 0x3000 [] cur) 0 with err := e }
    PayloadFits (Cap.mk 6 0 0xFF 4 0 16) [4] [4] (some 0) ⟨1, 4, 0, 0⟩ 0 none
    ∧ PayloadFits (Cap.mk 6 0 0xFF 4 0 16) [5] [4] (some 0) ⟨2, 64, 128, 128⟩ 0 none
    ∧ ¬ 5 ≤ 3 ∧ ¬ PayloadFits (Cap.mk 6 0 0xFF 4 0 0) [4] [4] (some 0) ⟨1, 4, 0, 0⟩ 0 none
    ∧ (rec3 true 0).stop = true ∧ (rec3 false 64).next % 64 = 0 ∧ (rec3 false 4).next % 64 ≠ 0
    ∧ (walk (some (rec3 true 0)) 0).toRead = [] ∧ (walk (some (rec3 true 0)) 3).err ≠ 0 ∧ (walk none 3).sent = []
    ∧ (opState (walk none 3)).spadTurn 0 = true := by
  refine ⟨?_, ?_, by decide, fun h => ?_, ?_, ?_, ?_, ?_, ?_, ?_, ?_⟩ <;> first
    | decide +kernel
    | (refine payload_of ?_ ?_ ?_ <;> decide +kernel)
    | exact absurd (h.1 (by decide) (by decide)).2.2.2.2.2.2.1 (by decide +kernel)

/-- Core 0 running with a subscription to ring 2 that holds a stream. -/
def subState (out claimed : Bool) (full inuse : Nat) : State :=
  let x : Sub := { (default : Sub) with ring := 2, out, sh := ⟨1, 4, 0, 0⟩, nt0 := 1, nt1 := 1 }
  let op : Op := { Op.new 1 3 0 (.sub x) 0 with claimed, stream := some 0 }
  opState op fun c => { (ringState false full inuse).core with ctx := c.ctx, run := .running, issued := true }

theorem test_HoistSteps_meets :
    let r := fun (out : Bool) (full inuse : Nat) => ((subState out false full inuse).coreAt 0).ringD 2
    (∀ i ∈ [0, 1], ((subState false false 0 i).coreAt 0).lostIn (ringAddr 2) 32 = false ∧ (r false 0 i).valid = true
      ∧ (r false 0 i).inuse.testBit (r false 0 i).wp = decide (i = 1) ∧ (r false 0 i).base % 4 = 0
      ∧ ((subState false false 0 i).coreAt 0).spad.wf = true ∧ (⟨1, 4, 0, 0⟩ : Shape).ext 0 ≤ (r false 0 i).slotsz)
    ∧ (∀ f ∈ [0, 1], (r true f 1).full.testBit (r true f 1).rp = decide (f = 1))
    ∧ (subState false false 0 0).spadTurn 0 = true
    ∧ ((subState false false 0 0).coreAt 0).ctx.ops.all (fun o => !(subState false false 0 0).opStrict 0 o && (match o.kind with
        | .sub x => !(subState false false 0 0).tileSpent x
        | _ => false)) = true
    ∧ ((subState false true 0 1).coreAt 0).ctx.ops.all (fun o => o.toRead.isEmpty && o.toWrite.isEmpty && o.err == 0
        && decide (o.slot < 64) && o.stream.isSome && o.claimed) = true := by
  refine ⟨?_, ?_, ?_, ?_, ?_⟩ <;> decide +kernel

/-- A bank product of which word 0 of W is left, a bank fence over the line of offset 0x40, and a dirty line with its
budget unspent. -/
def bmvOp : Op :=
  { Op.new 1 3 0 (.bmv ⟨0, 2, { (default : Via) with obj := 5 }, 0x40, 64, 1, default, 0, default, 0, 0, none, 0, none, true⟩) 0 with
    toRead := [0], xls := [xlat] }

def bankState (op : Op) : State :=
  { opState op with home := { (default : Home) with dirty := [1], mem := Memory.write [] 64 9 } }

theorem test_BankSteps_meet :
    let v : Via := { (default : Via) with obj := 5 }
    let f := { Op.new 1 3 0 (.bfen v 0x40 4) 0 with xls := [xlat] }
    reaches (bankState bmvOp) bmvOp v (0x40 + 4 * 0) false = true
    ∧ (match bmvOp.kind with
      | .bmv x => decide (0 < x.wWords)
      | _ => false) = true
    ∧ 1 ∈ (bankState bmvOp).home.dirty ∧ (bankState bmvOp).home.bank.wf = true ∧ (bankState bmvOp).ownerOf (1 * 64) = none
    ∧ (bankState f).storesBefore 0 0 f = false ∧ (bankState f).readsBefore 0 0 v 0x40 4 = false ∧ linesOf 0x40 4 = [1]
    ∧ reaches (bankState f) f v (max (1 * 64) (0x40 / 4 * 4)) false = true
    ∧ (lineOf (xlat.phys (1 * 64)) ∈ (bankState f).home.dirty ∧ NoSamplesAt (bankState f) 0)
    ∧ ((List.range 20).all fun i => decide (look ((bankState f).part v.part).grant.shares i = some 64 ∧ i ∉ (bankState f).dev.hotStk)) = true := by
  unfold NoSamplesAt
  refine ⟨?_, ?_, ?_, ?_, ?_, ?_, ?_, ?_, ?_, ?_, ?_⟩ <;> decide +kernel

/-- A load that a refresh window delayed, at the end of the window of group 15. -/
def lateState : State :=
  { funded (at0 fun c => { (queueState .load 8).core with queues := c.queues.put 1 [.acc { accOf .load 8 with late := true }] }) with
    cyc := 2048 * 15 + 384 }

theorem test_RefreshWindowEnd_meets :
    lateState.cyc % 32768 = 2048 * 15 + 384 ∧ (lateState.coreAt 0).queues.get 1 = [.acc { accOf .load 8 with late := true }]
    ∧ refreshing lateState.cyc (xlat.phys 64) = false ∧ (lateState.coreAt 0).hits = []
    ∧ (∀ j : Fin 320, ∀ r : BitVec 2, (j ≠ 0 ∨ r ≠ 1) → (lateState.coreAt j.val).queues.get r = [])
    ∧ (∀ j : Fin 320, (lateState.coreAt j.val).ctx.ops = [])
    ∧ (lateState.coreAt 0).ctx.pipe.waits.all (fun w => decide (w.id ≠ 3 ∨ w.need = 1)) = true ∧ NoSamplesAt lateState 0 := by
  unfold NoSamplesAt
  refine ⟨?_, ?_, ?_, ?_, ?_, ?_, ?_, ?_⟩ <;> decide +kernel

/-- Core 0 with a request that names record 7 or job 9. -/
def asking (kind num : Nat) : Core → Core :=
  onCtx fun x => { x with pipe := { x.pipe with requests := [⟨kind, 0, num, [], 5, none⟩] } }

theorem test_Requests_meet :
    let r := { theRec .waiting with pending := 1 }
    let y := (taskState r (asking 1 7)).part 0
    y.reqRec 7 = some r ∧ y.cancelled 9 = false ∧ y.marked 9 (y.recordDie 7) = false ∧ y.dies = [0] ∧ (thePart (theRec .idle)).reqRec 7 = some (theRec .idle) ∧ 5 ∉ y.killed
    ∧ (y.liveJob (BitVec.ofNat 32 9)).map (fun j => j.cancelled) = some false
    ∧ (theRec .waiting).state.unstarted = true ∧ ((taskState r (asking 1 7)).coreAt 0).pid = 0 := by
  refine ⟨?_, ?_, ?_, ?_, ?_, ?_, ?_, ?_, ?_⟩ <;> decide +kernel

theorem test_BindAndSteal_meet :
    let r := theRec .queued
    let s := taskState r fun c => { c with stealDue := true, steals := [5] }
    (taskState r id).launchAt 0 r.launch = some theLaunch ∧ theLaunch.record = false ∧ theLaunch.replay = false ∧ theLaunch.serial = false
    ∧ 0 ∈ (thePart r).cores ∧ ((thePart r).queue 5).head? = some 7 ∧ (thePart r).getRec 7 = some r
    ∧ (taskState r id).mayResume 0 0 r = true ∧ (taskState r id).idleCore 0 = true
    ∧ (thePart r).topQueue 0 ((taskState r id).mayResume 0 0) = some 5
    ∧ (taskState r id).offered 0 = true ∧ (s.part 0).holdsQueue 5 = true ∧ theLaunch.seedDue = false
    ∧ (s.coreAt 0).victim = 5 ∧ (s.coreAt 0).victim ∉ (s.part 0).killed ∧ s.mayResume 0 0 r = true := by
  refine ⟨?_, ?_, ?_, ?_, ?_, ?_, ?_, ?_, ?_, ?_, ?_, ?_, ?_, ?_, ?_, ?_⟩ <;> decide +kernel

theorem test_Dispatch_meets :
    let v : Saved := ⟨Ctx.entry, 0, [], [], none, []⟩
    ∀ r ∈ [theRec .bound, { theRec .bound with saved := some v }],
      let s := taskState r fun c => { c with entry := some (7, false, 0) }
      s.partOf 0 = some 0 ∧ s.idleCore 0 = true ∧ s.quadTried 0 = true ∧ theLaunch.failing = false
      ∧ (s.part 0).pinned r.lease = true ∧ s.storeBusy 0 r.lease = false ∧ (s.part 0).born r = true ∧ s.mayResume 0 0 r = true
      ∧ v.ctx.pipe.svc = none ∧ s.offered 0 = true ∧ (s.part 0).cancelled 9 = false ∧ s.keptBars 0 r.launch 0 = [] := by decide +kernel

theorem test_TimetableAndHang_meet :
    let r := { theRec .timed with tt := true }
    let q : Bar := { (default : Bar) with act := true, live := 1, arrived := 1 }
    let s := { (taskState r fun c => onCtx (fun x => { x with pipe := { x.pipe with hang := 2 ^ 32 } })
      { c with run := .running, spawnAt := some 0 }) with pkgBars := State.reset.pkgBars.set 15 q }
    (s.part 0).getRec 7 = some r ∧ (s.part 0).stalled = false ∧ (s.part 0).frameBase + r.release ≤ s.cyc / 1024
    ∧ (s.part 0).frameBase + r.deadline ≤ s.cyc / 1024 ∧ r.state.unretired = true ∧ r.state.live = true ∧ r.late = false
    ∧ (s.coreAt 0).spawnAt = some 0 ∧ (s.coreAt 0).ctx.pipe.hanglim ≤ (s.coreAt 0).ctx.pipe.hang
    ∧ (s.bar 4 15).ready = true ∧ (s.launchAt (s.bar 4 15).part (s.bar 4 15).lch).any (fun l => l.record || l.replay) = false := by
  refine ⟨?_, ?_, ?_, ?_, ?_, ?_, ?_, ?_, ?_, ?_, ?_⟩ <;> decide +kernel

theorem test_PodArrival_meets :
    let b : Bar := { (default : Bar) with members := 2 ^ 1000 + 1, live := 2 ^ 1000 + 1 }
    let s := { State.reset with podBars := State.reset.podBars.set 15 b }
    1000 / 320 ≠ s.fab.pod ∧ (s.bar 5 15).members.testBit 1000 = true ∧ (s.bar 5 15).arrived.testBit 1000 = false
    ∧ ({ s.bar 5 15 with arrived := (s.bar 5 15).arrived + 2 ^ 1000, act := true, gone := false } : Bar).ready = false := by
  decide +kernel

/-- The task of record 7 on core 0 in state `run`. -/
def ctxState (run : Run) : State :=
  taskState (theRec .running) fun c => { onCtx (fun x => { x with
      task := { x.task with record := some 7, job := 9 }, pipe := { x.pipe with park := .twait, svc := some [3] } }) c with run }

theorem test_StopsAndEnds_meet :
    let k := fun (r : Run) => (ctxState r).coreAt 0
    ((k .running).ctx.pipe.parked = true ∧ (k .running).inSplit = false ∧ (ctxState .running).dev.halted = false) ∧ (k .running).ctx.pipe.retiring = false ∧ (k (.stopped 0 none)).drained = true
    ∧ (k (.stopped 0 none)).pid = 0 ∧ (k (.stopped 0 none)).ctx.task.record = some 7 ∧ (k (.stopped 0 none)).ctx.task.child = false
    ∧ ((ctxState .running).part 0).getRec 7 = some (theRec .running)
    ∧ (k (.ending 1 [])).drained = true ∧ (k (.ending 1 [])).ctx.ops.any Op.openSub = false ∧ (1 : Byte) ∉ ([0x13, 0x14, 0x17, 0x18] : List Byte)
    ∧ (((ctxState (.ending 1 [])).part 0).job 9).isSome = true ∧ (k .running).ctx.pipe.svc = some [3] ∧ (3 : DWord) ≠ 0x40
    ∧ (theRec .failed).repair = none ∧ (ctxState .running).runsQueue 0 5 (k .running) = true
    ∧ ((ctxState .running).part 0).cancelled 9 = false := by
  refine ⟨?_, ?_, ?_, ?_, ?_, ?_, ?_, ?_, ?_, ?_, ?_, ?_, ?_, ?_, ?_, ?_⟩ <;> decide +kernel

/-- A partition whose launch 0 is `l`, its ring in frame 3. -/
def logState (l : Launch) : State :=
  (taskState (theRec .running) id).modPart 0 fun q => { q with
    launches := [l], leaves := [(4, { (default : Leaf) with pframe := 3 }), (5, { (default : Leaf) with pframe := 2 })], grant := { q.grant with queues := [5] } }

theorem test_LogSteps_meet :
    let l : Launch := { theLaunch with failing := true, word := 1, ringObj := 4, copy := [(5, 0, Memory.write [] 9 7)] }
    let s := logState l
    (s.part 0).launches[0]? = some l ∧ l.record = true ∧ l.serial = false ∧ s.kernelHeld 0 0 = false
    ∧ (s.part 0).phys 4 8 = some (3 * 2 ^ 21 + 8) ∧ 0 ≤ (s.agentRead 0 4 0 - s.agentRead 0 4 8).toNat
    ∧ ((∀ o, o < 16 → (s.part 0).phys 4 o ≠ some (2 * 2 ^ 21 / 2 ^ 21 * 2 ^ 21 + 9)) ∧ (s.part 0).phys 5 (0 * 2 ^ 21) = some (2 * 2 ^ 21)
        ∧ Memory.wf (Memory.write [] 9 7) = true) ∧ s.home.mem.wf = true ∧ l.seedDue = false ∧ 5 ∈ (s.part 0).grant.queues
    ∧ ({ l with word := 3 } : Launch).replay = true := by
  refine ⟨?_, ?_, ?_, ?_, ?_, ?_, ?_, ?_, ?_, ?_, ?_⟩ <;> decide +kernel

theorem test_ReplayDivergence_meets :
    let e := LogRec.of 9 0 0 0 0 0 0 5
    let r := LogRec.of 9 0 0 0 0 0 0 6
    let l : Launch := { theLaunch with word := 3, supply := [r] }
    let s := (logState l).modAt 0 fun c => { onCtx (fun x => { x with
      pipe := { x.pipe with heldOps := [e] }, sys := { x.sys with mode := 0x12 } }) c with run := .running }
    s.launchAt (s.coreAt 0).pid 0 = some l ∧ (s.coreAt 0).ctx.pipe.heldOps.head? = some e
    ∧ l.supply.find? (fun z => s.keyOf 0 z == s.keyOf 0 e) = some r ∧ r.typ = 9 ∧ r.matches e = true ∧ r.w3 ≠ e.w3
    ∧ (s.coreAt 0).ctx.sys.replay = true ∧ (s.coreAt 0).ctx.pipe.async.all (fun a => a.1 != 0x18) = true := by
  refine ⟨?_, ?_, ?_, ?_, ?_, ?_, ?_, ?_⟩ <;> decide +kernel

/-- A privileged core with an XINV group at S20 that covers lines 1 to 2 of object 5 in partition 11, its flag word the last of the
scratchpad, and an XINV of partition 0 under way. -/
def invState (i : Inv) (xs : List Inv) : State :=
  ((at0 fun c => { onCtx (fun x => withS [(20, 0xB000005), (21, 64), (22, 64), (23, 0xFFFF8), (24, 9)]
      { x with sys := { x.sys with mode := 1 }, ops := [Op.new 1 3 6 (.inv 0 7 none) 0] }) c with
    xcache := [xlat] }).modPart 0 fun _ => { fetchPart with grant := { ((funded State.reset).part 0).grant with quads := [0] }, invs := i :: xs }).modHome fun h => { h with dirty := [1] }

theorem test_Xinv_meets :
    let s := invState ⟨7, 5, 0, 64, 1, [0], []⟩ []
    let g := fun (i : Reg) => s.rd.S (20 + i)
    s.rd.ctx.sys.priv = true ∧ ((g 0).extractLsb' 24 4).toNat = 11 ∧ ((g 1).extractLsb' 0 48).toNat % 64 = 0 ∧ sN s (20 + 2) % 64 = 0
    ∧ ((g 1).extractLsb' 0 48).toNat + sN s (20 + 2) ≤ 2 ^ 48 ∧ sN s (20 + 3) + 8 = 0x100000 ∧ sN s (20 + 3) % 8 = 0
    ∧ (∀ t ∈ ([1, 2] : List Tok), (s.rd.ctx.toks.get t).pending = false ∧ (s.rd.ctx.toks.get t).err = 0) := by
  unfold sN
  refine ⟨?_, ?_, ?_, ?_, ?_, ?_, ?_, ?_⟩ <;> decide +kernel

theorem test_InvalidateAndAck_meet :
    let all := fetchPart.holders.erase 0
    let i := fun (mode : Nat) (d a : List Nat) => (⟨7, 1, 0, 64, mode, d, a⟩ : Inv)
    let s := fun (mode : Nat) (d a : List Nat) => invState (i mode d a) []
    (s 1 [] []).invAt 7 = some (0, i 1 [] []) ∧ 0 ∈ fetchPart.holders
    ∧ ((s 1 [0] []).ackHeld 0 7 = false ∧ (s 1 [0] all).heldElsewhere 0 7 = false)
    ∧ (fetchPart.holders.any fun g => g != 0 && !([] : List Nat).contains g) = true
    ∧ (fetchPart.holders.all fun g => g == 0 || all.contains g) = true
    ∧ (s 1 [0] all).invTurn 0 (i 1 [0] all) = true
    ∧ ((List.range 20).all fun n => decide (look ((s 1 [0] all).part 0).grant.shares n = some 64 ∧ n ∉ (s 1 [0] all).dev.hotStk)) = true
    ∧ (400 ∈ fetchPart.holders → False) ∧ 320 ∈ fetchPart.holders ∧ 320 ∉ ([] : List Nat)
    ∧ ((s 1 [0] all).part 0).invLine (i 1 [0] all) 0 = true ∧ (s 2 [0] all).home.mem.wf = true
    ∧ ((s 1 [0] all).coreAt 0).ctx.ops = [Op.new 1 3 6 (.inv 0 7 none) 0] ∧ (∀ c : Fin 320, c ≠ 0 → ((s 1 [0] all).coreAt c.val).ctx.ops = []) := by
  refine ⟨?_, ?_, ?_, ?_, ?_, ?_, ?_, ?_, ?_, ?_, ?_, ?_, ?_, ?_⟩ <;> decide +kernel

/-- The third cycle. -/
def later (s : State) : State := { s with cyc := 3 }

/-- An access of core 0 to the code object, not translated: the lease of `fetchPart` gives fetches alone. -/
def walkState (lease : Lease) : State :=
  let q : Part := { fetchPart with
    sets := [(0, [lease])], recs := [(7, { theRec .retired with arena := 1 })],
    grant := { fetchPart.grant with recs := 8, frames := [0, 1], queues := [] } }
  later ((at0 fun c => { onCtx (fun x => { x with pipe := { x.pipe with tried := 2 } }) c with queues := c.queues.put 1 [.acc { accOf .load 8 with xl := none, via := ⟨0, 1, 5, 0, 0⟩ }] }).modPart 0
    fun _ => q)

theorem test_Walk_meets :
    let e : Lease := { (default : Lease) with obj := 1, valid := true, len := 2 ^ 21 }
    let a := { accOf .load 8 with xl := none, via := ⟨0, 1, 5, 0, 0⟩ }
    let ok := fun (x : Except (BitVec 4) Xlat) => match x with
      | .ok _ => true
      | .error _ => false
    ok (((walkState e).part 0).walk a.via a.off a.len false) = true
    ∧ ok (((walkState { e with valid := false }).part 0).walk a.via a.off a.len false) = false
    ∧ ((walkState e).coreAt 0).cached a.via a.off false = none ∧ a.uid = ((walkState e).coreAt 0).ctx.task.uid
    ∧ ((look ((walkState e).part 0).sets 0).getD [])[0]? = some e ∧ (walkState e).leasedOver 0 1 (2 ^ 21) (2 ^ 21) = false
    ∧ (a.start < ((walkState e).coreAt 0).ctx.pipe.tried ∧ ((walkState e).coreAt 0).hits = []) ∧ ((walkState e).part 0).cores ≠ [] := by
  refine ⟨?_, ?_, ?_, ?_, ?_, ?_, ?_, ?_⟩ <;> decide +kernel

/-- A privileged request for service `n` over frame 0 of object 1. -/
def svcState (n : DWord) (done : Bool) : State :=
  ((at0 (onCtx fun x => { x with sys := { x.sys with mode := 1 }, pipe := { x.pipe with svc := some [n, 1, 0, 2 ^ 21] } })).modPart 0
    fun _ => { fetchPart with prepared := if done then [⟨1, 0, 2 ^ 21, 0, [3], none⟩] else [] })

theorem test_Unmapping_meets :
    ((svcState 0x40 false).coreAt 0).ctx.asks 0x40 = some (0, 1, 0, 2 ^ 21)
    ∧ ((svcState 0x40 false).part 0).unpreparable 1 0 (2 ^ 21) = false
    ∧ ((svcState 0x41 true).coreAt 0).ctx.asks 0x41 = some (0, 1, 0, 2 ^ 21)
    ∧ (svcState 0x41 true).freeOk 0 1 0 (2 ^ 21) = true := by
  refine ⟨?_, ?_, ?_, ?_⟩ <;> decide +kernel

/-- Record 7 with arena 5: before its birth, ended, and with its XINV done. -/
def arenaState (r : RecState) (o : Obj) (dying : List (Nat × Nat)) : State :=
  (at0 id).modPart 0 fun _ => { thePart { theRec r with arena := 5 } with
    objs := [(5, o)], leaves := [], dying, grant := { (default : Grant) with quads := [0], recs := 8, frames := [0, 1] } }

theorem test_Arenas_meet :
    let o : Obj := { (default : Obj) with size := 2 ^ 21, gen := 4094 }
    let y : Obj := { o with valid := true, arena := true, typ := 1 }
    ((arenaState .queued o []).part 0).getRec 7 = some { theRec .queued with arena := 5 }
    ∧ (look ((arenaState .queued o []).part 0).objs 5 = some o ∧ ((arenaState .queued o []).part 0).prepared = [])
    ∧ (o.size + 2 ^ 21 - 1) / 2 ^ 21 ≤ ((arenaState .queued o []).part 0).freeFrames.length
    ∧ ((arenaState .retired y []).part 0).obj 5 = some y ∧ ((arenaState .retired y []).part 0).arenaOver 7 { theRec .retired with arena := 5 } = true
    ∧ ((arenaState .retired y [(5, 3)]).part 0).dying.find? (fun d => d.1 == 5) = some (5, 3)
    ∧ ((arenaState .retired y [(5, 3)]).part 0).invs = [] := by
  refine ⟨?_, ?_, ?_, ?_, ?_, ?_, ?_⟩ <;> decide +kernel

/-- A device in full service with quad 0 of die 0 and stack 0. -/
def served (p : Nat) (q : Part) : State :=
  { State.reset with dev := { Device.reset with status := 0x11, enabled := [[0]] } }.modPart p fun _ => q

/-- A grant of quad 0 and two frames of stack 0. -/
def aGrant : Grant :=
  { (default : Grant) with quads := [0], frames := [0, 1], ways := [3], recs := 8, queues := [5], traceObj := 2, traceFrame := 1, traceCap := 8 }

theorem test_Grants_meet :
    (served 0 Part.reset).serving = true ∧ (served 0 Part.reset).grantOk 0 aGrant = true
    ∧ (served 0 { Part.reset with bound := true, grant := aGrant }).partBusy 0 = false
    ∧ (3 : BitVec 16) &&& 1 = 1 ∧ ({ Part.reset with grant := aGrant } : Part).shift = none
    ∧ ((List.range 4).all fun d => let q := ({ Part.reset with grant := aGrant } : Part).setWays 0 2
        decide (q.pinnedLines d ≤ 65536 * (waysOf (q.waysOn d)).length)) = true ∧ ({ Part.reset with grant := aGrant } : Part).waysOn 0 &&& ~~~1 ≠ 0
    ∧ State.reset.cyc / 1024 ≠ 1 ∧ State.reset.dev.hot = [] := by
  refine ⟨?_, ?_, ?_, ?_, ?_, ?_, ?_, ?_, ?_⟩ <;> decide +kernel

theorem test_TableChanges_meet :
    let x : List DWord := [0x20000000000051, 0, 0, 0]
    let q : Part := { Part.reset with bound := true, grant := aGrant, objs := [(1, Obj.ofWords x)] }
    let s := served 0 q
    (served 0 { q with objs := [] }).entryOk 0 1 (Obj.ofWords x) = true ∧ s.leafOk 0 1 (Leaf.ofWords [0x0, 0, 0]) = true
    ∧ s.leaseOk 0 65535 15 (Lease.ofWords [0x1000001, 0x200000 * 2 ^ 16, 0]) = true
    ∧ ((s.modAt 319 fun c => { c with run := .running }).coreAt 319).holds 0 = true := by
  refine ⟨?_, ?_, ?_, ?_⟩ <;> decide +kernel

/-- A launch of one RETIRE. -/
def aLaunch : LaunchReq :=
  { (default : LaunchReq) with
    word := 0x30A0, code := [0xD2E00000], entries := [(0, true)], dies := [0], jobs := [(9, 0)],
    codeObj := { (default : ObjDecl) with num := 1, size := 2 ^ 21, frames := [0] },
    tasks := [{ (default : TaskDecl) with num := 7, job := 9, armed := true }] }

theorem test_Launches_meet :
    let s := served 0 { Part.reset with bound := true, grant := aGrant }
    s.launchStatus 0 aLaunch = 0 ∧ s.launchFree 0 aLaunch = true ∧ (reqObjs aLaunch).all (s.objOk 0) = true
    ∧ ((reqObjs aLaunch).flatMap fun o => o.frames).Nodup
    ∧ s.launchStatus 0 { aLaunch with dies := [] } ≠ 0 := by
  refine ⟨?_, ?_, ?_, ?_, ?_⟩ <;> decide +kernel

/-- A device at a boot stage, with images of kinds 3 and 4 running. -/
def bootState (stage : DWord) : State :=
  { State.reset with dev := { Device.reset with status := stage <<< 40, running := [(3, 1), (4, 5)], rollback := [(4, 4)] } }

/-- A device in reduced service. -/
def reducedState : State := { State.reset with dev := { Device.reset with status := (4 : DWord) <<< 40 ||| 2 } }

theorem test_DeviceSteps_meets :
    State.reset.dev.stage = 0 ∧ (bootState 1).dev.stage = 1 ∧ look (bootState 1).dev.running 1 = none ∧ imageMiss 1 0 [] [] = 1
    ∧ (bootState 2).dev.stage = 2 ∧ (bootState 2).dev.tested = false ∧ (bootState 3).dev.stage = 3 ∧ (bootState 3).dev.halted = false
    ∧ look (bootState 3).dev.running 3 ≠ none ∧ look (bootState 3).dev.running 4 = some 5
    ∧ (∀ c : Fin 320, ((bootState 3).coreAt c.val).engmap = (bootState 3).engmapDue c.val)
    ∧ (bootState 4).dev.stage = 4 ∧ (bootState 4).serving = false ∧ (reducedState).reduced = true ∧ reducedState.allEnded = true
    ∧ (bootState 4).allEnded = true ∧ (served 0 Part.reset).serving = true
    ∧ (look (bootState 3).dev.rollback 4).getD 0 < 5 ∧ (List.replicate 32 (0 : Byte)).length = 32 := by
  refine ⟨?_, ?_, ?_, ?_, ?_, ?_, ?_, ?_, ?_, ?_, ?_, ?_, ?_, ?_, ?_, ?_, ?_, ?_, ?_⟩ <;> decide +kernel

/-- A request to object 9 of package 1, whose export is 64 bytes long, on link 0. -/
def remote (done : Bool) : Remote :=
  { id := 1, core := 0, op := none, acc := { accOf .load 8 with wait := some 3 }, pkg := 1, robj := 9, done, value := [], err := 0, link := 0,
    src := 0, rest := none }

def fabState (done : Bool) (link : Link) : State :=
  let e : Export := ⟨1, 9, 5, 0, true, 0, 0, 0, 128, 0, 128, true, [], [], []⟩
  { ((queueState .load 8).modAt 0 fun c => { c with run := .running }).modPart 0 (fun q => { q with
      sets := [(0, [{ (default : Lease) with obj := 5, valid := true, w := true, len := 2 ^ 21 }])],
      recs := [(7, theRec .queued)] }) with
    fab := { Fabric.reset with links := Fabric.reset.links.set 0 link, reqs := [remote done], exports := [e] } }

theorem test_Fabric_meets :
    let up : Link := { up := true, training := false, fails := 7 }
    let s := fabState false up
    let i : Item := { lane := 0, off := 64, width := 8, data := 7 }
    let e := s.exportAt (remote false).acc.via.part (remote false).acc.via.obj 1 9
    s.fab.links[0]? = some up ∧ (fabState false { up with training := true }).fab.links[0]? = some { up with training := true }
    ∧ s.fab.reqs[0]? = some (remote false) ∧ (remote false).acc.uid = (s.coreAt 0).ctx.task.uid ∧ s.carries 0 = true
    ∧ (s.coreAt 0).ctx.sys.record = false ∧ (s.coreAt 0).ctx.sys.replay = false ∧ (remote false).acc.items = [i] ∧ i.width ≤ 8
    ∧ e.any (fun e => decide (s.groupAt e = none) && decide (e.check (s.exportHeld e 64 8) 64 8 = none) && e.mem.wf) = true
    ∧ (remote false).acc.off = 64 ∧ (remote false).acc.len = 8
    ∧ (fabState true up).fab.reqs[0]? = some (remote true) ∧ (remote true).err = 0 ∧ (remote true).acc.kind = .load := by
  refine ⟨?_, ?_, ?_, ?_, ?_, ?_, ?_, ?_, ?_, ?_, ?_, ?_, ?_, ?_, ?_⟩ <;> decide +kernel

theorem test_Errors_meet :
    let op := copyOp .ld [0] [0] 0
    let s := opState { op with inst := 0 } fun c => { c with run := .running }
    let g : GroupDecl := { (default : GroupDecl) with id := 3, size := 64, fmt := 2, members := [1, 2], part := 11, plane := 17 }
    s.physCore 0 4 ∉ s.dev.defects ∧ (4, (0 : BitVec 3)) ∈ [(2, (2 : BitVec 3)), (3, 3), (4, 0), (5, 1)]
    ∧ (s.coreAt 0).ctx.ops = [{ op with inst := 0 }] ∧ (s.coreAt 0).run = .running
    ∧ g.size % 64 = 0 ∧ g.members.length ≤ 4096 ∧ g.members.Nodup ∧ g.fmt ≤ 2 ∧ s.fab.groups = []
    ∧ g.part < 12 ∧ g.plane < 18 ∧ s.fab.pod ∉ g.members
    ∧ (let t : State := { s with home := { s.home with dirty := [1] } }
      64 / 64 ∈ t.home.dirty ∧ 128 / 64 ∉ t.home.dirty ∧ t.home.dirty.Nodup ∧ 2 ^ 46 / 2 ^ 45 = 2 ∧ 2 ^ 45 / 2 ^ 45 = 1) := by
  refine ⟨?_, ?_, ?_, ?_, ?_, ?_, ?_, ?_, ?_, ?_, ?_, ?_, ?_⟩ <;> decide +kernel

/-- `.add s3, s1, s2` in the bundle that core 0 issues next. -/
def addState : State := State.reset.withFetchWord 32 0x00018210

theorem test_StepRunsBundle_meets :
    let r := atTry addState 0
    let ws := r.fetch.words
    let env := (addState.coreAt 0).ctx.sys.env
    let l := match decodeBundle env ws with
      | .ok l => l
      | .error _ => []
    let b := r.modCtx fun x => { x with npc := x.pc + BitVec.ofNat 48 (4 * ws.length) }
    let pl := placed ws l
    let is := pl.map fun x => x.instr
    (r.fetch.bad = none ∧ r.fetch.revoked = false) ∧ ws.length = 4 ∧ l.length = 4 ∧ (l.all fun x => !isStep x.2) = true
    ∧ is.any b.spawnWaits = false ∧ is.any (b.acquireHolds env) = false ∧ b.core.splits pl ws = false
    ∧ (is.any fun i => b.slotStalls env i) = false ∧ b.noRoom is = false
    ∧ (is.all fun i => (b.slotTokErr env i).isNone) = true
    ∧ (pl.all fun x => (b.alone x).core.ctx.pipe.trapped == false && (b.alone x).core.ctx.pipe.park == .none) = true
    ∧ addState.script = [] ∧ addState.eager = false ∧ addState.nextCore = some 0 := by
  refine ⟨?_, ?_, ?_, ?_, ?_, ?_, ?_, ?_, ?_, ?_, ?_, ?_, ?_, ?_⟩ <;> decide +kernel

/-- Core 0 running a user context with a handler at 0x1230, its PC as given. -/
def userState (pc : BitVec 48) : State :=
  State.reset.withFetchWord 32 0x60000000 |>.modAt 0 (onCtx fun x => { x with
    pc, sys := { x.sys with mode := 0, trapvec := 0x1000000001230 } })

theorem test_BoundaryCauses_meets :
    let ok := fun (s : State) => let p := (s.coreAt 0).ctx.pipe
      (s.coreAt 0).run == .running && !(s.coreAt 0).issued && !(s.coreAt 0).inserted && p.async.isEmpty && p.stopReq.isNone && !p.retiring
      && p.svc.isNone && p.drain.isNone && !p.accepted && p.safeReq.isNone && !(s.coreAt 0).ctx.task.revoked
      && (s.part (s.coreAt 0).pid).power == 0 && (atTry s 0).mayIssue
    (ok addState && ok (userState 0) && ok (userState 2) && ok (userState 0x7FFC)) = true
    ∧ ((userState 0).coreAt 0).ctx.sys.priv = false ∧ ((userState 0).coreAt 0).ctx.sys.trapvec.getLsbD 48 = true
    ∧ ((userState 2).coreAt 0).ctx.pc.extractLsb' 0 2 ≠ 0
    ∧ ((userState 0x200000).coreAt 0).ctx.code.len < 0x200000 + 4 ∧ (atTry (userState 0) 0).fetch.bad = none
    ∧ (match decodeBundle ((userState 0).coreAt 0).ctx.sys.env (atTry (userState 0) 0).fetch.words with
      | .ok _ => false
      | .error _ => true) = true := by
  refine ⟨?_, ?_, ?_, ?_, ?_, ?_, ?_⟩ <;> decide +kernel

/-- Every memory of the small state is in canonical form, a core's and a launch's code among them, and the machine steps from it. -/
theorem test_StepKeepsCanonical_meets : (match step addState with
    | .next _ => addState.home.mem.wf && addState.home.bank.wf && addState.cores.toList.all (fun k => k.spad.wf)
      && addState.parts.toList.all (fun q => q.recs.all (fun r => r.2.saved.all fun v => v.spad.wf)
        && q.kids.all (fun v => v.spad.wf) && q.launches.all (fun l => l.copy.all (fun x => x.2.2.wf) && l.far.all (fun x => x.2.2.2.wf) && l.start.all fun r => r.2.saved.all fun v => v.spad.wf)
        && q.stored.all fun x => x.2.2.wf)
      && addState.fab.exports.all fun e => e.mem.wf
    | _ => false) = true := by decide +kernel

/-- `globState` with the line of its last double word in the L1G. -/
def hitState : State :=
  globState.modCore fun c => { c with l1g := [{ (default : L1Line) with obj := 5, line := 16 }] }

theorem test_LoadHits_meets :
    let s := hitState
    let x := (s.rd.C 2).base + 1016
    (s.rd.via (s.rd.C 2)).kind ≠ 3 ∧ x / 64 = 16 ∧ (s.rd.hit (s.rd.via (s.rd.C 2)) (x / 64)).isSome = true ∧ s.core.fenced = false
    ∧ (globState.rd.hit (s.rd.via (s.rd.C 2)) (x / 64)).isNone = true ∧ (∀ q : BitVec 2, s.core.queues.get q = []) := by
  refine ⟨?_, ?_, ?_, ?_, ?_, ?_⟩ <;> decide +kernel

theorem test_EmptyMulticast_meets : engState.rd.S 0 = 0 ∧ engState.rd.S 15 ≠ 0 := by decide +kernel

/-- Partition 0 giving way 0 of die 0 to partition 1, with the lines `l` still to take; line 5 is dirty. -/
def shiftState (l : List Nat) : State :=
  let q : Part := { ((funded State.reset).part 0) with bound := true, shift := some (0, 1, 1, l) }
  (((State.reset.modPart 0 fun _ => q).modPart 1 fun q => { q with bound := true }).modHome fun h =>
    { h with dirty := [5], ways := [(5, 0)] })

theorem test_WayShift_meets :
    ((shiftState [5]).part 0).shift = some (0, 1, 1, [5]) ∧ 5 ∈ (shiftState [5]).home.dirty ∧ (shiftState [5]).home.bank.wf = true
    ∧ (shiftState [5]).spent 0 (5 * 64) = false ∧ ((shiftState []).part 0).shift = some (0, 1, 1, [])
    ∧ ((shiftState []).part 1).bound = true := by
  refine ⟨?_, ?_, ?_, ?_, ?_, ?_⟩ <;> decide +kernel

theorem test_RecordWrites_meet :
    let r := theRec .idle
    ((thePart r).getRec 7) = some r ∧ (thePart r).recOk r (r.written [0x0500000000000040, 9 * 2 ^ 32]) = true
    ∧ (r.written [0x0500000000000040, 9 * 2 ^ 32]).entry = 0x40 := by
  refine ⟨?_, ?_, ?_⟩ <;> decide +kernel

end Sys2Proof.Tests
end

section
/-! SUPPORT. What a landing writes, the order in which due results land, and what the steps RESULT_WRITE and
DIVIDE_RESULT leave (R9, R41, R44, R48, R86). -/

namespace Sys2Proof.Machine

open Sys2Proof Sys2Proof.Claims

/-! ## One landing -/

@[simp] theorem Ctx.land_regs (x : Ctx) (r : Result) : (x.land r).regs = x.regs.land r.land := rfl
@[simp] theorem Ctx.land_sys (x : Ctx) (r : Result) :
    (x.land r).sys = { x.sys with flags := x.sys.flags ||| r.flags } := rfl
theorem Ctx.land_pipe (x : Ctx) (r : Result) :
    (x.land r).pipe = if r.mark then x.pipe.unmark r.land else x.pipe := rfl

/-- R41: a scalar landing writes its register, but for S0. -/
theorem Regs.land_s (g : Regs) (d : Reg) (v : DWord) :
    g.land (.s d v) = { g with s := if d = 0 then g.s else g.s.put d v } := by
  simp only [land]
  split <;> rfl

/-- R86: a vector landing merges into its register. -/
theorem Regs.land_v (g : Regs) (d : Reg) (v : VReg) (m : Mask) :
    g.land (.v d v m) = { g with v := g.v.put d (VReg.merge m v (g.v.get d)) } := rfl

/-- R85, R86: a mask landing merges into its register, but for M0. -/
theorem Regs.land_m (g : Regs) (d : MReg) (v m : Mask) :
    g.land (.m d v m) = { g with m := if d = 0 then g.m else g.m.put d ((v &&& m) ||| (g.m.get d &&& ~~~m)) } := by
  simp only [land]
  split <;> rfl

/-- R86: a lane under the mask takes the result, and every other one keeps what it holds. -/
theorem VReg.lane_merge (m : Mask) (v old : VReg) {i : Nat} (hi : i < 256) :
    (VReg.merge m v old).lane i = if m.getLsbD i then v.lane i else old.lane i := VReg.lane_gen _ hi

/-- R86: the same of a mask, bit by bit. -/
theorem Mask.getLsbD_merge (m v old : Mask) {i : Nat} (hi : i < 256) :
    ((v &&& m) ||| (old &&& ~~~m)).getLsbD i = if m.getLsbD i then v.getLsbD i else old.getLsbD i := by
  cases h : m.getLsbD i <;> simp [BitVec.getLsbD_or, BitVec.getLsbD_and, BitVec.getLsbD_not, -BitVec.getLsbD_eq_getElem, h, hi]

/-- R41: S0 reads zero in every context. -/
@[simp] theorem Core.S_zero (c : Core) : c.S 0 = 0 := by simp [Core.S]

/-- R85: M0 reads ones in every context. -/
@[simp] theorem Core.M_zero (c : Core) : c.M 0 = BitVec.allOnes 256 := by simp [Core.M]

/-- R41: what the scalar registers read once a scalar result has landed. -/
theorem Core.S_of_land_s {c k : Core} {d : Reg} {v : DWord} (h : c.ctx.regs = k.ctx.regs.land (.s d v)) (r : Reg) :
    c.S r = if r = d ∧ d ≠ 0 then v else k.S r := by
  simp only [Core.S, h, Regs.land_s]
  by_cases hd : d = 0
  · simp only [hd, ne_eq, not_true_eq_false, and_false, if_true, if_false]
  · rw [if_neg hd, File.get_put]
    by_cases hr : r = d
    · subst hr; simp only [hd, ne_eq, not_false_eq_true, and_self, if_true, if_false]
    · simp only [hr, false_and, if_false]

/-- R86: what the vector registers hold once a vector result has landed. -/
theorem Core.V_of_land_v {c k : Core} {d : Reg} {v : VReg} {m : Mask} (h : c.ctx.regs = k.ctx.regs.land (.v d v m))
    (r : Reg) : c.V r = if r = d then VReg.merge m v (k.V d) else k.V r := by
  simp [Core.V, h, Regs.land_v, File.get_put]

/-! ## The order of landing (R9) -/

/-- A result keeps a list in the order of the cycles where it is put. -/
theorem insertDue_pairwise (r : Result) {l : List Result} (h : l.Pairwise fun a b => a.due ≤ b.due) :
    (insertDue r l).Pairwise fun a b => a.due ≤ b.due := by
  induction l with
  | nil => exact List.pairwise_singleton ..
  | cons x l ih =>
    obtain ⟨hx, hl⟩ := List.pairwise_cons.mp h
    unfold insertDue
    split
    · next hle =>
      refine List.pairwise_cons.mpr ⟨fun a ha => ?_, ih hl⟩
      rcases List.mem_cons.mp ((insertDue_perm r l).mem_iff.mp ha) with rfl | ha
      · exact hle
      · exact hx a ha
    · next hlt =>
      refine List.pairwise_cons.mpr ⟨fun a ha => ?_, h⟩
      rcases List.mem_cons.mp ha with rfl | ha
      · omega
      · have := hx a ha; omega

/-- Results stand in the order of the cycles in which they are due. -/
theorem byDue_pairwise (l : List Result) : (byDue l).Pairwise fun a b => a.due ≤ b.due := by
  have key : ∀ l a : List Result, (a.Pairwise fun a b => a.due ≤ b.due) →
      (l.foldl (fun o r => insertDue r o) a).Pairwise fun a b => a.due ≤ b.due := by
    intro l
    induction l with
    | nil => exact fun _ h => h
    | cons x l ih => exact fun a h => ih _ (insertDue_pairwise x h)
  exact key l [] .nil

/-! ## Changing one core -/

/-- A core changed alone leaves every other part of the state. -/
theorem onlyAt_modAt (s : State) (c : Nat) (f : Core → Core) : OnlyAt s (s.modAt c f) c := by
  refine ⟨?_, fun k hk => State.modAt_coreAt_ne s f hk⟩
  unfold State.modAt
  split <;> rfl

/-- R9: the results that are due and satisfy `q` land in the order of their cycles; the others stay in flight. -/
theorem landDue_inOrder (x : Ctx) (t : Nat) (q : Result → Bool) :
    ∃ l : List Result, l.Perm (x.pipe.inflight.filter fun r => decide (r.due ≤ t) && q r)
      ∧ (l.Pairwise fun a b => a.due ≤ b.due)
      ∧ x.landDue t q = l.foldl Ctx.land { x with pipe := { x.pipe with
          inflight := x.pipe.inflight.filter fun r => !(decide (r.due ≤ t) && q r) } } :=
  ⟨_, byDue_perm _, byDue_pairwise _, rfl⟩

end Sys2Proof.Machine
end

section
/-! What a result writes on landing, and which results land. -/

namespace Sys2Proof.Claims

open Sys2Proof Sys2Proof.Machine

/-- R41, R44, R48: the landing of a scalar result. -/
theorem scalarResult_lands (x : Ctx) (d : Reg) (v : DWord) (f : BitVec 6) (due : Nat) (mk : Bool) :
    let y := x.land { land := .s d v, flags := f, due, mark := mk }
    (∀ (c : Core) (r : Reg), { c with ctx := y }.S r = if r = d ∧ d ≠ 0 then v else { c with ctx := x }.S r)
    ∧ (∀ c : Core, { c with ctx := y }.S 0 = 0)
    ∧ y.sys = { x.sys with flags := x.sys.flags ||| f }
    ∧ y.regs = { x.regs with s := y.regs.s } ∧ y.toks = x.toks ∧ y.task = x.task ∧ y.pc = x.pc
    ∧ (mk = true → d ≠ 0 → y.pipe.spend.get d = false) ∧ (mk = false → y.pipe = x.pipe) := by
  refine ⟨fun c r => Core.S_of_land_s rfl r, fun c => Core.S_zero _, rfl, ?_, rfl, rfl, rfl, ?_, ?_⟩
  · simp [Regs.land_s]
  · rintro rfl -; simp [Ctx.land_pipe, Pipe.unmark]
  · rintro rfl; rfl

/-- R86: the landing of a vector result. -/
theorem vectorResult_lands (x : Ctx) (f : BitVec 6) (due : Nat) (d : Reg) (v : VReg) (m : Mask) :
    let y := x.land { land := .v d v m, flags := f, due, mark := false }
    (∀ i, i < 256 → (y.regs.v.get d).lane i = if m.getLsbD i then v.lane i else (x.regs.v.get d).lane i)
    ∧ (∀ r, r ≠ d → y.regs.v.get r = x.regs.v.get r) ∧ y.regs = { x.regs with v := y.regs.v } := by
  refine ⟨fun i hi => ?_, fun r hr => ?_, rfl⟩
  · simp [Regs.land_v, VReg.lane_merge, hi]
  · simp [Regs.land_v, File.get_put_ne, hr]

/-- R85, R86: the landing of a mask result. -/
theorem maskResult_lands (x : Ctx) (f : BitVec 6) (due : Nat) (d : MReg) (v m : Mask) :
    let y := x.land { land := .m d v m, flags := f, due, mark := false }
    (∀ c : Core, { c with ctx := y }.M 0 = BitVec.allOnes 256)
    ∧ (d ≠ 0 → ∀ i, i < 256 → (y.regs.m.get d).getLsbD i = if m.getLsbD i then v.getLsbD i else (x.regs.m.get d).getLsbD i)
    ∧ (∀ r, r ≠ d → y.regs.m.get r = x.regs.m.get r) ∧ y.regs = { x.regs with m := y.regs.m } := by
  refine ⟨fun c => Core.M_zero _, fun hd i hi => ?_, fun r hr => ?_, ?_⟩
  · simp only [Ctx.land_regs, Regs.land_m, if_neg hd, File.get_put_self, Mask.getLsbD_merge _ _ _ hi]
  · simp only [Ctx.land_regs, Regs.land_m]
    split
    · rfl
    · exact File.get_put_ne _ _ hr
  · simp [Regs.land_m]

/-- R9: a step that lands the due results of core `c` satisfying `q`. -/
theorem dueResults_land (s : State) {c : Nat} (hc : c < 320) (q : Result → Bool) :
    let x := (s.coreAt c).ctx
    let due := fun r : Result => decide (r.due ≤ ownCycle (s.coreAt c)) && q r
    let u := s.modAt c fun k => { k with ctx := k.ctx.landDue k.now q }
    ∃ l : List Result, OnlyAt s u c ∧ l.Perm (x.pipe.inflight.filter due) ∧ (l.Pairwise fun a b => a.due ≤ b.due)
      ∧ u.coreAt c = { s.coreAt c with
          ctx := l.foldl Ctx.land { x with pipe := { x.pipe with inflight := x.pipe.inflight.filter fun r => !due r } } } := by
  intro x due u
  obtain ⟨l, hperm, hsorted, hland⟩ := landDue_inOrder x (s.coreAt c).now q
  refine ⟨l, onlyAt_modAt s c _, hperm, hsorted, ?_⟩
  rw [State.modAt_coreAt_self s _ hc, hland]
  rfl

/-- Settles O8: each landing by its file, and the two steps by the order that due results land in. -/
theorem resultsLand : Obligations.ResultsLand := by
  unfold Obligations.ResultsLand
  refine ⟨⟨scalarResult_lands, fun x f due => ⟨vectorResult_lands x f due, maskResult_lands x f due⟩⟩,
    fun s c hc => ⟨?_, ?_⟩⟩
  · exact ⟨_, (dueResults_land s hc fun r => !r.mark).imp fun l h => ⟨rfl, h⟩⟩
  · exact ⟨_, (dueResults_land s hc fun r => r.mark).imp fun l h => ⟨rfl, h⟩⟩

end Sys2Proof.Claims
end

section
/-! Interlocked values arriving, and lines of the L1G installed and evicted (R9, R48, R108, R115, R239). -/

namespace Sys2Proof.Machine

open Sys2Proof Sys2Proof.Claims

/-! ## The results that land before a value -/

/-- A landing waits for nothing. -/
@[simp] theorem Ctx.land_waits (x : Ctx) (r : Result) : (x.land r).pipe.waits = x.pipe.waits := by
  rw [Ctx.land_pipe]
  split
  · cases r.land <;> rfl
  · rfl

/-- The due results leave the interlocked values outstanding. -/
@[simp] theorem Core.landDue_waits (c : Core) : c.landDue.ctx.pipe.waits = c.ctx.pipe.waits := by
  have key : ∀ (l : List Result) (x : Ctx), (l.foldl Ctx.land x).pipe.waits = x.pipe.waits := by
    intro l
    induction l with
    | nil => exact fun _ => rfl
    | cons r l ih => exact fun x => (ih _).trans (x.land_waits r)
  exact key _ _

/-! ## What arrives (R48, R108) -/

/-- The register of an arriving value is written as that of a result. -/
@[simp] theorem Ctx.arrive_regs (k : Nat) (w : Wait) (x : Ctx) : (x.arrive k w).regs = x.regs.land w.landing := by
  unfold arrive
  split <;> rfl

@[simp] theorem Ctx.arrive_waits (k : Nat) (w : Wait) (x : Ctx) : (x.arrive k w).pipe.waits = dropAt x.pipe.waits k := by
  unfold arrive
  split <;> simp only [Ctx.land_waits]

/-- R48: the mark of a scalar value's register is cleared. -/
theorem Ctx.arrive_spend (k : Nat) {w : Wait} (x : Ctx) {r : Reg} {v : DWord} (h : w.landing = .s r v) :
    (x.arrive k w).pipe.spend = x.pipe.spend.put r false := by
  unfold arrive
  split <;> simp [Ctx.land_pipe, h, Pipe.unmark]

/-- R108: the mark of a vector value's register is cleared. -/
theorem Ctx.arrive_vpend (k : Nat) {w : Wait} (x : Ctx) {r : Reg} {v : VReg} {m : Mask} (h : w.landing = .v r v m) :
    (x.arrive k w).pipe.vpend = x.pipe.vpend.put r false := by
  unfold arrive
  split <;> simp [Ctx.land_pipe, h, Pipe.unmark]

/-- R239: the value of an acquire ends its hold of the bundles behind it. -/
theorem Ctx.arrive_acquire (k : Nat) {w : Wait} (x : Ctx) {sc : Scope} (h : w.kind = .atomic true sc) :
    (x.arrive k w).pipe.acquire = false := by
  simp [arrive, h]

/-- A seed or an atomic's old value is the one word that came. -/
theorem Wait.landing_word {w : Wait} {r : Reg} {i : Nat} {v : DWord} {l : List (Nat × DWord)} (hd : w.dest = .s r)
    (hg : w.got = (i, v) :: l) (hk : w.kind = .seed ∨ ∃ acq sc, w.kind = .atomic acq sc) : w.landing = .s r v := by
  rcases hk with hk | ⟨acq, sc, hk⟩ <;> simp [landing, hd, hg, hk]

/-- R51: a load's value is its parts together, extended as its size says. -/
theorem Wait.landing_load {w : Wait} {r : Reg} {sz : BitVec 3} (hd : w.dest = .s r) (hk : w.kind = .load sz) :
    w.landing = .s r (szExtend sz (laneValue w.got 0).toNat) := by
  simp [landing, hd, hk]

/-- R108: a vector load's value has in each lane that lane's parts together. -/
theorem Wait.landing_vector {w : Wait} {r : Reg} {m : Mask} (hd : w.dest = .v r m) :
    w.landing = .v r (VReg.gen fun i => (laneValue w.got i).setWidth 32) m := by
  simp [landing, hd]

/-! ## The step -/

@[simp] theorem Core.dropL1_ctx (c : Core) : c.dropL1.ctx = c.ctx := rfl
@[simp] theorem Core.dropL1_l1g (c : Core) : c.dropL1.l1g = [] := by simp [dropL1, dropLines]

section
variable {s : State} {c k : Nat} {w : Wait}

/-- A value that has all its words arrives after every due result; that of an acquire at .quad or wider empties the L1G. -/
theorem State.valueArrives_cases (hw : (s.coreAt c).ctx.pipe.waits[k]? = some w) (hn : w.need = 0) :
    let y := fun x : Core => { x with ctx := x.landDue.ctx.arrive k w }
    (∃ sc, w.kind = .atomic true sc
      ∧ s.valueArrives c k = (s.modAt c y).modAt c fun x => if sc.toNat ≥ 2 then x.dropL1 else x)
    ∨ ((∀ sc, w.kind ≠ .atomic true sc) ∧ s.valueArrives c k = s.modAt c y) := by
  unfold valueArrives
  simp only [hw, hn, ne_eq, not_true_eq_false, if_false]
  split
  · next sc hk => exact .inl ⟨sc, hk, rfl⟩
  · next hk => exact .inr ⟨hk, rfl⟩

/-- The context after an arrival, the L1G aside. -/
theorem State.valueArrives_ctx (hc : c < 320) (hw : (s.coreAt c).ctx.pipe.waits[k]? = some w) (hn : w.need = 0) :
    ((s.valueArrives c k).coreAt c).ctx = (s.coreAt c).landDue.ctx.arrive k w := by
  obtain ⟨sc, -, h⟩ | ⟨-, h⟩ := valueArrives_cases hw hn
  · rw [h, modAt_coreAt_self _ _ hc, modAt_coreAt_self _ _ hc]
    split <;> rfl
  · rw [h, modAt_coreAt_self _ _ hc]

/-- R9, R48: the registers after an arrival: the value lands on those that the due results left. -/
theorem State.valueArrives_regs (hc : c < 320) (hw : (s.coreAt c).ctx.pipe.waits[k]? = some w) (hn : w.need = 0) :
    ((s.valueArrives c k).coreAt c).ctx.regs = (s.coreAt c).landDue.ctx.regs.land w.landing := by
  rw [valueArrives_ctx hc hw hn, Ctx.arrive_regs]

/-- R239: what an acquire's value leaves of the L1G. -/
theorem State.valueArrives_l1g (hc : c < 320) (hw : (s.coreAt c).ctx.pipe.waits[k]? = some w) (hn : w.need = 0)
    {sc : Scope} (hk : w.kind = .atomic true sc) :
    ((s.valueArrives c k).coreAt c).l1g = if sc.toNat ≥ 2 then [] else (s.coreAt c).l1g := by
  obtain ⟨sc', hk', h⟩ | ⟨hk', -⟩ := valueArrives_cases hw hn
  · cases hk.symm.trans hk'
    rw [h, modAt_coreAt_self _ _ hc, modAt_coreAt_self _ _ hc]
    split
    · exact Core.dropL1_l1g _
    · rfl
  · exact absurd hk (hk' sc)

/-- An arrival changes no home and no other core. -/
theorem State.valueArrives_onlyAt (hw : (s.coreAt c).ctx.pipe.waits[k]? = some w) (hn : w.need = 0) :
    (s.valueArrives c k).home = s.home ∧ ∀ e, e ≠ c → (s.valueArrives c k).coreAt e = s.coreAt e := by
  obtain ⟨sc, -, h⟩ | ⟨-, h⟩ := valueArrives_cases hw hn <;> rw [h]
  · exact ⟨by simp, fun e he => by rw [modAt_coreAt_ne _ _ he, modAt_coreAt_ne _ _ he]⟩
  · exact ⟨by simp, fun e he => modAt_coreAt_ne _ _ he⟩

/-- R48: a scalar value is written over every result that landed before it. -/
theorem State.valueArrives_S_same (hc : c < 320) (hw : (s.coreAt c).ctx.pipe.waits[k]? = some w) (hn : w.need = 0)
    {r : Reg} {v : DWord} (hl : w.landing = .s r v) (hr : r ≠ 0) : ((s.valueArrives c k).coreAt c).S r = v := by
  rw [Core.S_of_land_s (hl ▸ valueArrives_regs hc hw hn), if_pos ⟨rfl, hr⟩]

/-- R9: every other scalar register is as the due results left it. -/
theorem State.valueArrives_S_ne (hc : c < 320) (hw : (s.coreAt c).ctx.pipe.waits[k]? = some w) (hn : w.need = 0)
    {r : Reg} {v : DWord} (hl : w.landing = .s r v) {j : Reg} (hj : j ≠ r) :
    ((s.valueArrives c k).coreAt c).S j = (s.coreAt c).landDue.S j := by
  rw [Core.S_of_land_s (hl ▸ valueArrives_regs hc hw hn), if_neg fun h => hj h.1]

/-- R108: a vector value is merged into what the register holds once the due results have landed. -/
theorem State.valueArrives_V (hc : c < 320) (hw : (s.coreAt c).ctx.pipe.waits[k]? = some w) (hn : w.need = 0)
    {r : Reg} {v : VReg} {m : Mask} (hl : w.landing = .v r v m) (j : Reg) :
    ((s.valueArrives c k).coreAt c).V j
      = if j = r then VReg.merge m v ((s.coreAt c).landDue.V r) else (s.coreAt c).landDue.V j :=
  Core.V_of_land_v (hl ▸ valueArrives_regs hc hw hn) j

/-- R239: ACQUIRE_DONE of a core that waits for one acquire alone, whose word has come, is the arrival of its value. -/
theorem execAcquireDone_single (hw : (s.coreAt c).ctx.pipe.waits = [w]) (hn : w.need = 0) {sc : Scope}
    (hk : w.kind = .atomic true sc) : exec (.acquireDone c) s = .next (s.valueArrives c 0) := by
  show execAcquireDone c s = _
  simp [execAcquireDone, hw, hn, hk, List.findIdx?_cons]

end

end Sys2Proof.Machine

namespace Sys2Proof.Claims

open Sys2Proof Sys2Proof.Machine

section
variable {s : State} {c : Nat} {w : Wait} {r : Reg} {v : DWord} {l : List (Nat × DWord)}

/-- R48: the arrival of a value that is one word. -/
theorem wordValue_arrives (hc : c < 320) (hws : (s.coreAt c).ctx.pipe.waits = [w]) (hn : w.need = 0) (hd : w.dest = .s r)
    (hg : w.got = (0, v) :: l) (hk : w.kind = .seed ∨ ∃ acq sc, w.kind = .atomic acq sc) :
    ∃ t, exec (.valueArrives c 0) s = .next t
      ∧ (t.coreAt c).S r = (if r = 0 then 0 else v) ∧ (∀ k, k ≠ r → (t.coreAt c).S k = (s.coreAt c).landDue.S k)
      ∧ (t.coreAt c).ctx.pipe.waits = [] ∧ (t.coreAt c).ctx.pipe.spend.get r = false ∧ t.home = s.home
      ∧ ∀ k, k ≠ c → t.coreAt k = s.coreAt k := by
  have hw : (s.coreAt c).ctx.pipe.waits[0]? = some w := by rw [hws]; rfl
  have hl := Wait.landing_word hd hg hk
  have hctx := State.valueArrives_ctx hc hw hn
  obtain ⟨hhome, hcores⟩ := State.valueArrives_onlyAt hw hn
  refine ⟨_, rfl, ?_, fun k hk => State.valueArrives_S_ne hc hw hn hl hk, ?_, ?_, hhome, hcores⟩
  · split
    · next h0 => rw [h0]; exact Core.S_zero _
    · next h0 => exact State.valueArrives_S_same hc hw hn hl h0
  · rw [hctx, Ctx.arrive_waits, Core.landDue_waits, hws]; rfl
  · rw [hctx, Ctx.arrive_spend 0 _ hl, File.get_put_self]

/-- R48, R51: the arrival of a load's value. -/
theorem loadValue_arrives (hc : c < 320) (hws : (s.coreAt c).ctx.pipe.waits = [w]) (hn : w.need = 0) (hd : w.dest = .s r)
    (hg : w.got = (0, v) :: l) {sz : BitVec 3} (hk : w.kind = .load sz) :
    ∃ t, exec (.valueArrives c 0) s = .next t
      ∧ (r ≠ 0 → (t.coreAt c).S r
        = szExtend sz (l.foldl (fun (x : DWord) (y : Nat × DWord) => if y.1 = 0 then x ||| y.2 else x) v).toNat)
      ∧ ∀ k, k ≠ r → (t.coreAt c).S k = (s.coreAt c).landDue.S k := by
  have hw : (s.coreAt c).ctx.pipe.waits[0]? = some w := by rw [hws]; rfl
  have hl := Wait.landing_load hd hk
  simp only [hg, laneValue, List.foldl_cons, if_true, show (0 : DWord) ||| v = v from BitVec.zero_or] at hl
  exact ⟨_, rfl, State.valueArrives_S_same hc hw hn hl, fun _ => State.valueArrives_S_ne hc hw hn hl⟩

/-- R239: the arrival of an acquire's value by ACQUIRE_DONE. -/
theorem acquire_done (hc : c < 320) (hws : (s.coreAt c).ctx.pipe.waits = [w]) (hn : w.need = 0) (hd : w.dest = .s r)
    (hg : w.got = (0, v) :: l) {sc : Scope} (hk : w.kind = .atomic true sc) :
    ∃ t, exec (.acquireDone c) s = .next t
      ∧ (r ≠ 0 → (t.coreAt c).S r = v) ∧ (t.coreAt c).ctx.pipe.acquire = false
      ∧ (2 ≤ sc.toNat → (t.coreAt c).l1g = []) ∧ (sc.toNat < 2 → (t.coreAt c).l1g = (s.coreAt c).l1g) := by
  have hw : (s.coreAt c).ctx.pipe.waits[0]? = some w := by rw [hws]; rfl
  have hl1g := State.valueArrives_l1g hc hw hn hk
  have hl := Wait.landing_word hd hg (.inr ⟨_, _, hk⟩)
  refine ⟨_, execAcquireDone_single hws hn hk, State.valueArrives_S_same hc hw hn hl, ?_, fun h => ?_, fun h => ?_⟩
  · rw [State.valueArrives_ctx hc hw hn, Ctx.arrive_acquire 0 _ hk]
  · rw [hl1g, if_pos h]
  · rw [hl1g, if_neg (by omega)]

end

/-- R108: the arrival of a vector value. -/
theorem vectorValue_arrives (s : State) {c : Nat} (hc : c < 320) (w : Wait) (r : Reg) (m : Mask)
    (hws : (s.coreAt c).ctx.pipe.waits = [w]) (hn : w.need = 0) (hd : w.dest = .v r m) :
    let landed := (s.coreAt c).landDue
    ∃ t, exec (.valueArrives c 0) s = .next t ∧ (t.coreAt c).ctx.pipe.waits = [] ∧ (t.coreAt c).ctx.pipe.vpend.get r = false
      ∧ (∀ i, i < 256 → ((t.coreAt c).V r).lane i = if m.getLsbD i
          then (w.got.foldl (fun (x : DWord) (y : Nat × DWord) => if y.1 = i then x ||| y.2 else x) 0).setWidth 32
          else (landed.V r).lane i)
      ∧ (∀ k, k ≠ r → (t.coreAt c).V k = landed.V k) ∧ t.home = s.home ∧ ∀ k, k ≠ c → t.coreAt k = s.coreAt k := by
  intro landed
  have hw : (s.coreAt c).ctx.pipe.waits[0]? = some w := by rw [hws]; rfl
  have hl := Wait.landing_vector hd
  have hctx := State.valueArrives_ctx hc hw hn
  have hV := State.valueArrives_V hc hw hn hl
  obtain ⟨hhome, hcores⟩ := State.valueArrives_onlyAt hw hn
  refine ⟨_, rfl, ?_, ?_, fun i hi => ?_, fun k hk => ?_, hhome, hcores⟩
  · rw [hctx, Ctx.arrive_waits, Core.landDue_waits, hws]; rfl
  · rw [hctx, Ctx.arrive_vpend 0 _ hl, File.get_put_self]
  · rw [hV, if_pos rfl, VReg.lane_merge _ _ _ hi, VReg.lane_gen _ hi]; rfl
  · rw [hV, if_neg hk]

/-- R115: FILL installs the first line that came, unless it was invalidated. -/
theorem fill_installs (s : State) {c : Nat} (hc : c < 320) (f : Fill) (l : List Fill) (hf : (s.coreAt c).fills = f :: l) :
    ∃ t, exec (.fill c 0) s = .next t
      ∧ (t.coreAt c).fills = l ∧ (f.live = true → (t.coreAt c).l1g.head? = some f.line)
      ∧ (f.live = false → (t.coreAt c).l1g = (s.coreAt c).l1g) ∧ (t.coreAt c).ctx = (s.coreAt c).ctx ∧ t.home = s.home := by
  refine ⟨_, rfl, ?_⟩
  rw [State.modAt_coreAt_self s _ hc, State.modAt_home]
  cases hlive : f.live <;> simp [Core.install, hf, hlive, dropAt]

/-- R115: EVICT drops the first line. -/
theorem evict_drops (s : State) {c : Nat} (hc : c < 320) (x : L1Line) (l : List L1Line) (hx : (s.coreAt c).l1g = x :: l) :
    ∃ t, exec (.evict c 0) s = .next t
      ∧ (t.coreAt c).l1g = l ∧ (t.coreAt c).ctx = (s.coreAt c).ctx ∧ (t.coreAt c).spad = (s.coreAt c).spad
      ∧ t.home = s.home := by
  refine ⟨_, rfl, ?_⟩
  simp [State.modAt_coreAt_self s _ hc, hx, dropAt]

/-- Settles O34: a value that arrives is a marked result that lands after the due ones. -/
theorem valuesArrive : Obligations.ValuesArrive := by
  unfold Obligations.ValuesArrive
  intro s c hc
  exact ⟨fun w r v l hws hn hd hg => ⟨wordValue_arrives hc hws hn hd hg, fun _ => loadValue_arrives hc hws hn hd hg,
    fun _ => acquire_done hc hws hn hd hg⟩, fun w r m hws hn hd _ => vectorValue_arrives s hc w r m hws hn hd,
    fill_installs s hc, evict_drops s hc⟩

end Sys2Proof.Claims
end

section
/-! Words of the spec's encodings decode: each is the encoding of its instruction, which the decoder reads back. -/

namespace Sys2Proof.Claims

open Sys2Proof Sys2Proof.Laws

/-- The extensions of an encoding are such as its form takes (R21, R22). -/
def takesExts (e : Enc) : Bool :=
  e.slot.cls != 6 && Wf.toks e.toks && (e.imm.isNone || immAllowed e.slot.cls.toNat e.slot.op.toNat)
    && (e.toks.isEmpty || toksAllowed e.slot.cls.toNat)

/-- Words that a well-formed instruction encodes to decode to it. -/
theorem decodeWords_of_encode {env : Env} {i : Instr} {ws : List Word} (hr : RoundTrip.Statement i) (hwf : i.wf env = true)
    (hw : encode i = ws) (ht : (encodeSlot i).all takesExts = true) : decodeWords env ws = .ok i := by
  obtain ⟨e, he, hd⟩ := hr env hwf
  simp only [he, Option.all_some, takesExts, Bool.and_eq_true, bne_iff_ne, Bool.or_eq_true, List.isEmpty_iff,
    Option.isNone_iff_eq_none] at ht
  obtain ⟨⟨⟨hc, hl⟩, himm⟩, htok⟩ := ht
  rw [← hw, encode, he]
  exact decodeWords_words hc hl (fun h => himm.resolve_left fun h0 => by simp [h0] at h) htok.resolve_left hd

/-- Settles O2: each list of words is the encoding of its instruction, and the decoder reads encodings back. -/
theorem decodesSpecWords : Obligations.DecodesSpecWords := by
  unfold Obligations.DecodesSpecWords
  rintro ⟨priv, fp4a, fp4b⟩ hp
  obtain rfl : priv = true := hp
  refine ⟨?_, ?_, ?_, ?_, ?_, ?_, ?_, ?_, ?_, ?_, ?_, ?_, ?_, ?_, ?_⟩
  · exact decodeWords_of_encode (RoundTrip.add 3 1 2) rfl rfl rfl
  · exact decodeWords_of_encode RoundTrip.nop rfl rfl rfl
  · exact decodeWords_of_encode (RoundTrip.lds 9 1 0 3) rfl rfl rfl
  · exact decodeWords_of_encode (RoundTrip.ldg 6 7 2 0 3) rfl rfl rfl
  · exact decodeWords_of_encode (RoundTrip.atadd 4 5 6 ⟨1, false, 8, 3, 2⟩) rfl rfl rfl
  · exact decodeWords_of_encode (RoundTrip.vadd 0 2 0 1 0) rfl rfl rfl
  · exact decodeWords_of_encode (RoundTrip.vmand 1 2 3) rfl rfl rfl
  · exact decodeWords_of_encode (RoundTrip.mcfg 3 true 4 []) rfl rfl rfl
  · exact decodeWords_of_encode (RoundTrip.xld 1 2 3 false false true ⟨7, 1, 16⟩ []) rfl rfl rfl
  · exact decodeWords_of_encode (RoundTrip.kbind 2 3 4) rfl rfl rfl
  · exact decodeWords_of_encode (RoundTrip.trap 5) rfl rfl rfl
  · exact decodeWords_of_encode (RoundTrip.svc 1) rfl rfl rfl
  · exact decodeWords_of_encode RoundTrip.eret rfl rfl rfl
  · exact decodeWords_of_encode (RoundTrip.xinv 3 0 true 20 []) rfl rfl rfl
  · exact decodeWords_of_encode (RoundTrip.xinv 3 1 true 20 []) rfl rfl rfl

end Sys2Proof.Claims
end

section
/-! Every slot form reads back (R14, R18 to R22): the extensions that each encoding carries, and the round trip. -/

namespace Sys2Proof.Claims

open Sys2Proof Sys2Proof.Laws

/-- Every slot form reads back by its own lemma; a row of the table without an encoding is not well-formed. -/
theorem roundTrip (i : Instr) : RoundTrip.Statement i := by
  cases i with
  | add => apply RoundTrip.add
  | addi => apply RoundTrip.addi
  | sub => apply RoundTrip.sub
  | mul => apply RoundTrip.mul
  | mulh => apply RoundTrip.mulh
  | mulhu => apply RoundTrip.mulhu
  | div => apply RoundTrip.div
  | divu => apply RoundTrip.divu
  | rem => apply RoundTrip.rem
  | remu => apply RoundTrip.remu
  | and => apply RoundTrip.and
  | andi => apply RoundTrip.andi
  | or => apply RoundTrip.or
  | ori => apply RoundTrip.ori
  | xor => apply RoundTrip.xor
  | xori => apply RoundTrip.xori
  | shl => apply RoundTrip.shl
  | shli => apply RoundTrip.shli
  | shr => apply RoundTrip.shr
  | shri => apply RoundTrip.shri
  | sra => apply RoundTrip.sra
  | srai => apply RoundTrip.srai
  | slt => apply RoundTrip.slt
  | sltu => apply RoundTrip.sltu
  | slti => apply RoundTrip.slti
  | seq => apply RoundTrip.seq
  | min => apply RoundTrip.min
  | max => apply RoundTrip.max
  | minu => apply RoundTrip.minu
  | maxu => apply RoundTrip.maxu
  | sel => apply RoundTrip.sel
  | clz => apply RoundTrip.clz
  | ctz => apply RoundTrip.ctz
  | popc => apply RoundTrip.popc
  | li => apply RoundTrip.li
  | mov => apply RoundTrip.mov
  | lds => apply RoundTrip.lds
  | sts => apply RoundTrip.sts
  | ldg => apply RoundTrip.ldg
  | stg => apply RoundTrip.stg
  | atadd => apply RoundTrip.atadd
  | atmin => apply RoundTrip.atmin
  | atmax => apply RoundTrip.atmax
  | atand => apply RoundTrip.atand
  | ator => apply RoundTrip.ator
  | atxor => apply RoundTrip.atxor
  | atxchg => apply RoundTrip.atxchg
  | atcas => apply RoundTrip.atcas
  | atfadd => apply RoundTrip.atfadd
  | cnarrow => apply RoundTrip.cnarrow
  | crights => apply RoundTrip.crights
  | cget => apply RoundTrip.cget
  | cmovc => apply RoundTrip.cmovc
  | sget => apply RoundTrip.sget
  | sset => apply RoundTrip.sset
  | seed => apply RoundTrip.seed
  | dget => apply RoundTrip.dget
  | vadd => apply RoundTrip.vadd
  | vsub => apply RoundTrip.vsub
  | vmul => apply RoundTrip.vmul
  | vfma => apply RoundTrip.vfma
  | vfms => apply RoundTrip.vfms
  | vmin => apply RoundTrip.vmin
  | vmax => apply RoundTrip.vmax
  | vabs => apply RoundTrip.vabs
  | vneg => apply RoundTrip.vneg
  | vcmpEq => apply RoundTrip.vcmpEq
  | vcmpNe => apply RoundTrip.vcmpNe
  | vcmpLt => apply RoundTrip.vcmpLt
  | vcmpLe => apply RoundTrip.vcmpLe
  | vand => apply RoundTrip.vand
  | vor => apply RoundTrip.vor
  | vxor => apply RoundTrip.vxor
  | vshl => apply RoundTrip.vshl
  | vshr => apply RoundTrip.vshr
  | vsra => apply RoundTrip.vsra
  | vsel => apply RoundTrip.vsel
  | vmov => apply RoundTrip.vmov
  | vbcast => apply RoundTrip.vbcast
  | vidx => apply RoundTrip.vidx
  | vcvt => apply RoundTrip.vcvt
  | vpack => apply RoundTrip.vpack
  | vunpk => apply RoundTrip.vunpk
  | vpermb => apply RoundTrip.vpermb
  | vshuf => apply RoundTrip.vshuf
  | vrot => apply RoundTrip.vrot
  | vred => apply RoundTrip.vred
  | vscan => apply RoundTrip.vscan
  | vdot4 => apply RoundTrip.vdot4
  | vresc => apply RoundTrip.vresc
  | vqnt => apply RoundTrip.vqnt
  | vdq => apply RoundTrip.vdq
  | vexp2 => apply RoundTrip.vexp2
  | vlog2 => apply RoundTrip.vlog2
  | vrcp => apply RoundTrip.vrcp
  | vrsq => apply RoundTrip.vrsq
  | vtanh => apply RoundTrip.vtanh
  | vrand => apply RoundTrip.vrand
  | vld => apply RoundTrip.vld
  | vst => apply RoundTrip.vst
  | vlds => apply RoundTrip.vlds
  | vsts => apply RoundTrip.vsts
  | vgth => apply RoundTrip.vgth
  | vsct => apply RoundTrip.vsct
  | vldg => apply RoundTrip.vldg
  | vstg => apply RoundTrip.vstg
  | vldq => apply RoundTrip.vldq
  | vmand => apply RoundTrip.vmand
  | vmor => apply RoundTrip.vmor
  | vmnot => apply RoundTrip.vmnot
  | vmpop => apply RoundTrip.vmpop
  | vmfst => apply RoundTrip.vmfst
  | vmset => apply RoundTrip.vmset
  | mcfg => apply RoundTrip.mcfg
  | mdrain => apply RoundTrip.mdrain
  | mlatch => apply RoundTrip.mlatch
  | mma => apply RoundTrip.mma
  | mmat => apply RoundTrip.mmat
  | mzero => apply RoundTrip.mzero
  | mldz => apply RoundTrip.mldz
  | mst => apply RoundTrip.mst
  | mtrn => apply RoundTrip.mtrn
  | mstat => apply RoundTrip.mstat
  | mnz => apply RoundTrip.mnz
  | xld => apply RoundTrip.xld
  | xst => apply RoundTrip.xst
  | xmc => apply RoundTrip.xmc
  | xred => apply RoundTrip.xred
  | xhost => apply RoundTrip.xhost
  | xchain => apply RoundTrip.xchain
  | xpf => apply RoundTrip.xpf
  | xres => apply RoundTrip.xres
  | xsub => apply RoundTrip.xsub
  | xunsub => apply RoundTrip.xunsub
  | xbmv => apply RoundTrip.xbmv
  | xbfen => apply RoundTrip.xbfen
  | xinv => apply RoundTrip.xinv
  | kbind => apply RoundTrip.kbind
  | kinitEnc => apply RoundTrip.kinitEnc
  | kinitDec => apply RoundTrip.kinitDec
  | kenc => apply RoundTrip.kenc
  | kdec => apply RoundTrip.kdec
  | kbypE => apply RoundTrip.kbypE
  | kbypD => apply RoundTrip.kbypD
  | ktgt => apply RoundTrip.ktgt
  | kflush => apply RoundTrip.kflush
  | ksave => apply RoundTrip.ksave
  | krest => apply RoundTrip.krest
  | kstat => apply RoundTrip.kstat
  | pld => apply RoundTrip.pld
  | pqnt => apply RoundTrip.pqnt
  | pnrm => apply RoundTrip.pnrm
  | nop => apply RoundTrip.nop
  | br => apply RoundTrip.br
  | bc => apply RoundTrip.bc
  | bz => apply RoundTrip.bz
  | bnz => apply RoundTrip.bnz
  | jr => apply RoundTrip.jr
  | call => apply RoundTrip.call
  | ret => apply RoundTrip.ret
  | loop => apply RoundTrip.loop
  | spawn => apply RoundTrip.spawn
  | arrive => apply RoundTrip.arrive
  | waitb => apply RoundTrip.waitb
  | waitw => apply RoundTrip.waitw
  | awaitf => apply RoundTrip.awaitf
  | relslot => apply RoundTrip.relslot
  | twait => apply RoundTrip.twait
  | yield => apply RoundTrip.yield
  | safept => apply RoundTrip.safept
  | drain => apply RoundTrip.drain
  | fence => apply RoundTrip.fence
  | trap => apply RoundTrip.trap
  | svc => apply RoundTrip.svc
  | eret => apply RoundTrip.eret
  | retire => apply RoundTrip.retire
  | enq => apply RoundTrip.enq
  | tdec => apply RoundTrip.tdec
  | cancel => apply RoundTrip.cancel
  | logmark => apply RoundTrip.logmark
  | _ => exact fun _ h => nomatch h

/-! ## The extensions of an encoding (R20) -/

theorem encodeSlot_cls (i : Instr) : (encodeSlot i).all (fun e => e.slot.cls != 6) = true := by
  cases i <;> rfl

theorem encodeSlot_toksAllowed (i : Instr) :
    (encodeSlot i).all (fun e => toksAllowed e.slot.cls.toNat || e.toks.isEmpty) = true := by
  cases i <;> rfl

theorem encodeSlot_immAllowed (i : Instr) :
    (encodeSlot i).all (fun e => e.imm.isNone || immAllowed e.slot.cls.toNat e.slot.op.toNat) = true := by
  cases i with
  | addi | andi | ori | xori | slti | li | lds | sts | ldg | stg | vld | vst | vldg | vstg | vldq | ksave | krest
  | br | bc | bz | bnz | call | loop | safept => exact Bool.or_true _
  | _ => rfl

theorem encodeSlot_toks {env : Env} {i : Instr} (h : i.wf env = true) :
    (encodeSlot i).all (fun e => Wf.toks e.toks) = true := by
  cases i with
  | mcfg | mdrain | mzero | mtrn | mstat | mnz | xchain | xunsub => exact h
  | mlatch | mma | mmat | mldz | mst | xld | xst | xmc | xred | xhost | xpf | xres | xbfen | xsub | xbmv | xinv =>
    exact (Bool.and_eq_true_iff.mp h).2
  | _ => rfl

/-- R20 to R22: the extensions of a well-formed instruction are such as its form takes. -/
theorem takesExts_of_wf {env : Env} {i : Instr} (h : i.wf env = true) : (encodeSlot i).all takesExts = true := by
  have hc := encodeSlot_cls i
  have himm := encodeSlot_immAllowed i
  have htok := encodeSlot_toksAllowed i
  have hl := encodeSlot_toks h
  cases he : encodeSlot i with
  | none => rfl
  | some e =>
    rw [he, Option.all_some] at hc himm htok hl
    rw [Bool.or_comm] at htok
    simp only [Option.all_some, takesExts, hc, himm, htok, hl, Bool.and_self]

/-- Settles O3: every slot reads back, and its extensions are such as its form takes. -/
theorem decodeOfEncode : Obligations.DecodeOfEncode := by
  unfold Obligations.DecodeOfEncode
  exact fun env i h => decodeWords_of_encode (roundTrip i) h rfl (takesExts_of_wf h)

end Sys2Proof.Claims
end

section
/-! Refused encodings (R25 to R27, R40, R43, R202). -/

namespace Sys2Proof.Claims

open Sys2Proof Sys2Proof.Laws

/-- R25: a refused slot refuses the words of its encoding with its reason. -/
theorem decodeWords_refused {env : Env} {i : Instr} {e : Enc} {r : Nat} (he : encodeSlot i = some e)
    (hc : (e.slot.cls == 6) = false) (hl : Wf.toks e.toks = true)
    (hd : decodeSlot env e.slot ⟨e.imm, e.toks⟩ = .error r) : decodeWords env (encode i) = .error r := by
  have hw : encode i = e.slot.toWord :: e.exts := by rw [encode, he]; rfl
  rw [beq_eq_false_iff_ne] at hc
  rw [hw, decodeWords]
  simp only [Slot.ofWord_toWord, if_neg hc, Enc.exts_isExt, Enc.ofWords_exts hl, hd]

section
variable {env : Env}

/-- R202: ERET outside a privileged context. -/
theorem eret_refused (hp : env.priv = false) : decodeWords env (encode .eret) = .error 7 := by
  refine decodeWords_refused rfl rfl rfl ?_
  show chk [(4, (0 : Reg) != 0 || (0 : Reg) != 0 || (0 : Reg) != 0 || (0 : BitVec 3) != 0), (7, !env.priv)] .eret = _
  simp [chk, hp]

/-- R314: XINV outside a privileged context, with fields that pass every check before the last. -/
theorem xinv_refused (hp : env.priv = false) (t : Tok) {m : BitVec 2} (f : Bool) {n : Reg} (hm : m ≠ 3) (hn : n ≠ 0)
    (hg : n.toNat + Wf.invLen f ≤ 64) : decodeWords env (encode (.xinv t m f n [])) = .error 7 := by
  refine decodeWords_refused rfl rfl rfl ?_
  show chk [(2, (m ++ bit f).extractLsb' 1 2 == 3), (3, hi (t.setWidth 6) 5),
    (4, (0 : Reg) != 0 || (0 : Reg) != 0 || (some (XWord.toBits ⟨n, 0, 0⟩)).isNone
      || (XWord.of (XWord.toBits ⟨n, 0, 0⟩)).cap != 0 || (XWord.of (XWord.toBits ⟨n, 0, 0⟩)).off != 0
      || (XWord.of (XWord.toBits ⟨n, 0, 0⟩)).n == 0
      || !Wf.group (XWord.of (XWord.toBits ⟨n, 0, 0⟩)).n (Wf.invLen ((m ++ bit f).getLsbD 0))),
    (7, !env.priv)] _ = _
  simp only [two_b_low, two_b_high, XWord.of_toBits]
  simp_all [chk, hi_setWidth, Wf.group]

/-- R43: SSET of a P register outside a privileged context. -/
theorem sset_refused (hp : env.priv = false) {n : BitVec 12} (a : Reg) (hn : Wf.assigned n = true)
    (h : Wf.protectedReg n = true) : decodeWords env (encode (.sset n a)) = .error 7 := by
  refine decodeWords_refused rfl rfl rfl ?_
  show chk [(4, (0 : BitVec 3) != 0 || !Wf.assigned (n.extractLsb' 6 6 ++ n.extractLsb' 0 6)),
    (7, Wf.readOnly (n.extractLsb' 6 6 ++ n.extractLsb' 0 6)
      || (!env.priv && Wf.protectedReg (n.extractLsb' 6 6 ++ n.extractLsb' 0 6)))] _ = _
  simp only [join_6_6]
  simp [chk, hp, hn, h]

/-- The P registers are assigned. -/
theorem protectedReg_of_mem {n : BitVec 12} (h : n ∈ [0x008#12, 0x009#12, 0x00A#12, 0x00B#12, 0x01A#12]) :
    Wf.assigned n = true ∧ Wf.protectedReg n = true := by
  simp only [List.mem_cons, List.not_mem_nil, or_false] at h
  obtain rfl | rfl | rfl | rfl | rfl := h <;> decide

/-! ## Bundles (R25 to R27) -/

theorem decodeBundle_noStop {ws : List Word} (h : ∀ w ∈ ws, w.msb = false) :
    decodeBundle env ws = .error ⟨true, trapInfo26 7 8 none 0 0⟩ := by
  have : ws.any (·.msb) = false := by simpa using h
  simp [decodeBundle, this]

theorem decodeBundle_short {ws : List Word} (h : ∃ w ∈ ws, w.msb = true) (hl : ws.length < 4) :
    decodeBundle env ws = .error ⟨true, trapInfo26 (ws.length - 1) 9 none 0 0⟩ := by
  have : ws.any (·.msb) = true := by simpa using h
  simp [decodeBundle, this, hl]

theorem decodeBundle_extFirst {ws : List Word} (h : ∃ w ∈ ws, w.msb = true) (hl : 4 ≤ ws.length)
    (hc : ∀ w ∈ ws.head?, (Slot.ofWord w).cls = 6) :
    decodeBundle env ws = .error ⟨true, trapInfo26 0 13 none 0 0⟩ := by
  have hs : ws.any (·.msb) = true := by simpa using h
  cases ws with
  | nil => simp at hl
  | cons w l =>
    have hp : pass2 env 0 (w :: l) = .error ⟨true, trapInfo26 0 13 none 0 0⟩ := by
      simp [pass2, hc w rfl]
    simp only [decodeBundle, hs, Bool.not_true, Bool.false_eq_true, if_false, if_neg (Nat.not_lt.mpr hl), hp]

/-- Pass 2 reads a slot that decodes and has no extension behind it. -/
theorem pass2_cons {i : Nat} {w : Word} {l : List Word} {s : Slot} {ins : Instr} {rest : List (Nat × Instr)}
    (hs : Slot.ofWord w = s) (hc : (s.cls == 6) = false) (hx : l.takeWhile isExt = [])
    (hd : decodeSlot env s ⟨none, []⟩ = .ok ins) (hl : pass2 env (i + 1) l = .ok rest) :
    pass2 env i (w :: l) = .ok ((i, ins) :: rest) := by
  have he : Ext.ofWords [] = ⟨none, []⟩ := rfl
  rw [beq_eq_false_iff_ne] at hc
  simp only [pass2, hs, if_neg hc, hx, he, hd, extFaults, hl]

/-- Two words of ADD before two NOPs, the second of which ends the bundle. -/
def twoAdds (d a b e f g : Reg) : List Word :=
  [(⟨false, 0, 0x00, d, a, b, 0⟩ : Slot).toWord, (⟨false, 0, 0x00, e, f, g, 0⟩ : Slot).toWord, 0x50000000, 0xD0000000]

/-- Every slot of the bundle decodes by itself. -/
theorem pass2_twoAdds (d a b e f g : Reg) :
    pass2 env 0 (twoAdds d a b e f g) = .ok [(0, .add d a b), (1, .add e f g), (2, .nop), (3, .nop)] := by
  have hn : isExt (⟨false, 0, 0x00, e, f, g, 0⟩ : Slot).toWord = false :=
    congrArg (fun s : Slot => s.cls == 6) (Slot.ofWord_toWord ⟨false, 0, 0x00, e, f, g, 0⟩)
  refine pass2_cons (Slot.ofWord_toWord _) rfl ?_ rfl (pass2_cons (Slot.ofWord_toWord _) rfl rfl rfl rfl)
  rw [List.takeWhile_cons, hn]
  rfl

/-- R17: the second ADD exceeds the quota of its class. -/
theorem pass3_twoAdds (d a b e f g : Reg) : pass3 0 [] (twoAdds d a b e f g) = some 1 := by
  simp [twoAdds, pass3, Slot.ofWord_toWord, quota]

/-- R25: two slots of the scalar class. -/
theorem decodeBundle_twoAdds (d a b e f g : Reg) :
    decodeBundle env (twoAdds d a b e f g) = .error ⟨true, trapInfo26 1 10 none 0 0⟩ := by
  have hs : (twoAdds d a b e f g).any (·.msb) = true :=
    List.any_eq_true.mpr ⟨0xD0000000, by simp [twoAdds], by decide⟩
  have hl : ¬ (twoAdds d a b e f g).length < 4 := by simp [twoAdds]
  simp only [decodeBundle, hs, Bool.not_true, Bool.false_eq_true, if_false, if_neg hl, pass2_twoAdds, pass3_twoAdds]

end

/-- Settles O4: each form by the last check of its list, each bundle by the pass that refuses it. -/
theorem refusedEncodings : Obligations.RefusedEncodings := by
  unfold Obligations.RefusedEncodings
  refine ⟨fun env hp => ⟨eret_refused hp, fun t m f n hm hn hg => xinv_refused hp t f hm hn hg, fun n a hn => ?_⟩,
    fun env ws => ⟨decodeBundle_noStop, decodeBundle_short, decodeBundle_extFirst⟩,
    fun env => decodeBundle_twoAdds⟩
  obtain ⟨has, hpr⟩ := protectedReg_of_mem hn
  exact sset_refused hp a has hpr

end Sys2Proof.Claims
end

section
/-! The boot, self-test and the services of Bamosh (R28, R360 to R368). -/

namespace Sys2Proof.Machine

open Sys2Proof

/-! ## Bits of the status word (R364) -/

theorem getLsbD_one_shiftLeft (k : Nat) {j : Nat} (hj : j < 64) : ((1 : DWord) <<< k).getLsbD j = (k == j) := by
  rw [BitVec.getLsbD_shiftLeft, BitVec.ofNat_eq_ofNat, BitVec.getLsbD_one]
  by_cases h : k = j
  · simp [h, hj]
  · rw [beq_false_of_ne h]
    simp only [Bool.and_eq_false_imp, Bool.not_eq_true', decide_eq_true_eq, decide_eq_false_iff_not, Bool.and_eq_true]
    omega

theorem getLsbD_two {j : Nat} (hj : j < 64) : (2 : DWord).getLsbD j = (j == 1) := by
  have h : (2 : DWord) = (1 : DWord) <<< 1 := by decide
  rw [h, getLsbD_one_shiftLeft 1 hj, Bool.beq_comm]

/-- A fold that sets bit `o + i` for each `i` of a list sets those and no other. -/
theorem getLsbD_setBits (o : Nat) (l : List Nat) (m : DWord) {j : Nat} (hj : j < 64) :
    (l.foldl (fun m i => m ||| ((1 : DWord) <<< (o + i))) m).getLsbD j = (m.getLsbD j || l.any fun i => o + i == j) := by
  induction l generalizing m with
  | nil => simp
  | cons i l ih => rw [List.foldl_cons, ih, BitVec.getLsbD_or, getLsbD_one_shiftLeft _ hj, List.any_cons, Bool.or_assoc]

@[simp] theorem Device.stage_atStage (n : Nat) (d : Device) : (d.atStage n).stage = n % 256 := by
  have hm : (~~~(0xFF <<< 40 : DWord)).extractLsb' 40 8 = 0 := by decide
  have hn : (BitVec.ofNat 64 (n % 256) <<< 40).extractLsb' 40 8 = BitVec.ofNat 8 n := by
    apply BitVec.eq_of_toNat_eq
    simp only [BitVec.extractLsb'_toNat, BitVec.toNat_shiftLeft, BitVec.toNat_ofNat, Nat.shiftLeft_eq,
      Nat.shiftRight_eq_div_pow]
    omega
  rw [stage, atStage, BitVec.extractLsb'_or, BitVec.extractLsb'_and, hm, hn]
  simp

/-- BOOTSTAGE is bits 47:40 of the status word. -/
theorem Device.stage_congr {d e : Device} (h : ∀ j, 40 ≤ j → j < 48 → d.status.getLsbD j = e.status.getLsbD j) :
    d.stage = e.stage := by
  have hx : d.status.extractLsb' 40 8 = e.status.extractLsb' 40 8 := by
    apply BitVec.eq_of_getLsbD_eq
    intro i hi
    simp only [BitVec.getLsbD_extractLsb', h (40 + i) (by omega) (by omega)]
  rw [stage, hx, stage]

@[simp] theorem Device.getLsbD_set (m : DWord) (d : Device) (j : Nat) :
    (d.set m).status.getLsbD j = (d.status.getLsbD j || m.getLsbD j) := BitVec.getLsbD_or ..

/-- DEGRADED and REPLREQ are bits 2 and 3. -/
theorem getLsbD_replace {j : Nat} (h2 : j ≠ 2) (h3 : j ≠ 3) : replace.getLsbD j = false := by
  by_cases hj : j < 64
  · have key : ∀ j : Nat, j < 64 → j ≠ 2 → j ≠ 3 → replace.getLsbD j = false := by decide
    exact key j hj h2 h3
  · exact BitVec.getLsbD_of_ge _ _ (by omega)

/-! ## Images (R360 to R362, R367) -/

theorem head?_changeAt_zero {α : Type} (l : List α) (f : α → α) : (changeAt l 0 f).head? = l.head?.map f := by
  cases l <;> rfl

/-- R362: a copy of a KIND that misses for reason `r` is recorded; the fourth halts the device. -/
def State.imageMissed (s : State) (kind r : Nat) : State :=
  let m := (s.dev.missed.filter fun x => x.1 == kind).map fun x => x.2
  let t := s.modDev fun d => { d with missed := d.missed ++ [(kind, r)] }
  if m.length < 3 then t else t.modDev (Device.halt ((r :: m).foldl max 0))

theorem State.imageMissed_spec (s : State) (kind r : Nat) (hh : s.dev.halted = false) :
    (s.imageMissed kind r).cores = s.cores ∧ (s.imageMissed kind r).home = s.home
    ∧ (s.imageMissed kind r).dev.missed = s.dev.missed ++ [(kind, r)]
    ∧ ((s.imageMissed kind r).dev.halted = true ↔ 3 ≤ (s.dev.missed.filter fun x => x.1 == kind).length) := by
  unfold imageMissed
  extract_lets m t
  have hm : m.length = (s.dev.missed.filter fun x => x.1 == kind).length := List.length_map ..
  split
  · next h => exact ⟨rfl, rfl, rfl, iff_of_false (by simp [t, modDev, hh]) (by omega)⟩
  · next h => exact ⟨rfl, rfl, rfl, iff_of_true rfl (by omega)⟩

/-- R361, R367: a copy of a KIND that passes is used and measured. -/
def State.imageUsed (s : State) (kind : Nat) (hdr : List Byte) : State :=
  s.modDev fun d => ({ d with running := put d.running kind (hdrField hdr 8 4) } : Device).measure (kind - 1)
    ((hdr.drop 24).take 64)

@[simp] theorem State.imageUsed_look (s : State) (kind j : Nat) (hdr : List Byte) :
    look (s.imageUsed kind hdr).dev.running j = if j = kind then some (hdrField hdr 8 4) else look s.dev.running j :=
  look_put ..

section
variable {s : State} {hdr body : List Byte}

/-- R360: the copy of a KIND is due at its stage, while none of that KIND runs; one that misses is recorded. -/
theorem execImageFetch_misses {kind r : Nat} (hh : s.dev.halted = false)
    (hk : kind = 1 ∧ s.dev.stage = 1 ∨ kind = 4 ∧ s.dev.stage = 3) (hn : look s.dev.running kind = none)
    (hr : imageMiss kind ((look s.dev.rollback kind).getD 0) hdr body = r) (h0 : r ≠ 0) :
    execImageFetch kind hdr body s = .next (s.imageMissed kind r) := by
  obtain ⟨rfl, hs⟩ | ⟨rfl, hs⟩ := hk <;> simp [execImageFetch, hh, hs, hn, hr, h0, State.imageMissed]

/-- R360: stage 1 ends with the image of KIND 1. -/
theorem execImageFetch_firmware (hh : s.dev.halted = false) (hs : s.dev.stage = 1) (hn : look s.dev.running 1 = none)
    (hr : imageMiss 1 ((look s.dev.rollback 1).getD 0) hdr body = 0) :
    execImageFetch 1 hdr body s = .next ((s.imageUsed 1 hdr).modDev (Device.atStage 2)) := by
  simp [execImageFetch, hh, hs, hn, hr, State.imageUsed]

/-- R360: stage 3 ends with the images of KIND 3 and 4. -/
theorem execImageFetch_loader (hh : s.dev.halted = false) (hs : s.dev.stage = 3) (h3 : look s.dev.running 3 ≠ none)
    (hn : look s.dev.running 4 = none) (hr : imageMiss 4 ((look s.dev.rollback 4).getD 0) hdr body = 0) :
    execImageFetch 4 hdr body s = .next ((s.imageUsed 4 hdr).modDev (Device.atStage 4)) := by
  have hstage : (s.imageUsed 4 hdr).dev.stage = 3 := hs
  have h3' : (look s.dev.running 3).isSome = true := Option.isSome_iff_ne_none.mpr h3
  have hend : (s.imageUsed 4 hdr).stage3 = (s.imageUsed 4 hdr).modDev (Device.atStage 4) := by
    simp [State.stage3, hstage, h3']
  rw [← hend]
  simp [execImageFetch, hh, hs, hn, hr, State.imageUsed]

end

/-! ## Self-test (R363) -/

/-- The end of stage 2 keeps the cores, and of the device that the test is done and what it found. -/
theorem State.stage2_keeps (s : State) :
    s.stage2.cores = s.cores ∧ s.stage2.dev.tested = s.dev.tested ∧ s.stage2.dev.defects = s.dev.defects := by
  have hm : ∀ d : Device, d.mapped.tested = d.tested ∧ d.mapped.defects = d.defects := by
    intro d
    unfold Device.mapped
    extract_lets l e ok links short f
    split <;> exact ⟨rfl, rfl⟩
  unfold stage2
  split
  · exact ⟨rfl, (hm s.dev).1, (hm s.dev).2⟩
  · exact ⟨rfl, rfl, rfl⟩

/-- What every core is after an update that each takes; a number past the cores reads as a core after reset. -/
theorem State.coreAt_modAll (s : State) (f : Core → Core) (c : Nat) :
    (s.modAll f).coreAt c = if c < 320 then f (s.coreAt c) else Core.reset := by
  unfold coreAt modAll
  split <;> simp

theorem State.coreAt_congr {s t : State} (h : t.cores = s.cores) (c : Nat) : t.coreAt c = s.coreAt c := by
  unfold coreAt
  rw [h]

/-- R363, R367: every scratchpad cleared, and the units that self-test found measured. -/
def State.selfTested (bad : List DevUnit) (s : State) : State :=
  (s.modAll fun k => { k with spad := [], lost := [], lastCtx := none, lastRet := false }).modDev fun d =>
    ({ d with tested := true, defects := d.defects ++ bad } : Device).measure 4
      (bytes64 (Config.shake256 (Config.defectBytes bad)))

theorem State.selfTested_spad (bad : List DevUnit) (s : State) (c : Nat) :
    ((s.selfTested bad).coreAt c).spad = [] ∧ ((s.selfTested bad).coreAt c).lost = [] := by
  have h : (s.selfTested bad).coreAt c = (s.modAll fun k =>
    { k with spad := [], lost := [], lastCtx := none, lastRet := false }).coreAt c := rfl
  rw [h, coreAt_modAll]
  split <;> exact ⟨rfl, rfl⟩

/-! ## Full service (R366) -/

/-- The device that begins full service with the stacks `ok` in service. -/
def Device.fullService (ok : List Nat) (d : Device) : Device :=
  let d := (d.atStage 5).set (ok.foldl (fun m i => m ||| ((1 : DWord) <<< (4 + i))) 1)
  { d with status := d.status &&& ~~~(2 : DWord) }

theorem Device.getLsbD_fullService (ok : List Nat) (d : Device) {j : Nat} (hj : j < 64) :
    (d.fullService ok).status.getLsbD j
      = (((d.atStage 5).status.getLsbD j || (j == 0 || ok.any fun i => 4 + i == j)) && j != 1) := by
  have h1 : (1 : DWord).getLsbD j = (j == 0) := by
    have h : (1 : DWord) = (1 : DWord) <<< 0 := by decide
    rw [h, getLsbD_one_shiftLeft 0 hj, Bool.beq_comm]
  have hs : (d.fullService ok).status = ((d.atStage 5).set (ok.foldl (fun m i => m ||| ((1 : DWord) <<< (4 + i))) 1)).status
      &&& ~~~(2 : DWord) := rfl
  rw [hs, BitVec.getLsbD_and, getLsbD_set, getLsbD_setBits 4 ok 1 hj, BitVec.getLsbD_not, h1, getLsbD_two hj,
    decide_eq_true hj, Bool.true_and]
  rfl

/-- R366: full service with the stacks that trained; one that is missing asks for a replacement besides. -/
theorem execFullService_begins {s : State} (trained : List Nat) (hh : s.dev.halted = false) (hr : s.reduced = true)
    (he : s.allEnded = true) :
    let ok := (upTo 12).filter fun i => trained.contains i && !s.dev.defects.contains (.stack i)
    ∃ d, execFullService trained s = .next { s with dev := d }
      ∧ ∀ j, j ≠ 2 → j ≠ 3 → d.status.getLsbD j = (s.dev.fullService ok).status.getLsbD j := by
  intro ok
  simp only [execFullService, hh, hr, he, Bool.not_true, Bool.or_self, Bool.false_eq_true, if_false]
  split
  · exact ⟨_, rfl, fun _ _ _ => rfl⟩
  · exact ⟨_, rfl, fun j h2 h3 => by rw [Device.getLsbD_set, getLsbD_replace h2 h3, Bool.or_false]; rfl⟩

end Sys2Proof.Machine

namespace Sys2Proof.Claims

open Sys2Proof Sys2Proof.Machine

section
variable (s : State)

/-- R360: power good starts the boot of a device that had not started. -/
theorem powerGood_starts (h : s.dev.stage = 0) :
    ∃ u, exec .powerGood s = .next u ∧ u.dev.stage = 1 ∧ u.cores = s.cores ∧ u.home = s.home := by
  refine ⟨s.modDev (Device.atStage 1), ?_, Device.stage_atStage 1 _, rfl, rfl⟩
  show execPowerGood s = _
  rw [execPowerGood, if_pos h]

/-- R360: power good on a device that had started. -/
theorem powerGood_restarts (h : s.dev.stage ≠ 0) :
    ∃ u, exec .powerGood s = .next u ∧ u.dev.stage = 1 ∧ u.dev.rollback = s.dev.rollback
      ∧ u.cores = State.reset.cores ∧ u.home = State.reset.home ∧ u.parts = State.reset.parts := by
  refine ⟨({ State.reset with
    script := s.script, eager := s.eager, fresh := s.fresh
    dev := { Device.reset with rollback := s.dev.rollback } } : State).modDev (Device.atStage 1), ?_,
    Device.stage_atStage 1 _, rfl, rfl, rfl, rfl⟩
  show execPowerGood s = _
  rw [execPowerGood, if_neg h]

/-- R360 to R362, R367: the image of KIND 1. -/
theorem firmwareFetch (hdr body : List Byte) (hh : s.dev.halted = false) (hs : s.dev.stage = 1)
    (hn : look s.dev.running 1 = none) :
    let r := imageMiss 1 ((look s.dev.rollback 1).getD 0) hdr body
    ∃ u, exec (.imageFetch 1 hdr body) s = .next u ∧ if r = 0 then
        u.dev.stage = 2 ∧ look u.dev.running 1 = some (hdrField hdr 8 4)
        ∧ (∀ m, s.dev.meas.head? = some m → u.dev.meas.head? = some (Config.shake256 (bytes64 m ++ (hdr.drop 24).take 64)))
      else u.dev.missed = s.dev.missed ++ [(1, r)] ∧ u.cores = s.cores
        ∧ (u.dev.halted = true ↔ 3 ≤ (s.dev.missed.filter fun x => x.1 == 1).length) := by
  intro r
  by_cases hr : r = 0
  · refine ⟨_, execImageFetch_firmware hh hs hn hr, ?_⟩
    rw [if_pos hr]
    refine ⟨Device.stage_atStage 2 _, look_put .., fun m hm => ?_⟩
    exact (head?_changeAt_zero s.dev.meas _).trans (by rw [hm]; rfl)
  · obtain ⟨hcores, -, hmissed, hhalted⟩ := s.imageMissed_spec 1 r hh
    refine ⟨_, execImageFetch_misses hh (.inl ⟨rfl, hs⟩) hn rfl hr, ?_⟩
    rw [if_neg hr]
    exact ⟨hmissed, hcores, hhalted⟩

/-- R360 to R362: the image of KIND 4, after that of KIND 3. -/
theorem loaderFetch (hdr body : List Byte) (hh : s.dev.halted = false) (hs : s.dev.stage = 3)
    (h3 : look s.dev.running 3 ≠ none) (hn : look s.dev.running 4 = none) :
    let r := imageMiss 4 ((look s.dev.rollback 4).getD 0) hdr body
    ∃ u, exec (.imageFetch 4 hdr body) s = .next u ∧ u.cores = s.cores ∧ u.home = s.home ∧ if r = 0 then
        u.dev.stage = 4 ∧ look u.dev.running 4 = some (hdrField hdr 8 4)
      else u.dev.missed = s.dev.missed ++ [(4, r)]
        ∧ (u.dev.halted = true ↔ 3 ≤ (s.dev.missed.filter fun x => x.1 == 4).length) := by
  intro r
  by_cases hr : r = 0
  · refine ⟨_, execImageFetch_loader hh hs h3 hn hr, rfl, rfl, ?_⟩
    rw [if_pos hr]
    exact ⟨Device.stage_atStage 4 _, look_put ..⟩
  · obtain ⟨hcores, hhome, hmissed, hhalted⟩ := s.imageMissed_spec 4 r hh
    refine ⟨_, execImageFetch_misses hh (.inr ⟨rfl, hs⟩) hn rfl hr, hcores, hhome, ?_⟩
    rw [if_neg hr]
    exact ⟨hmissed, hhalted⟩

/-- R363: self-test leaves every scratchpad zero and no word of it lost. -/
theorem selfTest_clears (bad : List DevUnit) (hh : s.dev.halted = false) (hs : s.dev.stage = 2) (ht : s.dev.tested = false) :
    ∃ u, exec (.selfTest bad) s = .next u ∧ u.dev.tested = true ∧ u.dev.defects = s.dev.defects ++ bad
      ∧ ∀ c, (u.coreAt c).spad = [] ∧ (u.coreAt c).lost = [] := by
  have hgo : ¬ (s.dev.halted || s.dev.stage ≠ 2 || s.dev.tested) = true := by simp [hh, hs, ht]
  obtain ⟨hcores, htested, hdefects⟩ := (s.selfTested bad).stage2_keeps
  refine ⟨(s.selfTested bad).stage2, if_neg hgo, htested, hdefects, fun c => ?_⟩
  rw [State.coreAt_congr hcores]
  exact s.selfTested_spad bad c

/-- R28: ENGMAP of an idle core. -/
theorem engmap_written {c : Nat} (hc : c < 320) (hs : 4 ≤ s.dev.stage) (hh : s.dev.halted = false)
    (hrun : (s.coreAt c).run = .idle) (hspawn : (s.coreAt c).spawnAt = none) :
    ∃ u, exec (.engmapWrite c (s.engmapDue c)) s = .next u ∧ (u.coreAt c).engmap = s.engmapDue c
      ∧ (u.coreAt c).ctx = (s.coreAt c).ctx ∧ ∀ j, j ≠ c → u.coreAt j = s.coreAt j := by
  have hgo : ¬ (decide (s.dev.stage < 4) || s.dev.halted || (s.coreAt c).run ≠ .idle || (s.coreAt c).spawnAt.isSome
      || s.engmapDue c ≠ s.engmapDue c) = true := by
    simp [hh, hrun, hspawn]; omega
  refine ⟨_, if_neg hgo, ?_⟩
  have hu : ∀ u : State, u.cores = (s.modAt c fun k => { k with engmap := s.engmapDue c }).cores →
      (u.coreAt c).engmap = s.engmapDue c ∧ (u.coreAt c).ctx = (s.coreAt c).ctx ∧ ∀ j, j ≠ c → u.coreAt j = s.coreAt j := by
    intro u h
    refine ⟨?_, ?_, fun j hj => ?_⟩
    · rw [State.coreAt_congr h, State.modAt_coreAt_self _ _ hc]
    · rw [State.coreAt_congr h, State.modAt_coreAt_self _ _ hc]
    · rw [State.coreAt_congr h, State.modAt_coreAt_ne _ _ hj]
  split <;> exact hu _ rfl

/-- R365, R366: reduced service. -/
theorem reducedService_opens (hh : s.dev.halted = false) (hs : s.dev.stage = 4) (hn : s.serving = false)
    (he : ∀ c, c < 320 → (s.coreAt c).engmap = s.engmapDue c) :
    ∃ u, exec .reducedService s = .next u ∧ u.dev.stage = 4 ∧ u.dev.status.getLsbD 1 = true ∧ u.cyc = 0
      ∧ u.cores = s.cores := by
  have hall : ((upTo 320).all fun c => (s.coreAt c).engmap == s.engmapDue c) = true := by
    simpa [upTo] using he
  have hx : execReducedService s = .next ({ s with cyc := 0, ticked := 0 }.modDev (Device.set 2)) := by
    simp [execReducedService, hh, hs, hn, hall]
  refine ⟨_, hx, ?_, ?_, rfl, rfl⟩
  · refine Eq.trans (Device.stage_congr fun j h1 h2 => ?_) hs
    refine (Device.getLsbD_set 2 s.dev j).trans ?_
    rw [getLsbD_two (by omega), beq_false_of_ne (by omega), Bool.or_false]
  · exact (Device.getLsbD_set 2 s.dev 1).trans (Bool.or_true _)

/-- R366: full service. -/
theorem fullService_begins (trained : List Nat) (hh : s.dev.halted = false) (hr : s.reduced = true)
    (he : s.allEnded = true) :
    ∃ u, exec (.fullService trained) s = .next u ∧ u.dev.stage = 5 ∧ u.dev.status.getLsbD 0 = true
      ∧ u.dev.status.getLsbD 1 = false ∧ u.cores = s.cores
      ∧ ∀ i, i < 12 → i ∈ trained → DevUnit.stack i ∉ s.dev.defects → u.dev.status.getLsbD (4 + i) = true := by
  obtain ⟨d, hx, hbits⟩ := execFullService_begins trained hh hr he
  refine ⟨_, hx, ?_, ?_, ?_, rfl, fun i hi ht hd => ?_⟩
  · refine Eq.trans (Device.stage_congr fun j h1 h2 => ?_) (Device.stage_atStage 5 s.dev)
    refine (hbits j (by omega) (by omega)).trans ?_
    have hnone : (((upTo 12).filter fun i => trained.contains i && !s.dev.defects.contains (.stack i)).any
        fun i => 4 + i == j) = false := by
      simp only [List.any_eq_false, List.mem_filter, upTo, List.mem_range, beq_iff_eq]
      omega
    rw [Device.getLsbD_fullService _ _ (by omega), hnone, beq_false_of_ne (by omega : j ≠ 0), Bool.or_self, Bool.or_false,
      bne_iff_ne.mpr (by omega : j ≠ 1), Bool.and_true]
  · rw [hbits 0 (by decide) (by decide), Device.getLsbD_fullService _ _ (by decide)]
    simp
  · rw [hbits 1 (by decide) (by decide), Device.getLsbD_fullService _ _ (by decide)]
    simp
  · rw [hbits (4 + i) (by omega) (by omega), Device.getLsbD_fullService _ _ (by omega)]
    have hmem : i ∈ (upTo 12).filter fun i => trained.contains i && !s.dev.defects.contains (.stack i) := by
      simp [upTo, hi, ht, hd]
    have hany : (((upTo 12).filter fun i => trained.contains i && !s.dev.defects.contains (.stack i)).any
        fun k => 4 + k == 4 + i) = true := List.any_eq_true.mpr ⟨i, hmem, beq_self_eq_true _⟩
    rw [hany, Bool.or_true, Bool.or_true, bne_iff_ne.mpr (by omega : 4 + i ≠ 1), Bool.and_true]

/-- R362: a counter of the secure element. -/
theorem antiRollback_raises (kind v w : Nat) (sig : List Byte) (hw : look s.dev.running kind = some w)
    (hs : s.serving = true) (hv : (look s.dev.rollback kind).getD 0 < v) (hle : v ≤ w) :
    Completes (.antiRollbackRaise kind v sig) s (if Config.adminSigned kind v sig then
      { s with dev := { s.dev with rollback := put s.dev.rollback kind v } } else s) := by
  show execAntiRollbackRaise kind v sig s = _
  by_cases hsig : Config.adminSigned kind v sig = true <;>
    simp [execAntiRollbackRaise, hw, hs, hv, hle, hsig, State.modDev]

/-- R368: the report that the physical function asks for. -/
theorem attestation_reports (nonce : List Byte) (hs : s.serving = true) (hn : nonce.length = 32) :
    ∃ u b, exec (.attestationReport none nonce) s = .next u
      ∧ b = nonce ++ bytesOf 16 Config.serial ++ (s.dev.meas.take 8).flatMap bytes64 ++ List.replicate 64 0
          ++ (List.range 8).map (fun i => s.dev.status.extractLsb' (8 * i) 8)
      ∧ u = { s with dev := { s.dev with attests := s.dev.attests ++ [b ++ bytesOf 114 (Config.identitySign b)] } } := by
  refine ⟨_, _, ?_, rfl, rfl⟩
  show execAttestationReport none nonce s = _
  rw [execAttestationReport, if_neg (by simp [hs, hn])]
  rfl

end

/-- Settles O54: each step of the boot by what its meaning does where its conditions hold. -/
theorem deviceSteps : Obligations.DeviceSteps := by
  unfold Obligations.DeviceSteps
  intro s d
  exact ⟨powerGood_starts s, powerGood_restarts s, firmwareFetch s, loaderFetch s, selfTest_clears s,
    fun c => engmap_written s, reducedService_opens s, fullService_begins s,
    fun kind v w sig => antiRollback_raises s kind v w sig, attestation_reports s⟩

end Sys2Proof.Claims
end

section
/-! What reset leaves, and a context at task entry (R28, R41, R43, R85, R156, R203, R233, R336, R364, R367, R373). -/

namespace Sys2Proof.Machine

open Sys2Proof

theorem State.reset_coreAt (c : Nat) : State.reset.coreAt c = Core.reset := by
  unfold coreAt
  split
  · exact Vector.getElem_replicate ..
  · rfl

theorem State.reset_part {p : Nat} (h : p < 12) : State.reset.part p = Part.reset := by
  rw [part, dif_pos h]
  exact Vector.getElem_replicate ..

/-! ## The registers of a core after reset -/

theorem Core.reset_S (r : Reg) : Core.reset.S r = 0 := by
  unfold S
  split
  · rfl
  · exact File.get_all 0 r

theorem Core.reset_C (r : CReg) : Core.reset.C r = 0 := File.get_all 0 r

theorem Core.reset_V (r : Reg) (i : Nat) : (Core.reset.V r).lane i = 0 := by
  have h : Core.reset.V r = File.all 8 0 := File.get_all _ r
  rw [h]
  exact Vector.getElem_replicate ..

theorem Core.reset_M {r : MReg} (h : r ≠ 0) : Core.reset.M r = 0 := by
  have hm : Core.reset.ctx.regs.m = (File.all 4 0).put 0 (BitVec.allOnes 256) := rfl
  rw [M, if_neg h, hm, File.get_put_ne _ _ h, File.get_all]

end Sys2Proof.Machine

namespace Sys2Proof.Claims

open Sys2Proof Sys2Proof.Machine

/-- The package after reset. -/
theorem reset_device :
    let s := Sys2Proof.core.reset
    s = State.reset ∧ s.dev.status = 0 ∧ s.dev.meas = List.replicate 8 0 ∧ s.dev.plim = 2800 ∧ s.home.mem = []
      ∧ s.home.dirty = [] ∧ s.home.tags = []
      ∧ (∀ c, c < 320 → (s.coreAt c).engmap = 0x2A ∧ (s.coreAt c).run = .idle ∧ (s.coreAt c).spad = [])
      ∧ ∀ p, p < 12 → (s.part p).bound = false := by
  refine ⟨rfl, rfl, rfl, rfl, rfl, rfl, rfl, fun c _ => ?_, fun p hp => ?_⟩
  · have h : State.coreAt Sys2Proof.core.reset c = Core.reset := State.reset_coreAt c
    exact h ▸ ⟨rfl, rfl, rfl⟩
  · have h : State.part Sys2Proof.core.reset p = Part.reset := State.reset_part hp
    exact h ▸ rfl

/-- Settles O1: every file of a core holds one value after reset, but for M0. -/
theorem resetAndTaskEntry : Obligations.ResetAndTaskEntry := by
  unfold Obligations.ResetAndTaskEntry
  refine ⟨reset_device, Core.reset_S, Core.reset_C, Core.reset_V, rfl, fun r => Core.reset_M, fun r => File.get_all _ r,
    fun r => ?_, fun r => ?_, fun r => File.get_all _ r, rfl, rfl, rfl, rfl, rfl, rfl, rfl, rfl, rfl, rfl, fun t => ?_⟩
  · rw [show Core.reset.ctx.regs.z.get r = Tile.reset from File.get_all _ r]
    exact ⟨rfl, rfl⟩
  · rw [show Core.reset.ctx.regs.l.get r = Latch.reset from File.get_all _ r]
    rfl
  · rw [show Core.reset.ctx.toks.get t = default from File.get_all _ t]
    exact ⟨rfl, rfl⟩

end Sys2Proof.Claims
end

section
/-! How a core comes to its bundle: what its results that land leave alone, and the tests of the bundle boundary (R9, R117,
R206). -/

namespace Sys2Proof.Machine

open Sys2Proof

/-! ## Results on their way (R9, R213) -/

/-- `d` is `c` but for registers, sticky flags, marks and results on their way: what landing and unshelving change. -/
def Core.LandsTo (c d : Core) : Prop :=
  ∃ g f i m n h, d = { c with ctx := { c.ctx with
    regs := g, sys := { c.ctx.sys with flags := f }
    pipe := { c.ctx.pipe with inflight := i, spend := m, vpend := n, shadow := h } } }

theorem Core.LandsTo.trans {c d e : Core} (h : c.LandsTo d) (k : d.LandsTo e) : c.LandsTo e := by
  obtain ⟨_, _, _, _, _, _, rfl⟩ := h
  obtain ⟨g, f, i, m, n, h, rfl⟩ := k
  exact ⟨g, f, i, m, n, h, rfl⟩

theorem Core.landsTo_land (c : Core) (r : Result) : c.LandsTo { c with ctx := c.ctx.land r } := by
  cases hm : r.mark with
  | false => exact ⟨_, _, _, _, _, _, by rw [Ctx.land, hm]; rfl⟩
  | true =>
    cases hl : r.land <;> exact ⟨_, _, _, _, _, _, by rw [Ctx.land, hm, hl]; rfl⟩

theorem Core.landsTo_foldl_land (l : List Result) (c : Core) : c.LandsTo { c with ctx := l.foldl Ctx.land c.ctx } := by
  induction l generalizing c with
  | nil => exact ⟨_, _, _, _, _, _, rfl⟩
  | cons r l ih => exact (c.landsTo_land r).trans (ih { c with ctx := c.ctx.land r })

theorem Core.landsTo_landDue (c : Core) : c.LandsTo c.landDue := by
  refine .trans ⟨_, _, _, _, _, _, rfl⟩ (Core.landsTo_foldl_land _ { c with ctx := { c.ctx with
    pipe := { c.ctx.pipe with inflight := c.ctx.pipe.inflight.filter fun r => !(decide (r.due ≤ c.now) && true) } } })

theorem Core.landsTo_unshelve (c : Core) : c.LandsTo c.unshelve := ⟨_, _, _, _, _, _, rfl⟩

/-! ## The turn of a core (R117) -/

/-- A core that takes its step of the cycle. -/
def Core.takesTurn (k : Core) : Core :=
  { k with issued := true, ctx := { k.ctx with pipe := { k.ctx.pipe with trapped := false, park := .none } } }

/-- The state in which core `c` comes to its bundle boundary at `s`. -/
def State.atBoundary (s : State) (c : Nat) : State :=
  ({ s.focus c with slot := 0, ord := 0, adv := 0 } : State).modCore Core.takesTurn

/-- The state in which core `c` tries its bundle at `s`, with the results of its shadow buffer still there. -/
def State.tries (s : State) (c : Nat) : State :=
  ((s.atBoundary c).modCore fun k => k.landDue).modPipe fun p => { p with tried := s.cyc }

section
variable {s : State} {c : Nat}

theorem State.coreAt_of_cur (h : s.cur.val = c) : s.coreAt c = s.core := h ▸ s.coreAt_cur

theorem State.focus_core (hc : c < 320) : (s.focus c).core = s.coreAt c := by
  simp [focus, core, coreAt, hc]

theorem State.focus_cur (hc : c < 320) : (s.focus c).cur.val = c := by
  simp [focus, hc]

theorem State.atBoundary_core (hc : c < 320) : (s.atBoundary c).core = (s.coreAt c).takesTurn := by
  have h : ({ s.focus c with slot := 0, ord := 0, adv := 0 } : State).core = s.coreAt c := focus_core hc
  rw [atBoundary, modCore_core, h]

theorem State.atBoundary_cur (hc : c < 320) : (s.atBoundary c).cur.val = c := focus_cur hc

@[simp] theorem State.atBoundary_cyc : (s.atBoundary c).cyc = s.cyc := focus_cyc s c
@[simp] theorem State.atBoundary_home : (s.atBoundary c).home = s.home := focus_home s c
@[simp] theorem State.atBoundary_part (p : Nat) : (s.atBoundary c).part p = s.part p := by
  have h : (s.atBoundary c).parts = s.parts := focus_parts s c
  rw [part, part, h]

/-- R117: a running core that has not taken its step of the cycle comes to its bundle boundary. -/
theorem exec_issue (hc : c < 320) (hr : (s.coreAt c).run = .running) (hi : (s.coreAt c).issued = false)
    (hn : (s.coreAt c).inserted = false) : exec (.issue c) s = (s.atBoundary c).boundary := by
  show execIssue c s = _
  have h1 : ¬ (decide (320 ≤ c) || (s.coreAt c).issued) = true := by simp [hi, hc]
  simp only [execIssue, if_neg h1, hn, Bool.false_eq_true, if_false, hr, ne_eq, not_true_eq_false]
  rfl

/-- R294: whether a serialised re-execution lets a core issue rests on its partition and its task, not on its results. -/
theorem State.mayIssue_modCore {t : State} {f : Core → Core} (hp : (f t.core).pid = t.core.pid)
    (ht : (f t.core).ctx.task = t.core.ctx.task) : (t.modCore f).mayIssue = t.mayIssue := by
  have hpart : ∀ p, (t.modCore f).part p = t.part p := fun _ => rfl
  have hl : ∀ p l, (t.modCore f).launchAt p l = t.launchAt p l := fun _ _ => rfl
  unfold mayIssue
  simp only [modCore_core, hp, ht, hl, hpart, modCore_cur]
  split
  · next l _ =>
    congr 2
    funext e
    by_cases he : e = t.cur.val
    · simp [he]
    · rw [modCore_other t f he]
  · rfl

theorem State.mayIssue_modPipe (t : State) (f : Pipe → Pipe) : (t.modPipe f).mayIssue = t.mayIssue :=
  mayIssue_modCore (t := t) (f := fun k => { k with ctx := { k.ctx with pipe := f k.ctx.pipe } }) rfl rfl

theorem State.mayIssue_landsTo {t : State} {f : Core → Core} (h : t.core.LandsTo (f t.core)) :
    (t.modCore f).mayIssue = t.mayIssue := by
  obtain ⟨_, _, _, _, _, _, e⟩ := h
  exact mayIssue_modCore (by rw [e]; rfl) (by rw [e])

/-- R211: a quick stop puts the results under way, but for those with a mark, behind those of the shadow buffer. -/
theorem Core.quickStop_spec (w : Nat) (k : Core) :
    (k.quickStop w).run = .stopped w none ∧ (k.quickStop w).ctx.regs = k.ctx.regs ∧ (k.quickStop w).ctx.pc = k.ctx.pc
    ∧ (k.quickStop w).ctx.pipe.shadow = k.ctx.pipe.shadow
      ++ (k.ctx.pipe.inflight.filter fun r => !r.mark).map (fun r => { r with due := r.due - k.lcyc }) := by
  simp only [quickStop, shelve, Ctx.parked, and_self]

/-! ## A clear boundary (R206) -/

/-- A core that tries its bundle at cycle `t`, before any result lands. -/
def Core.triesAt (t : Nat) (k : Core) : Core :=
  { k.takesTurn with ctx := { k.takesTurn.ctx with pipe := { k.takesTurn.ctx.pipe with tried := t } } }

/-- What a core has when it tries its bundle. -/
theorem State.tries_core (hc : c < 320) : ((s.coreAt c).triesAt s.cyc).LandsTo (s.tries c).core := by
  obtain ⟨g, f, i, m, n, h, e⟩ := (s.coreAt c).takesTurn.landsTo_landDue
  exact ⟨g, f, i, m, n, h, by rw [tries, modPipe_core, modCore_core, atBoundary_core hc, e]; rfl⟩

theorem State.tries_cur (hc : c < 320) : (s.tries c).cur.val = c := atBoundary_cur hc
@[simp] theorem State.tries_home : (s.tries c).home = s.home := atBoundary_home

/-- R206: with no cause, no stop and no limit at the boundary, a core that may issue goes on to its bundle. -/
theorem State.boundary_clear (hc : c < 320) (ha : (s.coreAt c).ctx.pipe.async = [])
    (hs : (s.coreAt c).ctx.pipe.stopReq = none) (hp : (s.part (s.coreAt c).pid).power = 0)
    (hm : (s.tries c).mayIssue = true) : (s.atBoundary c).boundary = (s.tries c).nextBundle := by
  have hm' : ((s.atBoundary c).modCore fun k => k.landDue).mayIssue = true := by
    rw [← hm, tries, mayIssue_modPipe]
  have hpid : (s.coreAt c).takesTurn.pid = (s.coreAt c).pid := rfl
  have hasync : (s.coreAt c).takesTurn.ctx.pipe.async = [] := ha
  have hstop : (s.coreAt c).takesTurn.ctx.pipe.stopReq = none := hs
  simp only [boundary, atBoundary_core hc, hasync, hstop, ite_self, hpid, atBoundary_part, hp, gt_iff_lt, Nat.lt_irrefl,
    if_false, hm', Bool.not_true, Bool.false_eq_true, modCore_cyc, atBoundary_cyc]
  rfl

/-- R206: no RETIRE waits and no answer and no DRAIN is outstanding. -/
theorem State.nextBundle_clear {t : State} (hr : t.core.ctx.pipe.retiring = false) (hs : t.core.ctx.pipe.svc = none)
    (hd : t.core.ctx.pipe.drain = none) : t.nextBundle = t.atBundle := by
  simp [nextBundle, hr, hs, hd]

/-- R214: nothing is pending at a safe point. -/
theorem State.safePoint_none {t : State} (hr : t.core.ctx.task.revoked = false) (hs : t.core.ctx.pipe.safeReq = none)
    (l : Live) : t.safePoint l = none := by
  simp [safePoint, hr, hs]

section
variable {t r : State} {ws : List Word} (hr : t.core.ctx.task.revoked = false) (hs : t.core.ctx.pipe.safeReq = none)
  (ht : (t.modCore fun k => k.unshelve.landDue) = r)
include hr hs ht

/-- R16, R53: the end of the fetch of a bundle. -/
theorem State.atBundle_fetchEnd {e : FetchEnd} (hf : r.fetch = ⟨ws, some e, false⟩) :
    t.atBundle = .next (r.takeFetchEnd e) := by
  simp [atBundle, ht, hf, safePoint_none hr hs]

/-- R25: a bundle that does not decode. -/
theorem State.atBundle_refused (hf : r.fetch = ⟨ws, none, false⟩) {e : Refused}
    (hd : decodeBundle t.core.ctx.sys.env ws = .error e) :
    t.atBundle = .next (r.takeTrap (if e.bundle then 0x02 else 0x01) e.info t.core.ctx.pc) := by
  simp [atBundle, ht, hf, safePoint_none hr hs, hd]

/-- R15: a bundle that decodes. -/
theorem State.atBundle_decoded (hf : r.fetch = ⟨ws, none, false⟩) {l : List (Nat × Instr)}
    (hd : decodeBundle t.core.ctx.sys.env ws = .ok l) :
    t.atBundle = .next ((r.modCtx fun x => { x with npc := x.pc + BitVec.ofNat 48 (4 * ws.length) }).bundle t.core
      t.core.ctx.sys.env (placed ws l) ws) := by
  simp [atBundle, ht, hf, safePoint_none hr hs, hd]

end

end

end Sys2Proof.Machine

namespace Sys2Proof.Claims

open Sys2Proof Sys2Proof.Machine

section
variable {s : State} {c : Nat}

/-- The state that `atTry` names is that of the try with the shadow results on their way again (R213). -/
theorem tries_unshelved : ((s.tries c).modCore fun k => k.unshelve.landDue) = atTry s c := rfl

theorem atTry_core (hc : c < 320) : ((s.coreAt c).triesAt s.cyc).LandsTo (atTry s c).core := by
  rw [← tries_unshelved, State.modCore_core]
  exact ((State.tries_core hc).trans (Core.landsTo_unshelve _)).trans (Core.landsTo_landDue _)

theorem atTry_cur (hc : c < 320) : (atTry s c).cur.val = c := State.tries_cur hc
theorem atTry_home : (atTry s c).home = s.home := by
  rw [← tries_unshelved]
  exact State.tries_home

/-- A core whose boundary is clear tries its bundle, with nothing pending at a safe point. -/
theorem exec_issue_clear (h : BoundaryClear s c) :
    exec (.issue c) s = (s.tries c).atBundle ∧ (s.tries c).core.ctx.task.revoked = false
    ∧ (s.tries c).core.ctx.pipe.safeReq = none := by
  obtain ⟨hc, hrun, hissued, hinserted, hasync, hstop, hretiring, hsvc, hdrain, hsafe, hrevoked, hpower, hmay⟩ := h
  have hm : (s.tries c).mayIssue = true := by
    rw [← hmay, ← tries_unshelved]
    exact (State.mayIssue_landsTo (t := s.tries c) (f := fun k => k.unshelve.landDue)
      ((Core.landsTo_unshelve _).trans (Core.landsTo_landDue _))).symm
  obtain ⟨_, _, _, _, _, _, hk⟩ := State.tries_core (s := s) hc
  refine ⟨?_, by rw [hk]; exact hrevoked, by rw [hk]; exact hsafe⟩
  rw [exec_issue hc hrun hissued hinserted, State.boundary_clear hc hasync hstop hpower hm]
  exact State.nextBundle_clear (by rw [hk]; exact hretiring) (by rw [hk]; exact hsvc) (by rw [hk]; exact hdrain)

/-- R207: a handled cause is taken in the handler, where the context has one and is not privileged. -/
theorem trapTaken {u : State} {code : Byte} {info : DWord} {pc : BitVec 48} {n : Nat}
    (hu : ((s.coreAt c).triesAt n).LandsTo u.core) (hcur : u.cur.val = c) (hrun : (s.coreAt c).run = .running)
    (hp : (s.coreAt c).ctx.sys.priv = false) (hv : (s.coreAt c).ctx.sys.trapvec.getLsbD 48 = true) :
    TrapTaken s (u.takeTrap code info pc) c code info pc := by
  obtain ⟨_, _, _, _, _, _, hk⟩ := hu
  have hpriv : u.core.ctx.sys.priv = false := by rw [hk]; exact hp
  have hvec : u.core.ctx.sys.trapvec = (s.coreAt c).ctx.sys.trapvec := by rw [hk]; rfl
  have hx : u.takeTrap code info pc = u.modCtx (Ctx.trapEntry code info pc) := by
    simp only [State.takeTrap, hpriv, hvec, hv, Bool.false_eq_true, if_false, Bool.not_true]
  have hcore : (u.takeTrap code info pc).coreAt c = { u.core with ctx := u.core.ctx.trapEntry code info pc } := by
    rw [hx, State.coreAt_of_cur (s := u.modCtx _) hcur, State.modCtx_core]
  have hcause : BitVec.ofNat 64 (code.toNat + u.core.ctx.sys.priv.toNat * 2 ^ 8) = code.setWidth 64 := by
    rw [hpriv]; exact BitVec.ofNat_toNat 64 code
  unfold TrapTaken
  rw [hcore]
  refine ⟨?_, hcause, rfl, rfl, ?_, ?_⟩
  · rw [← hvec]; rfl
  · show (u.core.ctx.sys.mode ||| 1).getLsbD 0 = true
    rw [BitVec.getLsbD_or]; exact Bool.or_true _
  · rw [hk]; exact hrun

end

section
variable {s : State} {c : Nat}

/-! ## What falls on the boundary, in order -/

section
variable (hc : c < 320) (hrun : (s.coreAt c).run = .running) (hi : (s.coreAt c).issued = false)
  (hn : (s.coreAt c).inserted = false) (hacc : (s.coreAt c).ctx.pipe.accepted = false)
include hc hrun hi hn hacc

/-- R207, R209: a pending asynchronous cause ends the task. -/
theorem asyncCause_ends {code : Byte} {info : DWord} {rest : List (Byte × DWord)}
    (ha : (s.coreAt c).ctx.pipe.async = (code, info) :: rest) :
    ∃ u w, exec (.issue c) s = .next u ∧ (u.coreAt c).run = .ending code w
      ∧ (u.coreAt c).ctx.regs = (s.coreAt c).ctx.regs ∧ u.home = s.home := by
  have hasync : (s.coreAt c).takesTurn.ctx.pipe.async = (code, info) :: rest := ha
  have haccepted : (s.coreAt c).takesTurn.ctx.pipe.accepted = false := hacc
  let t := (s.atBoundary c).modPipe fun p => { p with async := rest }
  let u := t.takeTerminal code true (s.coreAt c).takesTurn.ctx.pc info
  have hx : exec (.issue c) s = .next u := by
    rw [exec_issue hc hrun hi hn]
    simp only [State.boundary, State.atBoundary_core hc, haccepted, Bool.false_eq_true, if_false, hasync]
    rfl
  obtain ⟨hend, hregs, -, -, -, hstores⟩ := t.takeTerminal_spec code true (s.coreAt c).takesTurn.ctx.pc info
  have hcore : u.coreAt c = u.core := State.coreAt_of_cur (State.atBoundary_cur hc)
  refine ⟨u, _, hx, by rw [hcore]; exact hend, ?_, hstores.home.trans State.atBoundary_home⟩
  rw [hcore, hregs, State.modPipe_core, State.atBoundary_core hc]
  rfl

/-- R211, R212: a quick stop shelves the results under way. -/
theorem quickStop_shelves {w : Nat} (ha : (s.coreAt c).ctx.pipe.async = [])
    (hw : (s.coreAt c).ctx.pipe.stopReq = some w) :
    ∃ u, exec (.issue c) s = .next u ∧ (u.coreAt c).run = .stopped w none
      ∧ (u.coreAt c).ctx.regs = (s.coreAt c).ctx.regs ∧ (u.coreAt c).ctx.pc = (s.coreAt c).ctx.pc
      ∧ (u.coreAt c).ctx.pipe.shadow = (s.coreAt c).ctx.pipe.shadow
        ++ ((s.coreAt c).ctx.pipe.inflight.filter fun r => !r.mark).map (fun r => { r with due := r.due - (s.coreAt c).lcyc })
      ∧ u.home = s.home := by
  have hasync : (s.coreAt c).takesTurn.ctx.pipe.async = [] := ha
  have hstop : (s.coreAt c).takesTurn.ctx.pipe.stopReq = some w := hw
  have haccepted : (s.coreAt c).takesTurn.ctx.pipe.accepted = false := hacc
  let u := (s.atBoundary c).modCore (Core.quickStop w)
  have hx : exec (.issue c) s = .next u := by
    rw [exec_issue hc hrun hi hn]
    simp only [State.boundary, State.atBoundary_core hc, haccepted, Bool.false_eq_true, if_false, hasync, hstop]
    rfl
  have hcore : u.coreAt c = (s.coreAt c).takesTurn.quickStop w := by
    rw [State.coreAt_of_cur (s := u) (State.atBoundary_cur hc), State.modCore_core, State.atBoundary_core hc]
  refine ⟨u, hx, ?_⟩
  rw [hcore]
  obtain ⟨hstopped, hregs, hpc, hshadow⟩ := (s.coreAt c).takesTurn.quickStop_spec w
  exact ⟨hstopped, hregs, hpc, hshadow, State.atBoundary_home⟩

end

section
variable (h : BoundaryClear s c) (hp : (s.coreAt c).ctx.sys.priv = false)
  (hv : (s.coreAt c).ctx.sys.trapvec.getLsbD 48 = true)
include h hp hv

/-- R207: a trap at the bundle that a core with a clear boundary tries. -/
theorem tryTrap_taken {code : Byte} {info : DWord} {pc : BitVec 48} (hpc : pc = (s.coreAt c).ctx.pc)
    (hx : (s.tries c).atBundle = .next ((atTry s c).takeTrap code info pc)) :
    ∃ u, exec (.issue c) s = .next u ∧ TrapTaken s u c code info (s.coreAt c).ctx.pc ∧ u.home = s.home := by
  obtain ⟨hc, hrun, -⟩ := id h
  refine ⟨_, (exec_issue_clear h).1.trans hx, ?_, ?_⟩
  · rw [← hpc]
    exact trapTaken (atTry_core hc) (atTry_cur hc) hrun hp hv
  · exact (sameStores_takeTrap _ code info pc).home.trans atTry_home

/-- R53: the fetch of the bundle ends in a trap. -/
theorem fetchTrap_taken {ws : List Word} {code : Byte} {info : DWord}
    (hf : (atTry s c).fetch = ⟨ws, some (.trap code info), false⟩) :
    ∃ u, exec (.issue c) s = .next u ∧ TrapTaken s u c code info (s.coreAt c).ctx.pc ∧ u.home = s.home := by
  obtain ⟨-, hrevoked, hsafe⟩ := exec_issue_clear h
  obtain ⟨_, _, _, _, _, _, hk⟩ := atTry_core (s := s) h.1
  exact tryTrap_taken h hp hv (by rw [hk]; rfl) (State.atBundle_fetchEnd hrevoked hsafe tries_unshelved hf)

/-- R15: the PC is no multiple of 4. -/
theorem misaligned_traps (hpc : (s.coreAt c).ctx.pc.extractLsb' 0 2 ≠ 0) :
    ∃ u, exec (.issue c) s = .next u
      ∧ TrapTaken s u c 0x02 (trapInfo26 0 14 none 0 0) (s.coreAt c).ctx.pc ∧ u.home = s.home := by
  obtain ⟨_, _, _, _, _, _, hk⟩ := atTry_core (s := s) h.1
  have hpc' : (atTry s c).core.ctx.pc.extractLsb' 0 2 ≠ 0 := by rw [hk]; exact hpc
  exact fetchTrap_taken h hp hv (if_pos hpc')

/-- R53: the first word of the bundle passes the end of the code object. -/
theorem pastEnd_traps (hpc : (s.coreAt c).ctx.pc.extractLsb' 0 2 = 0)
    (hlen : (s.coreAt c).ctx.code.len < (s.coreAt c).ctx.pc.toNat + 4) :
    ∃ u, exec (.issue c) s = .next u
      ∧ TrapTaken s u c 0x03 (memInfo 0 0 0 1 (s.coreAt c).ctx.pc.toNat) (s.coreAt c).ctx.pc ∧ u.home = s.home := by
  obtain ⟨_, _, _, _, _, _, hk⟩ := atTry_core (s := s) h.1
  have hpc' : (atTry s c).core.ctx.pc = (s.coreAt c).ctx.pc := by rw [hk]; rfl
  have hcode : (atTry s c).core.ctx.code = (s.coreAt c).ctx.code := by rw [hk]; rfl
  have hf : (atTry s c).fetch = ⟨[], some (.trap 0x03 (memInfo 0 0 0 1 (s.coreAt c).ctx.pc.toNat)), false⟩ := by
    simp only [State.fetch, hpc', hpc, hcode, ne_eq, not_true_eq_false, if_false, State.fetchFrom, Nat.mul_zero,
      Nat.add_zero, gt_iff_lt, if_pos hlen]
  exact fetchTrap_taken h hp hv hf

/-- R25: the bundle does not decode. -/
theorem refusedBundle_traps {ws : List Word} {e : Refused} (hf : (atTry s c).fetch = ⟨ws, none, false⟩)
    (hd : decodeBundle (s.coreAt c).ctx.sys.env ws = .error e) :
    ∃ u, exec (.issue c) s = .next u
      ∧ TrapTaken s u c (if e.bundle then 0x02 else 0x01) e.info (s.coreAt c).ctx.pc ∧ u.home = s.home := by
  obtain ⟨-, hrevoked, hsafe⟩ := exec_issue_clear h
  obtain ⟨_, _, _, _, _, _, hk⟩ := State.tries_core (s := s) h.1
  have hd' : decodeBundle (s.tries c).core.ctx.sys.env ws = .error e := by rw [hk]; exact hd
  exact tryTrap_taken h hp hv (by rw [hk]; rfl) (State.atBundle_refused hrevoked hsafe tries_unshelved hf hd')

end

end

/-- Settles O57: the causes in the order in which the boundary tests them, and the traps of a clear one. -/
theorem boundaryCauses : Obligations.BoundaryCauses := by
  unfold Obligations.BoundaryCauses
  intro s c k y
  refine ⟨fun hc hrun hi hn hacc => ⟨fun code info rest ha => asyncCause_ends hc hrun hi hn hacc ha,
    fun w ha hw => quickStop_shelves hc hrun hi hn hacc ha hw⟩, fun h hp hv => ⟨misaligned_traps h hp hv,
    pastEnd_traps h hp hv, fun ws e => refusedBundle_traps h hp hv⟩⟩

end Sys2Proof.Claims
end

section
/-! A step that runs a bundle: each slot by its own meaning (R15, R46, R116, R117). -/

namespace Sys2Proof.Machine

open Sys2Proof

/-- A form of the instruction word has in a bundle the meaning that `exec` gives it. -/
theorem exec_eq_execSlot {i : Instr} (h : isStep i = false) (s : State) : exec i s = execSlot i s := by
  cases i <;> cases h <;> rfl

/-- Every slot of a decoded bundle holds one of its instructions. -/
theorem placed_instr {ws : List Word} {l : List (Nat × Instr)} {x : Placed} (h : x ∈ placed ws l) : ∃ y ∈ l, y.2 = x.instr := by
  obtain ⟨y, hy, rfl⟩ := List.mem_map.mp h
  exact ⟨y, hy, rfl⟩

/-- R46, R206: a bundle of which no slot stalls, waits for room, meets a token error, traps or parks performs. -/
theorem State.bundle_performs {b : State} (k : Core) {env : Env} {pl : List Placed} (ws : List Word)
    (hspawn : (pl.map fun x => x.instr).any b.spawnWaits = false)
    (hstall : ((pl.map fun x => x.instr).any fun i => b.slotStalls env i) = false)
    (hacq : (pl.map fun x => x.instr).any (b.acquireHolds env) = false) (hroom : b.noRoom (pl.map fun x => x.instr) = false)
    (htok : ∀ i ∈ pl.map fun x => x.instr, b.slotTokErr env i = none)
    (halone : ∀ x ∈ pl, x.last = false →
      (b.alone x).core.ctx.pipe.trapped = false ∧ (b.alone x).core.ctx.pipe.park = .none)
    (hretire : Instr.retire ∈ (pl.map fun x => x.instr) → b.retireWaits b.core = false) :
    b.bundle k env pl ws = b.perform pl ws := by
  have htok' : (pl.map fun x => x.instr).findSome? (fun i => b.slotTokErr env i) = none :=
    List.findSome?_eq_none_iff.mpr htok
  have htrap : ((pl.filter fun x => !x.last).map b.alone).find? (fun t => t.core.ctx.pipe.trapped) = none := by
    simp only [List.find?_eq_none, List.mem_map, List.mem_filter]
    rintro _ ⟨x, ⟨hx, hl⟩, rfl⟩
    simp [(halone x hx (by simpa using hl)).1]
  have hpark : ((pl.filter fun x => !x.last).map b.alone).filter (fun t => t.core.ctx.pipe.park != .none) = [] := by
    simp only [List.filter_eq_nil_iff, List.mem_map, List.mem_filter]
    rintro _ ⟨x, ⟨hx, hl⟩, rfl⟩
    simp [(halone x hx (by simpa using hl)).2]
  have hret : ((pl.map fun x => x.instr).contains .retire && b.retireWaits b.core) = false := by
    cases hc : (pl.map fun x => x.instr).contains Instr.retire
    · rfl
    · rw [hretire (List.contains_iff_mem.mp hc)]; rfl
  simp only [bundle, hspawn, hstall, hacq, hroom, htok', htrap, hpark, hret, Bool.false_eq_true, if_false]
  rfl

/-- R15: the context goes on at the next bundle, unless a RETIRE waits in this one. -/
theorem State.bundleEnd_pc {t : State} (h : t.core.ctx.pipe.retiring = false) : t.bundleEnd.core.ctx.pc = t.core.ctx.npc := by
  have hcore : t.bundleEnd.core = (t.modCtx fun x => if x.pipe.retiring then x else { x with pc := x.npc }).core := rfl
  rw [hcore, modCtx_core]
  simp only [h, Bool.false_eq_true, if_false]

/-- With no script and no step taken unasked, a step is that of the next core of the cycle. -/
theorem step_eq_issue {s : State} {c : Nat} (hs : s.script = []) (he : s.eager = false) (hn : s.nextCore = some c) :
    step s = exec (.issue c) s := by
  simp only [step, hs, State.unasked, he, hn, Bool.false_eq_true, if_false]

end Sys2Proof.Machine

namespace Sys2Proof.Claims

open Sys2Proof Sys2Proof.Machine

/-- A slot that is a form of the instruction word acts by its own meaning. -/
theorem slotStep_eq_execAll {x : Placed} (h : isStep x.instr = false) (s : State) : s.slotStep x = execAll [x] s := by
  unfold State.slotStep
  rw [← exec_eq_execSlot h]
  rfl

theorem foldl_slotStep {l : List Placed} (h : ∀ x ∈ l, isStep x.instr = false) (s : State) :
    l.foldl State.slotStep s = execAll l s := by
  induction l generalizing s with
  | nil => rfl
  | cons x l ih =>
    have hx := slotStep_eq_execAll (h x List.mem_cons_self) s
    have hl := ih (fun y hy => h y (List.mem_cons_of_mem x hy)) (execAll [x] s)
    exact (congrArg (l.foldl State.slotStep) hx).trans hl

/-- The slots in the order in which they act. -/
def actOrder (pl : List Placed) : List Placed :=
  pl.filter (fun x => !x.last && !x.setsRound) ++ (pl.filter Placed.setsRound ++ pl.filter Placed.last)

theorem mem_of_mem_actOrder {pl : List Placed} {x : Placed} (h : x ∈ actOrder pl) : x ∈ pl := by
  simp only [actOrder, List.mem_append, List.mem_filter] at h
  obtain h | h | h := h <;> exact h.1

/-- R117: what a bundle performs, slot by slot. -/
theorem perform_eq (b : State) {pl : List Placed} (ws : List Word) (h : ∀ x ∈ pl, isStep x.instr = false) :
    let from0 : State := { (b.countIssue pl ws).modPipe fun p => { p with
      split := b.core.splits pl ws, stalled := false, logHeld := false, park := .none, safeDone := true } with
        pre := some b.core, adv := 0 }
    b.perform pl ws = (if b.core.splits pl ws then (actOrder pl).foldl (State.splitStep ws) from0
      else execAll (actOrder pl) from0).bundleEnd := by
  intro from0
  rw [← foldl_slotStep fun x hx => h x (mem_of_mem_actOrder hx)]
  have hp : b.perform pl ws = ((actOrder pl).foldl
      (if b.core.splits pl ws then State.splitStep ws else State.slotStep) from0).bundleEnd := rfl
  rw [hp]
  by_cases hsp : b.core.splits pl ws = true
  · rw [if_pos hsp, if_pos hsp]
  · rw [if_neg hsp, if_neg hsp]

/-- Settles O56: a clear boundary leads to the bundle, which performs, slot by slot. -/
theorem stepRunsBundle : Obligations.StepRunsBundle := by
  unfold Obligations.StepRunsBundle
  intro s c ws l r env b pl is h hf hd hslots hspawn hstall hacq hroom htok halone hretire order from0 done t
  obtain ⟨hx, hrevoked, hsafe⟩ := exec_issue_clear h
  obtain ⟨_, _, _, _, _, _, hk⟩ := State.tries_core (s := s) h.1
  have henv : (s.tries c).core.ctx.sys.env = env := by rw [hk]; rfl
  have hpl : ∀ x ∈ pl, isStep x.instr = false := by
    intro x hx
    obtain ⟨y, hy, he⟩ := placed_instr hx
    rw [← he]
    exact hslots y hy
  have hrun : exec (.issue c) s = .next t := by
    rw [hx, State.atBundle_decoded hrevoked hsafe tries_unshelved hf (henv ▸ hd), henv,
      State.bundle_performs _ ws hspawn hstall hacq hroom htok halone hretire, perform_eq _ ws hpl]
    rfl
  exact ⟨hrun, fun hs he hn => (step_eq_issue hs he hn).trans hrun, State.bundleEnd_pc⟩

end Sys2Proof.Claims
end
